-- ==== Sys2Proof/Word.lean ====
section
/-! DEFINITION. The bit-vector types of the CX214's links and ring (R182, R196). -/

namespace Sys2Proof

/-- One byte of a link frame or ring frame (R182, R196). -/
abbrev Byte := BitVec 8

/-- The 16 output or input bits of one ring slot (R27), and a CRC-16. -/
abbrev Word16 := BitVec 16

end Sys2Proof
end

