-- ==== Sys2Proof/Config.lean ====
section
/-! DEFINITION. What no rule of the spec fixes: the free values, as constants with no body, and the
limits of the 48-bit counts. -/

namespace Sys2Proof.Config

/-- The greatest value of the 48-bit counts T and U (Conventions, R12). -/
def max48 : Nat := 2 ^ 48 - 1

/-- The sample of current channel `channel` in the `n`-th scan for which no CURRENT_SCAN command
brought samples: the level of an analogue input is the world's, so it is free (log entry 4). -/
opaque adcSample : (n channel : Nat) → BitVec 12

/-- What a field of `width` bytes carries for a value that the field cannot hold: the spec states
no encoding for it, so it is free (log entry 5). -/
opaque outOfField : (width : Nat) → (value : Int) → Nat

end Sys2Proof.Config
end

