-- ==== Sys2Proof/Syntax.lean ====
section
/-! DEFINITION. The commands of the CX214: one constructor of `Instr` for each row of
spec/opcode_table.json, with the operands the rules give the order or the event. -/

namespace Sys2Proof

/-- A Station Port (Conventions, Requesters and holders). -/
inductive Station where
  | sta | stb
  deriving DecidableEq, Repr

/-- The three ports, by the identity of the master on them. -/
inductive Port where
  | sta | stb | line
  deriving DecidableEq, Repr

/-- Element kinds, in the order of R50. -/
inductive Kind where
  | none | chute | sensor | drive
  deriving DecidableEq, Repr

/-- Sensor modes, in the order of R52. -/
inductive Mode where
  | carrier | article | attached
  deriving DecidableEq, Repr

/-- Ring roles. -/
inductive RingRole where
  | relay | origin
  deriving DecidableEq, Repr

/-- The two point spaces that Read Points names (R49). -/
inductive Space where
  | input | output
  deriving DecidableEq, Repr

/-- The level found on a Station Port's TX pin at the end of a full reset (R183). -/
inductive Strap where
  | heldLow | leftOpen | heldHigh
  deriving DecidableEq, Repr

/-- The input pins that a full reset reads: the two bit-rate straps (R183), the Machine Stop input
(R100; `true` is asserted) and the encoder channels (R11). -/
structure ResetPins where
  strapA      : Strap
  strapB      : Strap
  machineStop : Bool
  encA        : Bool
  encB        : Bool
  deriving DecidableEq, Repr

/-- One slot of a ring frame: 16 output bits and 16 input bits (R27). -/
structure Slot where
  out : Word16
  inp : Word16
  deriving DecidableEq, Repr

/-- A ring frame as received or sent: header, slots and CRC (R27, R196). -/
structure RingFrame where
  count : Byte
  seq   : Byte
  slots : List Slot
  crc   : Word16
  deriving DecidableEq, Repr

/-- What the envelope of a link frame carries: KIND, TAG and body (R182). -/
structure LinkFrame where
  kind : Byte
  tag  : Byte
  body : List Byte
  deriving DecidableEq, Repr

/-- The complete geometry that Set Geometry carries (R3). -/
structure GeometryOrder where
  carriers : Nat
  pitch    : Nat
  home     : Nat
  eye      : Nat
  revAllow : Nat
  homeTol  : Nat
  pitchTol : Nat
  vMin     : Nat
  smooth   : Nat
  setup    : Nat
  deriving DecidableEq, Repr

/-- What Order Proof carries (R88). -/
structure ProofOrder where
  element  : Nat
  k        : Nat
  tLim     : Nat
  notice   : Bool
  reverse  : Bool
  articles : List Nat
  deriving DecidableEq, Repr

/-- The commands: the orders with the port and TAG they arrive with, the link events, the field
events, and the events of travel and time. A context, channel or entry number of an event is
bounded by its type; the fields of an order are as wide as its form (see `WellFormed`). -/
inductive Instr where
  | powerOnReset (pins : ResetPins)
  | resetLineReset (pins : ResetPins)
  | defineElement (p : Port) (tag : Byte) (i : Nat) (kind : Kind) (block : List Byte)
  | amendElement (p : Port) (tag : Byte) (i : Nat) (mask : Nat) (block : List Byte)
  | setGeometry (p : Port) (tag : Byte) (g : GeometryOrder)
  | fixLayout (p : Port) (tag : Byte)
  | releaseLayout (p : Port) (tag : Byte)
  | orderProof (p : Port) (tag : Byte) (o : ProofOrder)
  | addArticles (p : Port) (tag : Byte) (c : Nat) (carriers : List Nat)
  | abortProof (p : Port) (tag : Byte) (c : Nat)
  | lockOut (p : Port) (tag : Byte) (i : Nat)
  | unlock (p : Port) (tag : Byte) (i : Nat)
  | clearCarrier (p : Port) (tag : Byte) (k : Nat)
  | clearTrackFault (p : Port) (tag : Byte)
  | ringRestart (p : Port) (tag : Byte)
  | setRingRole (p : Port) (tag : Byte) (role : RingRole) (slots period : Nat)
  | setLapse (p : Port) (tag : Byte) (seconds : Nat)
  | watchPoint (p : Port) (tag : Byte) (pt : Nat)
  | unwatch (p : Port) (tag : Byte) (pt : Nat)
  | enlist (p : Port) (tag : Byte) (i : Nat)
  | withdraw (p : Port) (tag : Byte) (i : Nat)
  | withdrawFaulty (p : Port) (tag : Byte) (i : Nat)
  | setPacing (p : Port) (tag : Byte) (g w q : Nat)
  | setDriveLimit (p : Port) (tag : Byte) (d : Nat)
  | readElement (p : Port) (tag : Byte) (i : Nat)
  | readContext (p : Port) (tag : Byte) (c : Nat)
  | readTrack (p : Port) (tag : Byte)
  | readRing (p : Port) (tag : Byte)
  | readPoints (p : Port) (tag : Byte) (space : Space) (first number : Nat)
  | readReservations (p : Port) (tag : Byte) (first number : Nat)
  | readPort (p : Port) (tag : Byte) (named : Port)
  | badOrder (p : Port) (frame : LinkFrame)
  | receiveError (st : Station) (bytes : List Byte) (lineError : Bool)
  | receiveGap (st : Station) (bytes : List Byte)
  | lineTransferDropped (bytes : List Byte)
  | readTransfer (clocked : Nat)
  | frameSent (st : Station)
  | forwardCount
  | reverseCount
  | illegalTransition
  | homePulse
  | pitchEyeEdge
  | missingCarrier
  | speedUpdate
  | scannerFrame (f : RingFrame)
  | nodeFrame (f : RingFrame)
  | originFrame
  | returnExpiry
  | silenceDeadline
  | machineStopAsserted
  | machineStopReleased
  | trialStart (c : Fin 16)
  | cueFinalAim (c : Fin 16)
  | cueFire (c : Fin 16)
  | expectationOpens (n : Fin 24)
  | expectationClosePassed (n : Fin 24)
  | closingSecondPart (c : Fin 16)
  | lapseDeadline (st : Station)
  | restEnd (c : Fin 16)
  | tachEdge (ch : Fin 16)
  | currentScan (samples : List (BitVec 12))
  | quietSpanComplete (c : Fin 16)
  | precheckDeadline (c : Fin 16)
  | rampDeadline (c : Fin 16)
  | motionDeadline (c : Fin 16)
  | holdDeadline (c : Fin 16)
  | stopQuietReached (c : Fin 16)
  | stopDeadline (c : Fin 16)
  deriving DecidableEq, Repr

end Sys2Proof
end

