-- ==== Sys2Proof/WellFormed.lean ====
section
/-! DEFINITION. Which terms of `Instr` stand for a command that can arrive: every field of an order
fits the width that R190 and R191 give it, a frame is as long as its own header says. -/

namespace Sys2Proof

/-- `v` fits in `n` bytes. -/
def fits (n v : Nat) : Bool := decide (v < 256 ^ n)

/-- The fields of Set Geometry at their widths (R1, R190). -/
def GeometryOrder.wf (g : GeometryOrder) : Bool :=
  fits 2 g.carriers && fits 2 g.pitch && fits 3 g.home && fits 3 g.eye && fits 1 g.revAllow
    && fits 2 g.homeTol && fits 2 g.pitchTol && fits 2 g.vMin && fits 1 g.smooth && fits 2 g.setup

/-- A list field behind `before` bytes of other fields: a one-byte count and two-byte entries, in a body of
at most 248 bytes (R182, R191). Order Proof, with six bytes before its list, so carries up to 120 carriers, and
Add Articles, with one, up to 123. -/
def carriersFit (before : Nat) (l : List Nat) : Bool :=
  decide (before + 1 + 2 * l.length ≤ 248) && l.all (fits 2)

/-- The fields of Order Proof at their widths (R88, R190). -/
def ProofOrder.wf (o : ProofOrder) : Bool :=
  fits 2 o.element && fits 1 o.k && fits 1 o.tLim && carriersFit 6 o.articles

/-- A ring frame holds as many slots as its header says (R196). -/
def RingFrame.wf (f : RingFrame) : Bool := decide (f.slots.length = f.count.toNat)

/-- The command can arrive in this form. -/
def Instr.wf : Instr → Bool
  | .powerOnReset _ => true
  | .resetLineReset _ => true
  | .defineElement _ _ i _ block => fits 2 i && decide (block.length = 36)
  | .amendElement _ _ i mask block => fits 2 i && fits 4 mask && decide (block.length = 36)
  | .setGeometry _ _ g => g.wf
  | .fixLayout _ _ => true
  | .releaseLayout _ _ => true
  | .orderProof _ _ o => o.wf
  | .addArticles _ _ c l => fits 1 c && carriersFit 1 l
  | .abortProof _ _ c => fits 1 c
  | .lockOut _ _ i => fits 2 i
  | .unlock _ _ i => fits 2 i
  | .clearCarrier _ _ k => fits 2 k
  | .clearTrackFault _ _ => true
  | .ringRestart _ _ => true
  | .setRingRole _ _ _ slots period => fits 1 slots && fits 2 period
  | .setLapse _ _ seconds => fits 1 seconds
  | .watchPoint _ _ pt => fits 2 pt
  | .unwatch _ _ pt => fits 2 pt
  | .enlist _ _ i => fits 2 i
  | .withdraw _ _ i => fits 2 i
  | .withdrawFaulty _ _ i => fits 2 i
  | .setPacing _ _ g w q => fits 1 g && fits 2 w && fits 1 q
  | .setDriveLimit _ _ d => fits 1 d
  | .readElement _ _ i => fits 2 i
  | .readContext _ _ c => fits 1 c
  | .readTrack _ _ => true
  | .readRing _ _ => true
  | .readPoints _ _ _ first number => fits 2 first && fits 1 number
  | .readReservations _ _ first number => fits 2 first && fits 1 number
  | .readPort _ _ _ => true
  | .badOrder _ f => decide (f.body.length ≤ 248)
  | .receiveError _ bytes _ => decide (bytes.length ≤ 254)
  | .receiveGap _ bytes => decide (bytes.length ≤ 254)
  | .lineTransferDropped bytes => decide (1 ≤ bytes.length)
  | .readTransfer clocked => decide (1 ≤ clocked)
  | .frameSent _ => true
  | .forwardCount => true
  | .reverseCount => true
  | .illegalTransition => true
  | .homePulse => true
  | .pitchEyeEdge => true
  | .missingCarrier => true
  | .speedUpdate => true
  | .scannerFrame f => f.wf
  | .nodeFrame f => f.wf
  | .originFrame => true
  | .returnExpiry => true
  | .silenceDeadline => true
  | .machineStopAsserted => true
  | .machineStopReleased => true
  | .trialStart _ => true
  | .cueFinalAim _ => true
  | .cueFire _ => true
  | .expectationOpens _ => true
  | .expectationClosePassed _ => true
  | .closingSecondPart _ => true
  | .lapseDeadline _ => true
  | .restEnd _ => true
  | .tachEdge _ => true
  | .currentScan samples => decide (samples.length = 16)
  | .quietSpanComplete _ => true
  | .precheckDeadline _ => true
  | .rampDeadline _ => true
  | .motionDeadline _ => true
  | .holdDeadline _ => true
  | .stopQuietReached _ => true
  | .stopDeadline _ => true

end Sys2Proof
end

