-- ==== Sys2Proof/Decode.lean ====
section
/-! DEFINITION. Bytes, CRC-16 and envelopes (R27, R182, R192, R196), the reading of a good frame's
body as an order (R185, R190, R191), and the host's `decodeTableWord`. -/

namespace Sys2Proof

/-- `n` bytes of `v`, high byte first (R190). -/
def be (n v : Nat) : List Byte :=
  (List.range n).reverse.map fun i => BitVec.ofNat 8 (v / 256 ^ i)

/-- The number that a run of bytes spells, high byte first (R190). -/
def unbe (bs : List Byte) : Nat := bs.foldl (fun a b => a * 256 + b.toNat) 0

/-- The field of `n` bytes at offset `off`. -/
def fieldAt (bs : List Byte) (off n : Nat) : Nat := unbe ((bs.drop off).take n)

/-- One shift of the CRC-16 register, generator x^16 + x^12 + x^5 + 1 (R27, R182). -/
def crcBit (r : Word16) (bit : Bool) : Word16 :=
  if (r.msb ^^ bit) then (r <<< 1) ^^^ 0x1021#16 else r <<< 1

/-- The eight shifts for one byte, high bit first (no reflection). -/
def crcByte (r : Word16) (b : Byte) : Word16 :=
  [7, 6, 5, 4, 3, 2, 1, 0].foldl (fun r i => crcBit r (b.getLsbD i)) r

/-- The CRC-16 of links and ring: register starting at all ones, no final inversion (R27, R182). -/
def crc16 (bs : List Byte) : Word16 := bs.foldl crcByte 0xFFFF#16

/-- SYNC (R182, R192). -/
def syncByte : Byte := 0xC3#8

/-- LENGTH of a frame: KIND, TAG and the body (R182). -/
def LinkFrame.length (f : LinkFrame) : Nat := f.body.length + 2

/-- The bytes the CRC is computed over: LENGTH through the last body byte (R182, R192). -/
def LinkFrame.covered (f : LinkFrame) : List Byte :=
  BitVec.ofNat 8 f.length :: f.kind :: f.tag :: f.body

/-- The whole frame on the wire (R182, R192). -/
def LinkFrame.bytes (f : LinkFrame) : List Byte :=
  syncByte :: f.covered ++ be 2 (crc16 f.covered).toNat

/-- LENGTH lies in 2..250 (R183, R184, R192). -/
def lengthOk (len : Nat) : Bool := decide (2 ≤ len) && decide (len ≤ 250)

/-- The LENGTH byte of a frame whose first two bytes have come. -/
def lengthOf (bs : List Byte) : Nat := fieldAt bs 1 1

/-- The CRC of a whole frame of LENGTH + 4 bytes checks (R182). -/
def crcChecks (bs : List Byte) : Bool :=
  decide (crc16 ((bs.drop 1).take (lengthOf bs + 1)) = BitVec.ofNat 16 (fieldAt bs (lengthOf bs + 2) 2))

/-- The frame that bytes spell, where they are one whole envelope that checks (R182). -/
def parseEnvelope (bs : List Byte) : Option LinkFrame :=
  if bs.head? = some syncByte ∧ lengthOk (lengthOf bs) = true ∧ bs.length = lengthOf bs + 4
      ∧ crcChecks bs = true then
    some { kind := (bs.getD 2 0), tag := (bs.getD 3 0), body := (bs.drop 4).take (lengthOf bs - 2) }
  else none

/-- The bytes of a ring frame that its CRC covers (R196). -/
def RingFrame.covered (f : RingFrame) : List Byte :=
  f.count :: f.seq :: f.slots.flatMap fun s => be 2 s.out.toNat ++ be 2 s.inp.toNat

/-- The bytes of a ring frame (R196). -/
def RingFrame.bytes (f : RingFrame) : List Byte := f.covered ++ be 2 f.crc.toNat

/-- The CRC-16 over header and slots (R27). -/
def RingFrame.properCrc (f : RingFrame) : Word16 := crc16 f.covered

/-! Enumerated fields: the position of the value in its list (R190). -/

/-- Element kind by position (R50). -/
def Kind.ofNat? : Nat → Option Kind
  | 0 => some .none | 1 => some .chute | 2 => some .sensor | 3 => some .drive | _ => none

/-- Sensor mode by position (R52). -/
def Mode.ofNat? : Nat → Option Mode
  | 0 => some .carrier | 1 => some .article | 2 => some .attached | _ => none

/-- Ring role by position. -/
def RingRole.ofNat? : Nat → Option RingRole
  | 0 => some .relay | 1 => some .origin | _ => none

/-- Point space by position (R49). -/
def Space.ofNat? : Nat → Option Space
  | 0 => some .input | 1 => some .output | _ => none

/-- Port by position (R189). -/
def Port.ofNat? : Nat → Option Port
  | 0 => some .sta | 1 => some .stb | 2 => some .line | _ => none

/-- A set-or-clear field: 0 clear, 1 set, and no value above 1 (DESIGN CHOICE, log entry 17); the drive
direction is read in the same way, FORWARD 0 and REVERSE 1. -/
def flagOf? : Nat → Option Bool
  | 0 => some false | 1 => some true | _ => none

/-- The mode bits of a sensor's definition block: bits 1 and 2 of byte 0 (R194). -/
def blockModeBits (block : List Byte) : Nat := fieldAt block 0 1 / 2 % 4

/-- A list field at offset `off` that ends the body: a count byte and two-byte entries (R191). -/
def listAt? (bs : List Byte) (off : Nat) : Option (List Nat) :=
  let n := fieldAt bs off 1
  if bs.length = off + 1 + 2 * n then
    some ((List.range n).map fun i => fieldAt bs (off + 1 + 2 * i) 2)
  else none

/-- The body as an order of KIND `kind`, in the fields, order and widths of R190 and R191; `none`
where the KIND is no order's, the length is not the form's, or an enumerated field lies outside its
list. -/
def decodeOrder (p : Port) (f : LinkFrame) : Option Instr :=
  let b := f.body
  let u := fieldAt b
  let t := f.tag
  match f.kind.toNat with
  | 0x01 =>
    if b.length = 39 then
      match Kind.ofNat? (u 2 1) with
      | some .sensor =>
        if blockModeBits (b.drop 3) = 3 then none else some (.defineElement p t (u 0 2) .sensor (b.drop 3))
      | some k => some (.defineElement p t (u 0 2) k (b.drop 3))
      | none => none
    else none
  | 0x02 => if b.length = 42 then some (.amendElement p t (u 0 2) (u 2 4) (b.drop 6)) else none
  | 0x03 =>
    if b.length = 20 then
      some (.setGeometry p t
        { carriers := u 0 2, pitch := u 2 2, home := u 4 3, eye := u 7 3, revAllow := u 10 1,
          homeTol := u 11 2, pitchTol := u 13 2, vMin := u 15 2, smooth := u 17 1, setup := u 18 2 })
    else none
  | 0x04 => if b.length = 0 then some (.fixLayout p t) else none
  | 0x05 => if b.length = 0 then some (.releaseLayout p t) else none
  | 0x06 =>
    match flagOf? (u 4 1), flagOf? (u 5 1), listAt? b 6 with
    | some n, some r, some l =>
      some (.orderProof p t
        { element := u 0 2, k := u 2 1, tLim := u 3 1, notice := n, reverse := r, articles := l })
    | _, _, _ => none
  | 0x07 => (listAt? b 1).map fun l => .addArticles p t (u 0 1) l
  | 0x08 => if b.length = 1 then some (.abortProof p t (u 0 1)) else none
  | 0x09 => if b.length = 2 then some (.lockOut p t (u 0 2)) else none
  | 0x0A => if b.length = 2 then some (.unlock p t (u 0 2)) else none
  | 0x0B => if b.length = 2 then some (.clearCarrier p t (u 0 2)) else none
  | 0x0C => if b.length = 0 then some (.clearTrackFault p t) else none
  | 0x0D => if b.length = 0 then some (.ringRestart p t) else none
  | 0x0E =>
    if b.length = 4 then (RingRole.ofNat? (u 0 1)).map fun r => .setRingRole p t r (u 1 1) (u 2 2)
    else none
  | 0x0F => if b.length = 1 then some (.setLapse p t (u 0 1)) else none
  | 0x10 => if b.length = 2 then some (.watchPoint p t (u 0 2)) else none
  | 0x11 => if b.length = 2 then some (.unwatch p t (u 0 2)) else none
  | 0x12 => if b.length = 2 then some (.enlist p t (u 0 2)) else none
  | 0x13 => if b.length = 2 then some (.withdraw p t (u 0 2)) else none
  | 0x14 => if b.length = 2 then some (.withdrawFaulty p t (u 0 2)) else none
  | 0x15 => if b.length = 4 then some (.setPacing p t (u 0 1) (u 1 2) (u 3 1)) else none
  | 0x16 => if b.length = 1 then some (.setDriveLimit p t (u 0 1)) else none
  | 0x17 => if b.length = 2 then some (.readElement p t (u 0 2)) else none
  | 0x18 => if b.length = 1 then some (.readContext p t (u 0 1)) else none
  | 0x19 => if b.length = 0 then some (.readTrack p t) else none
  | 0x1A => if b.length = 0 then some (.readRing p t) else none
  | 0x1B =>
    if b.length = 4 then (Space.ofNat? (u 0 1)).map fun s => .readPoints p t s (u 1 2) (u 3 1)
    else none
  | 0x1C => if b.length = 3 then some (.readReservations p t (u 0 2) (u 2 1)) else none
  | 0x1D => if b.length = 1 then (Port.ofNat? (u 0 1)).map fun q => .readPort p t q else none
  | _ => none

/-- The command that a good frame on port `p` is (R185): the order it spells, or a bad order. -/
def commandOf (p : Port) (f : LinkFrame) : Instr := (decodeOrder p f).getD (.badOrder p f)

/-- The command that a word of the table's bits spells. No row of the table has bits, so no word
spells one. -/
def decodeTableWord (_nbits _w : Nat) : Option Instr := none

end Sys2Proof
end

