-- ==== Sys2Proof/Machine/State.lean ====
section
/-! DEFINITION. The state of the CX214, block by block, as plain data, and the state after a full
reset. `INVENTORY.md`, heading State, lists each item with its rule. -/

namespace Sys2Proof.Machine

open Sys2Proof

/-- A sparse table: the entries of a numbered array that differ from the array's reset entry, by
strictly rising number (its canonical form is `Table.wf`, in Machine/Ops.lean). -/
abbrev Table (α : Type) := List (Nat × α)

/-! ### Loop Tracker (01_loop_tracking.md) -/

/-- Tracker states. -/
inductive TrackState where
  | unset | unhomed | tracking | faulted
  deriving DecidableEq, Repr

/-- Causes of FAULTED (R7). -/
inductive FaultCause where
  | slip | reverse | pitch | encoder
  deriving DecidableEq, Repr

/-- The detail of a fault record (R7). -/
inductive FaultDetail where
  | none | error (e : Int) | missing
  deriving DecidableEq, Repr

/-- The fault record (R7). -/
structure FaultRecord where
  cause  : FaultCause
  time   : Nat
  detail : FaultDetail
  deriving DecidableEq, Repr

/-- A geometry (R1); N, P, H and E may be unset. -/
structure Geometry where
  carriers : Option Nat := none
  pitch    : Option Nat := none
  home     : Option Nat := none
  eye      : Option Nat := none
  revAllow : Nat := 16
  homeTol  : Nat := 40
  pitchTol : Nat := 24
  vMin     : Nat := 1
  smooth   : Nat := 3
  setup    : Nat := 2048
  deriving DecidableEq, Repr

/-- A record of the home correction history. -/
structure HomeRecord where
  error  : Int
  time   : Nat
  travel : Nat
  deriving DecidableEq, Repr

/-- The Loop Tracker (Tracker state summary, R9). `encA`, `encB` are the channel levels from which
the next transition is decoded (R11, R14). `msTravel` is U at the last whole millisecond and `msNext`
the T of the next speed update (R24). The staged set is present exactly when staged-valid is set. -/
structure Tracker where
  active      : Geometry := {}
  staged      : Option Geometry := none
  state       : TrackState := .unset
  fault       : Option FaultRecord := none
  pos         : Nat := 0
  travel      : Nat := 0
  backlash    : Nat := 0
  speed       : Nat := 0
  moving      : Bool := false
  illegal     : Nat := 0
  corrections : Nat := 0
  history     : List HomeRecord := []
  pitchTotal  : Nat := 0
  pitchRun    : Nat := 0
  missing     : Nat := 0
  encA        : Bool := false
  encB        : Bool := false
  msTravel    : Nat := 0
  msNext      : Nat := 1000
  deriving DecidableEq, Repr

/-! ### I/O Ring Interface (02_the_i_o_ring.md) -/

/-- Ring states. -/
inductive RingState where
  | good | degraded | lost
  deriving DecidableEq, Repr

/-- Causes of a ring state change (R39). -/
inductive RingCause where
  | errors | silence | restart | role | recovered | count
  deriving DecidableEq, Repr

/-- Kinds of counted ring errors (R31, R36). -/
inductive RingError where
  | badCrc | slotMismatch | sequence | noReturn
  deriving DecidableEq, Repr

/-- An input point of the image: level, change T, change U (R40). -/
structure PointRecord where
  level  : Bool := false
  time   : Nat := 0
  travel : Nat := 0
  deriving DecidableEq, Repr

/-- The source of an output point (R41). -/
inductive Source where
  | pass | test (c : Nat) | hold
  deriving DecidableEq, Repr

/-- The value of a stimulus record. -/
inductive StimValue where
  | active | inactive
  deriving DecidableEq, Repr

/-- A stimulus change: a pulse of `w` ms or a level (R45). -/
inductive StimChange where
  | pulse (w : Nat) | level (v : StimValue)
  deriving DecidableEq, Repr

/-- A stimulus record (R45): the present value, the awaited change with the context that asked for
it, and the pulse end. -/
structure Stimulus where
  value    : StimValue := .inactive
  awaited  : Option (Nat × StimChange) := none
  pulseEnd : Option Nat := none
  deriving DecidableEq, Repr

/-- The I/O Ring Interface (Ring state summary, R28). `lastArrival` is the T of the scanner frame
from which the next interval is measured (R35); `originNext` the T of the next origin frame (R34);
`applied` the applied output image by slot; `nodeOut` and `ringOut` the frames last sent on the two
ring outputs. `returnDeadline` is present exactly when return pending is set. -/
structure Ring where
  role           : RingRole := .relay
  slots          : Nat := 64
  originPeriod   : Nat := 1000
  intervals      : List Nat := []
  lastArrival    : Option Nat := none
  state          : RingState := .lost
  errors         : Nat := 0
  goodRun        : Nat := 0
  totalBadCrc    : Nat := 0
  totalSlot      : Nat := 0
  totalSequence  : Nat := 0
  totalNoReturn  : Nat := 0
  lastSeq        : Option Nat := none
  returnDeadline : Option Nat := none
  silence        : Option Nat := none
  originSeq      : Nat := 0
  originNext     : Option Nat := none
  image          : Table PointRecord := []
  applied        : Table Word16 := []
  sources        : Table Source := []
  stimuli        : Table (Option Stimulus) := []
  nodeOut        : Option RingFrame := none
  ringOut        : Option RingFrame := none
  deriving DecidableEq, Repr

/-! ### Element Table and Holding Arbiter (03, 04) -/

/-- A CHUTE definition (R51). -/
structure ChuteDef where
  coord      : Nat
  discharge  : Nat
  activeHigh : Bool
  entryEye   : Nat
  fullEye    : Option Nat
  latency    : Nat
  pulse      : Nat
  winOpen    : Nat
  winClose   : Nat
  clearLimit : Nat
  companions : List Nat
  deriving DecidableEq, Repr

/-- A SENSOR definition (R52); coordinate, tolerance and depart limit are 0 for mode ATTACHED. -/
structure SensorDef where
  input       : Nat
  blockedHigh : Bool
  mode        : Mode
  coord       : Nat
  tol         : Nat
  depart      : Nat
  attachedTo  : Option Nat
  deriving DecidableEq, Repr

/-- A DRIVE definition (R53). -/
structure DriveDef where
  run        : Nat
  reverse    : Option Nat
  activeHigh : Bool
  tach       : Nat
  current    : Option Nat
  accel      : Nat
  hold       : Nat
  stop       : Nat
  rest       : Nat
  bandMin    : Nat
  bandMax    : Nat
  limit      : Nat
  filter     : Nat
  companions : List Nat
  deriving DecidableEq, Repr

/-- A definition, or none for kind NONE (R50). -/
inductive Definition where
  | none | chute (d : ChuteDef) | sensor (d : SensorDef) | drive (d : DriveDef)
  deriving DecidableEq, Repr

/-- Element states (R50). -/
inductive ElState where
  | empty | unproven | testing | proven | failed | live | locked
  deriving DecidableEq, Repr

/-- Holders (R50, R71). -/
inductive Holder where
  | none | sta | stb | line
  deriving DecidableEq, Repr

/-- Results of a proof, and LINE_REPORTED (R64). -/
inductive ProofResult where
  | passed | failed | aborted | abandoned | lineReported
  deriving DecidableEq, Repr

/-- A proof summary (R64); no station for LINE_REPORTED. -/
structure Summary where
  result  : ProofResult
  station : Option Station
  trials  : Nat
  passes  : Nat
  fails   : Nat
  voids   : Nat
  worst   : Int
  endTime : Nat
  deriving DecidableEq, Repr

/-- An element record (R50). Its defaults are the EMPTY record. A staged amendment is present
exactly when its valid flag is set. -/
structure Element where
  definition : Definition := .none
  state      : ElState := .empty
  holder     : Holder := .none
  holdCount  : Nat := 0
  suppressed : Nat := 0
  proofCount : Nat := 0
  staged     : Option Definition := none
  summary    : Option Summary := none
  deriving DecidableEq, Repr

/-- The Element Table: 1,024 records and Layout Fixed (R50, R68). -/
structure ElementTable where
  records     : Table Element := []
  layoutFixed : Bool := false
  deriving DecidableEq, Repr

/-! ### Proof Engine (05, 08, 09, 10) -/

/-- Context states (R87). -/
inductive CtxState where
  | free | paused | running | closing
  deriving DecidableEq, Repr

/-- Pause reasons (R94). -/
inductive PauseReason where
  | none | stop | ring | track | slow | articles | pool | drives | rest
  deriving DecidableEq, Repr

/-- Trial phases of the three kinds (R86). -/
inductive Phase where
  | none | aiming | firing | observing | watching | precheck | ramp | hold | stop
  deriving DecidableEq, Repr

/-- Causes of a VOID (R97). -/
inductive VoidCause where
  | stop | track | ring | geometry | pacing
  deriving DecidableEq, Repr

/-- Fail codes of all kinds (R97). -/
inductive FailCode where
  | early | missed | entryBlocked | chuteFull | jam | overflow | preset | stuck
  | wiring | loaded | overcurrent | noMotion | underspeed | overspeed | noStop
  deriving DecidableEq, Repr

/-- The outcome of a trial (R97). -/
inductive TrialOutcome where
  | pass | fail (code : FailCode) | void (cause : VoidCause)
  deriving DecidableEq, Repr

/-- A record of the trial history (R86). -/
structure OutcomeRecord where
  outcome   : TrialOutcome
  deviation : Option Int
  time      : Nat
  deriving DecidableEq, Repr

/-- Causes of a proof's ending (R108). -/
inductive EndCause where
  | count | voids | order | lapse
  deriving DecidableEq, Repr

/-- Where a trial's stimulus stands (R146, R173). -/
inductive StimState where
  | none | awaited | departed | cancelled
  deriving DecidableEq, Repr

/-- The record of a chute trial (R146); `leadUsed` is the lead that passes from the fired cue to the
context (R122); `fullMet` is absent where not applicable. -/
structure ChuteTrial where
  carrier   : Nat
  stim      : StimState := .none
  tStim     : Option Nat := none
  entryDev  : Option Int := none
  dwell     : Option Int := none
  clearMet  : Bool := false
  fullMet   : Option Bool
  leadUsed  : Option Nat := none
  deriving DecidableEq, Repr

/-- The record of a sensor trial (R156). `start` is the model's own, in no image: the T of the start, by which
R164 tells an edge that falls together with it (log entry 45). -/
structure SensorTrial where
  carrier  : Option Nat
  expected : Nat
  distance : Nat
  start    : Nat := 0
  edgeDev  : Option Int := none
  dwell    : Option Int := none
  deriving DecidableEq, Repr

/-- The record of a drive trial (R173). -/
structure DriveTrial where
  phaseStart     : Nat
  phaseDeadline  : Option Nat
  quietStart     : Option Nat
  motionDeadline : Option Nat := none
  stim           : StimState := .none
  assisted       : Option Nat := none
  plain          : Option Nat := none
  captures       : Nat := 0
  farthest       : Option Nat := none
  peak           : Nat := 0
  deriving DecidableEq, Repr

/-- The trial record a context holds while a trial runs. -/
inductive TrialRecord where
  | none | chute (r : ChuteTrial) | sensor (r : SensorTrial) | drive (r : DriveTrial)
  deriving DecidableEq, Repr

/-- A proof context (R86). Its defaults are the FREE context. `lastSuspect` is the carrier left
SUSPECT by the last trial, which the Proof Ended notice names (R108). -/
structure Context where
  state       : CtxState := .free
  reason      : PauseReason := .none
  owner       : Station := .sta
  element     : Nat := 0
  kind        : Kind := .none
  mode        : Option Mode := none
  claim       : List (Nat × ElState) := []
  companions  : List Nat := []
  k           : Nat := 0
  tLim        : Nat := 0
  trials      : Nat := 0
  streak      : Nat := 0
  fails       : Nat := 0
  voids       : Nat := 0
  limitVoids  : Nat := 0
  worst       : Option Int := none
  phase       : Phase := .none
  notice      : Bool := false
  reverse     : Bool := false
  articles    : List Nat := []
  inFlight    : Option Nat := none
  history     : List OutcomeRecord := []
  cueHeld     : Bool := false
  allowance   : Nat := 0
  restEnd     : Option Nat := none
  settle      : List Nat := []
  ending      : Option (ProofResult × EndCause) := none
  trial       : TrialRecord := .none
  lastSuspect : Option Nat := none
  deriving DecidableEq, Repr

/-- An entry of the Carrier Reservation Map (R91). -/
inductive Reservation where
  | free | article (c : Nat) | suspect
  deriving DecidableEq, Repr

/-- The Proof Engine: contexts, map, Machine Stop status, and the last reported value of each start
condition (R94). `checkOwed` says that a check of the paused contexts (R96) is still owed within the
present change. -/
structure Engine where
  contexts  : Table Context := []
  carriers  : Table Reservation := []
  stop      : Bool := false
  ring      : RingState := .lost
  track     : TrackState := .unset
  moving    : Bool := false
  limit     : Nat := 1
  checkOwed : Bool := false
  deriving DecidableEq, Repr

/-! ### Cue Scheduler (06) -/

/-- A cue (R110). Due points are exact whole numbers (log entry 6). -/
structure Cue where
  ctx        : Nat
  element    : Nat
  due        : Int
  point      : Nat
  activeHigh : Bool
  width      : Nat
  carrier    : Nat
  lead       : Int
  retries    : Nat
  aimed      : Bool
  deriving DecidableEq, Repr

/-- The Cue Scheduler (R110, R111). `examining` is the model's own: the examination that an increase of U
began has something to handle and is not over (R118; log entry 10). -/
structure Scheduler where
  cues    : List Cue := []
  spacing : Nat := 1
  window  : Nat := 16
  allowed : Nat := 2
  history : List Int := []
  examining : Bool := false
  deriving DecidableEq, Repr

/-! ### Expectation Monitor (07) -/

/-- Kinds of expectation (R128). -/
inductive ExpKind where
  | arrive | depart | quiet
  deriving DecidableEq, Repr

/-- Bases of a window (R128). -/
inductive Base where
  | travel | time
  deriving DecidableEq, Repr

/-- Phases of an entry (R131). -/
inductive WinPhase where
  | waiting | guard | opened | done
  deriving DecidableEq, Repr

/-- Roles of an entry (R128). -/
inductive Role where
  | entry | full | edge | clear
  deriving DecidableEq, Repr

/-- A successor template (R128). -/
structure Template where
  kind     : ExpKind
  level    : Bool
  base     : Base
  role     : Role
  openOff  : Nat
  closeOff : Nat
  deriving DecidableEq, Repr

/-- A used expectation entry (R128), with its number. -/
structure Entry where
  num      : Nat
  ctx      : Nat
  point    : Nat
  kind     : ExpKind
  level    : Bool
  base     : Base
  guardAt  : Int
  openAt   : Int
  closeAt  : Int
  nominal  : Int
  phase    : WinPhase := .waiting
  role     : Role
  template : Option Template := none
  prior    : Option (Role × Int) := none
  deriving DecidableEq, Repr

/-- The Expectation Monitor: the used entries on their two lists (R127, R129). An entry number on
neither list is free. -/
structure Monitor where
  travelList : List Entry := []
  timeList   : List Entry := []
  deriving DecidableEq, Repr

/-! ### Drive Monitor (10) -/

/-- A tach channel (R167). -/
structure Tach where
  seen     : Bool := false
  lastEdge : Nat := 0
  period   : Nat := 0
  deriving DecidableEq, Repr

/-- Assist steps (R167). -/
inductive Assist where
  | none | assist | plain
  deriving DecidableEq, Repr

/-- A current channel (R167). -/
structure Current where
  y          : Nat := 0
  sample     : Nat := 0
  sampleTime : Nat := 0
  step       : Assist := .none
  deriving DecidableEq, Repr

/-- The Drive Monitor (R167). `scanNext` is the T of the next scan (R169). The counted drive trials
are computed from the contexts (`State.countedDrives`). -/
structure Drives where
  tach     : Table Tach := []
  current  : Table Current := []
  scanSet  : List Nat := []
  limit    : Nat := 1
  scanNext : Nat := 1000
  deriving DecidableEq, Repr

/-! ### Link Ports and Order Desk (11), station lapse (04) -/

/-- Receive state of a Station Port (R181): HUNTING, or in a frame with the bytes so far. -/
inductive RxState where
  | hunting | inFrame (bytes : List Byte)
  deriving DecidableEq, Repr

/-- Bit rates of a Station Port (R183). -/
inductive BitRate where
  | r115200 | r460800 | r921600
  deriving DecidableEq, Repr

/-- What every port holds (R181). -/
structure Link where
  queue    : List LinkFrame := []
  rxErrors : Nat := 0
  overflow : Nat := 0
  dropped  : Nat := 0
  seq      : Nat := 0
  deriving DecidableEq, Repr

/-- What a Station Port holds beside (R181, R83). `lapseJudged` says that the present lapse deadline
has been judged (R84); `tx` is the frame last sent on TX. -/
structure StationLink where
  rx          : RxState := .hunting
  watch       : List Nat := []
  rate        : BitRate := .r460800
  lapse       : Nat := 10
  lastFrame   : Nat := 0
  lapseJudged : Bool := false
  tx          : List Byte := []
  deriving DecidableEq, Repr

/-- The Link Ports. `miso` is what MISO carried in the last write or read transfer of the Line Port: the
bytes that a read shifted out, or nothing for a write, in which MISO carries 0x00 throughout (R184). -/
structure Links where
  linkA : Link := {}
  linkB : Link := {}
  linkL : Link := {}
  staA  : StationLink := {}
  staB  : StationLink := {}
  miso  : List Byte := []
  deriving DecidableEq, Repr

/-- The state of the CX214. `freeSeq` numbers the free values taken so far (log entry 4), and
`pending` is the queue of commands that wait, first in, first out. -/
structure State where
  time    : Nat := 0
  tracker : Tracker := {}
  ring    : Ring := {}
  table   : ElementTable := {}
  engine  : Engine := {}
  sched   : Scheduler := {}
  monitor : Monitor := {}
  drives  : Drives := {}
  links   : Links := {}
  freeSeq : Nat := 0
  pending : List Instr := []
  deriving DecidableEq, Repr

/-- Why a step could stop with a fault. No rule of the spec stops the part, so there is none. -/
inductive Fault where
  deriving DecidableEq, Repr

/-- Why a command could be refused a meaning. -/
inductive Refusal where
  /-- Raised by `exec`'s arm of a command that has no meaning yet; safe. No arm raises it. -/
  | notModelled (mnemonic : String)
  deriving DecidableEq, Repr

/-- The state right after a full reset (R9, R28, R50, R83, R86, R91, R100, R110, R111, R127, R167,
R181): every block at the values its fields default to. The pins that a reset reads are taken as
Machine Stop released, straps left open, encoder channels at 0 (DESIGN CHOICE, log entry 1); POWER_ON_RESET and
RESET_LINE_RESET bring the pins they find. -/
def State.reset : State := {}

end Sys2Proof.Machine
end

