-- ==== Sys2Proof/Machine/Ops.lean ====
section
/-! DEFINITION. The named operations over State that every block uses: sparse tables, saturating and
modular arithmetic, lists of bounded length, and one accessor and one update for each numbered
family of the state. -/

namespace Sys2Proof.Machine

open Sys2Proof

/-- What one command comes to. -/
abbrev Result := Host.Outcome State Fault Refusal

/-! ### Sparse tables -/

/-- Entry `k`, the array's reset entry `d` where none is listed. -/
def Table.get {α : Type} (d : α) : Table α → Nat → α
  | [], _ => d
  | (k, v) :: t, i => if i = k then v else Table.get d t i

/-- Lists `v` at `k`, keeping rising order. -/
def Table.put {α : Type} : Table α → Nat → α → Table α
  | [], i, v => [(i, v)]
  | (k, w) :: t, i, v =>
    if i < k then (i, v) :: (k, w) :: t
    else if i = k then (k, v) :: t
    else (k, w) :: Table.put t i v

/-- Unlists `k`. -/
def Table.unlist {α : Type} (t : Table α) (i : Nat) : Table α := t.filter fun e => e.1 ≠ i

/-- Entry `k` becomes `v`; an entry equal to the reset entry `d` is not listed. -/
def Table.set {α : Type} [DecidableEq α] (d : α) (t : Table α) (i : Nat) (v : α) : Table α :=
  if v = d then t.unlist i else t.put i v

/-- The canonical form: numbers strictly rising, no entry equal to the reset entry. -/
def Table.wf {α : Type} [DecidableEq α] (d : α) : Table α → Bool
  | [] => true
  | (k, v) :: t => decide (v ≠ d) && t.all (fun e => decide (k < e.1)) && Table.wf d t

/-! ### Arithmetic and lists -/

/-- A count that stops at `cap` (Conventions, Saturating and clamped values). -/
def capAdd (cap n k : Nat) : Nat := min cap (n + k)

/-- A setting clamped into lo..hi (Conventions, Saturating and clamped values). -/
def clampTo (lo hi v : Nat) : Nat := max lo (min hi v)

/-- The non-negative remainder mod `m` (Conventions, Travel and counts). -/
def posMod (x : Int) (m : Nat) : Nat := (x % (m : Int)).toNat

/-- The value congruent to `x` mod `m` with −m ≤ 2e < m (R18, R21). -/
def wrapSigned (x : Int) (m : Nat) : Int :=
  let r := posMod x m
  if 2 * r < m then r else (r : Int) - m

/-- One step of a first-order smoothing: the gap divided by 2^k, truncated toward zero (R24, R169). -/
def smoothStep (target value k : Nat) : Nat :=
  ((value : Int) + Int.tdiv ((target : Int) - value) (2 ^ k : Nat)).toNat

/-- `x` joins the tail; past `cap` entries the oldest is dropped from the head. -/
def pushTail {α : Type} (cap : Nat) (l : List α) (x : α) : List α :=
  (l ++ [x]).drop (l.length + 1 - cap)

/-- The sixteen context numbers, ascending. -/
def ctxNumbers : List Nat := List.range 16

/-! ### Updates of one block -/

/-- Updates the Loop Tracker. -/
def State.mapTracker (s : State) (f : Tracker → Tracker) : State := { s with tracker := f s.tracker }

/-- Updates the I/O Ring Interface. -/
def State.mapRing (s : State) (f : Ring → Ring) : State := { s with ring := f s.ring }

/-- Updates the Element Table. -/
def State.mapTable (s : State) (f : ElementTable → ElementTable) : State :=
  { s with table := f s.table }

/-- Updates the Proof Engine. -/
def State.mapEngine (s : State) (f : Engine → Engine) : State := { s with engine := f s.engine }

/-- Updates the Cue Scheduler. -/
def State.mapSched (s : State) (f : Scheduler → Scheduler) : State := { s with sched := f s.sched }

/-- Updates the Expectation Monitor. -/
def State.mapMonitor (s : State) (f : Monitor → Monitor) : State :=
  { s with monitor := f s.monitor }

/-- Updates the Drive Monitor. -/
def State.mapDrives (s : State) (f : Drives → Drives) : State := { s with drives := f s.drives }

/-- Updates the Link Ports. -/
def State.mapLinks (s : State) (f : Links → Links) : State := { s with links := f s.links }

/-! ### Element records -/

/-- Element record `i` (R50). -/
def State.elem (s : State) (i : Nat) : Element := Table.get {} s.table.records i

/-- Writes element record `i`. -/
def State.setElem (s : State) (i : Nat) (e : Element) : State :=
  s.mapTable fun t => { t with records := Table.set {} t.records i e }

/-- Changes element record `i`. -/
def State.mapElem (s : State) (i : Nat) (f : Element → Element) : State := s.setElem i (f (s.elem i))

/-- The kind of a definition. -/
def Definition.kind : Definition → Kind
  | .none => .none | .chute _ => .chute | .sensor _ => .sensor | .drive _ => .drive

/-- The mode of a sensor's definition. -/
def Definition.mode : Definition → Option Mode
  | .sensor d => some d.mode | _ => Option.none

/-- The companion list of a definition; a sensor has none (R52). -/
def Definition.companions : Definition → List Nat
  | .chute d => d.companions | .drive d => d.companions | _ => []

/-- The eyes a definition names, the entry eye first. -/
def Definition.eyes : Definition → List Nat
  | .chute d => d.entryEye :: d.fullEye.toList | _ => []

/-- The output points a definition uses (R41, R54). -/
def Definition.outputs : Definition → List Nat
  | .chute d => [d.discharge] | .drive d => d.run :: d.reverse.toList | _ => []

/-- The input points a definition uses (R54). -/
def Definition.inputs : Definition → List Nat
  | .sensor d => [d.input] | _ => []

/-- The tach channels a definition uses (R54). -/
def Definition.tachs : Definition → List Nat
  | .drive d => [d.tach] | _ => []

/-- The current channels a definition uses (R54). -/
def Definition.currents : Definition → List Nat
  | .drive d => d.current.toList | _ => []

/-- The coordinate of a definition that has one (R3). -/
def Definition.coord? : Definition → Option Nat
  | .chute d => some d.coord
  | .sensor d => if d.mode = .attached then Option.none else some d.coord
  | _ => Option.none

/-- The active level of the output points of a definition is HIGH. -/
def Definition.activeHigh : Definition → Bool
  | .chute d => d.activeHigh | .drive d => d.activeHigh | _ => true

/-- The chute definition of element `i`, if it is a chute. -/
def State.chuteDef (s : State) (i : Nat) : Option ChuteDef :=
  match (s.elem i).definition with | .chute d => some d | _ => none

/-- The sensor definition of element `i`, if it is a sensor. -/
def State.sensorDef (s : State) (i : Nat) : Option SensorDef :=
  match (s.elem i).definition with | .sensor d => some d | _ => none

/-- The drive definition of element `i`, if it is a drive. -/
def State.driveDef (s : State) (i : Nat) : Option DriveDef :=
  match (s.elem i).definition with | .drive d => some d | _ => none

/-- The holder that a station is. -/
def stationHolder : Station → Holder
  | .sta => .sta | .stb => .stb

/-- The station of a Station Port. -/
def portStation : Port → Option Station
  | .sta => some .sta | .stb => some .stb | .line => none

/-- The port of a station. -/
def stationPort : Station → Port
  | .sta => .sta | .stb => .stb

/-! ### Proof contexts and the Carrier Reservation Map -/

/-- Context `c` (R86). -/
def State.ctx (s : State) (c : Nat) : Context := Table.get {} s.engine.contexts c

/-- Writes context `c`. -/
def State.setCtx (s : State) (c : Nat) (x : Context) : State :=
  s.mapEngine fun e => { e with contexts := Table.set {} e.contexts c x }

/-- Changes context `c`. -/
def State.mapCtx (s : State) (c : Nat) (f : Context → Context) : State := s.setCtx c (f (s.ctx c))

/-- The map entry of carrier `k` (R91). -/
def State.carrier (s : State) (k : Nat) : Reservation := Table.get .free s.engine.carriers k

/-- Writes the map entry of carrier `k`. -/
def State.setCarrier (s : State) (k : Nat) (r : Reservation) : State :=
  s.mapEngine fun e => { e with carriers := Table.set .free e.carriers k r }

/-- Writes the map entries of several carriers. -/
def State.setCarriers (s : State) (ks : List Nat) (r : Reservation) : State :=
  ks.foldl (fun s k => s.setCarrier k r) s

/-- A check of the paused contexts is owed within this change (R96). -/
def State.oweCheck (s : State) : State := s.mapEngine fun e => { e with checkOwed := true }

/-- The context that is not FREE and whose claim set holds element `i` (R73). -/
def State.ctxOfElem (s : State) (i : Nat) : Option Nat :=
  ctxNumbers.find? fun c =>
    decide ((s.ctx c).state ≠ .free) && (s.ctx c).claim.any fun m => decide (m.1 = i)

/-- The available expectation entries: 24 less the allowances of all running trials (R95). -/
def State.available (s : State) : Nat :=
  24 - (ctxNumbers.map fun c => (s.ctx c).allowance).sum

/-- The counted drive trials: those in PRECHECK, RAMP or HOLD (R172). -/
def State.countedDrives (s : State) : Nat :=
  (ctxNumbers.filter fun c => decide ((s.ctx c).phase ∈ [Phase.precheck, Phase.ramp, Phase.hold])).length

/-! ### Ring points -/

/-- The image record of input point `pt` (R40). -/
def State.input (s : State) (pt : Nat) : PointRecord := Table.get {} s.ring.image pt

/-- The source of output point `pt` (R41). -/
def State.source (s : State) (pt : Nat) : Source := Table.get .pass s.ring.sources pt

/-- The stimulus record of output point `pt`, if it has one. -/
def State.stimulus (s : State) (pt : Nat) : Option Stimulus := Table.get none s.ring.stimuli pt

/-- Writes the stimulus record of output point `pt`. -/
def State.setStimulus (s : State) (pt : Nat) (r : Option Stimulus) : State :=
  s.mapRing fun g => { g with stimuli := Table.set none g.stimuli pt r }

/-- Bit `j` of slot `n` in the applied output image, as the level of point n × 16 + j (R43). -/
def State.appliedLevel (s : State) (pt : Nat) : Bool :=
  (Table.get 0 s.ring.applied (pt / 16)).getLsbD (pt % 16)

/-- The TEST points of context `c`, ascending (R42). -/
def State.testPoints (s : State) (c : Nat) : List Nat :=
  (s.ring.sources.filter fun e => decide (e.2 = .test c)).map (·.1)

/-- The present stimulus value of point `pt` is ACTIVE. -/
def State.stimActive (s : State) (pt : Nat) : Bool :=
  match s.stimulus pt with | some r => decide (r.value = .active) | none => false

/-- A change is awaited on point `pt`. -/
def State.stimAwaited (s : State) (pt : Nat) : Bool :=
  match s.stimulus pt with | some r => r.awaited.isSome | none => false

/-- An eye or sensor reads blocked: the image level of its input point equals its blocked level
(R120). -/
def State.readsBlocked (s : State) (d : SensorDef) : Bool :=
  decide ((s.input d.input).level = d.blockedHigh)

/-! ### Drive Monitor channels -/

/-- Tach channel `ch` (R167). -/
def State.tachChan (s : State) (ch : Nat) : Tach := Table.get {} s.drives.tach ch

/-- Current channel `ch` (R167). -/
def State.currentChan (s : State) (ch : Nat) : Current := Table.get {} s.drives.current ch

/-- Writes current channel `ch`. -/
def State.setCurrent (s : State) (ch : Nat) (x : Current) : State :=
  s.mapDrives fun d => { d with current := Table.set {} d.current ch x }

/-! ### Ports -/

/-- What port `p` holds (R181). -/
def State.link (s : State) : Port → Link
  | .sta => s.links.linkA | .stb => s.links.linkB | .line => s.links.linkL

/-- Changes what port `p` holds. -/
def State.mapLink (s : State) (p : Port) (f : Link → Link) : State :=
  s.mapLinks fun l =>
    match p with
    | .sta => { l with linkA := f l.linkA }
    | .stb => { l with linkB := f l.linkB }
    | .line => { l with linkL := f l.linkL }

/-- What Station Port `st` holds beside (R181, R83). -/
def State.staLink (s : State) : Station → StationLink
  | .sta => s.links.staA | .stb => s.links.staB

/-- Changes what Station Port `st` holds beside. -/
def State.mapSta (s : State) (st : Station) (f : StationLink → StationLink) : State :=
  s.mapLinks fun l =>
    match st with
    | .sta => { l with staA := f l.staA }
    | .stb => { l with staB := f l.staB }

/-- The most frames an outbound queue holds (R186). -/
def queueCap : Port → Nat
  | .line => 8 | _ => 16

/-! ### Geometry -/

/-- Loop length L = N × P, 0 while either is unset (R1). -/
def Geometry.length (g : Geometry) : Nat := g.carriers.getD 0 * g.pitch.getD 0

/-- Pitch P of the active geometry, 0 while unset. -/
def State.pitch (s : State) : Nat := s.tracker.active.pitch.getD 0

/-- Loop length L of the active geometry. -/
def State.loopLen (s : State) : Nat := s.tracker.active.length

end Sys2Proof.Machine
end

