-- ==== Sys2Proof/Machine/Flags.lean ====
section
/-! DEFINITION. The flags, effective values and derived states that rules compute from the state:
clamped geometry fields, the moving flag, carrier arithmetic, the ring state of a count, the levels
of ATTN_N. -/

namespace Sys2Proof.Machine

open Sys2Proof

/-- Effective home tolerance (R2). -/
def Geometry.effHomeTol (g : Geometry) : Nat := min g.homeTol (g.pitch.getD 0 / 2)

/-- Effective pitch tolerance (R2). -/
def Geometry.effPitchTol (g : Geometry) : Nat := min g.pitchTol (g.pitch.getD 0 / 4)

/-- Effective cue setup distance M (R2). -/
def Geometry.effSetup (g : Geometry) : Nat := min g.setup (g.length / 2)

/-- Effective tolerance of a sensor: clamped at use to floor(P/4) (R52, R156). -/
def effSensorTol (g : Geometry) (d : SensorDef) : Nat := min d.tol (g.pitch.getD 0 / 4)

/-- The loop is moving when v is at least v_min × 256 (R25). -/
def movingOf (v vMin : Nat) : Bool := decide (vMin * 256 ≤ v)

/-- Leading edge of carrier `k` at loop position `p` (R6). -/
def leadingEdge (g : Geometry) (p k : Nat) : Nat :=
  posMod ((p : Int) - k * g.pitch.getD 0) g.length

/-- Centre of carrier `k` at loop position `p` (R6). -/
def carrierCentre (g : Geometry) (p k : Nat) : Nat :=
  posMod ((p : Int) - k * g.pitch.getD 0 - (g.pitch.getD 0 / 2 : Nat)) g.length

/-- Carrier over coordinate `c` at loop position `p` (R6). -/
def carrierOver (g : Geometry) (p c : Nat) : Nat :=
  posMod ((p : Int) - c) g.length / g.pitch.getD 0

/-- Phase at coordinate `c` of the carrier over it (R6). -/
def carrierPhase (g : Geometry) (p c : Nat) : Nat :=
  posMod ((p : Int) - c) g.length % g.pitch.getD 0

/-- The ring state that a ring error count gives in GOOD and DEGRADED (R37). -/
def ringStateOf (errors : Nat) : RingState :=
  if errors ≤ 95 then .good else if errors ≤ 191 then .degraded else .lost

/-- The nominal period (R35): the origin period in ORIGIN; in RELAY the mean of the interval history
held within 250..2,000 µs, and 2,000 µs with an empty history. -/
def Ring.nominal (g : Ring) : Nat :=
  match g.role with
  | .origin => g.originPeriod
  | .relay =>
    if g.intervals.isEmpty then 2000 else clampTo 250 2000 (g.intervals.sum / g.intervals.length)

/-- Points below this number are carried in a frame of S slots (R27). -/
def Ring.carried (g : Ring) : Nat := g.slots * 16

/-- ATTN_N is high: the Line Port's outbound queue is empty (R184). -/
def State.attnHigh (s : State) : Bool := s.links.linkL.queue.isEmpty

/-- The forward successor of the encoder levels (A, B) (R11). -/
def encForward : Bool × Bool → Bool × Bool
  | (false, false) => (true, false)
  | (true, false) => (true, true)
  | (true, true) => (false, true)
  | (false, true) => (false, false)

/-- The reverse successor of the encoder levels (A, B) (R11). -/
def encReverse : Bool × Bool → Bool × Bool
  | (false, false) => (false, true)
  | (false, true) => (true, true)
  | (true, true) => (true, false)
  | (true, false) => (false, false)

/-- What a change of the channel levels is (R11): a count, an illegal transition, or no change. -/
def encoderEvent (before after : Bool × Bool) : Option Instr :=
  if after = before then none
  else if after = encForward before then some .forwardCount
  else if after = encReverse before then some .reverseCount
  else some .illegalTransition

/-- The band centre c of a drive (R173). -/
def DriveDef.centre (d : DriveDef) : Nat := (d.bandMin + d.bandMax) / 2

/-- The quiet span of a drive, in µs (R173). -/
def DriveDef.quietSpan (d : DriveDef) : Nat := 2 * d.bandMax

/-- The drive point: the run point for FORWARD, the reverse point for REVERSE (Drive Proofs, The
drive trial). -/
def DriveDef.point (d : DriveDef) (reverse : Bool) : Nat :=
  if reverse then d.reverse.getD d.run else d.run

end Sys2Proof.Machine
end

