-- ==== Sys2Proof/Machine/Operands.lean ====
section
/-! DEFINITION. The operand forms of the element orders: the 36-byte definition block read and
written (R194), the field mask of Amend Element (R191), and the ranges of every field (R51 to
R53). -/

namespace Sys2Proof.Machine

open Sys2Proof

/-! ### Reading a definition block (R194) -/

/-- A two-byte index field, absent where it is 0xFFFF (R190). -/
def indexAt (b : List Byte) (off : Nat) : Option Nat :=
  if fieldAt b off 2 = 0xFFFF then none else some (fieldAt b off 2)

/-- `n` two-byte companions from offset `off`. -/
def companionsAt (b : List Byte) (off n : Nat) : List Nat :=
  (List.range n).map fun i => fieldAt b (off + 2 * i) 2

/-- Bit 0 of byte 0: active HIGH, or blocked HIGH. -/
def highBit (b : List Byte) : Bool := decide (fieldAt b 0 1 % 2 = 1)

/-- A block read as a CHUTE. -/
def parseChute (b : List Byte) : ChuteDef :=
  { coord := fieldAt b 2 3, discharge := fieldAt b 5 2, activeHigh := highBit b,
    entryEye := fieldAt b 7 2, fullEye := indexAt b 9, latency := fieldAt b 11 2,
    pulse := fieldAt b 13 1, winOpen := fieldAt b 14 2, winClose := fieldAt b 16 2,
    clearLimit := fieldAt b 18 2, companions := companionsAt b 20 (fieldAt b 1 1) }

/-- The mode a block's byte 0 gives; the fourth bit pattern stands for no mode (R194). -/
def blockMode (b : List Byte) : Option Mode := Mode.ofNat? (blockModeBits b)

/-- A block read as a SENSOR of mode `m`. The attached-to bytes are not read: the field is never
written (R52). -/
def parseSensor (m : Mode) (b : List Byte) : SensorDef :=
  { input := fieldAt b 5 2, blockedHigh := highBit b, mode := m, coord := fieldAt b 2 3,
    tol := fieldAt b 9 2, depart := fieldAt b 11 2, attachedTo := none }

/-- A block read as a DRIVE. -/
def parseDrive (b : List Byte) : DriveDef :=
  { run := fieldAt b 2 2, reverse := indexAt b 4, activeHigh := highBit b, tach := fieldAt b 6 1,
    current := if fieldAt b 7 1 = 0xFF then none else some (fieldAt b 7 1),
    accel := fieldAt b 8 2, hold := fieldAt b 10 2, stop := fieldAt b 12 2, rest := fieldAt b 14 4,
    bandMin := fieldAt b 18 3, bandMax := fieldAt b 21 3, limit := fieldAt b 24 2,
    filter := fieldAt b 26 1, companions := companionsAt b 28 (fieldAt b 1 1) }

/-! ### The definition an order gives

A candidate is the definition the order would write, and whether the order leaves out a field the
mode requires or gives one it does not have (R55 step 7). -/

/-- A candidate definition with that fault of form. -/
structure Candidate where
  definition : Definition
  misfit     : Bool
  deriving DecidableEq, Repr

/-- A sensor of mode ATTACHED has no coordinate, tolerance or depart limit (R52). One that an order gives
is dropped before step 5 of R55 compares positional fields, so it is refused RANGE at step 7, not
LAYOUT_FIXED, while Layout Fixed is set (DESIGN CHOICE, log entry 20). -/
def SensorDef.strip (d : SensorDef) : SensorDef :=
  if d.mode = .attached then { d with coord := 0, tol := 0, depart := 0 } else d

/-- The candidate of Define Element: every field comes from the block; attached-to is kept from the
record's present definition. A coordinate, tolerance or depart limit counts as given for an ATTACHED
sensor where its bytes are not 0, and bytes of the block at which the kind has no field, all of them for
kind NONE, are not read (DESIGN CHOICE, log entry 20). -/
def defineCandidate (present : Definition) (kind : Kind) (b : List Byte) : Candidate :=
  match kind with
  | .none => ⟨.none, false⟩
  | .chute => ⟨.chute (parseChute b), false⟩
  | .drive => ⟨.drive (parseDrive b), false⟩
  | .sensor =>
    let m := (blockMode b).getD .carrier
    let raw := parseSensor m b
    let kept := match present with
      | .sensor d => if m = .attached then d.attachedTo else none
      | _ => none
    ⟨.sensor { raw.strip with attachedTo := kept },
      decide (m = .attached) && !decide (raw.coord = 0 ∧ raw.tol = 0 ∧ raw.depart = 0)⟩

/-- A field takes the order's value where its mask bit is set, and keeps the base's elsewhere
(R191). -/
def pick {α : Type} (mask n : Nat) (new base : α) : α := if mask.testBit n then new else base

/-- The mask gives a field past the `n` written fields of the kind, which is no field of it (R55 step 7,
R191). -/
def givesForeign (n mask : Nat) : Bool := decide (2 ^ n ≤ mask)

/-- Amend Element on a CHUTE base: bits in the order of R51's table, eleven fields. -/
def amendChute (mask : Nat) (d n : ChuteDef) : ChuteDef :=
  { coord := pick mask 0 n.coord d.coord, discharge := pick mask 1 n.discharge d.discharge,
    activeHigh := pick mask 2 n.activeHigh d.activeHigh, entryEye := pick mask 3 n.entryEye d.entryEye,
    fullEye := pick mask 4 n.fullEye d.fullEye, latency := pick mask 5 n.latency d.latency,
    pulse := pick mask 6 n.pulse d.pulse, winOpen := pick mask 7 n.winOpen d.winOpen,
    winClose := pick mask 8 n.winClose d.winClose, clearLimit := pick mask 9 n.clearLimit d.clearLimit,
    companions := pick mask 10 n.companions d.companions }

/-- Amend Element on a SENSOR base: bits in the order of R52's table, attached-to left out, six fields. -/
def amendSensor (mask : Nat) (d : SensorDef) (b : List Byte) : Candidate :=
  let m := pick mask 2 ((blockMode b).getD d.mode) d.mode
  let n := parseSensor m b
  let given (k : Nat) : Bool := mask.testBit k
  let merged : SensorDef :=
    { input := pick mask 0 n.input d.input, blockedHigh := pick mask 1 n.blockedHigh d.blockedHigh,
      mode := m, coord := pick mask 3 n.coord d.coord, tol := pick mask 4 n.tol d.tol,
      depart := pick mask 5 n.depart d.depart,
      attachedTo := if m = .attached then d.attachedTo else none }
  let misfit : Bool :=
    if m = .attached then given 3 || given 4 || given 5
    else decide (d.mode = .attached) && !(given 3 && given 4 && given 5)
  ⟨.sensor merged.strip, misfit || givesForeign 6 mask⟩

/-- Amend Element on a DRIVE base: bits in the order of R53's table, band min and max apart,
fourteen fields. -/
def amendDrive (mask : Nat) (d n : DriveDef) : DriveDef :=
  { run := pick mask 0 n.run d.run, reverse := pick mask 1 n.reverse d.reverse,
    activeHigh := pick mask 2 n.activeHigh d.activeHigh, tach := pick mask 3 n.tach d.tach,
    current := pick mask 4 n.current d.current, accel := pick mask 5 n.accel d.accel,
    hold := pick mask 6 n.hold d.hold, stop := pick mask 7 n.stop d.stop,
    rest := pick mask 8 n.rest d.rest, bandMin := pick mask 9 n.bandMin d.bandMin,
    bandMax := pick mask 10 n.bandMax d.bandMax, limit := pick mask 11 n.limit d.limit,
    filter := pick mask 12 n.filter d.filter, companions := pick mask 13 n.companions d.companions }

/-- The candidate of Amend Element, formed on `base` (R57, R58); a mask bit past the fields of the kind
gives a field that does not belong to it (R55 step 7). -/
def amendCandidate (base : Definition) (mask : Nat) (b : List Byte) : Candidate :=
  match base with
  | .none => ⟨.none, false⟩
  | .chute d => ⟨.chute (amendChute mask d (parseChute b)), givesForeign 11 mask⟩
  | .sensor d => amendSensor mask d b
  | .drive d => ⟨.drive (amendDrive mask d (parseDrive b)), givesForeign 14 mask⟩

/-- Amend Element gives a sensor a mode outside the list (R185 step 3). -/
def amendBadMode (base : Definition) (mask : Nat) (b : List Byte) : Bool :=
  match base with
  | .sensor _ => mask.testBit 2 && (blockMode b).isNone
  | _ => false

/-! ### Ranges (R51 to R53) -/

/-- Coordinates lie below this: L of the active geometry, 2,097,152 while N or P is unset. -/
def coordBound (g : Geometry) : Nat :=
  if g.carriers.isSome && g.pitch.isSome then g.length else 2097152

/-- `lo..hi` holds `v`. -/
def within (lo hi v : Nat) : Bool := decide (lo ≤ v) && decide (v ≤ hi)

/-- Every field of a CHUTE lies in its range (R51). Companions are judged at step 11 of R55. -/
def ChuteDef.inRange (g : Geometry) (d : ChuteDef) : Bool :=
  decide (d.coord < coordBound g) && within 0 1023 d.discharge && within 0 1023 d.entryEye
    && d.fullEye.all (within 0 1023) && within 0 65535 d.latency && within 1 255 d.pulse
    && within 0 3999 d.winOpen && within (d.winOpen + 1) 4000 d.winClose
    && within 1 4000 d.clearLimit && within 0 4 d.companions.length

/-- Every field of a SENSOR lies in its range (R52). -/
def SensorDef.inRange (g : Geometry) (d : SensorDef) : Bool :=
  within 0 1023 d.input && (decide (d.mode = .attached)
    || (decide (d.coord < coordBound g) && within 1 1023 d.tol && within 1 65535 d.depart))

/-- Every field of a DRIVE lies in its range (R53). -/
def DriveDef.inRange (d : DriveDef) : Bool :=
  within 0 1023 d.run && d.reverse.all (fun r => within 0 1023 r && decide (r ≠ d.run))
    && within 0 15 d.tach && d.current.all (within 0 15) && within 10 30000 d.accel
    && within 10 60000 d.hold && within 10 30000 d.stop && within 0 600000 d.rest
    && within 50 1000000 d.bandMin && within 50 1000000 d.bandMax && decide (d.bandMin < d.bandMax)
    && within 1 4095 d.limit && within 0 7 d.filter && within 0 4 d.companions.length

/-- Every field of a definition lies in its range. -/
def Definition.inRange (g : Geometry) : Definition → Bool
  | .none => true | .chute d => d.inRange g | .sensor d => d.inRange g | .drive d => d.inRange

/-- The positional fields (R67). -/
structure Positional where
  kind       : Kind
  mode       : Option Mode
  coord      : Option Nat
  outputs    : List Nat
  inputs     : List Nat
  tachs      : List Nat
  currents   : List Nat
  eyes       : List Nat
  companions : List Nat
  deriving DecidableEq, Repr

/-- The positional fields of a definition (R67). -/
def Definition.positional (d : Definition) : Positional :=
  { kind := d.kind, mode := d.mode, coord := d.coord?, outputs := d.outputs, inputs := d.inputs,
    tachs := d.tachs, currents := d.currents, eyes := d.eyes, companions := d.companions }

/-- A change from `old` to `new` is positional (R67): defining, removing, or a positional field with
a new value. -/
def positionalChange (old new : Definition) : Bool := decide (old.positional ≠ new.positional)

end Sys2Proof.Machine
end

