-- ==== Sys2Proof/Machine/Layout.lean ====
section
/-! DEFINITION. The byte layouts of replies and notices (R190, R191, R193 to R195): the code of every
enumerated value, the widths of fields, and the images of geometry, element record and context. -/

namespace Sys2Proof.Machine

open Sys2Proof

/-! ### Codes: the position of a value in the list that first defines it (R190) -/

/-- Element kinds (R50). -/
def kindCode : Kind → Nat
  | .none => 0 | .chute => 1 | .sensor => 2 | .drive => 3
/-- Sensor modes (R52). -/
def modeCode : Mode → Nat
  | .carrier => 0 | .article => 1 | .attached => 2
/-- Ring roles. -/
def roleCode : RingRole → Nat
  | .relay => 0 | .origin => 1
/-- Stations. -/
def stationCode : Station → Nat
  | .sta => 0 | .stb => 1
/-- Tracker states. -/
def trackCode : TrackState → Nat
  | .unset => 0 | .unhomed => 1 | .tracking => 2 | .faulted => 3
/-- Fault causes. -/
def faultCode : FaultCause → Nat
  | .slip => 0 | .reverse => 1 | .pitch => 2 | .encoder => 3
/-- Geometry events of a Track State notice (R10). -/
inductive GeometryEvent where
  | none | applied | discarded
  deriving DecidableEq, Repr
/-- Geometry events (R10). -/
def geometryCode : GeometryEvent → Nat
  | .none => 0 | .applied => 1 | .discarded => 2
/-- Ring states. -/
def ringCode : RingState → Nat
  | .good => 0 | .degraded => 1 | .lost => 2
/-- Ring causes (R39). -/
def ringCauseCode : RingCause → Nat
  | .errors => 0 | .silence => 1 | .restart => 2 | .role => 3 | .recovered => 4 | .count => 5
/-- Element states (R50). -/
def elStateCode : ElState → Nat
  | .empty => 0 | .unproven => 1 | .testing => 2 | .proven => 3 | .failed => 4 | .live => 5
  | .locked => 6
/-- Holders (R50). -/
def holderCode : Holder → Nat
  | .none => 0 | .sta => 1 | .stb => 2 | .line => 3
/-- Results (R64). -/
def resultCode : ProofResult → Nat
  | .passed => 0 | .failed => 1 | .aborted => 2 | .abandoned => 3 | .lineReported => 4
/-- Ending causes (R108). -/
def endCauseCode : EndCause → Nat
  | .count => 0 | .voids => 1 | .order => 2 | .lapse => 3
/-- Context states (R86). -/
def ctxStateCode : CtxState → Nat
  | .free => 0 | .paused => 1 | .running => 2 | .closing => 3
/-- Pause reasons (R86). -/
def reasonCode : PauseReason → Nat
  | .none => 0 | .stop => 1 | .ring => 2 | .track => 3 | .slow => 4 | .articles => 5 | .pool => 6
  | .drives => 7 | .rest => 8
/-- Trial phases (R86), numbered in one list over the three kinds (DESIGN CHOICE, log entry 17). -/
def phaseCode : Phase → Nat
  | .none => 0 | .aiming => 1 | .firing => 2 | .observing => 3 | .watching => 4 | .precheck => 5
  | .ramp => 6 | .hold => 7 | .stop => 8
/-- Void causes (R97). -/
def voidCode : VoidCause → Nat
  | .stop => 0 | .track => 1 | .ring => 2 | .geometry => 3 | .pacing => 4
/-- Fail codes, each in the list of its kind (R97). -/
def failCode (k : Kind) : FailCode → Nat
  | .early => 0 | .missed => 1
  | .entryBlocked => 2 | .chuteFull => 3 | .jam => 4 | .overflow => 5
  | .preset => 2 | .stuck => 3
  | .wiring => 0 | .loaded => 1 | .overcurrent => 2 | .noMotion => 3 | .underspeed => 4
  | .overspeed => 5 | .noStop => if k = .drive then 6 else 0
/-- Outcomes (R193). -/
def outcomeCode : TrialOutcome → Nat
  | .pass => 0 | .fail _ => 1 | .void _ => 2
/-- The fail code or void cause of an outcome (R193), 0 for a PASS. -/
def outcomeDetail (k : Kind) : TrialOutcome → Nat
  | .pass => 0 | .fail c => failCode k c | .void c => voidCode c
/-- Stimulus states (R146). -/
def stimStateCode : StimState → Nat
  | .none => 0 | .awaited => 1 | .departed => 2 | .cancelled => 3
/-- Map states (R91). -/
def reservationCode : Reservation → Nat
  | .free => 0 | .article _ => 1 | .suspect => 2
/-- Output sources (R41). -/
def sourceCode : Source → Nat
  | .pass => 0 | .test _ => 1 | .hold => 2
/-- Expectation kinds (R128). -/
def expKindCode : ExpKind → Nat
  | .arrive => 0 | .depart => 1 | .quiet => 2
/-- Bases (R128). -/
def baseCode : Base → Nat
  | .travel => 0 | .time => 1
/-- Window phases (R128). -/
def winPhaseCode : WinPhase → Nat
  | .waiting => 0 | .guard => 1 | .opened => 2 | .done => 3
/-- Roles (R128). -/
def entryRoleCode : Role → Nat
  | .entry => 0 | .full => 1 | .edge => 2 | .clear => 3
/-- Bit rates (R181). -/
def rateCode : BitRate → Nat
  | .r115200 => 0 | .r460800 => 1 | .r921600 => 2
/-- A set-or-clear item, and the flag of one that may be present or absent: 1 for set or present and 0 for clear
or absent, in a byte or a bit, a coding that the spec does not give (DESIGN CHOICE, log entry 17). -/
def boolCode (b : Bool) : Nat := if b then 1 else 0
/-- Levels HIGH and LOW in the order of R51. -/
def levelCode (high : Bool) : Nat := if high then 0 else 1
/-- ACTIVE and INACTIVE in the order of the stimulus record. -/
def stimValueCode : StimValue → Nat
  | .active => 0 | .inactive => 1

/-- Reason codes of a REFUSED reply (R189). -/
inductive Reason where
  | badOrder | notPermitted | range | notDefined | inUse | pointTaken | badCompanion | testing
  | live | lockedOut | held | notHolder | quieted | companionLive | attached | layoutFixed
  | layoutOpen | trackUnset | notFaulted | noContext | carrierBusy | articlesFull | busy
  deriving DecidableEq, Repr

/-- The code of a reason (R189). -/
def reasonByte : Reason → Nat
  | .badOrder => 0x01 | .notPermitted => 0x02 | .range => 0x03 | .notDefined => 0x04
  | .inUse => 0x05 | .pointTaken => 0x06 | .badCompanion => 0x07 | .testing => 0x08
  | .live => 0x09 | .lockedOut => 0x0A | .held => 0x0B | .notHolder => 0x0C | .quieted => 0x0D
  | .companionLive => 0x0E | .attached => 0x0F | .layoutFixed => 0x10 | .layoutOpen => 0x11
  | .trackUnset => 0x12 | .notFaulted => 0x13 | .noContext => 0x14 | .carrierBusy => 0x15
  | .articlesFull => 0x16 | .busy => 0x17

/-! ### Fields (R190) -/

/-- A field of `n` bytes; a value it cannot hold is carried as a free value (log entry 5). -/
def encInt (n : Nat) (v : Int) : List Byte :=
  if 0 ≤ v ∧ v < (256 ^ n : Nat) then be n v.toNat else be n (Config.outOfField n v)

/-- A field of `n` bytes with a natural number. -/
def enc (n v : Nat) : List Byte := encInt n v

/-- A T or U value (R190). -/
def enc48 (v : Int) : List Byte := encInt 6 v

/-- A deviation: four bytes, two's complement (R190). -/
def encDev (d : Int) : List Byte := be 4 (BitVec.ofInt 32 d).toNat

/-- An index, 0xFFFF where absent (R190). -/
def encIndex : Option Nat → List Byte
  | some v => be 2 v
  | none => [0xFF#8, 0xFF#8]

/-- A present-or-absent item: a flag, then its value, 0 where absent (R190). The flag is 1 where it is present
(DESIGN CHOICE, log entry 17). -/
def encOpt (n : Nat) : Option Nat → List Byte
  | some v => 1#8 :: enc n v
  | none => 0#8 :: be n 0

/-- A present-or-absent deviation with its flag (R190). -/
def encDevOpt : Option Int → List Byte
  | some d => 1#8 :: encDev d
  | none => 0#8 :: be 4 0

/-- A list: a count and its entries (R191). -/
def encList {α : Type} (f : α → List Byte) (l : List α) : List Byte :=
  be 1 l.length ++ l.flatMap f

/-- Exactly `n` bytes: cut, or filled with 0. -/
def padTo (n : Nat) (l : List Byte) : List Byte := l.take n ++ List.replicate (n - l.length) 0#8

/-- Bits of a flag byte, bit 0 first. -/
def flagByte (bits : List Bool) : Byte :=
  BitVec.ofNat 8 (bits.foldr (fun b n => 2 * n + boolCode b) 0)

/-! ### Replies (R190) -/

/-- An ACCEPTED body with its result fields. -/
def accepted (fields : List Byte) : List Byte := 0#8 :: fields

/-- What a REFUSED body names beside the reason (R81, R88, R190). -/
structure Blame where
  element : Option (Nat × ElState × Nat) := none
  carrier : Option (Nat × Reservation) := none
  deriving DecidableEq, Repr

/-- A REFUSED body (R190). -/
def refusedBody (r : Reason) (b : Blame := {}) : List Byte :=
  1#8 :: be 1 (reasonByte r)
    ++ (match b.element with
        | some (i, st, h) => be 2 i ++ be 1 (elStateCode st) ++ be 1 h
        | none => encIndex none ++ be 2 0)
    ++ (match b.carrier with
        | some (k, r) => be 2 k ++ be 1 (reservationCode r)
        | none => encIndex none ++ be 1 0)

/-! ### Geometry and tracker (R26) -/

/-- A geometry as written, unset fields absent (R26, R191). -/
def geometryImage (g : Geometry) : List Byte :=
  encOpt 2 g.carriers ++ encOpt 2 g.pitch ++ encOpt 3 g.home ++ encOpt 3 g.eye ++ enc 1 g.revAllow
    ++ enc 2 g.homeTol ++ enc 2 g.pitchTol ++ enc 2 g.vMin ++ enc 1 g.smooth ++ enc 2 g.setup

/-- The staged geometry with staged-valid for its flag; its bytes are 0 where none is staged (R26, R190). -/
def stagedImage : Option Geometry → List Byte
  | some g => 1#8 :: geometryImage g
  | none => be 25 0

/-- The detail of a fault record: 0 none, 1 an error with its value, 2 MISSING. The home error and the signed
phase error take 4 signed bytes, as a deviation does (DESIGN CHOICE, log entry 49). -/
def detailImage : FaultDetail → List Byte
  | .none => 0#8 :: be 4 0
  | .error e => 1#8 :: encDev e
  | .missing => 2#8 :: be 4 0

/-- The fault record, with a flag (R26). -/
def faultImage : Option FaultRecord → List Byte
  | some f => 1#8 :: enc 1 (faultCode f.cause) ++ enc48 f.time ++ detailImage f.detail
  | none => be 13 0

/-- The result fields of Read Track (R26). The errors of the correction history take 4 signed bytes (DESIGN
CHOICE, log entry 49). -/
def trackImage (s : State) : List Byte :=
  let t := s.tracker
  enc 1 (trackCode t.state) ++ faultImage t.fault ++ enc 3 t.pos
    ++ be 1 (boolCode (decide (t.state = .tracking))) ++ enc48 t.travel ++ enc 1 t.backlash
    ++ enc 3 t.speed ++ be 1 (boolCode t.moving) ++ geometryImage t.active
    ++ stagedImage t.staged
    ++ enc 1 t.illegal ++ enc 2 t.corrections
    ++ encList (fun r => encDev r.error ++ enc48 r.time ++ enc48 r.travel) t.history
    ++ enc 2 t.pitchTotal ++ enc 1 t.pitchRun ++ enc48 s.time

/-! ### Ring (R48, R49) -/

/-- The result fields of Read Ring (R48). -/
def ringImage (s : State) : List Byte :=
  let g := s.ring
  enc 1 (roleCode g.role) ++ enc 1 g.slots ++ enc 2 g.originPeriod ++ enc 2 g.nominal
    ++ enc 1 g.intervals.length ++ enc 1 (ringCode g.state) ++ enc 1 g.errors ++ enc 1 g.goodRun
    ++ enc 2 g.totalBadCrc ++ enc 2 g.totalSlot ++ enc 2 g.totalSequence ++ enc 2 g.totalNoReturn
    ++ encOpt 1 g.lastSeq ++ encOpt 6 g.returnDeadline ++ enc48 s.time

/-- The element whose present definition names output point `pt` (R41). A point that only a staged
amendment uses, which R54 reserves to its element, has no owner here (DESIGN CHOICE, log entry 40). -/
def State.ownerOf (s : State) (pt : Nat) : Option Nat :=
  (s.table.records.find? fun e => decide (pt ∈ e.2.definition.outputs)).map (·.1)

/-- One point of the INPUT space (R49). -/
def inputImage (s : State) (pt : Nat) : List Byte :=
  be 1 (boolCode (s.input pt).level) ++ enc48 (s.input pt).time ++ enc48 (s.input pt).travel

/-- One point of the OUTPUT space (R49). -/
def outputImage (s : State) (pt : Nat) : List Byte :=
  be 1 (sourceCode (s.source pt))
    ++ be 1 (match s.source pt with | .test c => c | _ => 0)
    ++ be 1 (boolCode (s.appliedLevel pt)) ++ encIndex (s.ownerOf pt)
    ++ (match s.stimulus pt with
        | some r => be 1 (stimValueCode r.value) ++ be 1 (boolCode r.awaited.isSome) ++ encOpt 6 r.pulseEnd
        | none => be 9 0)

/-- The result fields of Read Points (R49): the points of the run one after another, with no count before
them, the order having named it (DESIGN CHOICE, log entry 51). -/
def pointsImage (s : State) (space : Space) (first number : Nat) : List Byte :=
  (List.range number).flatMap fun i =>
    match space with
    | .input => inputImage s (first + i)
    | .output => outputImage s (first + i)

/-! ### Element record (R194) -/

/-- Four companion places. -/
def companionBytes (l : List Nat) : List Byte := padTo 8 (l.flatMap (be 2))

/-- The definition block, 36 bytes (R194). The attached-to bytes of a sensor that is not ATTACHED are 0xFFFF,
as for an absent index (DESIGN CHOICE, log entry 48). -/
def blockImage : Definition → List Byte
  | .none => be 36 0
  | .chute d =>
    padTo 36 (be 1 (boolCode d.activeHigh) ++ be 1 d.companions.length ++ be 3 d.coord
      ++ be 2 d.discharge ++ be 2 d.entryEye ++ encIndex d.fullEye ++ be 2 d.latency
      ++ be 1 d.pulse ++ be 2 d.winOpen ++ be 2 d.winClose ++ be 2 d.clearLimit
      ++ companionBytes d.companions)
  | .sensor d =>
    padTo 36 (be 1 (boolCode d.blockedHigh + 2 * modeCode d.mode) ++ be 1 0 ++ be 3 d.coord
      ++ be 2 d.input ++ encIndex d.attachedTo ++ be 2 d.tol ++ be 2 d.depart)
  | .drive d =>
    padTo 36 (be 1 (boolCode d.activeHigh) ++ be 1 d.companions.length ++ be 2 d.run
      ++ encIndex d.reverse ++ be 1 d.tach ++ be 1 (d.current.getD 0xFF) ++ be 2 d.accel
      ++ be 2 d.hold ++ be 2 d.stop ++ be 4 d.rest ++ be 3 d.bandMin ++ be 3 d.bandMax
      ++ be 2 d.limit ++ be 1 d.filter ++ be 1 0 ++ companionBytes d.companions)

/-- The summary image, 16 bytes, 0 where there is no summary (R194). -/
def summaryImage : Option Summary → List Byte
  | some m =>
    be 1 (resultCode m.result)
      ++ be 1 (match m.station with | some st => stationCode st | none => 2)
      ++ be 1 m.trials ++ be 1 m.passes ++ be 1 m.fails ++ be 1 m.voids ++ encDev m.worst
      ++ enc48 m.endTime
  | none => be 16 0

/-- The element record image, bytes 0 to 99 (R194). -/
def recordImage (s : State) (i : Nat) : List Byte :=
  let e := s.elem i
  be 2 i ++ be 1 (kindCode e.definition.kind) ++ be 1 (elStateCode e.state)
    ++ be 1 (holderCode e.holder) ++ be 1 e.holdCount ++ be 2 e.suppressed ++ be 2 e.proofCount
    ++ [flagByte [e.staged.isSome, e.summary.isSome, s.table.layoutFixed], 0#8]
    ++ blockImage e.definition ++ blockImage (e.staged.getD .none) ++ summaryImage e.summary

/-! ### Context (R195) -/

/-- The numbers of used entries on both lists. -/
def Monitor.used (m : Monitor) : List Nat := (m.travelList ++ m.timeList).map (·.num)

/-- The used entries of a context, travel list first (R144). -/
def Monitor.entriesOf (m : Monitor) (c : Nat) : List Entry :=
  (m.travelList ++ m.timeList).filter fun e => decide (e.ctx = c)

/-- Bytes 74 to 88 of part 1 (R195). The Machine Stop byte is 1 for asserted and 0 for released, a coding that
the spec does not give (DESIGN CHOICE, log entry 17). -/
def commonImage (s : State) : List Byte :=
  be 1 (boolCode s.engine.stop) ++ be 1 s.available ++ be 1 s.monitor.used.length
    ++ be 1 s.drives.limit ++ be 1 s.countedDrives ++ be 1 s.sched.spacing ++ be 2 s.sched.window
    ++ be 1 s.sched.allowed ++ enc48 s.time

/-- Bytes 3 to 73 of part 1 (R195). -/
def contextImage (x : Context) : List Byte :=
  be 1 (stationCode x.owner) ++ be 2 x.element ++ be 1 (kindCode x.kind)
    ++ be 1 (match x.mode with | some m => modeCode m | none => 0)
    ++ [flagByte [x.notice, x.reverse, x.worst.isSome, x.inFlight.isSome, x.restEnd.isSome,
        x.ending.isSome]]
    ++ be 1 x.claim.length ++ padTo 9 (x.claim.flatMap fun m => be 2 m.1 ++ be 1 (elStateCode m.2))
    ++ be 1 x.companions.length ++ companionBytes x.companions
    ++ be 1 x.k ++ be 1 x.tLim ++ be 1 x.trials ++ be 1 x.streak ++ be 1 x.fails ++ be 1 x.voids
    ++ be 1 x.limitVoids ++ encDev (x.worst.getD 0) ++ be 1 (phaseCode x.phase)
    ++ be 1 x.articles.length ++ padTo 16 (x.articles.flatMap (be 2)) ++ encIndex x.inFlight
    ++ be 1 (boolCode x.cueHeld) ++ be 1 x.allowance ++ enc 6 (x.restEnd.getD 0)
    ++ be 1 x.settle.length ++ padTo 4 (x.settle.flatMap (be 2))
    ++ (match x.ending with
        | some (r, c) => be 1 (resultCode r) ++ be 1 (endCauseCode c)
        | none => be 2 0)

/-- Part 1, 89 bytes (R195). -/
def partOne (s : State) (c : Nat) : List Byte :=
  let x := s.ctx c
  be 1 c ++ be 1 (ctxStateCode x.state) ++ be 1 (reasonCode x.reason)
    ++ (if x.state = .free then be 71 0 else contextImage x) ++ commonImage s

/-- A record of the trial history, 12 bytes (R195). -/
def outcomeImage (k : Kind) (r : OutcomeRecord) : List Byte :=
  be 1 (outcomeCode r.outcome) ++ be 1 (outcomeDetail k r.outcome) ++ encDev (r.deviation.getD 0)
    ++ enc48 r.time

/-- Part 2, 146 bytes (R195). -/
def partTwo (s : State) (c : Nat) : List Byte :=
  let x := s.ctx c
  let h := if x.state = .free then [] else x.history
  be 1 h.length ++ padTo 96 (h.flatMap (outcomeImage x.kind))
    ++ be 1 s.sched.history.length ++ padTo 48 (s.sched.history.flatMap enc48)

/-- The cue of a context, 20 bytes with its flag (R110, R195). -/
def cueImage : Option Cue → List Byte
  | some q =>
    1#8 :: be 2 q.element ++ enc48 q.due ++ be 2 q.point ++ be 1 (levelCode q.activeHigh)
      ++ be 1 q.width ++ be 2 q.carrier ++ encInt 3 q.lead ++ be 1 q.retries
      ++ be 1 (boolCode q.aimed)
  | none => be 20 0

/-- An expectation entry, 50 bytes (R128, R195). -/
def entryImage (e : Entry) : List Byte :=
  be 1 e.num ++ be 1 e.ctx ++ be 2 e.point ++ be 1 (expKindCode e.kind) ++ be 1 (boolCode e.level)
    ++ be 1 (baseCode e.base) ++ enc48 e.guardAt ++ enc48 e.openAt ++ enc48 e.closeAt
    ++ enc48 e.nominal ++ be 1 (winPhaseCode e.phase) ++ be 1 (entryRoleCode e.role)
    ++ (match e.template with
        | some t =>
          1#8 :: be 1 (expKindCode t.kind) ++ be 1 (boolCode t.level) ++ be 1 (baseCode t.base)
            ++ be 1 (entryRoleCode t.role) ++ enc 3 t.openOff ++ enc 3 t.closeOff
        | none => be 11 0)
    ++ (match e.prior with
        | some (r, d) => 1#8 :: be 1 (entryRoleCode r) ++ encDev d
        | none => be 6 0)

/-- The trial record of a context (R146, R156, R173) and, for a drive, its channel values (R180). -/
def trialImage (s : State) (x : Context) : List Byte :=
  match x.trial with
  | .none => []
  | .chute r =>
    be 2 r.carrier ++ be 1 (stimStateCode r.stim) ++ encOpt 6 r.tStim ++ encDevOpt r.entryDev
      ++ encDevOpt r.dwell ++ be 1 (boolCode r.clearMet)
      ++ be 1 (match r.fullMet with | some false => 0 | some true => 1 | none => 2)
  | .sensor r =>
    encIndex r.carrier ++ be 2 r.expected ++ enc 3 r.distance ++ encDevOpt r.edgeDev
      ++ encDevOpt r.dwell
  | .drive r =>
    enc 6 r.phaseStart ++ encOpt 6 r.phaseDeadline ++ encOpt 6 r.quietStart
      ++ encOpt 6 r.motionDeadline ++ be 1 (stimStateCode r.stim) ++ encOpt 2 r.assisted
      ++ encOpt 2 r.plain ++ be 2 r.captures ++ encOpt 3 r.farthest ++ enc 3 r.peak
      ++ (match s.driveDef x.element with
          | some d =>
            enc 3 (s.tachChan d.tach).period ++ enc 6 (s.tachChan d.tach).lastEdge
              ++ (match d.current with
                  | some ch =>
                    let q := s.currentChan ch
                    be 2 q.sample ++ enc 6 q.sampleTime ++ enc 3 q.y
                  | none => [])
          | none => [])

/-- Part 3 (R195). -/
def partThree (s : State) (c : Nat) : List Byte :=
  let x := s.ctx c
  let es := s.monitor.entriesOf c
  cueImage (s.sched.cues.find? fun q => decide (q.ctx = c)) ++ be 1 es.length
    ++ padTo 100 (es.flatMap entryImage) ++ trialImage s x

/-- The bodies of the reply to Read Context: disposition, part byte, part (R195). -/
def contextBodies (s : State) (c : Nat) : List (List Byte) :=
  if (s.ctx c).state = .free then
    [accepted (0x12#8 :: partOne s c), accepted (0x22#8 :: partTwo s c)]
  else
    [accepted (0x13#8 :: partOne s c), accepted (0x23#8 :: partTwo s c),
      accepted (0x33#8 :: partThree s c)]

/-! ### Reservations and ports (R93, R189, R191) -/

/-- One carrier of the run: bits 4–5 the map state, bits 0–3 the context (R191). -/
def reservationByte (r : Reservation) : Byte :=
  BitVec.ofNat 8 (16 * reservationCode r + match r with | .article c => c | _ => 0)

/-- The result fields of Read Reservations (R93, R191). -/
def reservationsImage (s : State) (n first number : Nat) : List Byte :=
  let held (f : Reservation → Bool) : Nat := (s.engine.carriers.filter fun e => f e.2).length
  enc 2 n ++ enc 2 (held fun r => match r with | .article _ => true | _ => false)
    ++ enc 2 (held fun r => decide (r = .suspect))
    ++ (List.range number).map fun i => reservationByte (s.carrier (first + i))

/-- The result fields of Read Port (R189). The count of frames is that of the queue before the reply joins it
(DESIGN CHOICE, log entry 50). -/
def portImage (s : State) (p : Port) : List Byte :=
  let l := s.link p
  enc 2 l.rxErrors ++ enc 2 l.overflow ++ enc 2 l.dropped ++ enc 1 l.queue.length ++ enc 1 l.seq
    ++ (match portStation p with
        | some st =>
          let x := s.staLink st
          be 1 (rateCode x.rate) ++ enc 1 x.lapse ++ enc48 x.lastFrame ++ encList (be 2) x.watch
        | none => [])

/-! ### Notices (R193) -/

/-- Body of a Track State notice. The fault cause takes 1 byte with no flag before it, 0 (also the code of SLIP)
where there is no fault: R10 carries it 'if any', R190 has a flag with such an item, and R193 names none (DESIGN
CHOICE, log entry 55). -/
def trackNotice (s : State) (ev : GeometryEvent) : List Byte :=
  be 1 (trackCode s.tracker.state)
    ++ be 1 (match s.tracker.fault with | some f => faultCode f.cause | none => 0)
    ++ be 1 (geometryCode ev) ++ enc48 s.time

/-- Body of a Ring State notice. -/
def ringNotice (s : State) (prev : RingState) (cause : RingCause) : List Byte :=
  be 1 (ringCode s.ring.state) ++ be 1 (ringCode prev) ++ be 1 (ringCauseCode cause)
    ++ enc 1 s.ring.errors ++ be 1 (roleCode s.ring.role) ++ enc48 s.time

/-- Body of a Point Change notice. -/
def pointNotice (pt : Nat) (level : Bool) (t u : Nat) : List Byte :=
  be 2 pt ++ be 1 (boolCode level) ++ enc48 t ++ enc48 u

/-- Body of a Trial Outcome notice, for context `c` as `x` after the count. The deviation takes 4 bytes with no
flag before them, 0 where it is absent: R193 names a flag for the dwell alone, where R190 has one with every
item that may be absent (DESIGN CHOICE, log entry 54). The code or cause has no flag either, and is 0 for a PASS
(DESIGN CHOICE, log entry 55). -/
def outcomeNotice (c : Nat) (x : Context) (r : OutcomeRecord) (dwell : Option Int) : List Byte :=
  be 1 c ++ be 2 x.element ++ be 1 (outcomeCode r.outcome) ++ be 1 (outcomeDetail x.kind r.outcome)
    ++ encDev (r.deviation.getD 0) ++ encDevOpt dwell ++ enc48 r.time ++ be 1 x.trials
    ++ be 1 x.streak ++ be 1 x.fails ++ be 1 x.voids

/-- Body of a Proof Ended notice. -/
def endedNotice (c element : Nat) (result : ProofResult) (cause : EndCause) (m : Option Summary)
    (freed : Nat) (suspect : Option Nat) : List Byte :=
  be 1 c ++ be 2 element ++ be 1 (resultCode result) ++ be 1 (endCauseCode cause) ++ summaryImage m
    ++ be 1 freed ++ encIndex suspect

/-- Body of a Station Lapsed notice. -/
def lapsedNotice (st : Station) (ended t : Nat) : List Byte :=
  be 1 (stationCode st) ++ be 1 ended ++ enc48 t

end Sys2Proof.Machine
end

