-- ==== Sys2Proof/Machine/Links.lean ====
section
/-! DEFINITION. Notices, replies and the taking of an order (R185, R186, R189). -/

namespace Sys2Proof.Machine

open Sys2Proof

/-- A notice of KIND `kind` to port `p` (R186): its TAG is the port's notice sequence, which
advances also when a full queue drops the notice. -/
def pushNotice (p : Port) (kind : Nat) (body : List Byte) (s : State) : State :=
  s.mapLink p fun l =>
    if l.queue.length < queueCap p then
      { l with
        queue := l.queue ++ [{ kind := BitVec.ofNat 8 kind, tag := BitVec.ofNat 8 l.seq, body := body }]
        seq := (l.seq + 1) % 256 }
    else { l with dropped := capAdd 65535 l.dropped 1, seq := (l.seq + 1) % 256 }

/-- A notice to all three ports, each independently (R186). -/
def noticeAll (kind : Nat) (body : List Byte) (s : State) : State :=
  pushNotice .line kind body (pushNotice .stb kind body (pushNotice .sta kind body s))

/-- Frames of a reply join the tail of a port's queue (R185). Where a BAD_ORDER answers a KIND of 0x80 or
above, the reply's KIND is the sum modulo 256 (DESIGN CHOICE, log entry 47). -/
def queueReply (p : Port) (kind : Nat) (tag : Byte) (bodies : List (List Byte)) (s : State) : State :=
  s.mapLink p fun l =>
    { l with
      queue := l.queue ++ bodies.map fun b => { kind := BitVec.ofNat 8 (kind + 0x80), tag := tag, body := b } }

/-- MISO carries 0x00 throughout a write transfer of the Line Port (R184). -/
def misoZero (s : State) : State := s.mapLinks fun l => { l with miso := [] }

/-- A good frame on port `p`: a Station Port's receiver is back in HUNTING and its last-frame time
is the arrival T, which sets a new lapse deadline (R83, R84, R183, R185). On the Line Port it came in a
write transfer (R184). -/
def goodFrame (p : Port) (s : State) : State :=
  match portStation p with
  | some st =>
    s.mapSta st fun x => { x with rx := .hunting, lastFrame := s.time, lapseJudged := false }
  | none => misoZero s

/-- The port's queue has `n` free places (R185). -/
def hasRoom (p : Port) (n : Nat) (s : State) : Bool :=
  decide ((s.link p).queue.length + n ≤ queueCap p)

/-- The order is dropped for want of room: the overflow count rises (R185). -/
def dropOrder (p : Port) (s : State) : State :=
  s.mapLink p fun l => { l with overflow := capAdd 65535 l.overflow 1 }

/-- The ports of KINDs 0x01..0x11 (R189). -/
def fromStation : Port → Bool
  | .line => false | _ => true

/-- The port of KINDs 0x12..0x16 (R189). -/
def fromLine : Port → Bool
  | .line => true | _ => false

/-- Runs an order's effect with its reply's place in the queue kept before every notice of the
effect, and then puts the reply the effect gives into that place (R185). -/
def replyWith (p : Port) (kind : Nat) (tag : Byte) (eff : State → State × List Byte) (s : State) :
    State :=
  let place := (s.link p).queue.length
  let r := eff (queueReply p kind tag [[]] s)
  r.1.mapLink p fun l =>
    { l with
      queue := l.queue.set place { kind := BitVec.ofNat 8 (kind + 0x80), tag := tag, body := r.2 } }

/-- Taking an order that changes state (R185): good frame, room for one reply, privilege, and then
the order's own checks and effect, which give the reply body. -/
def takeOrder (p : Port) (permitted : Port → Bool) (kind : Nat) (tag : Byte)
    (eff : State → State × List Byte) (s : State) : State :=
  let s := goodFrame p s
  if !hasRoom p 1 s then dropOrder p s
  else if !permitted p then queueReply p kind tag [refusedBody .notPermitted] s
  else replyWith p kind tag eff s

/-- Taking an order that changes no state, permitted from every port: the reply's frames are formed
from the state as it stands when the order is taken (R185, R189). The queue count that Read Port gives of its
own port so leaves its reply out (DESIGN CHOICE, log entry 50). -/
def takeRead (p : Port) (kind room : Nat) (tag : Byte) (read : State → List (List Byte)) (s : State) :
    State :=
  let s := goodFrame p s
  if !hasRoom p room s then dropOrder p s else queueReply p kind tag (read s) s

/-- A refusal that changes nothing. -/
def refuse (s : State) (r : Reason) (b : Blame := {}) : State × List Byte := (s, refusedBody r b)

/-- The blame of element `i` with its state and hold count as found (R81). -/
def blameElem (s : State) (i : Nat) : Blame :=
  { element := some (i, (s.elem i).state, (s.elem i).holdCount) }

end Sys2Proof.Machine
end

