-- ==== Sys2Proof/Machine/Stimuli.lean ====
section
/-! DEFINITION. Output sources and stimulus records (R41, R42, R45, R47). -/

namespace Sys2Proof.Machine

open Sys2Proof

/-- The source that output point `pt` takes from the state and hold count of its element (R42). -/
def State.sourceOf (s : State) (pt : Nat) : Source :=
  match s.ownerOf pt with
  | none => .pass
  | some i =>
    if (s.elem i).state = .testing then
      match s.ctxOfElem i with | some c => .test c | none => .pass
    else if 0 < (s.elem i).holdCount then .hold
    else .pass

/-- Derives the source of one point afresh. A point that enters TEST receives a record with value
INACTIVE; one that leaves TEST loses its record with any awaited change or running pulse (R42). -/
def derivePoint (s : State) (pt : Nat) : State :=
  let new := s.sourceOf pt
  let kept := decide (s.source pt = new)
  let s := s.mapRing fun g => { g with sources := Table.set .pass g.sources pt new }
  match new with
  | .test _ => if kept then s else s.setStimulus pt (some {})
  | _ => s.setStimulus pt none

/-- Derives the sources of several points afresh. -/
def deriveSources (pts : List Nat) (s : State) : State := pts.foldl derivePoint s

/-- The output points of several elements. -/
def outputsOf (s : State) (is : List Nat) : List Nat :=
  is.flatMap fun i => (s.elem i).definition.outputs

/-- A stimulus request for point `pt` on behalf of context `c` (R45). The Boolean is false where the
request is cancelled at once, with cause RING (ring in LOST) or SOURCE (point not TEST for `c`). -/
def requestStimulus (c pt : Nat) (ch : StimChange) (s : State) : State × Bool :=
  if s.ring.state = .lost then (s, false)
  else if s.source pt ≠ .test c then (s, false)
  else
    match s.stimulus pt with
    | some r => (s.setStimulus pt (some { r with awaited := some (c, ch) }), true)
    | none => (s, false)

/-- Asks for the level INACTIVE on several points; the points whose request was taken come with the
state. -/
def askInactive (c : Nat) (pts : List Nat) (s : State) : State × List Nat :=
  pts.foldl
    (fun acc pt =>
      let r := requestStimulus c pt (.level .inactive) acc.1
      (r.1, if r.2 then acc.2 ++ [pt] else acc.2))
    (s, [])

/-- Clears the awaited change of one point. -/
def clearAwaited (s : State) (pt : Nat) : State :=
  match s.stimulus pt with
  | some r => s.setStimulus pt (some { r with awaited := none })
  | none => s

/-- Cancels the awaited changes of a context's points without report (R47, R102 step 3). -/
def cancelAwaited (c : Nat) (s : State) : State := (s.testPoints c).foldl clearAwaited s

/-- The TEST points of a context whose present value is ACTIVE. -/
def State.activePoints (s : State) (c : Nat) : List Nat := (s.testPoints c).filter s.stimActive

/-- The TEST points of a context that are ACTIVE or have a change awaited (R101 step 3, R174). -/
def State.stirredPoints (s : State) (c : Nat) : List Nat :=
  (s.testPoints c).filter fun pt => s.stimActive pt || s.stimAwaited pt

end Sys2Proof.Machine
end

