-- ==== Sys2Proof/Machine/Trials.lean ====
section
/-! DEFINITION. The end of a trial (R102), its counting (R97 to R99), and the closing sequence of a
proof with the application of staged amendments and the release of the claim (R63, R74, R107,
R108). The check of the paused contexts that these changes call for is marked as owed and made by
the caller (`runChecks`). -/

namespace Sys2Proof.Machine

open Sys2Proof

/-! ### Definitions that take effect (R57, R63) -/

/-- Sets the attached-to field of an ATTACHED sensor. A record that is none has no such field and stands: so
also that of a sensor which the order itself turns into a chute that names it as eye, of which the spec does not
say what is attached (DESIGN CHOICE, log entry 58). -/
def setAttached (v : Option Nat) (s : State) (i : Nat) : State :=
  match (s.elem i).definition with
  | .sensor d =>
    if d.mode = .attached then
      s.mapElem i fun e => { e with definition := .sensor { d with attachedTo := v } }
    else s
  | _ => s

/-- A new definition keeps the attached-to field of an ATTACHED sensor, which no order writes
(R52). -/
def keepAttached (old new : Definition) : Definition :=
  match old, new with
  | .sensor o, .sensor n =>
    .sensor { n with attachedTo := if n.mode = .attached then o.attachedTo else none }
  | _, .sensor n => .sensor { n with attachedTo := none }
  | _, d => d

/-- A definition takes effect for element `i`: the eyes of the old one are released and those of the
new one take this chute as attached-to (R57, R59, R63 step 2). -/
def installDefinition (i : Nat) (d : Definition) (s : State) : State :=
  let old := (s.elem i).definition
  let s := old.eyes.foldl (setAttached none) s
  let s := s.mapElem i fun e => { e with definition := keepAttached old d }
  d.eyes.foldl (setAttached (some i)) s

/-! ### The end of a trial (R102) -/

/-- The current channel of the drive a context proves, if it proves one and it has one. -/
def State.ctxCurrent (s : State) (x : Context) : Option Nat :=
  if x.kind = .drive then (s.driveDef x.element).bind (·.current) else none

/-- The rest end of an outcome taken now (R102 step 6). -/
def State.restAfter (s : State) (x : Context) : Option Nat :=
  match s.driveDef x.element with
  | some d => if d.rest = 0 then none else some (s.time + d.rest * 1000)
  | none => none

/-- An ARTICLE sensor's trial carrier moves from the head of the list to its tail (R162). -/
def rotate (l : List Nat) : List Nat :=
  match l with
  | [] => []
  | k :: t => t ++ [k]

/-- The context's items after the end of its trial (R102 steps 1, 2, 6, 7); `o` is absent where the
trial ends without an outcome, and the rest end then stands as it was, there being no T of an outcome
(DESIGN CHOICE, log entry 42). -/
def endedContext (x : Context) (o : Option TrialOutcome) (rest : Option Nat) : Context :=
  { x with
    cueHeld := false
    allowance := 0
    restEnd := if x.kind = .drive && o.isSome then rest else x.restEnd
    phase := .none
    trial := .none
    inFlight := none
    lastSuspect := if o = some .pass then none else x.inFlight
    articles := if x.mode = some .article && o.isSome then rotate x.articles else x.articles }

/-- A carrier in flight becomes FREE on a PASS and stays SUSPECT otherwise (R102 step 7, R153). -/
def settleCarrier (x : Context) (o : Option TrialOutcome) (s : State) : State :=
  match x.inFlight with
  | some k => if o = some .pass then s.setCarrier k .free else s
  | none => s

/-- Every entry of context `c` is freed (R142). -/
def Monitor.endCtx (m : Monitor) (c : Nat) : Monitor :=
  { travelList := m.travelList.filter fun e => decide (e.ctx ≠ c)
    timeList := m.timeList.filter fun e => decide (e.ctx ≠ c) }

/-- The end of the trial of context `c` (R102), with its outcome or without one. -/
def endTrial (c : Nat) (o : Option TrialOutcome) (s : State) : State :=
  let x := s.ctx c
  let s := s.mapSched fun q => { q with cues := q.cues.filter fun u => decide (u.ctx ≠ c) }
  let s := s.mapMonitor fun m => m.endCtx c
  let s := cancelAwaited c s
  let s := (askInactive c (s.activePoints c) s).1
  let s := match s.ctxCurrent x with
    | some ch => s.mapDrives fun d => { d with scanSet := d.scanSet.filter fun n => decide (n ≠ ch) }
    | none => s
  let s := settleCarrier x o s
  (s.setCtx c (endedContext x o (s.restAfter x))).oweCheck

/-! ### The end of a proof (R63, R74, R107, R108) -/

/-- The state that a result gives a member of the claim set (R74). -/
def releasedState (r : ProofResult) (named : Bool) (prior : ElState) : ElState :=
  match r with
  | .passed => .proven
  | .failed => if named then .failed else prior
  | _ => prior

/-- The summary a context's proof leaves (R64, R108 step 1). -/
def contextSummary (x : Context) (r : ProofResult) (t : Nat) : Summary :=
  { result := r, station := some x.owner, trials := x.trials, passes := x.trials - x.fails,
    fails := x.fails, voids := x.voids, worst := x.worst.getD 0, endTime := t }

/-- Step 2 of R63: the staged amendments of the claim set replace the present definitions. -/
def applyStaged (members : List Nat) (s : State) : State :=
  members.foldl
    (fun s i =>
      match (s.elem i).staged with
      | some d => (installDefinition i d s).mapElem i fun e => { e with staged := none }
      | none => s)
    s

/-- Steps 3 and 4 of R63 for one member: the state of the result (R74), or UNPROVEN where a staged
amendment of the member, or of an eye of the chute, was applied; no holder. -/
def releaseMember (x : Context) (r : ProofResult) (changed : List Nat) (s : State)
    (m : Nat × ElState) : State :=
  let named := decide (m.1 = x.element)
  let unproven := decide (m.1 ∈ changed) || (named && decide (x.kind = .chute) && !changed.isEmpty)
  s.mapElem m.1 fun e =>
    { e with
      state := if unproven then .unproven else releasedState r named m.2
      holder := .none }

/-- Lowers the hold count of a companion (R74). -/
def lowerHold (s : State) (i : Nat) : State :=
  s.mapElem i fun e => { e with holdCount := e.holdCount - 1 }

/-- The second part of the closing sequence (R108), steps 1 to 5; step 6 is owed. -/
def secondPart (c : Nat) (s : State) : State :=
  let x := s.ctx c
  let r := (x.ending.map (·.1)).getD .aborted
  let cause := (x.ending.map (·.2)).getD .order
  let m := contextSummary x r s.time
  let s := s.mapElem x.element fun e =>
    { e with summary := some m, proofCount := capAdd 65535 e.proofCount 1 }
  let members := x.claim.map (·.1)
  let involved := members ++ x.companions
  let before := outputsOf s involved
  let changed := members.filter fun i => (s.elem i).staged.isSome
  let s := applyStaged members s
  let s := x.claim.foldl (releaseMember x r changed) s
  let s := x.companions.foldl lowerHold s
  let s := deriveSources (before ++ outputsOf s involved) s
  let s := s.setCarriers x.articles .free
  let s := pushNotice (stationPort x.owner) 0x60
    (endedNotice c x.element r cause (some m) x.articles.length x.lastSuspect) s
  (s.setCtx c {}).oweCheck

/-- The context enters CLOSING with a result and its cause, and runs the first part of the closing
sequence (R107); with an empty settle set the second part follows at once. -/
def enterClosing (c : Nat) (r : ProofResult) (cause : EndCause) (s : State) : State :=
  let s := if (s.ctx c).phase = .none then cancelAwaited c s else endTrial c none s
  let asked := askInactive c (s.activePoints c) s
  let s := asked.1.mapCtx c fun x =>
    { x with state := .closing, reason := .none, ending := some (r, cause), settle := asked.2 }
  if asked.2.isEmpty then secondPart c s else s

/-- A point leaves the settle set of a context in CLOSING; with the last one the second part runs
(R107). -/
def settlePoint (c pt : Nat) (s : State) : State :=
  let x := s.ctx c
  if x.state = .closing ∧ pt ∈ x.settle then
    let left := x.settle.filter fun q => decide (q ≠ pt)
    let s := s.setCtx c { x with settle := left }
    if left.isEmpty then secondPart c s else s
  else s

/-! ### Outcomes (R97 to R99) -/

/-- The worst deviation after a counted trial (R98). -/
def worseOf (worst : Option Int) (d : Option Int) : Option Int :=
  match worst, d with
  | w, none => w
  | none, some d => some d
  | some w, some d => if w.natAbs < d.natAbs then some d else some w

/-- The counts after an outcome (R98). -/
def countOutcome (x : Context) (o : TrialOutcome) (d : Option Int) : Context :=
  match o with
  | .pass => { x with trials := x.trials + 1, streak := x.streak + 1, worst := worseOf x.worst d }
  | .fail _ =>
    { x with trials := x.trials + 1, fails := x.fails + 1, streak := 0, worst := worseOf x.worst d }
  | .void .stop => { x with voids := capAdd 63 x.voids 1 }
  | .void _ => { x with voids := capAdd 63 x.voids 1, limitVoids := x.limitVoids + 1 }

/-- How the proof goes on after an outcome is counted (R99): it ends with a result and a cause, or
continues. -/
def decideProof (x : Context) (o : TrialOutcome) : Option (ProofResult × EndCause) :=
  match o with
  | .void _ => if 8 ≤ x.limitVoids then some (.abandoned, .voids) else none
  | _ =>
    if x.streak = x.k then some (.passed, .count)
    else if x.streak + (x.tLim - x.trials) < x.k then some (.failed, .count)
    else none

/-- The dwell that a Trial Outcome notice carries (R97 step 4). -/
def noticeDwell (x : Context) (o : TrialOutcome) : Option Int :=
  match o, x.trial with
  | .pass, .chute r => r.dwell
  | .pass, .sensor r => r.dwell
  | _, _ => none

/-- An outcome of the trial of context `c` (R97), with its deviation. It is not taken where the
context is not RUNNING. The check that follows is owed. -/
def takeOutcome (c : Nat) (o : TrialOutcome) (d : Option Int) (s : State) : State :=
  let x := s.ctx c
  if x.state ≠ .running then s
  else
    let s := endTrial c (some o) s
    let rec1 : OutcomeRecord := { outcome := o, deviation := d, time := s.time }
    let s := s.mapCtx c fun y =>
      countOutcome { y with history := pushTail 8 y.history rec1 } o d
    let y := s.ctx c
    let s := if y.notice then
        pushNotice (stationPort y.owner) 0x61 (outcomeNotice c y rec1 (noticeDwell x o)) s
      else s
    match decideProof y o with
    | some (r, cause) => enterClosing c r cause s
    | none => (s.mapCtx c fun z => { z with state := .paused, reason := .none }).oweCheck

end Sys2Proof.Machine
end

