-- ==== Sys2Proof/Machine/Windows.lean ====
section
/-! DEFINITION. The Expectation Monitor: insertion, examination, the judging of edges, verdicts and
conversion (R128 to R143), with what the Proof Engine makes of a verdict (R139, R140, R151, R160)
and the departure of a discharge (R149, R150). -/

namespace Sys2Proof.Machine

open Sys2Proof

/-! ### The two lists (R127, R129) -/

/-- An entry joins a list in ascending order of close, after every entry of equal close (R129). -/
def insertByClose (e : Entry) : List Entry → List Entry
  | [] => [e]
  | x :: l => if x.closeAt ≤ e.closeAt then x :: insertByClose e l else e :: x :: l

/-- The used entry of number `n`. -/
def Monitor.find (m : Monitor) (n : Nat) : Option Entry :=
  (m.travelList ++ m.timeList).find? fun e => decide (e.num = n)

/-- Takes entry `n` off its list. -/
def Monitor.drop (m : Monitor) (n : Nat) : Monitor :=
  { travelList := m.travelList.filter fun e => decide (e.num ≠ n)
    timeList := m.timeList.filter fun e => decide (e.num ≠ n) }

/-- An entry joins the list of its base (R129). -/
def Monitor.join (m : Monitor) (e : Entry) : Monitor :=
  match e.base with
  | .travel => { m with travelList := insertByClose e m.travelList }
  | .time => { m with timeList := insertByClose e m.timeList }

/-- Sets the phase of entry `n` in its place. -/
def Monitor.setPhase (m : Monitor) (n : Nat) (ph : WinPhase) : Monitor :=
  let f := fun (e : Entry) => if e.num = n then { e with phase := ph } else e
  { travelList := m.travelList.map f, timeList := m.timeList.map f }

/-- The lowest-numbered free entry of the 24 (R127, R130). -/
def Monitor.lowestFree (m : Monitor) : Option Nat :=
  (List.range 24).find? fun n => decide (n ∉ m.used)

/-! ### Phases and verdicts (R131 to R137) -/

/-- The present position in a base (R130). -/
def State.position (s : State) : Base → Int
  | .travel => s.tracker.travel
  | .time => s.time

/-- The phase of an entry at a position (R131). A passed close leaves OPEN to the close verdict. -/
def Entry.phaseAt (e : Entry) (p : Int) : WinPhase :=
  if p < e.guardAt then .waiting else if p < e.openAt then .guard else .opened

/-- Failing verdicts (R140). -/
inductive Failing where
  | preset | early | missed | stuck | disturbed
  deriving DecidableEq, Repr

/-- A verdict: MET with its deviation and its match in both bases (R137, R138), or a failing one. -/
inductive Verdict where
  | met (dev : Int) (time travel : Int)
  | failing (v : Failing)
  deriving DecidableEq, Repr

/-- A MET whose match is the present position, with deviation 0 (R133, R136). -/
def State.metHere (s : State) : Verdict := .met 0 s.time s.tracker.travel

/-- The opening check, with the level of the point (R133). -/
def openingCheck (s : State) (e : Entry) (level : Bool) : Option Verdict :=
  match e.kind with
  | .arrive => if level = e.level then some (.failing .preset) else none
  | .depart => if level = e.level then none else some s.metHere
  | .quiet => none

/-- The close verdict (R136). -/
def closeVerdict (s : State) (e : Entry) : Verdict :=
  match e.kind with
  | .arrive => .failing .missed
  | .depart => .failing .stuck
  | .quiet => s.metHere

/-- One examination of an entry: its phase and its verdict, if any (R132). -/
def inspect (s : State) (e : Entry) : WinPhase × Option Verdict :=
  let p := s.position e.base
  let ph := e.phaseAt p
  let check := if ph = .opened ∧ e.phase ≠ .opened then openingCheck s e (s.input e.point).level else none
  (ph, if check.isSome then check else if e.closeAt < p then some (closeVerdict s e) else none)

/-- The judgement of an edge to `level` whose stamps fall in the open region (R134). -/
def judgeOpen (e : Entry) (level : Bool) (t u : Nat) : Option Verdict :=
  let stamp : Int := match e.base with | .travel => u | .time => t
  match e.kind with
  | .arrive => if level = e.level then some (.met (stamp - e.nominal) t u) else none
  | .depart => if level = e.level then none else some (.met (stamp - e.nominal) t u)
  | .quiet => some (.failing .disturbed)

/-- The edge with stamps `t` and `u` falls together with the start of the sensor trial of EDGE window `e`, whose
guard starts at that very U: it has the T of the start, and the nominal point lies d ahead of it (R164; that to
fall together is to have one T and one U is DEDUCED, log entry 45). -/
def State.withStart (s : State) (e : Entry) (t u : Nat) : Bool :=
  match (s.ctx e.ctx).trial with
  | .sensor r =>
    decide (e.role = .edge ∧ r.start = t ∧ e.guardAt = u ∧ e.nominal = (u : Int) + r.distance)
  | _ => false

/-- What an edge does to one entry: its phase and its verdict, if any (R134, R135). An edge that falls together
with the start of a sensor trial lies before the guard, also where the guard starts at its very U (R164). -/
def judge (s : State) (e : Entry) (level : Bool) (t u : Nat) : WinPhase × Option Verdict :=
  let stamp : Int := match e.base with | .travel => u | .time => t
  if stamp < e.guardAt ∨ e.closeAt < stamp then (e.phase, none)
  else if stamp < e.openAt then
    (e.phase,
      if e.kind = .arrive ∧ level = e.level ∧ s.withStart e t u = false then some (.failing .early) else none)
  else
    let check := if e.phase = .opened then none else openingCheck s e (!level)
    (.opened, if check.isSome then check else judgeOpen e level t u)

/-! ### What a verdict does (R138 to R140, R151, R160) -/

/-- The fail code of a failing verdict (R140); `chute` says whose CLEAR window it is. -/
def failOf (role : Role) (chute : Bool) : Failing → FailCode
  | .early => .early
  | .missed => .missed
  | .preset => match role with | .entry => .entryBlocked | _ => .preset
  | .stuck => if chute then .jam else .stuck
  | .disturbed => .overflow

/-- The pass condition of a chute trial (R151). -/
def ChuteTrial.passes (r : ChuteTrial) : Bool := r.clearMet && decide (r.fullMet ≠ some false)

/-- A chute trial takes the report of a MET (R151). -/
def ChuteTrial.takeMet (r : ChuteTrial) (role : Role) (dev : Int) (prior : Option (Role × Int)) :
    ChuteTrial :=
  match role with
  | .clear => { r with clearMet := true, dwell := some dev, entryDev := prior.map (·.2) }
  | .full => { r with fullMet := some true }
  | _ => r

/-- The report of a freeing MET reaches the trial of context `c` (R139, R151, R160). -/
def reportMet (c : Nat) (role : Role) (dev : Int) (prior : Option (Role × Int)) (s : State) : State :=
  match (s.ctx c).trial with
  | .chute r =>
    let r := r.takeMet role dev prior
    let s := s.mapCtx c fun x => { x with trial := .chute r }
    if r.passes then takeOutcome c .pass r.entryDev s else s
  | .sensor r =>
    let r := { r with dwell := some dev, edgeDev := prior.map (·.2) }
    takeOutcome c .pass r.edgeDev (s.mapCtx c fun x => { x with trial := .sensor r })
  | _ => s

/-- The successor of an entry whose MET has its match at `time` and `travel` (R138). -/
def Entry.successor (e : Entry) (t : Template) (dev time travel : Int) : Entry :=
  let m := match t.base with | .travel => travel | .time => time
  { e with
    kind := t.kind, level := t.level, base := t.base, role := t.role
    openAt := m + t.openOff, guardAt := m + t.openOff, closeAt := m + t.closeOff
    nominal := m + t.openOff
    phase := .waiting, template := none, prior := some (e.role, dev) }

/-- What a verdict of entry `e` does; `again` examines the entry a conversion makes of it. -/
def applyVerdict (again : Nat → State → State) (e : Entry) (v : Verdict) (s : State) : State :=
  match v with
  | .failing f =>
    takeOutcome e.ctx (.fail (failOf e.role (decide ((s.ctx e.ctx).kind = .chute)) f)) none s
  | .met dev time travel =>
    match e.template with
    | some t => again e.num (s.mapMonitor fun m => (m.drop e.num).join (e.successor t dev time travel))
    | none => reportMet e.ctx e.role dev e.prior (s.mapMonitor fun m => m.drop e.num)

/-- One examination of entry `n` (R132). -/
def examineWith (again : Nat → State → State) (n : Nat) (s : State) : State :=
  match s.monitor.find n with
  | none => s
  | some e =>
    let r := inspect s e
    let s := s.mapMonitor fun m => m.setPhase n r.1
    match r.2 with
    | some v => applyVerdict again e v s
    | none => s

/-- Examines entry `n`; a converted entry is examined at its new place in the same change. A
successor carries no template, so one further examination is all there can be (R128, R138). -/
def examine (n : Nat) (s : State) : State := examineWith (examineWith fun _ s => s) n s

/-- Something of an entry is due at a position of its base: its opening or the passing of its close (R132). -/
def Entry.due (e : Entry) (p : Int) : Bool :=
  (decide (e.phase ≠ .opened) && decide (e.openAt ≤ p)) || decide (e.closeAt < p)

/-- The first entry of a list of which something is due: the one that an examination starting now acts
on first (R132, R141). -/
def State.firstDue (s : State) (l : List Entry) : Option Entry :=
  l.find? fun e => e.due (s.position e.base)

/-- Entry `n`, where it is the first of its list of which something is due (R132, R141). -/
def State.entryTurn (s : State) (n : Nat) : Option Entry :=
  ((s.firstDue s.monitor.travelList).toList ++ (s.firstDue s.monitor.timeList).toList).find? fun e =>
    decide (e.num = n)

/-- The examination of a list in list order (R132); `settle` makes the checks a verdict calls for
before the next entry is examined. An entry that a verdict freed or converted is passed over. -/
def examineEach (settle : State → State) (es : List Entry) (s : State) : State :=
  es.foldl (fun s e => if s.monitor.find e.num = some e then settle (examine e.num s) else s) s

/-- One entry judges an edge (R134). -/
def judgeEntry (level : Bool) (t u : Nat) (e : Entry) (s : State) : State :=
  let r := judge s e level t u
  let s := s.mapMonitor fun m => m.setPhase e.num r.1
  match r.2 with
  | some v => applyVerdict examine e v s
  | none => s

/-- An edge of point `pt` with its stamps is judged by every used entry on the point, in the order
of the travel list and then the time list; each verdict is handled by `settle` before the next entry
judges (R134). The entries are those that stand when the edge is handed: one that a trial restarting inside the
hand-over inserts on the same point does not judge that edge, which R134 leaves open (DESIGN CHOICE, log entry
53). -/
def judgeEdge (settle : State → State) (pt : Nat) (level : Bool) (t u : Nat) (s : State) : State :=
  ((s.monitor.travelList ++ s.monitor.timeList).filter fun e => decide (e.point = pt)).foldl
    (fun s e => if s.monitor.find e.num = some e then settle (judgeEntry level t u e s) else s) s

/-! ### Insertion (R130, R145) and home correction (R143) -/

/-- An insertion request for a running trial, within its allowance; `e` comes with any number. -/
def insertEntry (e : Entry) (s : State) : State :=
  let x := s.ctx e.ctx
  if x.state = .running ∧ (s.monitor.entriesOf e.ctx).length < x.allowance then
    match s.monitor.lowestFree with
    | some n => examine n (s.mapMonitor fun m => m.join { e with num := n, phase := .waiting })
    | none => s
  else s

/-- Adds the correction to one entry's points (R143). -/
def Entry.shift (d : Int) (e : Entry) : Entry :=
  { e with
    guardAt := e.guardAt + d, openAt := e.openAt + d, closeAt := e.closeAt + d
    nominal := e.nominal + d }

/-- The shift of a home correction (R143); the examination that follows is the caller's. -/
def shiftTravel (d : Int) (s : State) : State :=
  s.mapMonitor fun m => { m with travelList := m.travelList.map (Entry.shift d) }

/-! ### The departure of a discharge (R149, R150) -/

/-- The ENTRY window of a discharge that departed at `t` (R150). -/
def entryWindow (c : Nat) (d : ChuteDef) (eye : SensorDef) (t : Nat) : Entry :=
  { num := 0, ctx := c, point := eye.input, kind := .arrive, level := eye.blockedHigh, base := .time
    guardAt := t, openAt := t + d.winOpen * 1000, closeAt := t + d.winClose * 1000
    nominal := t + (d.winOpen + d.winClose) * 500, role := .entry
    template := some
      { kind := .depart, level := eye.blockedHigh, base := .time, role := .clear, openOff := 0
        closeOff := d.clearLimit * 1000 } }

/-- The FULL window of a discharge that departed at `t` (R150). -/
def fullWindow (c : Nat) (d : ChuteDef) (eye : SensorDef) (t : Nat) : Entry :=
  { num := 0, ctx := c, point := eye.input, kind := .quiet, level := eye.blockedHigh, base := .time
    guardAt := t, openAt := t, closeAt := t + (d.winClose + d.clearLimit) * 1000
    nominal := t + (d.winClose + d.clearLimit) * 1000, role := .full }

/-- The trial of context `c` is still in FIRING. -/
def State.firing (s : State) (c : Nat) : Bool :=
  decide ((s.ctx c).state = .running) && decide ((s.ctx c).phase = .firing)

/-- Inserts the window that an eye's definition gives, where the trial is still in FIRING. -/
def placeWindow (c : Nat) (w : SensorDef → Nat → Entry) (eye : Option Nat) (t : Nat) (s : State) :
    State :=
  if s.firing c then
    match eye.bind s.sensorDef with
    | some d => insertEntry (w d t) s
    | none => s
  else s

/-- The discharge of context `c` departs now (R149). -/
def chuteDeparture (c : Nat) (s : State) : State :=
  let x := s.ctx c
  match x.trial, s.chuteDef x.element with
  | .chute r, some d =>
    if s.firing c then
      let t := s.time
      let s := s.setCtx c
        { x with
          trial := .chute { r with stim := .departed, tStim := some t }
          articles := x.articles.tail
          inFlight := some r.carrier }
      let s := s.setCarrier r.carrier .suspect
      let s := placeWindow c (entryWindow c d) (some d.entryEye) t s
      let s := placeWindow c (fullWindow c d) d.fullEye t s
      if s.firing c then s.mapCtx c fun y => { y with phase := .observing } else s
    else s
  | _, _ => s

end Sys2Proof.Machine
end

