-- ==== Sys2Proof/Machine/Cues.lean ====
section
/-! DEFINITION. The Cue Scheduler: aiming, pacing, final aim, firing and the examination of the cue
list (R110 to R123). -/

namespace Sys2Proof.Machine

open Sys2Proof

/-! ### The cue list (R110) -/

/-- A cue joins the list in ascending order of due U, after every cue of equal due (R110). -/
def insertByDue (q : Cue) : List Cue → List Cue
  | [] => [q]
  | x :: l => if x.due ≤ q.due then x :: insertByDue q l else q :: x :: l

/-- The cue of context `c`. -/
def State.cueOf (s : State) (c : Nat) : Option Cue := s.sched.cues.find? fun q => decide (q.ctx = c)

/-- The cue of context `c` leaves the list and cue held becomes 0. -/
def removeCue (c : Nat) (s : State) : State :=
  (s.mapSched fun q => { q with cues := q.cues.filter fun u => decide (u.ctx ≠ c) }).mapCtx c fun x =>
    { x with cueHeld := false }

/-- Prunes the pacing history: an entry stays while it lies at most W·P behind U (R111). -/
def pruneHistory (s : State) : State :=
  s.mapSched fun q =>
    { q with
      history := q.history.filter fun x =>
        decide ((s.tracker.travel : Int) - x ≤ (q.window * s.pitch : Nat)) }

/-! ### Aiming (R113, R114) -/

/-- The lead: the travel in `lat` µs at speed `v`, half up, at most floor(L/2) (R113). -/
def leadOf (v lat l : Nat) : Nat := min ((v * lat + 128000) / 256000) (l / 2)

/-- The target: carrier `k`'s centre over coordinate `s` (R113). -/
def targetOf (g : Geometry) (coord k : Nat) : Nat :=
  posMod (coord + k * g.pitch.getD 0 + g.pitch.getD 0 / 2 : Nat) g.length

/-- The travel to the first candidate, with the setup room (R114). -/
def aimDistance (g : Geometry) (p target lead : Nat) : Nat :=
  let q := posMod ((target : Int) - lead) g.length
  let d := posMod ((q : Int) - p) g.length
  if d < g.effSetup then d + g.length else d

/-! ### Pacing (R116, R117) -/

/-- The spacing test: no pacing point nearer than `gap` (R116). -/
def spacingOk (gap : Nat) (pts : List Int) (u : Int) : Bool :=
  pts.all fun x => decide (gap ≤ (u - x).natAbs)

/-- The points that a run of `len` values from `a` holds, `u` with them. -/
def runHolds (len : Nat) (pts : List Int) (u a : Int) : Nat :=
  ((u :: pts).filter fun x => decide (a ≤ x ∧ x < a + len)).length

/-- The window test: no run of `len` values that contains `u` holds more than `q` of `u` and the
pacing points (R116). Runs that begin at `u` or at a pacing point before it are enough: a run can
begin later, at its first point, and hold as many. -/
def windowOk (len q : Nat) (pts : List Int) (u : Int) : Bool :=
  (u :: pts.filter fun x => decide (u - len < x ∧ x ≤ u)).all fun a =>
    decide (runHolds len pts u a ≤ q)

/-- The pacing points: the due points of the list and the history (R116). -/
def Scheduler.points (q : Scheduler) : List Int := q.cues.map (·.due) ++ q.history

/-- The first of `n` candidates u, u + L, … that is admitted, with its retry count (R116, R117). -/
def admission (gap len q l : Nat) (pts : List Int) : Nat → Nat → Int → Option (Int × Nat)
  | 0, _, _ => none
  | n + 1, r, u =>
    if spacingOk gap pts u && windowOk len q pts u then some (u, r)
    else admission gap len q l pts n (r + 1) (u + l)

/-! ### Final aim and firing (R119 to R122) -/

/-- Final aim is due (R118). -/
def State.aimDue (s : State) (q : Cue) : Bool :=
  !q.aimed && decide (q.due - s.pitch ≤ (s.tracker.travel : Int))

/-- Fire is due (R118). -/
def State.fireDue (s : State) (q : Cue) : Bool :=
  q.aimed && decide (q.due ≤ (s.tracker.travel : Int))

/-- The clamped move of a final aim (R119 steps 1 and 2). -/
def State.aimMove (s : State) (q : Cue) : Int :=
  let lat := match s.chuteDef q.element with | some d => d.latency | none => 0
  let new := leadOf s.tracker.speed lat s.loopLen
  let bound : Int := (s.pitch / 8 : Nat)
  max (-bound) (min bound (q.lead - new))

/-- The final aim of a cue of the list (R119). A cue that is not moved keeps its place (R110). -/
def finalAim (q : Cue) (s : State) : State :=
  let move := s.aimMove q
  let new := { q with due := q.due + move, lead := q.lead - move, aimed := true }
  s.mapSched fun sch =>
    { sch with
      cues :=
        if move = 0 then sch.cues.map fun x => if x = q then new else x
        else insertByDue new (sch.cues.filter fun x => decide (x.ctx ≠ q.ctx)) }

/-- The eye of index `e`, if there is one, reads blocked (R120). -/
def State.eyeBlocked (s : State) (e : Option Nat) : Bool :=
  match e.bind s.sensorDef with | some d => s.readsBlocked d | none => false

/-- A discharge fire (R122). -/
def discharge (q : Cue) (s : State) : State :=
  let asked := requestStimulus q.ctx q.point (.pulse q.width) s
  let s := removeCue q.ctx asked.1
  let s := s.mapSched fun sch => { sch with history := pushTail 8 sch.history q.due }
  s.mapCtx q.ctx fun x =>
    { x with
      phase := .firing
      trial := match x.trial with
        | .chute r => .chute
            { r with stim := if asked.2 then .awaited else .cancelled, leadUsed := some q.lead.toNat }
        | t => t }

/-- The fire of a cue: refused on a blocked eye, or a discharge (R120 to R122). -/
def fireCue (q : Cue) (s : State) : State :=
  match s.chuteDef q.element with
  | none => discharge q s
  | some d =>
    if s.eyeBlocked (some d.entryEye) then
      takeOutcome q.ctx (.fail .entryBlocked) none (removeCue q.ctx s)
    else if s.eyeBlocked d.fullEye then
      takeOutcome q.ctx (.fail .chuteFull) none (removeCue q.ctx s)
    else discharge q s

/-! ### The examination (R118) -/

/-- The first cue to handle in an examination in which the cues of the contexts of `done` have had a final
aim that did not move them: the examination has handled such a cue and goes on behind it, and ends at the
first other cue, a re-placed one among them, for which neither a final aim nor a fire is due (R118). -/
def State.nextCue (s : State) (done : List Nat) : List Cue → Option Cue
  | [] => none
  | q :: l =>
    if s.aimDue q || s.fireDue q then some q
    else if q.ctx ∈ done then s.nextCue done l
    else none

/-- The cue that the examination under way handles next, where it is context `c`'s: the head of the list, if
its final aim or its fire is due (R118). -/
def State.cueTurn (s : State) (c : Nat) : Option Cue :=
  if s.sched.examining then (s.nextCue [] s.sched.cues).filter fun q => decide (q.ctx = c) else none

/-- An examination of the cue list begins, or goes on after an act of it: where nothing is due of the first
cue, it is over at once (R118). -/
def beginExam (s : State) : State :=
  s.mapSched fun q => { q with examining := (s.nextCue [] q.cues).isSome }

/-- No examination of the cue list is under way any more. -/
def endExam (s : State) : State := s.mapSched fun q => { q with examining := false }

/-- The examination of the cue list, at most `n` acts; `settle` makes the checks that an outcome
calls for before the next cue is examined. A cue that its final aim moves is examined again at its new
place, where one not yet due ends the examination; the examination that R118 asks for after such an aim is
the one going on (DEDUCED, log entry 10). -/
def examineCuesLoop (settle : State → State) : Nat → List Nat → State → State
  | 0, _, s => s
  | n + 1, done, s =>
    match s.nextCue done s.sched.cues with
    | none => s
    | some q =>
      if s.aimDue q then
        examineCuesLoop settle n (if s.aimMove q = 0 then q.ctx :: done else done) (finalAim q s)
      else examineCuesLoop settle n (done.filter fun c => decide (c ≠ q.ctx)) (settle (fireCue q s))

/-- The examination of the cue list to its end (R118). An act aims or fires a cue, so 64 acts are more than
the sixteen cues can take. -/
def examineCues (settle : State → State) (s : State) : State := endExam (examineCuesLoop settle 64 [] s)

/-! ### The aim of a trial (R112 to R118) -/

/-- The aim of context `c`'s chute trial at carrier `k` (R112 to R117): a cue joins the list, which
is then examined at once (R118), or the trial is voided PACING. In that examination every due cue is handled
before the check that a refused fire among them calls for (DESIGN CHOICE, log entry 9). -/
def aim (c k : Nat) (s : State) : State :=
  let i := (s.ctx c).element
  match s.chuteDef i with
  | none => s
  | some d =>
    let g := s.tracker.active
    let lead := leadOf s.tracker.speed d.latency g.length
    let u : Int := s.tracker.travel + aimDistance g s.tracker.pos (targetOf g d.coord k) lead
    let s := pruneHistory s
    let q := s.sched
    match admission (q.spacing * s.pitch) (q.window * s.pitch) q.allowed g.length q.points 5 0 u with
    | some (due, r) =>
      let cue : Cue :=
        { ctx := c, element := i, due := due, point := d.discharge, activeHigh := d.activeHigh
          width := d.pulse, carrier := k, lead := lead, retries := r, aimed := false }
      examineCues id ((s.mapSched fun q => { q with cues := insertByDue cue q.cues }).mapCtx c fun x =>
        { x with cueHeld := true })
    | none => takeOutcome c (.void .pacing) none s

/-- The shift of a home correction (R123); the examination that follows is the caller's. -/
def shiftCues (e : Int) (s : State) : State :=
  s.mapSched fun q =>
    { q with
      cues := q.cues.map fun u => { u with due := u.due + e }
      history := q.history.map (· + e) }

end Sys2Proof.Machine
end

