-- ==== Sys2Proof/Machine/Starts.lean ====
section
/-! DEFINITION. Start conditions, the start of a trial of each kind, and the check of the paused
contexts (R94 to R96, R112, R146, R156 to R159, R170, R173, R174). -/

namespace Sys2Proof.Machine

open Sys2Proof

/-! ### Start conditions (R94, R95) -/

/-- The condition of one pause reason holds for a context, or does not apply to it (R94). -/
def State.holds (s : State) (x : Context) : PauseReason → Bool
  | .none => true
  | .stop => !s.engine.stop
  | .ring => decide (s.engine.ring = .good)
  | .track => decide (x.kind = .drive) || decide (s.engine.track = .tracking)
  | .slow => decide (x.kind = .drive) || s.engine.moving
  | .articles => !(decide (x.kind = .chute) || decide (x.mode = some .article)) || !x.articles.isEmpty
  | .pool =>
    match x.kind with
    | .chute => decide (2 ≤ s.available)
    | .sensor => decide (1 ≤ s.available)
    | _ => true
  | .drives => decide (x.kind ≠ .drive) || decide (s.countedDrives < s.engine.limit)
  | .rest => decide (x.kind ≠ .drive) || x.restEnd.all fun t => decide (t ≤ s.time)

/-- The pause reasons in the order of R94's table. -/
def startOrder : List PauseReason :=
  [.stop, .ring, .track, .slow, .articles, .pool, .drives, .rest]

/-- The first start condition that applies and fails (R94). -/
def State.firstFail (s : State) (x : Context) : Option PauseReason :=
  startOrder.find? fun r => !s.holds x r

/-! ### The start of a trial (R96) -/

/-- A chute trial starts: its record is written and its aim taken at once (R146, R147). -/
def startChute (c : Nat) (s : State) : State :=
  let x := s.ctx c
  let k := x.articles.headD 0
  let full : Option Bool :=
    match s.chuteDef x.element with | some d => if d.fullEye.isSome then some false else none | none => none
  aim c k (s.setCtx c
    { x with
      state := .running, reason := .none, phase := .aiming, allowance := 2
      trial := .chute { carrier := k, fullMet := full } })

/-- The placement of a CARRIER sensor's window: distance and expected carrier (R157). -/
def placeCarrier (g : Geometry) (p coord : Nat) : Nat × Nat :=
  let pitch := g.pitch.getD 0
  let r := carrierPhase g p coord
  let d := (pitch - r) % pitch
  let far := decide (d < pitch / 2)
  let next := if r = 0 ∨ far = false then 1 else 2
  (if far then d + pitch else d, (carrierOver g p coord + next) % g.carriers.getD 0)

/-- The placement of an ARTICLE sensor's window for carrier `k` (R158). -/
def placeArticle (g : Geometry) (p coord k : Nat) : Nat × Nat :=
  let pitch := g.pitch.getD 0
  let d := posMod ((coord + k * pitch + pitch / 2 : Nat) - (p : Int)) g.length
  (if d < pitch / 2 then d + g.length else d, k)

/-- The EDGE window of a sensor trial with nominal point `nom` (R159). -/
def edgeWindow (c : Nat) (g : Geometry) (d : SensorDef) (nom : Int) : Entry :=
  { num := 0, ctx := c, point := d.input, kind := .arrive, level := d.blockedHigh, base := .travel
    guardAt := nom - (g.pitch.getD 0 / 2 : Nat), openAt := nom - effSensorTol g d
    closeAt := nom + effSensorTol g d, nominal := nom, role := .edge
    template := some
      { kind := .depart, level := d.blockedHigh, base := .travel, role := .clear, openOff := 0
        closeOff := d.depart } }

/-- A sensor trial starts: record and EDGE window, in one change (R156 to R159). -/
def startSensor (c : Nat) (s : State) : State :=
  let x := s.ctx c
  match s.sensorDef x.element with
  | none => s
  | some d =>
    let g := s.tracker.active
    let k := x.articles.head?
    let place := if d.mode = .article then placeArticle g s.tracker.pos d.coord (k.getD 0)
      else placeCarrier g s.tracker.pos d.coord
    let rec1 : SensorTrial :=
      { carrier := if d.mode = .article then k else none, expected := place.2, distance := place.1
        start := s.time }
    let s := s.setCtx c
      { x with
        state := .running, reason := .none, phase := .watching, allowance := 1, trial := .sensor rec1 }
    insertEntry (edgeWindow c g d (s.tracker.travel + place.1)) s

/-- A number joins a set kept in rising order. -/
def insertNum (n : Nat) : List Nat → List Nat
  | [] => [n]
  | m :: l => if n < m then n :: m :: l else if n = m then m :: l else m :: insertNum n l

/-- A current channel joins the scan request set (R170). -/
def joinScan (ch : Option Nat) (s : State) : State :=
  match ch with
  | some n =>
    (s.setCurrent n { s.currentChan n with y := 0, step := .assist }).mapDrives fun d =>
      { d with scanSet := insertNum n d.scanSet }
  | none => s

/-- A drive trial starts in PRECHECK (R170, R173, R174). The count of drive trials rises with it, which leads to
no check of the paused contexts: R172 names a fall alone, and R96 leaves open whether the report of a rise does
(DESIGN CHOICE, log entry 57). -/
def startDrive (c : Nat) (s : State) : State :=
  let x := s.ctx c
  match s.driveDef x.element with
  | none => s
  | some d =>
    let rec1 : DriveTrial :=
      { phaseStart := s.time, phaseDeadline := some (s.time + d.stop * 1000), quietStart := some s.time }
    let s := s.setCtx c
      { x with state := .running, reason := .none, phase := .precheck, trial := .drive rec1 }
    let s := joinScan d.current s
    (askInactive c (s.stirredPoints c) s).1

/-- A trial of the context's kind starts (R96). -/
def startTrial (c : Nat) (s : State) : State :=
  match (s.ctx c).kind with
  | .chute => startChute c s
  | .sensor => startSensor c s
  | .drive => startDrive c s
  | .none => s

/-! ### The check of the paused contexts (R96) -/

/-- Examines one context: a paused one starts, or records the first condition that fails (R94). -/
def examineCtx (c : Nat) (s : State) : State :=
  let x := s.ctx c
  if x.state = .paused then
    match s.firstFail x with
    | some r => s.setCtx c { x with reason := r }
    | none => startTrial c s
  else s

/-- Clears the owed check. -/
def State.payCheck (s : State) : State := s.mapEngine fun e => { e with checkOwed := false }

/-- One pass over the contexts in ascending number, broken off where a trial that starts also ends
and owes a check of its own. -/
def checkPass (s : State) : State :=
  ctxNumbers.foldl (fun s c => if s.engine.checkOwed then s else examineCtx c s) s.payCheck

/-- Passes until none is owed, at most `n`. -/
def checkLoop : Nat → State → State
  | 0, s => s.payCheck
  | n + 1, s =>
    let t := checkPass s
    if t.engine.checkOwed then checkLoop n t else t

/-- The check of every paused context (R96), made also where the event is one context's own: its Order
Proof, Add Articles or rest end (DESIGN CHOICE, log entry 41). A pass owes another only where a trial that it started
ended at once, which a context does at most 8 times by voids and 63 times by counted trials before
its proof ends (R98, R99), so 2,000 passes are more than sixteen contexts can call for. -/
def check (s : State) : State := checkLoop 2000 s

/-- Makes the check where one is owed. -/
def settle (s : State) : State := if s.engine.checkOwed then check s else s

/-! ### Examinations with their checks -/

/-- The examination of the cue list (R118). -/
def runCues (s : State) : State := examineCues settle s

/-- The examination of the travel list (R132). -/
def runTravelList (s : State) : State := examineEach settle s.monitor.travelList s

/-- The examination of the time list (R132). -/
def runTimeList (s : State) : State := examineEach settle s.monitor.timeList s

end Sys2Proof.Machine
end

