-- ==== Sys2Proof/Machine/Reports.lean ====
section
/-! DEFINITION. Reports from one block to another: the tracker's and the ring's reports to the Proof
Engine with the voids and checks they bring (R10, R25, R39, R104, R105), the entry to FAULTED (R7),
the ring error count and the changes of ring state (R30, R37 to R39, R47). -/

namespace Sys2Proof.Machine

open Sys2Proof

/-! ### Voids -/

/-- Voids the running trials that `sel` selects (R97), in ascending context number. -/
def voidAll (sel : Context → Bool) (cause : VoidCause) (s : State) : State :=
  (ctxNumbers.filter fun c => decide ((s.ctx c).state = .running) && sel (s.ctx c)).foldl
    (fun s c => takeOutcome c (.void cause) none s) s

/-- A trial that depends on the loop position: a chute trial in AIMING or FIRING, a sensor trial
(R104). -/
def travelDependent (x : Context) : Bool :=
  (decide (x.kind = .chute) && decide (x.phase = .aiming ∨ x.phase = .firing))
    || decide (x.kind = .sensor)

/-! ### Tracker reports (R7, R10, R25, R104) -/

/-- The report of the tracker state: TRACK voids when the tracker left TRACKING, then the check of
the paused contexts (R104). -/
def reportTrack (s : State) : State :=
  let left := decide (s.engine.track = .tracking) && decide (s.tracker.state ≠ .tracking)
  let s := s.mapEngine fun e => { e with track := s.tracker.state }
  check (if left then voidAll travelDependent .track s else s)

/-- The geometry change report: pacing history emptied, GEOMETRY voids, and the check they call for
(R10, R104, R111). -/
def reportGeometry (s : State) : State :=
  settle (voidAll travelDependent .geometry (s.mapSched fun q => { q with history := [] }))

/-- Re-evaluates the moving flag; a change is reported and checked (R25, R104). -/
def updateMoving (s : State) : State :=
  let m := movingOf s.tracker.speed s.tracker.active.vMin
  if m = s.tracker.moving then s
  else
    check ((s.mapTracker fun t => { t with moving := m }).mapEngine fun e => { e with moving := m })

/-- A Track State notice to all three ports (R10). -/
def noticeTrack (ev : GeometryEvent) (s : State) : State := noticeAll 0x63 (trackNotice s ev) s

/-- The tracker enters a state: report, then notice (R10). The notice so stands behind the notices of the
voids that the report causes (DESIGN CHOICE, log entry 13). -/
def enterTrack (st : TrackState) (s : State) : State :=
  noticeTrack .none (reportTrack (s.mapTracker fun t => { t with state := st }))

/-- The tracker enters FAULTED with its fault record (R7). -/
def enterFault (cause : FaultCause) (detail : FaultDetail) (s : State) : State :=
  enterTrack .faulted (s.mapTracker fun t =>
    { t with fault := some { cause := cause, time := s.time, detail := detail } })

/-! ### Reports of stimuli (R45, R47, R107, R148, R175) -/

/-- A change of point `pt` asked for by context `c` is reported cancelled with cause RING: a chute
trial in FIRING records CANCELLED (R148), a drive trial keeps its state (R175), and a context in
CLOSING loses the point from its settle set (R107). -/
def reportCancelled (c pt : Nat) (s : State) : State :=
  let x := s.ctx c
  match x.trial with
  | .chute r =>
    if s.firing c then s.setCtx c { x with trial := .chute { r with stim := .cancelled } } else s
  | _ => settle (settlePoint c pt s)

/-- Every awaited change is cancelled and reported, by ascending point (R47). -/
def cancelAllAwaited (s : State) : State :=
  let waiting := s.ring.stimuli.filterMap fun e =>
    e.2.bind fun r => r.awaited.map fun a => (e.1, a.1)
  let s := waiting.foldl (fun s w => clearAwaited s w.1) s
  waiting.foldl (fun s w => reportCancelled w.2 w.1 s) s

/-! ### Ring state (R30, R37 to R39, R105) -/

/-- At the return to GOOD from LOST, a paused context's ACTIVE points with no change awaited are
asked for INACTIVE (R105). -/
def settleStuck (s : State) (c : Nat) : State :=
  if (s.ctx c).state = .paused then
    (askInactive c ((s.activePoints c).filter fun pt => !s.stimAwaited pt) s).1
  else s

/-- The report of the ring state to the Proof Engine (R105). -/
def reportRing (s : State) : State :=
  let prev := s.engine.ring
  let now := s.ring.state
  let s := s.mapEngine fun e => { e with ring := now }
  match now with
  | .lost => check (voidAll (fun _ => true) .ring s)
  | .degraded => check s
  | .good => check (if prev = .lost then ctxNumbers.foldl settleStuck s else s)

/-- A change of ring state (R39): cancellations on entering LOST, report, notice. -/
def changeRing (new : RingState) (cause : RingCause) (s : State) : State :=
  let prev := s.ring.state
  let s := s.mapRing fun g => { g with state := new }
  let s := if new = .lost then cancelAllAwaited s else s
  let s := reportRing s
  noticeAll 0x64 (ringNotice s prev cause) s

/-- The ring enters LOST by errors or silence (R38). -/
def loseRing (cause : RingCause) (s : State) : State :=
  changeRing .lost cause (s.mapRing fun g => { g with goodRun := 0, silence := none })

/-- In GOOD and DEGRADED the state follows the ring error count (R37). -/
def followErrors (s : State) : State :=
  let new := ringStateOf s.ring.errors
  if s.ring.state = .lost ∨ new = s.ring.state then s
  else if new = .lost then loseRing .errors s
  else changeRing new .count s

/-- The total of an error's kind rises by 1, stopping at 65,535 (R31, R36). -/
def Ring.countTotal (g : Ring) : RingError → Ring
  | .badCrc => { g with totalBadCrc := capAdd 65535 g.totalBadCrc 1 }
  | .slotMismatch => { g with totalSlot := capAdd 65535 g.totalSlot 1 }
  | .sequence => { g with totalSequence := capAdd 65535 g.totalSequence 1 }
  | .noReturn => { g with totalNoReturn := capAdd 65535 g.totalNoReturn 1 }

/-- A counted ring error (R31, R37). -/
def ringError (k : RingError) (s : State) : State :=
  followErrors (s.mapRing fun g =>
    { g.countTotal k with errors := capAdd 255 g.errors 8, goodRun := 0 })

/-- A good inbound frame is taken into the ring error count (R37, R38). -/
def ringGood (s : State) : State :=
  let s := s.mapRing fun g =>
    { g with errors := g.errors - 1, goodRun := capAdd 64 g.goodRun 1 }
  if s.ring.state = .lost then
    if s.ring.goodRun = 64 then
      changeRing .good .recovered (s.mapRing fun g => { g with errors := 0 })
    else s
  else followErrors s

/-- The restart of the ring state (R30), with its cause (R29, R38). -/
def restartRing (cause : RingCause) (s : State) : State :=
  let s := s.mapRing fun g =>
    { g with errors := 0, goodRun := 0, returnDeadline := none, silence := none }
  if s.ring.state = .lost then s else changeRing .lost cause s

end Sys2Proof.Machine
end

