-- ==== Sys2Proof/Machine/Frames.lean ====
section
/-! DEFINITION. The frames of the I/O ring: checks, departures with the outputs of their sources,
departures of stimuli, suppressed commands, returns, and the edges of the point image (R31 to R36,
R40, R42 to R46). -/

namespace Sys2Proof.Machine

open Sys2Proof

/-- Bit `j` of a slot word. -/
def slotBit (w : Word16) (j : Nat) : Bool := w.getLsbD j

/-- A slot word from its sixteen bits. -/
def slotWord (bit : Nat → Bool) : Word16 :=
  BitVec.ofNat 16 ((List.range 16).foldl (fun n j => n + boolCode (bit j) * 2 ^ j) 0)

/-! ### Checks (R31, R35) -/

/-- The first error that applies to a frame; `seqOk` is step 3 for an inbound frame (R31). -/
def frameError (slots : Nat) (f : RingFrame) (seqOk : Bool) : Option RingError :=
  if f.crc ≠ f.properCrc then some .badCrc
  else if f.count.toNat ≠ slots then some .slotMismatch
  else if !seqOk then some .sequence
  else none

/-- An outbound arrival is taken into the interval history (R35). -/
def takeInterval (s : State) : State :=
  s.mapRing fun g =>
    let h := match g.lastArrival with
      | some t => if s.time - t ≤ 3 * g.nominal then pushTail 8 g.intervals (s.time - t) else g.intervals
      | none => g.intervals
    { g with intervals := h, lastArrival := some s.time }

/-! ### Departures (R32, R34, R36, R43 to R46) -/

/-- A departing frame with return pending still set counts the earlier frame NO_RETURN; return
pending is set afresh (R36). -/
def renewReturn (s : State) : State :=
  let s := if s.ring.returnDeadline.isSome then ringError .noReturn s else s
  s.mapRing fun g => { g with returnDeadline := some (s.time + g.nominal) }

/-- What a departing frame does to a stimulus record: the awaited change departs, or a pulse at its
end ends (R45, R46). -/
def Stimulus.depart (t : Nat) (r : Stimulus) : Stimulus :=
  match r.awaited with
  | some (_, .pulse w) => { value := .active, awaited := none, pulseEnd := some (t + w * 1000) }
  | some (_, .level v) => { value := v, awaited := none, pulseEnd := none }
  | none =>
    match r.pulseEnd with
    | some e => if e ≤ t then { r with value := .inactive, pulseEnd := none } else r
    | none => r

/-- The changes that depart with the next frame: point, context, change. They stand, and are reported, by
ascending point; R32 and R45 give no order (DESIGN CHOICE, log entry 43). -/
def State.departing (s : State) : List (Nat × Nat × StimChange) :=
  s.ring.stimuli.filterMap fun e => e.2.bind fun r => r.awaited.map fun a => (e.1, a.1, a.2)

/-- Every stimulus record takes its departure. -/
def departStimuli (s : State) : State :=
  (s.ring.stimuli.map (·.1)).foldl
    (fun s pt =>
      match s.stimulus pt with
      | some r => s.setStimulus pt (some (r.depart s.time))
      | none => s) s

/-- The active level of the element that output point `pt` belongs to is HIGH. -/
def State.pointHigh (s : State) (pt : Nat) : Bool :=
  match s.ownerOf pt with | some i => (s.elem i).definition.activeHigh | none => true

/-- The value sent for output point `pt` (R43): `scanner` is the scanner's bit, absent in ORIGIN. -/
def State.sent (s : State) (scanner : Option Bool) (pt : Nat) : Bool :=
  match s.source pt with
  | .pass =>
    match scanner with
    | some b => b
    | none => match s.ownerOf pt with | some i => !(s.elem i).definition.activeHigh | none => false
  | .test _ => if s.stimActive pt then s.pointHigh pt else !s.pointHigh pt
  | .hold => !s.pointHigh pt

/-- The output word sent in slot `n`. -/
def State.sentWord (s : State) (scanner : Option Word16) (n : Nat) : Word16 :=
  slotWord fun j => s.sent (scanner.map fun w => slotBit w j) (n * 16 + j)

/-- The elements with a suppressed command in a frame of these slots (R44). -/
def State.suppressedElems (s : State) (slots : List Slot) : List Nat :=
  let pts := s.ring.sources.filterMap fun e =>
    match slots[e.1 / 16]? with
    | some w =>
      let bit := slotBit w.out (e.1 % 16)
      let high := s.pointHigh e.1
      if e.2 ≠ .pass ∧ bit = high ∧ s.sent (some bit) e.1 ≠ high then s.ownerOf e.1 else none
    | none => none
  pts.eraseDups

/-- The suppressed-command counts of a departing scanner frame (R44). -/
def countSuppressed (slots : List Slot) (s : State) : State :=
  (s.suppressedElems slots).foldl
    (fun s i => s.mapElem i fun e => { e with suppressed := capAdd 65535 e.suppressed 1 }) s

/-- A drive trial takes the departure of its drive point's level (R175, R177). -/
def driveDeparture (c : Nat) (v : StimValue) (s : State) : State :=
  let x := s.ctx c
  match x.trial, s.driveDef x.element with
  | .drive r, some d =>
    let put (y : DriveTrial) : State := s.setCtx c { x with trial := .drive y }
    match x.phase, v with
    | .ramp, .active =>
      put { r with
        stim := .departed, phaseStart := s.time, phaseDeadline := some (s.time + d.accel * 1000) }
    | .stop, .inactive =>
      put { r with
        stim := .departed, phaseStart := s.time, phaseDeadline := some (s.time + d.stop * 1000)
        quietStart := some s.time }
    | _, _ => s
  | _, _ => s

/-- The point is the drive point of the trial of context `c`. -/
def State.isDrivePoint (s : State) (c pt : Nat) : Bool :=
  match s.driveDef (s.ctx c).element with
  | some d => decide (d.point (s.ctx c).reverse = pt)
  | none => false

/-- The ring reports a departure to the context that asked for the change (R45): a context in
CLOSING loses the point from its settle set (R107), a chute trial in FIRING takes its discharge
(R148, R149), a drive trial its level (R175, R177). -/
def reportDeparture (pt c : Nat) (ch : StimChange) (s : State) : State :=
  let x := s.ctx c
  match x.state, ch with
  | .closing, .level .inactive => settlePoint c pt s
  | .running, .pulse _ => chuteDeparture c s
  | .running, .level v => if s.isDrivePoint c pt then driveDeparture c v s else s
  | _, _ => s

/-- The last outbound sequence is set, and in RELAY the silence deadline to the departure T plus three
nominal periods (R32, R34). -/
def openDeparture (relay : Bool) (seq : Byte) (s : State) : State :=
  let s := s.mapRing fun g => { g with lastSeq := some seq.toNat }
  if relay then s.mapRing fun g => { g with silence := some (s.time + 3 * g.nominal) } else s

/-- The slots as the frame carries them: every output bit is what its source gives (R32, R43). -/
def State.slotsSent (s : State) (relay : Bool) (slots : List Slot) : List Slot :=
  slots.mapIdx fun n w => { w with out := s.sentWord (if relay then some w.out else none) n }

/-- The applied output image takes the words sent, and the frame leaves with its CRC recomputed
(R32). -/
def putFrame (count seq : Byte) (sent : List Slot) (s : State) : State :=
  let frame : RingFrame := { count := count, seq := seq, slots := sent, crc := 0 }
  s.mapRing fun g =>
    { g with
      applied := sent.zipIdx.foldl (fun t e => Table.set 0 t e.2 e.1.out) g.applied
      nodeOut := some { frame with crc := frame.properCrc } }

/-- A frame departs to the nodes: header, input bits and, in RELAY, the scanner's output bits come
with `slots` (R32, R34). Its suppressed commands are counted on the sources it was sent with, before the
departures of its stimuli are reported (DESIGN CHOICE, log entry 39), and these are reported by ascending
point, each with the check it calls for (DESIGN CHOICE, log entry 43). -/
def departFrame (relay : Bool) (count seq : Byte) (slots : List Slot) (s : State) : State :=
  let s := renewReturn (openDeparture relay seq s)
  let leaving := s.departing
  let s := departStimuli s
  let s := putFrame count seq (s.slotsSent relay slots) s
  let s := if relay then countSuppressed slots s else s
  leaving.foldl (fun s d => settle (reportDeparture d.1 d.2.1 d.2.2 s)) s

/-- An origin frame is made and departs (R34). -/
def makeOrigin (s : State) : State :=
  let g := s.ring
  let s := s.mapRing fun g =>
    { g with originSeq := (g.originSeq + 1) % 256, originNext := some (s.time + g.originPeriod) }
  departFrame false (BitVec.ofNat 8 g.slots) (BitVec.ofNat 8 g.originSeq)
    (List.replicate g.slots { out := 0, inp := 0 }) s

/-! ### Arrivals (R32, R33, R36, R40) -/

/-- An outbound frame from the scanner arrives; in ORIGIN it is discarded unchecked (R31, R32). -/
def scannerArrival (f : RingFrame) (s : State) : State :=
  match s.ring.role with
  | .origin => s
  | .relay =>
    let s := takeInterval s
    match frameError s.ring.slots f true with
    | some k => ringError k s
    | none => departFrame true f.count f.seq f.slots s

/-- The edges of a good inbound frame: points and new levels, by ascending point (R40). -/
def State.edges (s : State) (f : RingFrame) : List (Nat × Bool) :=
  (List.range s.ring.carried).filterMap fun pt =>
    match f.slots[pt / 16]? with
    | some w =>
      let b := slotBit w.inp (pt % 16)
      if b = (s.input pt).level then none else some (pt, b)
    | none => none

/-- A Point Change notice to each station that watches the point (R187). -/
def noticeEdge (pt : Nat) (level : Bool) (s : State) : State :=
  let body := pointNotice pt level s.time s.tracker.travel
  let tell (st : Station) (s : State) : State :=
    if pt ∈ (s.staLink st).watch then pushNotice (stationPort st) 0x62 body s else s
  tell .stb (tell .sta s)

/-- One edge: level and stamps recorded, then handed to the Expectation Monitor and to the watch
lists (R40). The Point Change notice stands behind the notices that the monitor's verdicts and their checks
cause; R40 and R187 leave the order open (DESIGN CHOICE, log entry 44). -/
def takeEdge (s : State) (e : Nat × Bool) : State :=
  let new : PointRecord := { level := e.2, time := s.time, travel := s.tracker.travel }
  let s := s.mapRing fun g => { g with image := Table.set {} g.image e.1 new }
  noticeEdge e.1 e.2 (judgeEdge settle e.1 e.2 s.time s.tracker.travel s)

/-- An inbound frame from the nodes arrives (R33, R36, R40). -/
def nodeArrival (f : RingFrame) (s : State) : State :=
  let pending := s.ring.returnDeadline.isSome
  let s := s.mapRing fun g =>
    { g with
      ringOut := if g.role = .relay then some f else g.ringOut
      returnDeadline := none }
  let seqOk := pending && decide (s.ring.lastSeq = some f.seq.toNat)
  match frameError s.ring.slots f seqOk with
  | some k => ringError k s
  | none =>
    let s := ringGood s
    (s.edges f).foldl takeEdge s

end Sys2Proof.Machine
end

