-- ==== Sys2Proof/Machine/DriveTrials.lean ====
section
/-! DEFINITION. The Drive Monitor and the phases of a drive trial: captures, scans and the current
filter, and the ends of PRECHECK, RAMP, HOLD and STOP (R168, R169, R174 to R177). -/

namespace Sys2Proof.Machine

open Sys2Proof

/-! ### The running trial -/

/-- The running drive trial of context `c` in phase `ph`: its record and its drive's definition. -/
def State.driveIn (s : State) (c : Nat) (ph : Phase) : Option (DriveTrial × DriveDef) :=
  let x := s.ctx c
  if x.state = .running ∧ x.phase = ph then
    match x.trial, s.driveDef x.element with
    | .drive r, some d => some (r, d)
    | _, _ => none
  else none

/-- Writes the drive trial record of context `c`. -/
def putDrive (c : Nat) (r : DriveTrial) (s : State) : State :=
  s.mapCtx c fun x => { x with trial := .drive r }

/-- The context whose running drive trial names a channel by `has` (R167). -/
def State.trialOfChannel (s : State) (has : DriveDef → Bool) : Option Nat :=
  ctxNumbers.find? fun c =>
    let x := s.ctx c
    decide (x.state = .running) && decide (x.kind = .drive)
      && match s.driveDef x.element with | some d => has d | none => false

/-! ### Phase changes (R174 to R177) -/

/-- The quiet span is complete: T has reached the quiet start plus 2 × max (R174, R177). -/
def State.quietDone (s : State) (r : DriveTrial) (d : DriveDef) : Bool :=
  r.quietStart.any fun q => decide (q + d.quietSpan ≤ s.time)

/-- The checks of PRECHECK are made and passed, or there are none (R174). -/
def checksDone (r : DriveTrial) (d : DriveDef) : Bool := d.current.isNone || r.plain.isSome

/-- PRECHECK ends and RAMP begins (R174, R175). -/
def enterRamp (c : Nat) (r : DriveTrial) (d : DriveDef) (s : State) : State :=
  let s := (requestStimulus c (d.point (s.ctx c).reverse) (.level .active) s).1
  s.mapCtx c fun x =>
    { x with phase := .ramp, trial := .drive { r with stim := .awaited, phaseDeadline := none } }

/-- RAMP begins where quiet span and checks are both complete (R174). -/
def tryRamp (c : Nat) (s : State) : State :=
  match s.driveIn c .precheck with
  | some (r, d) => if s.quietDone r d && checksDone r d then enterRamp c r d s else s
  | none => s

/-- RAMP ends and HOLD begins (R176). -/
def enterHold (c : Nat) (r : DriveTrial) (d : DriveDef) (s : State) : State :=
  s.mapCtx c fun x =>
    { x with
      phase := .hold
      trial := .drive
        { r with
          phaseStart := s.time, phaseDeadline := some (s.time + d.hold * 1000)
          motionDeadline := some (s.time + d.quietSpan) } }

/-- HOLD ends and STOP begins; the count of drive trials falls, which is checked (R172, R177). The
phase deadline is absent until the departure (DEDUCED, log entry 14). -/
def enterStop (c : Nat) (r : DriveTrial) (d : DriveDef) (s : State) : State :=
  let s := (requestStimulus c (d.point (s.ctx c).reverse) (.level .inactive) s).1
  check (s.mapCtx c fun x =>
    { x with
      phase := .stop
      trial := .drive { r with stim := .awaited, phaseDeadline := none, motionDeadline := none } })

/-- The trial fails, and the check that follows is made. -/
def failDrive (c : Nat) (code : FailCode) (dev : Option Int) (s : State) : State :=
  settle (takeOutcome c (.fail code) dev s)

/-! ### Captures (R168, R174, R176, R177) -/

/-- A period joins the captures of HOLD: count, motion deadline, farthest period (R176). -/
def holdCapture (r : DriveTrial) (d : DriveDef) (period t : Nat) : DriveTrial :=
  let dist (p : Nat) : Nat := ((p : Int) - d.centre).natAbs
  let far := match r.farthest with
    | some f => if dist f < dist period then period else f
    | none => period
  { r with
    captures := capAdd 65535 r.captures 1, motionDeadline := some (t + d.quietSpan)
    farthest := some far }

/-- A capture reaches the drive trial of context `c`, which judges it by its phase. -/
def capture (c period : Nat) (s : State) : State :=
  let x := s.ctx c
  match x.trial, s.driveDef x.element with
  | .drive r, some d =>
    match x.phase with
    | .precheck => putDrive c { r with quietStart := some s.time } s
    | .stop => putDrive c { r with quietStart := some s.time } s
    | .hold =>
      if period < d.bandMin then failDrive c .overspeed (some ((period : Int) - d.centre)) s
      else if d.bandMax < period then failDrive c .underspeed (some ((period : Int) - d.centre)) s
      else putDrive c (holdCapture r d period s.time) s
    | _ => s
  | _, _ => s

/-- A rising edge of tach channel `ch` (R168). -/
def tachRise (ch : Nat) (s : State) : State :=
  let x := s.tachChan ch
  let period := min 16777215 (s.time - x.lastEdge)
  let new : Tach :=
    if x.seen then { seen := true, lastEdge := s.time, period := period }
    else { x with seen := true, lastEdge := s.time }
  let s := s.mapDrives fun d => { d with tach := Table.set {} d.tach ch new }
  if x.seen then
    match s.trialOfChannel fun d => decide (d.tach = ch) with
    | some c => capture c period s
    | none => s
  else s

/-! ### Scans (R169, R174 to R177) -/

/-- A sample of PRECHECK, taken with assist step `step` (R174). -/
def precheckSample (c x : Nat) (step : Assist) (r : DriveTrial) (d : DriveDef) (s : State) : State :=
  match step with
  | .assist =>
    let s := putDrive c { r with assisted := some x } s
    if 3072 ≤ x then failDrive c .wiring none s else s
  | .plain =>
    let s := putDrive c { r with plain := some x } s
    if d.limit / 8 ≤ x then failDrive c .loaded none s else tryRamp c s
  | .none => s

/-- A sample of RAMP, HOLD or STOP enters the filter; a trip is judged in RAMP and HOLD (R169, R175
to R177). -/
def filterSample (c ch x : Nat) (r : DriveTrial) (d : DriveDef) (s : State) : State :=
  let q := s.currentChan ch
  let y := smoothStep (x * 256) q.y d.filter
  let s := s.setCurrent ch { q with y := y }
  if (s.ctx c).phase = .stop then s
  else
    let s := putDrive c { r with peak := max r.peak y } s
    if d.limit * 256 ≤ y then failDrive c .overcurrent none s else s

/-- One conversion: the sample is written, the assist step moves on, and the running trial takes the
sample by its phase (R169). -/
def convert (ch x : Nat) (s : State) : State :=
  let q := s.currentChan ch
  let next : Assist := match q.step with | .assist => .plain | _ => .none
  let s := s.setCurrent ch { q with sample := x, sampleTime := s.time, step := next }
  match s.trialOfChannel fun d => decide (d.current = some ch) with
  | none => s
  | some c =>
    match (s.ctx c).trial, s.driveDef (s.ctx c).element with
    | .drive r, some d =>
      if (s.ctx c).phase = .precheck then precheckSample c x q.step r d s
      else filterSample c ch x r d s
    | _, _ => s

/-- One scan of the channels that stand in the request set (R169), by ascending channel, the check that a
failure calls for made before the next channel's sample is judged (DESIGN CHOICE, log entry 46). -/
def scan (sample : Nat → Nat) (s : State) : State :=
  s.drives.scanSet.foldl (fun s ch => convert ch (sample ch) s) s

/-! ### Times of the phases (R174 to R177) -/

/-- T has reached the phase deadline. -/
def State.phaseOver (s : State) (r : DriveTrial) : Bool :=
  r.phaseDeadline.any fun t => decide (t ≤ s.time)

/-- The PRECHECK deadline passes with the quiet span not complete before it (R174, R179). -/
def precheckOver (c : Nat) (s : State) : State :=
  match s.driveIn c .precheck with
  | some (r, d) =>
    if s.phaseOver r && r.quietStart.any (fun q => decide (s.time ≤ q + d.quietSpan)) then
      failDrive c .noStop none s
    else s
  | none => s

/-- The RAMP deadline passes (R175). -/
def rampOver (c : Nat) (s : State) : State :=
  match s.driveIn c .ramp with
  | some (r, d) => if s.phaseOver r then enterHold c r d s else s
  | none => s

/-- The motion deadline passes in HOLD (R176). -/
def motionOver (c : Nat) (s : State) : State :=
  match s.driveIn c .hold with
  | some (r, _) =>
    if r.motionDeadline.any fun t => decide (t ≤ s.time) then failDrive c .noMotion none s else s
  | none => s

/-- The HOLD deadline passes (R176). -/
def holdOver (c : Nat) (s : State) : State :=
  match s.driveIn c .hold with
  | some (r, d) =>
    if s.phaseOver r then
      if r.captures = 0 then failDrive c .noMotion none s else enterStop c r d s
    else s
  | none => s

/-- Quiet is reached in STOP, at or before the phase deadline (R177). -/
def stopQuiet (c : Nat) (s : State) : State :=
  match s.driveIn c .stop with
  | some (r, d) =>
    if r.stim = .departed ∧ s.quietDone r d = true
        ∧ r.phaseDeadline.any (fun t => decide (s.time ≤ t)) = true then
      settle (takeOutcome c .pass (r.farthest.map fun f => (f : Int) - d.centre) s)
    else s
  | none => s

/-- The STOP deadline passes with the quiet span not complete before it (R177, R179). -/
def stopOver (c : Nat) (s : State) : State :=
  match s.driveIn c .stop with
  | some (r, d) =>
    if r.stim = .departed ∧ s.phaseOver r = true
        ∧ r.quietStart.any (fun q => decide (s.time ≤ q + d.quietSpan)) = true then
      failDrive c .noStop none s
    else s
  | none => s

end Sys2Proof.Machine
end

