-- ==== Sys2Proof/Machine/Due.lean ====
section
/-! DEFINITION. The tracker's counts and home pulses (R12 to R23), and what falls due at a value of
T: speed update, scan, ring deadlines, origin frame, lapse, rest end; with the settling of all that
is due at the present U or T. -/

namespace Sys2Proof.Machine

open Sys2Proof

/-! ### The passage of travel (R12, R118, R132) -/

/-- A waiting entry whose guard has begun and whose open has not been reached is in GUARD (R131). -/
def Entry.refresh (p : Int) (e : Entry) : Entry :=
  if e.phase = .waiting ∧ e.guardAt ≤ p ∧ p < e.openAt then { e with phase := .guard } else e

/-- The phases of both lists follow their positions into the guard (R131, R132). -/
def refreshGuards (s : State) : State :=
  s.mapMonitor fun m =>
    { travelList := m.travelList.map (Entry.refresh s.tracker.travel)
      timeList := m.timeList.map (Entry.refresh s.time) }

/-- All that is due at the present U: the examination of the cue list that its increase began, where that is
not over, then the travel list (R118, R132). -/
def settleTravel (s : State) : State := runTravelList (if s.sched.examining then runCues s else s)

/-- One pitch error of the kind a missing-carrier run makes (R23). -/
def countMissing (s : State) : State :=
  let s := s.mapTracker fun t =>
    { t with pitchTotal := capAdd 65535 t.pitchTotal 1, pitchRun := capAdd 3 t.pitchRun 1, missing := 0 }
  if s.tracker.pitchRun = 3 then enterFault .pitch .missing s else s

/-- The missing-carrier run has reached 2P in TRACKING (R23). -/
def State.missingDue (s : State) : Bool :=
  decide (s.tracker.state = .tracking) && decide (2 * s.pitch ≤ s.tracker.missing)

/-- U increases by 1, and in TRACKING p and m with it (R12). -/
def Tracker.advance (t : Tracker) : Tracker :=
  { t with
    travel := capAdd Config.max48 t.travel 1
    pos := if t.state = .tracking then (t.pos + 1) % t.active.length else t.pos
    missing := if t.state = .tracking then t.missing + 1 else t.missing }

/-- U increases by 1 (R12): the pacing history is pruned and the examination of the cue list begins (R118), and
the guards follow. At 2^48 − 1 U stops, and there is no increase to present. -/
def advanceTravel (s : State) : State :=
  let t := s.mapTracker Tracker.advance
  refreshGuards (if s.tracker.travel < Config.max48 then beginExam (pruneHistory t) else t)

/-! ### Home (R15 to R19) -/

/-- Every coordinate that counts against a geometry: of present definitions and of staged
amendments (R3, R17, R58). -/
def State.coords (s : State) : List Nat :=
  s.table.records.flatMap fun e =>
    e.2.definition.coord?.toList ++ (e.2.staged.bind Definition.coord?).toList

/-- A geometry fits the table and the map: every coordinate below L, every carrier not below N FREE
(R3 steps 4 and 5, R17). -/
def State.geometryFits (s : State) (g : Geometry) : Bool :=
  s.coords.all (fun c => decide (c < g.length))
    && s.engine.carriers.all fun e => decide (e.1 < g.carriers.getD 0) || decide (e.2 = .free)

/-- The home error (R18). -/
def State.homeError (s : State) : Int :=
  wrapSigned ((s.tracker.pos : Int) - s.tracker.active.home.getD 0) s.loopLen

/-- The home check of TRACKING (R18, R19). Both lists take the shift before either is examined, and the
cue list is examined, with its checks, before the travel list; R19 lets either go first (DESIGN CHOICE, log
entry 7). -/
def homeCheck (s : State) : State :=
  let e := s.homeError
  if e.natAbs ≤ s.tracker.active.effHomeTol then
    let r : HomeRecord := { error := e, time := s.time, travel := s.tracker.travel }
    let s := s.mapTracker fun t =>
      { t with
        pos := t.active.home.getD 0, corrections := capAdd 65535 t.corrections 1
        history := pushTail 4 t.history r }
    if e = 0 then s else runTravelList (runCues (shiftTravel e (shiftCues e s)))
  else enterFault .slip (.error e) s

/-- A staged set becomes active at a home pulse: p is set to the new H (R17). -/
def applyStagedGeometry (g : Geometry) (s : State) : State :=
  let s := s.mapTracker fun t =>
    { t with
      active := g, staged := none, backlash := min t.backlash g.revAllow, history := []
      pos := g.home.getD 0 }
  noticeTrack .applied (reportGeometry (updateMoving s))

/-- A staged set that fails the re-check is discarded (R17). -/
def discardStaged (s : State) : State :=
  noticeTrack .discarded (s.mapTracker fun t => { t with staged := none })

/-- UNHOMED enters TRACKING with p at H (R17). -/
def homeIn (s : State) : State :=
  enterTrack .tracking (s.mapTracker fun t =>
    { t with pos := t.active.home.getD 0, pitchRun := 0, missing := 0 })

/-- A taken home pulse (R16 to R18). -/
def takeHome (s : State) : State :=
  let s := s.mapTracker fun t => { t with illegal := 0 }
  match s.tracker.state, s.tracker.staged with
  | .unhomed, none => homeIn s
  | .unhomed, some g => homeIn (if s.geometryFits g then applyStagedGeometry g s else discardStaged s)
  | .tracking, none => homeCheck s
  | .tracking, some g =>
    if s.geometryFits g then applyStagedGeometry g s else homeCheck (discardStaged s)
  | _, _ => s

/-! ### Pitch eye (R20 to R22) -/

/-- The signed phase error at the pitch eye (R21). -/
def State.phaseError (s : State) : Int :=
  let r := carrierPhase s.tracker.active s.tracker.pos (s.tracker.active.eye.getD 0)
  if 2 * r < s.pitch then r else (r : Int) - s.pitch

/-- A checked pitch-eye edge (R21, R22). -/
def pitchCheck (s : State) : State :=
  let e := s.phaseError
  if e.natAbs ≤ s.tracker.active.effPitchTol then
    s.mapTracker fun t => { t with pitchRun := 0, missing := 0 }
  else
    let s := s.mapTracker fun t =>
      { t with pitchTotal := capAdd 65535 t.pitchTotal 1, pitchRun := capAdd 3 t.pitchRun 1, missing := 0 }
    if s.tracker.pitchRun = 3 then enterFault .pitch (.error e) s else s

/-! ### Events of T -/

/-- The speed update (R24, R25), where a whole millisecond has been reached. -/
def speedTick (s : State) : State :=
  if s.tracker.msNext ≤ s.time then
    updateMoving (s.mapTracker fun t =>
      { t with
        speed := smoothStep (min 65535 (t.travel - t.msTravel) * 256) t.speed t.active.smooth
        msTravel := t.travel, msNext := t.msNext + 1000 })
  else s

/-- The scan (R169), where a whole millisecond has been reached. -/
def scanTick (sample : Nat → Nat) (s : State) : State :=
  if s.drives.scanNext ≤ s.time then
    scan sample (s.mapDrives fun d => { d with scanNext := d.scanNext + 1000 })
  else s

/-- The scan with free samples (log entry 4): the free values are counted only where a channel is
converted. -/
def freeScan (s : State) : State :=
  if s.drives.scanNext ≤ s.time ∧ s.drives.scanSet ≠ [] then
    scanTick (fun ch => (Config.adcSample s.freeSeq ch).toNat) { s with freeSeq := s.freeSeq + 1 }
  else scanTick (fun _ => 0) s

/-- The silence deadline (R38): LOST with cause SILENCE in GOOD or DEGRADED. Reached in LOST it
changes no state and is not judged again. -/
def silenceTick (s : State) : State :=
  if s.ring.role = .relay ∧ s.ring.silence.any (fun d => decide (d ≤ s.time)) = true then
    if s.ring.state = .lost then s.mapRing fun g => { g with silence := none }
    else loseRing .silence s
  else s

/-- The expiry of return pending (R36). -/
def returnTick (s : State) : State :=
  if s.ring.returnDeadline.any fun d => decide (d ≤ s.time) then
    ringError .noReturn (s.mapRing fun g => { g with returnDeadline := none })
  else s

/-- The departure of an origin frame (R34). -/
def originTick (s : State) : State :=
  if s.ring.role = .origin ∧ s.ring.originNext.any (fun t => decide (t ≤ s.time)) = true then
    makeOrigin s
  else s

/-- The end of the rest of a context paused with reason REST (R94). -/
def restTick (c : Nat) (s : State) : State :=
  let x := s.ctx c
  if x.state = .paused ∧ x.reason = .rest ∧ x.restEnd.any (fun t => decide (t ≤ s.time)) = true then
    check s
  else s

/-- The contexts that a station owns and that are in one of some states. -/
def State.owned (s : State) (st : Station) (states : List CtxState) : List Nat :=
  ctxNumbers.filter fun c =>
    decide ((s.ctx c).owner = st) && decide ((s.ctx c).state ∈ states)

/-- A lapse reaches context `c`: in PAUSED or RUNNING, and owned by the station, it ends ABORTED with
cause LAPSE and is counted. A context that a check inside the lapse has brought to CLOSING keeps its
result, and one that such a check has freed is no longer the station's (R85, R87, R107). -/
def lapseOne (st : Station) (r : State × Nat) (c : Nat) : State × Nat :=
  let x := r.1.ctx c
  if x.owner = st ∧ (x.state = .paused ∨ x.state = .running) then
    (settle (enterClosing c .aborted .lapse r.1), r.2 + 1)
  else r

/-- A station lapses (R85): its contexts are ended one after another by ascending number (DESIGN CHOICE,
log entry 26), and the other two ports are told how many. -/
def lapse (st : Station) (s : State) : State :=
  let r := ctxNumbers.foldl (lapseOne st) (s, 0)
  let body := lapsedNotice st r.2 s.time
  let others := [Port.sta, Port.stb, Port.line].filter fun p => decide (p ≠ stationPort st)
  others.foldl (fun s p => pushNotice p 0x65 body s) r.1

/-- A lapse deadline that has been reached and not been judged (R84). -/
def State.lapseDue (s : State) (st : Station) : Bool :=
  let x := s.staLink st
  decide (x.lapse ≠ 0) && !x.lapseJudged && decide (x.lastFrame + x.lapse * 1000000 ≤ s.time)

/-- The lapse deadline of a Station Port (R84). -/
def lapseTick (st : Station) (s : State) : State :=
  if s.lapseDue st then
    let s := s.mapSta st fun x => { x with lapseJudged := true }
    if s.owned st [.paused, .running, .closing] = [] then s else lapse st s
  else s

/-! ### All that is due at the present T -/

/-- The PRECHECK deadline with the quiet span still incomplete (R174). -/
def precheckLate (c : Nat) (s : State) : State :=
  match s.driveIn c .precheck with
  | some (r, d) => if s.quietDone r d then s else precheckOver c s
  | none => s

/-- What is due in one drive trial; quiet is taken before a deadline that falls with it, which R179 lets go
either way, and the motion deadline of HOLD before its phase deadline, whose order R176 and R179 leave open
(DESIGN CHOICE, log entry 7). -/
def driveTick (s : State) (c : Nat) : State :=
  stopOver c (stopQuiet c (holdOver c (motionOver c (rampOver c (precheckLate c (tryRamp c s))))))

/-- All that is due at the present T, in one of the orders the rules allow (log entry 7). -/
def settleTime (s : State) : State :=
  let s := freeScan (speedTick s)
  let s := originTick (returnTick (silenceTick s))
  let s := runTimeList s
  let s := ctxNumbers.foldl driveTick s
  let s := ctxNumbers.foldl (fun s c => restTick c s) s
  lapseTick .stb (lapseTick .sta s)

/-- One microsecond passes: what is due is settled and T advances (log entry 3). -/
def tick (s : State) : State :=
  let s := settleTime (settleTravel s)
  refreshGuards { s with time := capAdd Config.max48 s.time 1 }

end Sys2Proof.Machine
end

