-- ==== Sys2Proof/Machine/DriveCommands.lean ====
section
/-! DEFINITION. The commands of the Drive Monitor and of drive trials (R168, R169, R174 to R177). -/

namespace Sys2Proof.Machine

open Sys2Proof

/-- TACH_EDGE (R168). -/
def execTachEdge (ch : Fin 16) (s : State) : Result := .next (tachRise ch s)

/-- CURRENT_SCAN (R169): the samples of the sixteen channels as the ADC would convert them. -/
def execCurrentScan (samples : List (BitVec 12)) (s : State) : Result :=
  .next (scanTick (fun ch => (samples.getD ch 0).toNat) s)

/-- QUIET_SPAN_COMPLETE (R174). -/
def execQuietSpanComplete (c : Fin 16) (s : State) : Result := .next (tryRamp c s)

/-- PRECHECK_DEADLINE (R174). -/
def execPrecheckDeadline (c : Fin 16) (s : State) : Result := .next (precheckOver c s)

/-- RAMP_DEADLINE (R175). -/
def execRampDeadline (c : Fin 16) (s : State) : Result := .next (rampOver c s)

/-- MOTION_DEADLINE (R176). -/
def execMotionDeadline (c : Fin 16) (s : State) : Result := .next (motionOver c s)

/-- HOLD_DEADLINE (R176). -/
def execHoldDeadline (c : Fin 16) (s : State) : Result := .next (holdOver c s)

/-- STOP_QUIET_REACHED (R177). -/
def execStopQuietReached (c : Fin 16) (s : State) : Result := .next (stopQuiet c s)

/-- STOP_DEADLINE (R177). -/
def execStopDeadline (c : Fin 16) (s : State) : Result := .next (stopOver c s)

end Sys2Proof.Machine
end

