-- ==== Sys2Proof/Machine/HoldingOrders.lean ====
section
/-! DEFINITION. The orders of the Holding Arbiter: Lock Out, Unlock, Enlist, Withdraw, Withdraw
Faulty, Set Lapse, and the lapse deadline (R75 to R85). -/

namespace Sys2Proof.Machine

open Sys2Proof

/-- Refuses, naming element `i` with its state and hold count as found (R81). -/
def refuseNaming (s : State) (r : Reason) (i : Nat) : State × List Byte := refuse s r (blameElem s i)

/-- An element and, for a chute, its eyes. -/
def State.withEyes (s : State) (i : Nat) : List Nat := i :: (s.elem i).definition.eyes

/-- Sets state and holder of an element. -/
def setHolding (st : ElState) (h : Holder) (s : State) (i : Nat) : State :=
  s.mapElem i fun e => { e with state := st, holder := h }

/-- Sets state and holder of several elements. -/
def holdEach (st : ElState) (h : Holder) (is : List Nat) (s : State) : State := is.foldl (setHolding st h) s

/-- The holding of several elements is set and their output sources derived afresh. -/
def holdAll (st : ElState) (h : Holder) (is : List Nat) (s : State) : State :=
  deriveSources (outputsOf s is) (holdEach st h is s)

/-! ### Lock Out and Unlock (R78, R79) -/

/-- Lock Out's own checks and effect (R78). -/
def lockEffect (h : Holder) (i : Nat) (s : State) : State × List Byte :=
  if 1023 < i then refuse s .range
  else match (s.elem i).state with
    | .empty => refuseNaming s .notDefined i
    | .testing => refuseNaming s .testing i
    | .live => refuseNaming s .live i
    | .locked => refuseNaming s .lockedOut i
    | _ => (holdAll .locked h [i] s, accepted [])

/-- The holder that the master of a port is. -/
def portHolder : Port → Holder
  | .sta => .sta | .stb => .stb | .line => .line

/-- LOCK_OUT (R78). -/
def execLockOut (p : Port) (tag : Byte) (i : Nat) (s : State) : Result :=
  .next (takeOrder p fromStation 0x09 tag (lockEffect (portHolder p) i) s)

/-- Unlock's own checks and effect (R79). -/
def unlockEffect (h : Holder) (i : Nat) (s : State) : State × List Byte :=
  if 1023 < i then refuse s .range
  else match (s.elem i).state with
    | .empty => refuseNaming s .notDefined i
    | .testing => refuseNaming s .testing i
    | .live => refuseNaming s .live i
    | .locked =>
      if (s.elem i).holder = h then (holdAll .unproven .none [i] s, accepted [])
      else refuseNaming s .notHolder i
    | _ => refuseNaming s .notHolder i

/-- UNLOCK (R79). -/
def execUnlock (p : Port) (tag : Byte) (i : Nat) (s : State) : Result :=
  .next (takeOrder p fromStation 0x0A tag (unlockEffect (portHolder p) i) s)

/-! ### Enlist (R75) -/

/-- Steps 5 and 6 of R75 for one element. -/
def State.enlistFault (s : State) (i : Nat) : Option Reason :=
  match (s.elem i).state with
  | .testing => some .testing
  | .live => some .live
  | .locked => some .lockedOut
  | .proven => if 0 < (s.elem i).holdCount then some .quieted else none
  | _ => some .notDefined

/-- Enlist's own checks and effect (R75). -/
def enlistEffect (i : Nat) (s : State) : State × List Byte :=
  if 1023 < i then refuse s .range
  else if (s.elem i).state = .empty then refuseNaming s .notDefined i
  else if (s.elem i).definition.mode = some .attached then refuseNaming s .attached i
  else if s.table.layoutFixed = false then refuse s .layoutOpen
  else match (s.withEyes i).find? fun j => (s.enlistFault j).isSome with
    | some j => refuseNaming s ((s.enlistFault j).getD .notDefined) j
    | none => (holdAll .live .line (s.withEyes i) s, accepted [])

/-- ENLIST (R75). -/
def execEnlist (p : Port) (tag : Byte) (i : Nat) (s : State) : Result :=
  .next (takeOrder p fromLine 0x12 tag (enlistEffect i) s)

/-! ### Withdraw and Withdraw Faulty (R76, R77) -/

/-- The checks of R76; the first reason that applies. -/
def withdrawFault (i : Nat) (s : State) : Option Reason :=
  if (s.elem i).state = .empty then some .notDefined
  else if (s.elem i).definition.mode = some .attached then some .attached
  else if (s.elem i).state ≠ .live then some .notHolder
  else none

/-- Withdraw's own checks and effect (R76). -/
def withdrawEffect (i : Nat) (s : State) : State × List Byte :=
  if 1023 < i then refuse s .range
  else match withdrawFault i s with
    | some r => refuseNaming s r i
    | none => (holdAll .proven .none (s.withEyes i) s, accepted [])

/-- WITHDRAW (R76). -/
def execWithdraw (p : Port) (tag : Byte) (i : Nat) (s : State) : Result :=
  .next (takeOrder p fromLine 0x13 tag (withdrawEffect i) s)

/-- The summary of a fault report (R65). -/
def lineReport (t : Nat) : Summary :=
  { result := .lineReported, station := none, trials := 0, passes := 0, fails := 0, voids := 0
    worst := 0, endTime := t }

/-- Withdraw Faulty's own checks and effect (R77). -/
def faultyEffect (i : Nat) (s : State) : State × List Byte :=
  if 1023 < i then refuse s .range
  else match withdrawFault i s with
    | some r => refuseNaming s r i
    | none =>
      let is := s.withEyes i
      (deriveSources (outputsOf s is) ((holdEach .proven .none is s).mapElem i fun e =>
        { e with state := .failed, summary := some (lineReport s.time) }), accepted [])

/-- WITHDRAW_FAULTY (R77). -/
def execWithdrawFaulty (p : Port) (tag : Byte) (i : Nat) (s : State) : Result :=
  .next (takeOrder p fromLine 0x14 tag (faultyEffect i) s)

/-! ### Station lapse (R83 to R85) -/

/-- Set Lapse's own checks and effect on the port it arrived on (R83). -/
def setLapseEffect (p : Port) (seconds : Nat) (s : State) : State × List Byte :=
  if 60 < seconds then refuse s .range
  else match portStation p with
    | some st => (s.mapSta st fun x => { x with lapse := seconds }, accepted [])
    | none => (s, accepted [])

/-- SET_LAPSE (R83). -/
def execSetLapse (p : Port) (tag : Byte) (seconds : Nat) (s : State) : Result :=
  .next (takeOrder p fromStation 0x0F tag (setLapseEffect p seconds) s)

/-- LAPSE_DEADLINE (R84). -/
def execLapseDeadline (st : Station) (s : State) : Result := .next (lapseTick st s)

end Sys2Proof.Machine
end

