-- ==== Sys2Proof/Machine/LinkCommands.lean ====
section
/-! DEFINITION. The commands of the Link Ports and the Order Desk: watch lists, Read Port, bad
orders, receive errors and gaps, Line Port transfers, frames sent (R182 to R189). -/

namespace Sys2Proof.Machine

open Sys2Proof

/-! ### Watch lists (R188) -/

/-- The watch list of a port. -/
def State.watchOf (s : State) (p : Port) : List Nat :=
  match portStation p with | some st => (s.staLink st).watch | none => []

/-- Writes the watch list of a port. -/
def setWatch (p : Port) (l : List Nat) (s : State) : State :=
  match portStation p with | some st => s.mapSta st fun x => { x with watch := l } | none => s

/-- A list of points with its count, in a reply (R188, R191). -/
def watchReply (l : List Nat) : List Byte := accepted (encList (be 2) l)

/-- Watch Point's own checks and effect (R188). -/
def watchEffect (p : Port) (pt : Nat) (s : State) : State × List Byte :=
  let l := s.watchOf p
  if 1023 < pt then refuse s .range
  else if pt ∈ l then (s, watchReply l)
  else if l.length < 4 then (setWatch p (l ++ [pt]) s, watchReply (l ++ [pt]))
  else refuse s .busy

/-- WATCH_POINT (R188). -/
def execWatchPoint (p : Port) (tag : Byte) (pt : Nat) (s : State) : Result :=
  .next (takeOrder p fromStation 0x10 tag (watchEffect p pt) s)

/-- Unwatch's own checks and effect (R188). -/
def unwatchEffect (p : Port) (pt : Nat) (s : State) : State × List Byte :=
  if 1023 < pt then refuse s .range
  else
    let l := (s.watchOf p).filter fun q => decide (q ≠ pt)
    (setWatch p l s, watchReply l)

/-- UNWATCH (R188). -/
def execUnwatch (p : Port) (tag : Byte) (pt : Nat) (s : State) : Result :=
  .next (takeOrder p fromStation 0x11 tag (unwatchEffect p pt) s)

/-- READ_PORT (R189). -/
def execReadPort (p : Port) (tag : Byte) (named : Port) (s : State) : Result :=
  .next (takeRead p 0x1D 1 tag (fun s => [accepted (portImage s named)]) s)

/-! ### Bad orders (R185) -/

/-- The ports that an order of KIND `kind` is permitted from (R189). -/
def permittedFrom (kind : Nat) (p : Port) : Bool :=
  if kind ≤ 0x11 then fromStation p else if kind ≤ 0x16 then fromLine p else true

/-- The refusal of a good frame that is no well-formed order (R185 steps 1 to 3); `none` where the
frame is an order. -/
def badOrderReason (p : Port) (f : LinkFrame) : Option Reason :=
  let k := f.kind.toNat
  if k = 0 ∨ 0x1D < k then some .badOrder
  else if !permittedFrom k p then some .notPermitted
  else if (decodeOrder p f).isNone then some .badOrder
  else none

/-- The room that a good frame's reply needs: for Read Context, that of its own rule where the body
names a FREE context, and three otherwise (R185). -/
def State.frameRoom (s : State) (f : LinkFrame) : Nat :=
  if f.kind = 0x18#8 then
    if f.body ≠ [] ∧ fieldAt f.body 0 1 ≤ 15 ∧ (s.ctx (fieldAt f.body 0 1)).state = .free then 2 else 3
  else 1

/-- A good frame that is no order is answered BAD_ORDER or NOT_PERMITTED, or dropped for want of
room (R185). A frame that is an order belongs to the row of its own order and changes nothing here. -/
def badFrame (p : Port) (f : LinkFrame) (s : State) : State :=
  match badOrderReason p f with
  | none => s
  | some r =>
    let s := goodFrame p s
    if !hasRoom p (s.frameRoom f) s then dropOrder p s
    else queueReply p f.kind.toNat f.tag [refusedBody r] s

/-- BAD_ORDER (R185). -/
def execBadOrder (p : Port) (f : LinkFrame) (s : State) : Result := .next (badFrame p f s)

/-! ### Receive errors (R183, R184) -/

/-- The receive-error count of a port rises by 1 (R183, R184). -/
def countReceive (p : Port) (s : State) : State :=
  s.mapLink p fun l => { l with rxErrors := capAdd 65535 l.rxErrors 1 }

/-- The bytes of the frame that a Station Port has begun, after further bytes: in HUNTING every byte
before a SYNC is discarded (R183). -/
def rxFrame (x : RxState) (bytes : List Byte) : List Byte :=
  match x with
  | .inFrame l => l ++ bytes
  | .hunting => bytes.dropWhile fun b => decide (b ≠ syncByte)

/-- LENGTH has come and is 0, 1 or above 250 (R183). -/
def badLength (bs : List Byte) : Bool := decide (2 ≤ bs.length) && !lengthOk (lengthOf bs)

/-- The frame has come whole (R182). -/
def frameWhole (bs : List Byte) : Bool :=
  decide (2 ≤ bs.length) && lengthOk (lengthOf bs) && decide (lengthOf bs + 4 ≤ bs.length)

/-- A begun frame is dropped: counted, and the receiver is back in HUNTING (R183). -/
def dropFrame (st : Station) (s : State) : State :=
  countReceive (stationPort st) (s.mapSta st fun x => { x with rx := .hunting })

/-- A frame that comes with these further bytes is dropped for an error on a byte, a bad LENGTH or a
failing CRC (R183). Bytes that begin no frame, or spell no error, change nothing here; bytes beyond the error are
discarded with the frame (DESIGN CHOICE, log entry 24). -/
def receiveBad (st : Station) (bytes : List Byte) (lineError : Bool) (s : State) : State :=
  let bs := rxFrame (s.staLink st).rx bytes
  let bad := lineError || badLength bs
    || (frameWhole bs && !crcChecks (bs.take (lengthOf bs + 4)))
  if !bs.isEmpty && bad then dropFrame st s else s

/-- RECEIVE_ERROR (R183). -/
def execReceiveError (st : Station) (bytes : List Byte) (lineError : Bool) (s : State) : Result :=
  .next (receiveBad st bytes lineError s)

/-- A frame that has begun and is not whole is dropped by a gap of ten character times (R183). -/
def receiveStall (st : Station) (bytes : List Byte) (s : State) : State :=
  let bs := rxFrame (s.staLink st).rx bytes
  if !bs.isEmpty && !frameWhole bs then dropFrame st s else s

/-- RECEIVE_GAP (R183). -/
def execReceiveGap (st : Station) (bytes : List Byte) (s : State) : Result :=
  .next (receiveStall st bytes s)

/-- The MOSI bytes of a transfer are neither a good write nor a read (R184). A transfer in which no byte is
clocked is not counted (DESIGN CHOICE, log entry 52). -/
def transferBad (bytes : List Byte) : Bool :=
  match bytes with
  | [] => false
  | b :: _ => if b = 0#8 then false else (parseEnvelope bytes).isNone

/-- A transfer is dropped and counted; in a write, MISO carried 0x00 throughout (R184). What MISO carries
in a transfer that is neither write nor read is not stated, and `miso` stands as it was (DESIGN CHOICE, log
entry 31). -/
def dropTransfer (bytes : List Byte) (s : State) : State :=
  countReceive .line (if bytes.head? = some syncByte then misoZero s else s)

/-- LINE_TRANSFER_DROPPED (R184). -/
def execLineTransferDropped (bytes : List Byte) (s : State) : Result :=
  .next (if transferBad bytes then dropTransfer bytes s else s)

/-! ### Frames sent (R184, R186) -/

/-- The bytes of the oldest frame of a queue, none where it is empty. -/
def headBytes : List LinkFrame → List Byte
  | f :: _ => f.bytes
  | [] => []

/-- A read transfer of `n` bytes: the oldest frame shifts out, followed by 0x00, and leaves the queue
if it was sent whole (R184). -/
def readOut (n : Nat) (s : State) : State :=
  let out := headBytes s.links.linkL.queue
  let whole := decide (out.length ≤ n)
  let s := s.mapLinks fun l => { l with miso := padTo n out }
  if whole then s.mapLink .line fun l => { l with queue := l.queue.tail } else s

/-- READ_TRANSFER (R184). -/
def execReadTransfer (clocked : Nat) (s : State) : Result := .next (readOut clocked s)

/-- The frame at the head of a Station Port's queue has been sent and leaves (R186). -/
def sendHead (st : Station) (s : State) : State :=
  match (s.link (stationPort st)).queue with
  | [] => s
  | f :: l =>
    (s.mapLink (stationPort st) fun x => { x with queue := l }).mapSta st fun x => { x with tx := f.bytes }

/-- FRAME_SENT (R186). -/
def execFrameSent (st : Station) (s : State) : Result := .next (sendHead st s)

end Sys2Proof.Machine
end

