-- ==== Sys2Proof/Machine/ProofOrders.lean ====
section
/-! DEFINITION. The orders of the Proof Engine and of the Carrier Reservation Map: Order Proof, Add
Articles, Abort Proof, Clear Carrier, Read Context, Read Reservations; Set Pacing and Set Drive Limit
of the line controller (R72, R73, R88 to R93, R106, R109, R115, R171). -/

namespace Sys2Proof.Machine

open Sys2Proof

/-! ### Order Proof (R72, R73, R88, R89) -/

/-- The claim set of element `i`, in order (R72). -/
def State.claimSet (s : State) (i : Nat) : List Nat := i :: (s.elem i).definition.eyes

/-- A ring point of the claim set lies in a slot at or above S (R88 step 5). -/
def State.pointsUncarried (s : State) (i : Nat) : Bool :=
  (s.claimSet i).any fun j =>
    let d := (s.elem j).definition
    (d.outputs ++ d.inputs).any fun pt => decide (s.ring.carried ≤ pt)

/-- The drive of element `i` has a reverse point. -/
def State.hasReverse (s : State) (i : Nat) : Bool :=
  match s.driveDef i with | some d => d.reverse.isSome | none => false

/-- An article list is unfit for an element of this kind and mode: not empty for a DRIVE or a CARRIER
sensor, too long, a carrier twice, or a carrier not below N (R88 step 6, R90 step 4). -/
def State.listUnfit (s : State) (kind : Kind) (mode : Option Mode) (l : List Nat) : Bool :=
  !l.isEmpty
    && (decide (kind = .drive) || decide (mode = some .carrier) || decide (¬ l.Nodup)
      || match s.tracker.active.carriers with
         | some n => l.any fun k => decide (n ≤ k)
         | none => true)

/-- A member of the claim set refuses the claim (R72). -/
def State.memberFault (s : State) (j : Nat) : Option Reason :=
  match (s.elem j).state with
  | .testing => some .testing
  | .live => some .live
  | .locked => some .lockedOut
  | _ => if 0 < (s.elem j).holdCount then some .quieted else none

/-- The claim fails: reason and the member or companion that refuses it (R72). -/
def State.claimFault (s : State) (i : Nat) : Option (Reason × Nat) :=
  match (s.claimSet i).find? fun j => (s.memberFault j).isSome with
  | some j => some ((s.memberFault j).getD .testing, j)
  | none =>
    ((s.elem i).definition.companions.find? fun j => decide ((s.elem j).state = .live)).map fun j =>
      (.companionLive, j)

/-- The lowest-numbered FREE context. -/
def State.freeContext (s : State) : Option Nat :=
  ctxNumbers.find? fun c => decide ((s.ctx c).state = .free)

/-- Steps 1 to 6 of R88. -/
def orderFault (o : ProofOrder) (s : State) : Option Reason :=
  let d := (s.elem o.element).definition
  if 1023 < o.element then some .range
  else if (s.elem o.element).state = .empty then some .notDefined
  else if d.mode = some .attached then some .attached
  else if !(within 1 15 o.k && within o.k 63 o.tLim) then some .range
  else if (o.reverse && !s.hasReverse o.element) || s.pointsUncarried o.element then some .range
  else if decide (8 < o.articles.length) || s.listUnfit d.kind d.mode o.articles then some .range
  else none

/-- The context that a taken Order Proof fills (R89 steps 1 to 5). -/
def orderedContext (st : Station) (o : ProofOrder) (s : State) : Context :=
  let d := (s.elem o.element).definition
  { state := .paused, owner := st, element := o.element, kind := d.kind, mode := d.mode
    claim := (s.claimSet o.element).map fun j => (j, (s.elem j).state)
    companions := d.companions, k := o.k, tLim := o.tLim, notice := o.notice, reverse := o.reverse
    articles := o.articles }

/-- A taken Order Proof fills context `c`, takes the claim and is checked at once (R73, R89). -/
def takeProof (c : Nat) (st : Station) (o : ProofOrder) (s : State) : State :=
  let x := orderedContext st o s
  let members := x.claim.map (·.1)
  let s := s.setCtx c x
  let s := members.foldl
    (fun s j => s.mapElem j fun e => { e with state := .testing, holder := stationHolder st }) s
  let s := x.companions.foldl (fun s j => s.mapElem j fun e => { e with holdCount := e.holdCount + 1 }) s
  let s := deriveSources (outputsOf s (members ++ x.companions)) s
  check (s.setCarriers x.articles (.article c))

/-- Order Proof's own checks and effect (R88, R89). -/
def proofEffect (p : Port) (o : ProofOrder) (s : State) : State × List Byte :=
  match orderFault o s, s.freeContext, portStation p with
  | some r, _, _ => refuse s r
  | none, none, _ => refuse s .noContext
  | none, some _, none => refuse s .notPermitted
  | none, some c, some st =>
    match o.articles.find? fun k => decide (s.carrier k ≠ .free) with
    | some k => refuse s .carrierBusy { carrier := some (k, s.carrier k) }
    | none =>
      match s.claimFault o.element with
      | some (r, j) => refuse s r (blameElem s j)
      | none =>
        let s := takeProof c st o s
        (s, accepted (be 1 c ++ be 1 (reasonCode (s.ctx c).reason)))

/-- ORDER_PROOF (R88). -/
def execOrderProof (p : Port) (tag : Byte) (o : ProofOrder) (s : State) : Result :=
  .next (takeOrder p fromStation 0x06 tag (proofEffect p o) s)

/-! ### Add Articles (R90) -/

/-- The context belongs to the requesting port's station and is not FREE. -/
def State.ownedBy (s : State) (p : Port) (c : Nat) : Bool :=
  decide ((s.ctx c).state ≠ .free) && decide (portStation p = some (s.ctx c).owner)

/-- The checks of R90; the first reason that applies. -/
def articlesFault (p : Port) (c : Nat) (l : List Nat) (s : State) : Option Reason :=
  let x := s.ctx c
  if 15 < c then some .range
  else if !s.ownedBy p c || decide (x.state = .closing) then some .notHolder
  else if decide (x.kind = .drive) || decide (x.mode = some .carrier) || l.isEmpty
      || s.listUnfit x.kind x.mode l then some .range
  else if 8 < x.articles.length + l.length then some .articlesFull
  else if l.any fun k => decide (s.carrier k ≠ .free) then some .carrierBusy
  else none

/-- Add Articles' own checks and effect (R90). -/
def articlesEffect (p : Port) (c : Nat) (l : List Nat) (s : State) : State × List Byte :=
  match articlesFault p c l s with
  | some r => refuse s r
  | none =>
    let all := (s.ctx c).articles ++ l
    let s := (s.mapCtx c fun x => { x with articles := all }).setCarriers l (.article c)
    (if (s.ctx c).state = .paused then check s else s, accepted (encList (be 2) all))

/-- ADD_ARTICLES (R90). -/
def execAddArticles (p : Port) (tag : Byte) (c : Nat) (l : List Nat) (s : State) : Result :=
  .next (takeOrder p fromStation 0x07 tag (articlesEffect p c l) s)

/-! ### Abort Proof (R106) -/

/-- Abort Proof's own checks and effect (R106). Disposition CLOSING is 0 and ABORTED 1, in the order
of the rule. -/
def abortEffect (p : Port) (c : Nat) (s : State) : State × List Byte :=
  if 15 < c then refuse s .range
  else if !s.ownedBy p c then refuse s .notHolder
  else if (s.ctx c).state = .closing then
    (s, accepted (be 1 0 ++ be 1 (resultCode (((s.ctx c).ending.map (·.1)).getD .aborted))))
  else (settle (enterClosing c .aborted .order s), accepted (be 1 1))

/-- ABORT_PROOF (R106). -/
def execAbortProof (p : Port) (tag : Byte) (c : Nat) (s : State) : Result :=
  .next (takeOrder p fromStation 0x08 tag (abortEffect p c) s)

/-! ### The Carrier Reservation Map (R92, R93) -/

/-- The carrier is in flight in some context. -/
def State.inFlight (s : State) (k : Nat) : Bool :=
  ctxNumbers.any fun c => decide ((s.ctx c).inFlight = some k)

/-- Carrier `k` is below N, and N is set. -/
def State.carrierExists (s : State) (k : Nat) : Bool :=
  match s.tracker.active.carriers with | some n => decide (k < n) | none => false

/-- Clear Carrier's own checks and effect (R92). -/
def clearEffect (k : Nat) (s : State) : State × List Byte :=
  if !s.carrierExists k then refuse s .range
  else if (match s.carrier k with | .article _ => true | _ => false) || s.inFlight k then
    refuse s .held
  else (s.setCarrier k .free, accepted (be 1 (reservationCode .free)))

/-- CLEAR_CARRIER (R92). -/
def execClearCarrier (p : Port) (tag : Byte) (k : Nat) (s : State) : Result :=
  .next (takeOrder p fromStation 0x0B tag (clearEffect k) s)

/-- The reply to Read Reservations (R93, R191). -/
def reservationsReply (first number : Nat) (s : State) : List (List Byte) :=
  match s.tracker.active.carriers with
  | none => [refusedBody .range]
  | some n =>
    if first < n ∧ within 1 128 number = true ∧ first + number ≤ n then
      [accepted (reservationsImage s n first number)]
    else [refusedBody .range]

/-- READ_RESERVATIONS (R93). -/
def execReadReservations (p : Port) (tag : Byte) (first number : Nat) (s : State) : Result :=
  .next (takeRead p 0x1C 1 tag (reservationsReply first number) s)

/-! ### Read Context (R109) -/

/-- The reply to Read Context (R109, R195). -/
def contextReply (c : Nat) (s : State) : List (List Byte) :=
  if 15 < c then [refusedBody .range] else contextBodies s c

/-- The room that the reply to Read Context needs (R185). -/
def State.contextRoom (s : State) (c : Nat) : Nat :=
  if c ≤ 15 ∧ (s.ctx c).state = .free then 2 else 3

/-- READ_CONTEXT (R109). -/
def execReadContext (p : Port) (tag : Byte) (c : Nat) (s : State) : Result :=
  .next (takeRead p 0x18 (s.contextRoom c) tag (contextReply c) s)

/-! ### Set Pacing and Set Drive Limit (R115, R171) -/

/-- Set Pacing's effect: each value clamped into its range (R115). -/
def pacingEffect (g w q : Nat) (s : State) : State × List Byte :=
  let g := clampTo 0 64 g
  let w := clampTo 1 512 w
  let q := clampTo 1 8 q
  (s.mapSched fun x => { x with spacing := g, window := w, allowed := q },
    accepted (be 1 g ++ be 2 w ++ be 1 q))

/-- SET_PACING (R115). -/
def execSetPacing (p : Port) (tag : Byte) (g w q : Nat) (s : State) : Result :=
  .next (takeOrder p fromLine 0x15 tag (pacingEffect g w q) s)

/-- Set Drive Limit's effect: D is set and reported, and the paused contexts are checked (R171). -/
def limitEffect (d : Nat) (s : State) : State × List Byte :=
  let d := clampTo 1 4 d
  (check ((s.mapDrives fun x => { x with limit := d }).mapEngine fun e => { e with limit := d }),
    accepted (be 1 d))

/-- SET_DRIVE_LIMIT (R171). -/
def execSetDriveLimit (p : Port) (tag : Byte) (d : Nat) (s : State) : Result :=
  .next (takeOrder p fromLine 0x16 tag (limitEffect d) s)

end Sys2Proof.Machine
end

