-- ==== Sys2Proof/Machine/Resets.lean ====
section
/-! DEFINITION. The two resets (R9, R28, R50, R83, R86, R91, R100, R110, R111, R127, R167, R181,
R183). -/

namespace Sys2Proof.Machine

open Sys2Proof

/-- The bit rate that a strap selects (R183). -/
def strapRate : Strap → BitRate
  | .heldLow => .r115200 | .leftOpen => .r460800 | .heldHigh => .r921600

/-- The state after a full reset that finds these pins: every block at its reset values, bit rates
from the straps (R183), Machine Stop and encoder levels as the inputs stand (R11, R100). The model's
own counter of free values and the queue of waiting commands are kept (log entry 2). -/
def fullReset (pins : ResetPins) (s : State) : State :=
  { tracker := { encA := pins.encA, encB := pins.encB }
    engine := { stop := pins.machineStop }
    links :=
      { staA := { rate := strapRate pins.strapA }, staB := { rate := strapRate pins.strapB } }
    freeSeq := s.freeSeq
    pending := s.pending }

/-- POWER_ON_RESET (R9). -/
def execPowerOnReset (pins : ResetPins) (s : State) : Result := .next (fullReset pins s)

/-- RESET_LINE_RESET (R9): the same values as at power-on. -/
def execResetLineReset (pins : ResetPins) (s : State) : Result := .next (fullReset pins s)

end Sys2Proof.Machine
end

