-- ==== Sys2Proof/Machine/RingCommands.lean ====
section
/-! DEFINITION. The commands of the I/O Ring Interface: Ring Restart, Set Ring Role, Read Ring, Read
Points, the frames of both directions and the ring's deadlines (R29 to R36, R38, R48, R49). -/

namespace Sys2Proof.Machine

open Sys2Proof

/-- Ring Restart's effect (R30). -/
def restartEffect (s : State) : State × List Byte := (restartRing .restart s, accepted [])

/-- RING_RESTART (R30). -/
def execRingRestart (p : Port) (tag : Byte) (s : State) : Result :=
  .next (takeOrder p fromStation 0x0D tag restartEffect s)

/-- A taken Set Ring Role (R29). -/
def takeRole (role : RingRole) (slots period : Nat) (s : State) : State :=
  let s := s.mapRing fun g =>
    { g with
      role := role, slots := slots, originPeriod := period, intervals := [], lastArrival := none
      originSeq := 0, originNext := none }
  let s := restartRing .role s
  if role = .origin then makeOrigin s else s

/-- Some proof context is not FREE. -/
def State.anyContext (s : State) : Bool := ctxNumbers.any fun c => decide ((s.ctx c).state ≠ .free)

/-- Set Ring Role's own checks and effect (R29). -/
def roleEffect (role : RingRole) (slots period : Nat) (s : State) : State × List Byte :=
  if !(within 1 64 slots && within 250 2000 period) then refuse s .range
  else if s.table.records.any fun e => decide (e.2.state = .live) then refuse s .live
  else if s.anyContext then refuse s .busy
  else (takeRole role slots period s, accepted (be 1 (roleCode role) ++ be 1 slots ++ be 2 period))

/-- SET_RING_ROLE (R29). -/
def execSetRingRole (p : Port) (tag : Byte) (role : RingRole) (slots period : Nat) (s : State) : Result :=
  .next (takeOrder p fromStation 0x0E tag (roleEffect role slots period) s)

/-- READ_RING (R48). -/
def execReadRing (p : Port) (tag : Byte) (s : State) : Result :=
  .next (takeRead p 0x1A 1 tag (fun s => [accepted (ringImage s)]) s)

/-- The reply to Read Points (R49). -/
def pointsReply (space : Space) (first number : Nat) (s : State) : List (List Byte) :=
  if first ≤ 1023 ∧ within 1 16 number = true ∧ first + number ≤ 1024 then
    [accepted (pointsImage s space first number)]
  else [refusedBody .range]

/-- READ_POINTS (R49). -/
def execReadPoints (p : Port) (tag : Byte) (space : Space) (first number : Nat) (s : State) : Result :=
  .next (takeRead p 0x1B 1 tag (pointsReply space first number) s)

/-- SCANNER_FRAME (R32). -/
def execScannerFrame (f : RingFrame) (s : State) : Result := .next (scannerArrival f s)

/-- NODE_FRAME (R33). -/
def execNodeFrame (f : RingFrame) (s : State) : Result := .next (nodeArrival f s)

/-- ORIGIN_FRAME (R34). -/
def execOriginFrame (s : State) : Result := .next (originTick s)

/-- RETURN_EXPIRY (R36). -/
def execReturnExpiry (s : State) : Result := .next (returnTick s)

/-- SILENCE_DEADLINE (R38). -/
def execSilenceDeadline (s : State) : Result := .next (silenceTick s)

end Sys2Proof.Machine
end

