-- ==== Sys2Proof/Machine/TableOrders.lean ====
section
/-! DEFINITION. The orders of the Element Table: Define Element, Amend Element, Fix Layout, Release
Layout, Read Element (R54 to R62, R67 to R70). -/

namespace Sys2Proof.Machine

open Sys2Proof

/-! ### References and reservations (R54, R55) -/

/-- The definitions that count for element record `e`: the present one, and a valid staged one. -/
def Element.definitions (e : Element) : List Definition := e.definition :: e.staged.toList

/-- Some element other than `i` has a present or staged definition that `f` holds of. -/
def State.otherHas (s : State) (i : Nat) (f : Definition → Bool) : Bool :=
  s.table.records.any fun e => decide (e.1 ≠ i) && e.2.definitions.any f

/-- Element `i` is referenced: as eye or as companion, by a present or a staged definition (R55 step
6). -/
def State.referenced (s : State) (i : Nat) : Bool :=
  s.table.records.any fun e =>
    e.2.definitions.any fun d => decide (i ∈ d.eyes) || decide (i ∈ d.companions)

/-- Two lists share an entry. -/
def meet (a b : List Nat) : Bool := a.any fun x => decide (x ∈ b)

/-- A point or channel of `d` belongs to an element other than `i` (R54). -/
def State.pointTaken (s : State) (i : Nat) (d : Definition) : Bool :=
  s.otherHas i fun o =>
    meet d.outputs o.outputs || meet d.inputs o.inputs || meet d.tachs o.tachs
      || meet d.currents o.currents

/-- Element `e` is a SENSOR of mode ATTACHED in its present definition. -/
def State.isAttached (s : State) (e : Nat) : Bool :=
  decide ((s.elem e).definition.mode = some .attached)

/-- An eye is attached to a chute other than `i`, or named by another chute's staged amendment (R55
step 10). -/
def State.eyeInUse (s : State) (i e : Nat) : Bool :=
  (match (s.sensorDef e).bind (·.attachedTo) with | some j => decide (j ≠ i) | none => false)
    || s.table.records.any fun r =>
      decide (r.1 ≠ i) && match r.2.staged with | some d => decide (e ∈ d.eyes) | none => false

/-- A companion list is refused (R55 step 11). -/
def State.badCompanions (s : State) (i : Nat) (d : Definition) : Bool :=
  decide (¬ d.companions.Nodup)
    || d.companions.any fun j =>
      decide (j = i) || decide (j ∈ d.eyes) || decide (1023 < j) || decide ((s.elem j).state = .empty)

/-- Steps 2 to 11 of R55 for a candidate of element `i`; the first reason that applies. A coordinate given for
an ATTACHED sensor is no positional change at step 5 (DESIGN CHOICE, log entry 20). -/
def State.candidateFault (s : State) (i : Nat) (c : Candidate) : Option Reason :=
  let e := s.elem i
  let new := c.definition
  let removes := decide (new.kind = .none) && decide (e.definition.kind ≠ .none)
  let kindChange := decide (e.definition.kind ≠ .none) && decide (new.kind ≠ e.definition.kind)
  let modeChange := decide (e.definition.mode = some .attached) && decide (new.mode ≠ some .attached)
  if e.state = .live then some .live
  else if removes && decide (e.state = .locked) then some .lockedOut
  else if kindChange && decide (e.state = .testing) then some .testing
  else if s.table.layoutFixed && positionalChange e.definition new then some .layoutFixed
  else if (kindChange || modeChange) && s.referenced i then some .inUse
  else if c.misfit || !new.inRange s.tracker.active then some .range
  else if s.pointTaken i new then some .pointTaken
  else if new.eyes.any (fun y => !s.isAttached y) then some .notDefined
  else if decide (¬ new.eyes.Nodup) || new.eyes.any (s.eyeInUse i) then some .inUse
  else if s.badCompanions i new then some .badCompanion
  else none

/-! ### Effects (R56 to R62) -/

/-- The state after a change that takes effect at once (R60, R61). -/
def amendedState : ElState → ElState
  | .proven => .unproven | .failed => .unproven | st => st

/-- The chute that a sensor is attached to becomes UNPROVEN with it (R61). -/
def amendChuteOf (i : Nat) (s : State) : State :=
  match (s.sensorDef i).bind (·.attachedTo) with
  | some j => s.mapElem j fun e => { e with state := amendedState e.state }
  | none => s

/-- A definition takes effect for `i` with all output sources derived afresh (R57, R62). -/
def redefine (i : Nat) (new : Definition) (s : State) : State :=
  let before := (s.elem i).definition.outputs
  let s := installDefinition i new s
  deriveSources (before ++ new.outputs) s

/-- Dispositions of Define Element and Amend Element, in the order of the manual. -/
inductive Disposition where
  | defined | amended | staged | removed
  deriving DecidableEq, Repr

/-- The disposition byte (R190). -/
def dispositionByte : Disposition → Byte
  | .defined => 0 | .amended => 1 | .staged => 2 | .removed => 3

/-- The disposition of a taken change (R56 to R59). -/
def dispositionOf (e : Element) (new : Definition) : Disposition :=
  if new.kind = .none then .removed
  else match e.state with
    | .empty => .defined
    | .testing => .staged
    | _ => .amended

/-- The effect of a taken change on the table and its points (R56 to R62). -/
def takeChange (i : Nat) (new : Definition) (s : State) : State :=
  match dispositionOf (s.elem i) new with
  | .removed =>
    if (s.elem i).state = .empty then s
    else
      let pts := (s.elem i).definition.outputs
      deriveSources pts ((installDefinition i .none s).mapElem i fun e => { holdCount := e.holdCount })
  | .defined =>
    redefine i new (s.mapElem i fun e =>
      { e with state := .unproven, suppressed := 0, proofCount := 0, staged := none, summary := none })
  | .amended =>
    let s := amendChuteOf i s
    redefine i new (s.mapElem i fun e => { e with state := amendedState e.state })
  | .staged => s.mapElem i fun e => { e with staged := some new }

/-- Judges a candidate and takes it, with the reply (R55 to R59). -/
def changeElement (i : Nat) (c : Candidate) (s : State) : State × List Byte :=
  match s.candidateFault i c with
  | some r => refuse s r
  | none => (takeChange i c.definition s, accepted [dispositionByte (dispositionOf (s.elem i) c.definition)])

/-- Define Element's own checks and effect. A sensor's mode bits that stand for no mode are an
enumerated field outside its list (R185 step 3). -/
def defineEffect (i : Nat) (kind : Kind) (block : List Byte) (s : State) : State × List Byte :=
  if kind = .sensor ∧ blockMode block = none then refuse s .badOrder
  else if 1023 < i then refuse s .range
  else changeElement i (defineCandidate (s.elem i).definition kind block) s

/-- DEFINE_ELEMENT (R55). -/
def execDefineElement (p : Port) (tag : Byte) (i : Nat) (kind : Kind) (block : List Byte) (s : State) :
    Result :=
  .next (takeOrder p fromStation 0x01 tag (defineEffect i kind block) s)

/-- The base of an amendment: the staged definition of a TESTING element, if valid, else the present
one (R57, R58). -/
def State.amendBase (s : State) (i : Nat) : Definition :=
  let e := s.elem i
  if e.state = .testing then e.staged.getD e.definition else e.definition

/-- Amend Element's own checks and effect. -/
def amendEffect (i mask : Nat) (block : List Byte) (s : State) : State × List Byte :=
  if 1023 < i then refuse s .range
  else if amendBadMode (s.amendBase i) mask block then refuse s .badOrder
  else if (s.elem i).state = .empty then refuse s .notDefined
  else changeElement i (amendCandidate (s.amendBase i) mask block) s

/-- AMEND_ELEMENT (R55). -/
def execAmendElement (p : Port) (tag : Byte) (i mask : Nat) (block : List Byte) (s : State) : Result :=
  .next (takeOrder p fromStation 0x02 tag (amendEffect i mask block) s)

/-! ### Layout Fixed (R68, R69) -/

/-- Some element holds a staged amendment with a positional change (R68). -/
def State.positionalStaged (s : State) : Bool :=
  s.table.records.any fun e =>
    match e.2.staged with | some d => positionalChange e.2.definition d | none => false

/-- Fix Layout's own checks and effect (R68). -/
def fixEffect (s : State) : State × List Byte :=
  if s.tracker.state = .unset ∨ s.tracker.staged.isSome = true then refuse s .trackUnset
  else if s.positionalStaged then refuse s .testing
  else (s.mapTable fun t => { t with layoutFixed := true }, accepted [])

/-- FIX_LAYOUT (R68). -/
def execFixLayout (p : Port) (tag : Byte) (s : State) : Result :=
  .next (takeOrder p fromStation 0x04 tag fixEffect s)

/-- Some element is LIVE. -/
def State.anyLive (s : State) : Bool := s.table.records.any fun e => decide (e.2.state = .live)

/-- Release Layout's own checks and effect (R69). -/
def releaseEffect (s : State) : State × List Byte :=
  if s.anyLive then refuse s .live
  else (s.mapTable fun t => { t with layoutFixed := false }, accepted [])

/-- RELEASE_LAYOUT (R69). -/
def execReleaseLayout (p : Port) (tag : Byte) (s : State) : Result :=
  .next (takeOrder p fromStation 0x05 tag releaseEffect s)

/-! ### Read Element (R70) -/

/-- The reply to Read Element (R70, R194). -/
def elementReply (i : Nat) (s : State) : List (List Byte) :=
  if 1023 < i then [refusedBody .range] else [accepted (recordImage s i ++ enc48 s.time)]

/-- READ_ELEMENT (R70). -/
def execReadElement (p : Port) (tag : Byte) (i : Nat) (s : State) : Result :=
  .next (takeRead p 0x17 1 tag (elementReply i) s)

end Sys2Proof.Machine
end

