-- ==== Sys2Proof/Machine/TrackerCommands.lean ====
section
/-! DEFINITION. The commands of the Loop Tracker: Set Geometry, Clear Track Fault, Read Track, the
encoder, home and pitch-eye events, the missing-carrier run and the speed update (R3 to R5, R8, R11
to R26). -/

namespace Sys2Proof.Machine

open Sys2Proof

/-! ### Set Geometry (R3 to R5) -/

/-- Step 2 of R3: N, P, L, H, E, B, the tolerances, v_min and M in their ranges (R1). -/
def orderInRange (g : GeometryOrder) : Bool :=
  within 8 512 g.carriers && within 32 4096 g.pitch && decide (g.carriers * g.pitch ≤ 2097152)
    && decide (g.home < g.carriers * g.pitch) && decide (g.eye < g.carriers * g.pitch)
    && within 0 255 g.revAllow && within 0 1023 g.homeTol && within 1 1023 g.pitchTol
    && within 0 65535 g.vMin && within 16 65535 g.setup

/-- The set that the order carries; a k of 7 is taken as 6 (R3 step 3). -/
def orderGeometry (g : GeometryOrder) : Geometry :=
  { carriers := some g.carriers, pitch := some g.pitch, home := some g.home, eye := some g.eye
    revAllow := g.revAllow, homeTol := g.homeTol, pitchTol := g.pitchTol, vMin := g.vMin
    smooth := min g.smooth 6, setup := g.setup }

/-- The set becomes active at once, outside TRACKING (R5). -/
def applyNow (g : Geometry) (s : State) : State :=
  let fresh := decide (s.tracker.state = .unset)
  let s := s.mapTracker fun t =>
    { t with
      active := g, staged := none, pos := 0, backlash := min t.backlash g.revAllow
      state := if fresh then .unhomed else t.state }
  let s := updateMoving s
  let s := if fresh then reportTrack s else s
  noticeTrack .applied (reportGeometry s)

/-- Set Geometry's own checks and effect (R3 to R5). Dispositions APPLIED 0, STAGED 1. -/
def geometryEffect (g : GeometryOrder) (s : State) : State × List Byte :=
  if s.table.layoutFixed then refuse s .layoutFixed
  else if !orderInRange g then refuse s .range
  else if 7 < g.smooth then refuse s .range
  else if !s.geometryFits (orderGeometry g) then refuse s .range
  else if s.tracker.state = .tracking then
    (s.mapTracker fun t => { t with staged := some (orderGeometry g) }, accepted (be 1 1 ++ be 1 (min g.smooth 6)))
  else (applyNow (orderGeometry g) s, accepted (be 1 0 ++ be 1 (min g.smooth 6)))

/-- SET_GEOMETRY (R3). -/
def execSetGeometry (p : Port) (tag : Byte) (g : GeometryOrder) (s : State) : Result :=
  .next (takeOrder p fromStation 0x03 tag (geometryEffect g) s)

/-! ### Clear Track Fault (R8) and Read Track (R26) -/

/-- Clear Track Fault's own checks and effect (R8). -/
def clearFaultEffect (s : State) : State × List Byte :=
  if s.tracker.state = .faulted then
    (enterTrack .unhomed (s.mapTracker fun t =>
      { t with fault := none, backlash := 0, illegal := 0, pitchRun := 0, missing := 0 }), accepted [])
  else refuse s .notFaulted

/-- CLEAR_TRACK_FAULT (R8). -/
def execClearTrackFault (p : Port) (tag : Byte) (s : State) : Result :=
  .next (takeOrder p fromStation 0x0C tag clearFaultEffect s)

/-- READ_TRACK (R26). -/
def execReadTrack (p : Port) (tag : Byte) (s : State) : Result :=
  .next (takeRead p 0x19 1 tag (fun s => [accepted (trackImage s)]) s)

/-! ### The encoder (R11 to R14) -/

/-- The channel levels become those of a transition (R11). -/
def moveLevels (f : Bool × Bool → Bool × Bool) (s : State) : State :=
  let l := f (s.tracker.encA, s.tracker.encB)
  s.mapTracker fun t => { t with encA := l.1, encB := l.2 }

/-- A forward count (R12): backlash is paid back, or travel advances. What was due at the travel so
far is settled first; what the new U makes due stands until it is taken (log entry 3). A missing
carrier of the count, with the fault and the TRACK voids that a third pitch error brings, comes before the
cues and windows that the new U makes due; R125 and R141 leave the order open (DESIGN CHOICE, log entry
11). -/
def forward (s : State) : State :=
  if 0 < s.tracker.backlash then s.mapTracker fun t => { t with backlash := t.backlash - 1 }
  else
    let s := advanceTravel (settleTravel s)
    if s.missingDue then countMissing s else s

/-- FORWARD_COUNT (R12). -/
def execForwardCount (s : State) : Result := .next (forward (moveLevels encForward s))

/-- A reverse count (R13). -/
def backward (s : State) : State :=
  if s.tracker.backlash < s.tracker.active.revAllow then
    s.mapTracker fun t => { t with backlash := t.backlash + 1 }
  else if s.tracker.state = .unhomed ∨ s.tracker.state = .tracking then enterFault .reverse .none s
  else s

/-- REVERSE_COUNT (R13). -/
def execReverseCount (s : State) : Result := .next (backward (moveLevels encReverse s))

/-- An illegal transition (R14). -/
def illegal (s : State) : State :=
  let s := s.mapTracker fun t => { t with illegal := capAdd 4 t.illegal 1 }
  if s.tracker.illegal = 4 ∧ (s.tracker.state = .unhomed ∨ s.tracker.state = .tracking) then
    enterFault .encoder .none s
  else s

/-- ILLEGAL_TRANSITION (R14): both levels change. -/
def execIllegalTransition (s : State) : Result :=
  .next (illegal (moveLevels (fun l => (!l.1, !l.2)) s))

/-! ### Home, pitch eye, missing carrier, speed (R16 to R25) -/

/-- HOME_PULSE (R16): ignored while b is above 0. -/
def execHomePulse (s : State) : Result :=
  .next (if 0 < s.tracker.backlash then s else takeHome s)

/-- PITCH_EYE_EDGE (R21): checked in TRACKING with b at 0. -/
def execPitchEyeEdge (s : State) : Result :=
  .next (if s.tracker.state = .tracking ∧ s.tracker.backlash = 0 then pitchCheck s else s)

/-- MISSING_CARRIER (R23). -/
def execMissingCarrier (s : State) : Result := .next (if s.missingDue then countMissing s else s)

/-- SPEED_UPDATE (R24). -/
def execSpeedUpdate (s : State) : Result := .next (speedTick s)

end Sys2Proof.Machine
end

