-- ==== Sys2Proof/Machine/TrialCommands.lean ====
section
/-! DEFINITION. The commands of trials that are no orders: Machine Stop, trial start, cues,
expectations, the closing sequence's second part and the rest end (R94, R96, R101, R103, R108, R119,
R120, R133, R136). -/

namespace Sys2Proof.Machine

open Sys2Proof

/-! ### Machine Stop (R100, R101, R103) -/

/-- A paused context records STOP. -/
def recordStop (s : State) (c : Nat) : State :=
  if (s.ctx c).state = .paused then s.mapCtx c fun x => { x with reason := .stop } else s

/-- The active or awaited points of a running or paused context are asked for INACTIVE. -/
def quiet (s : State) (c : Nat) : State :=
  if (s.ctx c).state = .running ∨ (s.ctx c).state = .paused then
    (askInactive c (s.stirredPoints c) s).1
  else s

/-- Machine Stop is asserted (R101). Every context in PAUSED has STOP as its first failing condition,
so the checks that the voids call for are made by step 2. -/
def assertStop (s : State) : State :=
  let s := s.mapEngine fun e => { e with stop := true }
  let s := voidAll (fun _ => true) .stop s
  let s := ctxNumbers.foldl recordStop s
  (ctxNumbers.foldl quiet s).payCheck

/-- MACHINE_STOP_ASSERTED (R101): a change of the input. -/
def execMachineStopAsserted (s : State) : Result :=
  .next (if s.engine.stop then s else assertStop s)

/-- MACHINE_STOP_RELEASED (R103): a change of the input. -/
def execMachineStopReleased (s : State) : Result :=
  .next (if s.engine.stop then check (s.mapEngine fun e => { e with stop := false }) else s)

/-! ### Trials and cues (R96, R118 to R120) -/

/-- TRIAL_START (R96): a paused context whose start conditions all hold. The row starts the context it names
alone and examines no other paused context before it, one of lower number that could start as well included; R94
and R96 leave open which contexts such an event examines (DESIGN CHOICE, log entry 56). -/
def execTrialStart (c : Fin 16) (s : State) : Result :=
  .next (if (s.ctx c).state = .paused ∧ s.firstFail (s.ctx c) = none then settle (startTrial c s) else s)

/-- CUE_FINAL_AIM (R118, R119): where the final aim of the context's cue is due and the cue is the first
that the examination under way handles, the list is examined from it on (log entry 10). -/
def execCueFinalAim (c : Fin 16) (s : State) : Result :=
  .next (match s.cueTurn c with
    | some q => if s.aimDue q then runCues s else s
    | none => s)

/-- CUE_FIRE (R118, R120, R125): the context's cue fires where it is due and the first that the
examination under way handles, so that cues due at one travel fire in list order; the examination then goes on
(log entry 10). -/
def execCueFire (c : Fin 16) (s : State) : Result :=
  .next (match s.cueTurn c with
    | some q => if s.fireDue q then beginExam (settle (fireCue q s)) else s
    | none => s)

/-! ### Expectations (R132, R133, R136) -/

/-- EXPECTATION_OPENS (R133): an entry whose position has reached its open, where nothing is due of an
entry before it in its list, so that the list is taken in list order (R132, R141). -/
def execExpectationOpens (n : Fin 24) (s : State) : Result :=
  .next (match s.entryTurn n with
    | some e =>
      if e.phase ≠ .opened ∧ e.openAt ≤ s.position e.base then settle (examine n s) else s
    | none => s)

/-- EXPECTATION_CLOSE_PASSED (R136): an entry whose position has passed its close, where nothing is due
of an entry before it in its list (R132, R141). -/
def execExpectationClosePassed (n : Fin 24) (s : State) : Result :=
  .next (match s.entryTurn n with
    | some e => if e.closeAt < s.position e.base then settle (examine n s) else s
    | none => s)

/-! ### Proof end and rest (R94, R108) -/

/-- CLOSING_SECOND_PART (R108): a context in CLOSING with an empty settle set. -/
def execClosingSecondPart (c : Fin 16) (s : State) : Result :=
  .next (if (s.ctx c).state = .closing ∧ (s.ctx c).settle = [] then settle (secondPart c s) else s)

/-- REST_END (R94). -/
def execRestEnd (c : Fin 16) (s : State) : Result := .next (restTick c s)

end Sys2Proof.Machine
end

