-- ==== Sys2Proof/Machine/Dispatch.lean ====
section
/-! DEFINITION. The meaning of each command: one arm per constructor of `Instr`. -/

namespace Sys2Proof.Machine

open Sys2Proof

/-- The effect of a command on the state; every command of spec/opcode_table.json has its meaning. -/
def exec (i : Instr) (s : State) : Host.Outcome State Fault Refusal :=
  match i with
  | .powerOnReset pins => Sys2Proof.Machine.execPowerOnReset pins s
  | .resetLineReset pins => Sys2Proof.Machine.execResetLineReset pins s
  | .defineElement p tag idx kind block => Sys2Proof.Machine.execDefineElement p tag idx kind block s
  | .amendElement p tag idx mask block => Sys2Proof.Machine.execAmendElement p tag idx mask block s
  | .setGeometry p tag g => Sys2Proof.Machine.execSetGeometry p tag g s
  | .fixLayout p tag => Sys2Proof.Machine.execFixLayout p tag s
  | .releaseLayout p tag => Sys2Proof.Machine.execReleaseLayout p tag s
  | .orderProof p tag o => Sys2Proof.Machine.execOrderProof p tag o s
  | .addArticles p tag c carriers => Sys2Proof.Machine.execAddArticles p tag c carriers s
  | .abortProof p tag c => Sys2Proof.Machine.execAbortProof p tag c s
  | .lockOut p tag idx => Sys2Proof.Machine.execLockOut p tag idx s
  | .unlock p tag idx => Sys2Proof.Machine.execUnlock p tag idx s
  | .clearCarrier p tag k => Sys2Proof.Machine.execClearCarrier p tag k s
  | .clearTrackFault p tag => Sys2Proof.Machine.execClearTrackFault p tag s
  | .ringRestart p tag => Sys2Proof.Machine.execRingRestart p tag s
  | .setRingRole p tag role slots period => Sys2Proof.Machine.execSetRingRole p tag role slots period s
  | .setLapse p tag seconds => Sys2Proof.Machine.execSetLapse p tag seconds s
  | .watchPoint p tag pt => Sys2Proof.Machine.execWatchPoint p tag pt s
  | .unwatch p tag pt => Sys2Proof.Machine.execUnwatch p tag pt s
  | .enlist p tag idx => Sys2Proof.Machine.execEnlist p tag idx s
  | .withdraw p tag idx => Sys2Proof.Machine.execWithdraw p tag idx s
  | .withdrawFaulty p tag idx => Sys2Proof.Machine.execWithdrawFaulty p tag idx s
  | .setPacing p tag g w q => Sys2Proof.Machine.execSetPacing p tag g w q s
  | .setDriveLimit p tag d => Sys2Proof.Machine.execSetDriveLimit p tag d s
  | .readElement p tag idx => Sys2Proof.Machine.execReadElement p tag idx s
  | .readContext p tag c => Sys2Proof.Machine.execReadContext p tag c s
  | .readTrack p tag => Sys2Proof.Machine.execReadTrack p tag s
  | .readRing p tag => Sys2Proof.Machine.execReadRing p tag s
  | .readPoints p tag space first number => Sys2Proof.Machine.execReadPoints p tag space first number s
  | .readReservations p tag first number => Sys2Proof.Machine.execReadReservations p tag first number s
  | .readPort p tag named => Sys2Proof.Machine.execReadPort p tag named s
  | .badOrder p frame => Sys2Proof.Machine.execBadOrder p frame s
  | .receiveError st bytes lineError => Sys2Proof.Machine.execReceiveError st bytes lineError s
  | .receiveGap st bytes => Sys2Proof.Machine.execReceiveGap st bytes s
  | .lineTransferDropped bytes => Sys2Proof.Machine.execLineTransferDropped bytes s
  | .readTransfer clocked => Sys2Proof.Machine.execReadTransfer clocked s
  | .frameSent st => Sys2Proof.Machine.execFrameSent st s
  | .forwardCount => Sys2Proof.Machine.execForwardCount s
  | .reverseCount => Sys2Proof.Machine.execReverseCount s
  | .illegalTransition => Sys2Proof.Machine.execIllegalTransition s
  | .homePulse => Sys2Proof.Machine.execHomePulse s
  | .pitchEyeEdge => Sys2Proof.Machine.execPitchEyeEdge s
  | .missingCarrier => Sys2Proof.Machine.execMissingCarrier s
  | .speedUpdate => Sys2Proof.Machine.execSpeedUpdate s
  | .scannerFrame f => Sys2Proof.Machine.execScannerFrame f s
  | .nodeFrame f => Sys2Proof.Machine.execNodeFrame f s
  | .originFrame => Sys2Proof.Machine.execOriginFrame s
  | .returnExpiry => Sys2Proof.Machine.execReturnExpiry s
  | .silenceDeadline => Sys2Proof.Machine.execSilenceDeadline s
  | .machineStopAsserted => Sys2Proof.Machine.execMachineStopAsserted s
  | .machineStopReleased => Sys2Proof.Machine.execMachineStopReleased s
  | .trialStart c => Sys2Proof.Machine.execTrialStart c s
  | .cueFinalAim c => Sys2Proof.Machine.execCueFinalAim c s
  | .cueFire c => Sys2Proof.Machine.execCueFire c s
  | .expectationOpens n => Sys2Proof.Machine.execExpectationOpens n s
  | .expectationClosePassed n => Sys2Proof.Machine.execExpectationClosePassed n s
  | .closingSecondPart c => Sys2Proof.Machine.execClosingSecondPart c s
  | .lapseDeadline st => Sys2Proof.Machine.execLapseDeadline st s
  | .restEnd c => Sys2Proof.Machine.execRestEnd c s
  | .tachEdge ch => Sys2Proof.Machine.execTachEdge ch s
  | .currentScan samples => Sys2Proof.Machine.execCurrentScan samples s
  | .quietSpanComplete c => Sys2Proof.Machine.execQuietSpanComplete c s
  | .precheckDeadline c => Sys2Proof.Machine.execPrecheckDeadline c s
  | .rampDeadline c => Sys2Proof.Machine.execRampDeadline c s
  | .motionDeadline c => Sys2Proof.Machine.execMotionDeadline c s
  | .holdDeadline c => Sys2Proof.Machine.execHoldDeadline c s
  | .stopQuietReached c => Sys2Proof.Machine.execStopQuietReached c s
  | .stopDeadline c => Sys2Proof.Machine.execStopDeadline c s

end Sys2Proof.Machine
end

