-- ==== Sys2Proof/Safety.lean ====
section
/-! DEFINITION. What counts as a sound state of the CX214, the parts of the state that checks, voids
and verdicts never touch, and the terms in which the statements speak of orders and replies. -/

namespace Sys2Proof.Machine

open Sys2Proof

/-! ### Canonical tables -/

/-- Every sparse table of the state is in its one form. -/
def State.canonical (s : State) : Bool :=
  Table.wf {} s.table.records && Table.wf {} s.engine.contexts && Table.wf .free s.engine.carriers
    && Table.wf {} s.ring.image && Table.wf 0 s.ring.applied && Table.wf .pass s.ring.sources
    && Table.wf none s.ring.stimuli && Table.wf {} s.drives.tach && Table.wf {} s.drives.current

/-! ### Ranges -/

/-- A geometry is unset or lies in the ranges of R1, with N·P ≤ 2,097,152, H and E below L, and the
smoothing exponent at most 6 (R3). -/
def Geometry.sound (g : Geometry) : Bool :=
  (match g.carriers, g.pitch, g.home, g.eye with
    | none, none, none, none => true
    | some n, some p, some h, some e =>
      within 8 512 n && within 32 4096 p && decide (n * p ≤ 2097152) && decide (h < n * p)
        && decide (e < n * p)
    | _, _, _, _ => false)
    && within 0 255 g.revAllow && within 0 1023 g.homeTol && within 1 1023 g.pitchTol
    && within 0 65535 g.vMin && within 0 6 g.smooth && within 16 65535 g.setup

/-- The Loop Tracker's counts lie in their ranges (R1, R9, R12 to R14, R17, R22 to R24). -/
def Tracker.sound (t : Tracker) : Bool :=
  t.active.sound && t.staged.all Geometry.sound && decide (t.backlash ≤ t.active.revAllow)
    && (decide (t.active.length = 0) || decide (t.pos < t.active.length))
    && decide (t.travel ≤ Config.max48) && decide (t.speed ≤ 65535 * 256) && decide (t.illegal ≤ 4)
    && decide (t.corrections ≤ 65535) && decide (t.history.length ≤ 4)
    && decide (t.pitchTotal ≤ 65535) && decide (t.pitchRun ≤ 3)

/-- The I/O Ring Interface's counts and settings lie in their ranges (R28, R29, R31, R34 to R37). -/
def Ring.sound (g : Ring) : Bool :=
  within 1 64 g.slots && within 250 2000 g.originPeriod && decide (g.intervals.length ≤ 8)
    && decide (g.errors ≤ 255) && decide (g.goodRun ≤ 64) && decide (g.totalBadCrc ≤ 65535)
    && decide (g.totalSlot ≤ 65535) && decide (g.totalSequence ≤ 65535)
    && decide (g.totalNoReturn ≤ 65535) && g.lastSeq.all (fun n => decide (n < 256))
    && decide (g.originSeq < 256)

/-- The pacing settings and the pacing history lie in their ranges (R111, R115). -/
def Scheduler.sound (q : Scheduler) : Bool :=
  decide (q.spacing ≤ 64) && within 1 512 q.window && within 1 8 q.allowed
    && decide (q.history.length ≤ 8)

/-- The counts of a port lie in their ranges and its queue in its places (R181, R186). -/
def Link.sound (l : Link) (cap : Nat) : Bool :=
  decide (l.queue.length ≤ cap) && decide (l.rxErrors ≤ 65535) && decide (l.overflow ≤ 65535)
    && decide (l.dropped ≤ 65535) && decide (l.seq < 256)

/-- The watch list and the lapse time of a Station Port lie in their ranges (R83, R188). -/
def StationLink.sound (x : StationLink) : Bool := decide (x.watch.length ≤ 4) && decide (x.lapse ≤ 60)

/-- T, the tracker's and the ring's settings, counts and histories, the pacing settings and history, the
drive limit, and the ports' queues, counts, watch lists and lapse times lie in their ranges. -/
def State.inRange (s : State) : Bool :=
  decide (s.time ≤ Config.max48) && s.tracker.sound && s.ring.sound && s.sched.sound
    && within 1 4 s.engine.limit && within 1 4 s.drives.limit
    && s.links.linkA.sound 16 && s.links.linkB.sound 16 && s.links.linkL.sound 8
    && s.links.staA.sound && s.links.staB.sound

/-! ### Order of the lists -/

/-- Both lists of the Expectation Monitor ascend by close (R129). -/
def Monitor.ascending (m : Monitor) : Prop :=
  m.travelList.Pairwise (fun a b => a.closeAt ≤ b.closeAt)
    ∧ m.timeList.Pairwise (fun a b => a.closeAt ≤ b.closeAt)

/-- A cue list ascends by due point (R110). -/
def cuesAscend (l : List Cue) : Prop := l.Pairwise fun a b => a.due ≤ b.due

/-! ### What the inner operations leave alone -/

/-- The command is one of the two resets. -/
def isReset : Instr → Bool
  | .powerOnReset _ | .resetLineReset _ => true
  | _ => false

/-- The state without what checks, voids, starts and verdicts may touch: element records, contexts,
the map, cues, pacing history and the examination of cues, expectations, output sources and stimulus
records, the scan set and the current channels, and the ports' queues with their notice counts. -/
def State.steadyPart (s : State) : State :=
  { s with
    table := { s.table with records := [] }
    engine := { s.engine with contexts := [], carriers := [], checkOwed := false }
    sched := { s.sched with cues := [], history := [], examining := false }
    monitor := {}
    ring := { s.ring with sources := [], stimuli := [] }
    drives := { s.drives with scanSet := [], current := [] }
    links :=
      { s.links with
        linkA := { s.links.linkA with queue := [], dropped := 0, seq := 0 }
        linkB := { s.links.linkB with queue := [], dropped := 0, seq := 0 }
        linkL := { s.links.linkL with queue := [], dropped := 0, seq := 0 } } }

/-- No context waits in PAUSED and no check is owed, so that a check finds nothing to start (R96). -/
def State.calm (s : State) : Prop :=
  s.engine.checkOwed = false ∧ ∀ c < 16, (s.ctx c).state ≠ .paused

/-- No check is owed and nothing can start: Machine Stop is asserted or the ring is not GOOD, so that a
check only records reasons (R94). -/
def State.halted (s : State) : Prop :=
  s.engine.checkOwed = false ∧ (s.engine.stop = true ∨ s.engine.ring ≠ .good)

/-- The reason that a check records for every paused context of a halted state (R94). -/
def State.haltReason (s : State) : PauseReason := if s.engine.stop then .stop else .ring

/-- A context as a check of a halted state leaves it (R94, R96). -/
def Context.halt (r : PauseReason) (x : Context) : Context :=
  if x.state = .paused then { x with reason := r } else x

/-- `y` is the context `x` after a void of its running trial, taken at `now`, that leaves its proof going
on and that the limit counts: PAUSED with reason `r`, one void and one limit void more, the void at the
tail of the history, trials, passes and fails as they were, and nothing left of the trial (R97, R98,
R102). -/
def voided (cause : VoidCause) (r : PauseReason) (now : Nat) (x y : Context) : Prop :=
  y.state = .paused ∧ y.reason = r ∧ y.voids = min 63 (x.voids + 1) ∧ y.limitVoids = x.limitVoids + 1
    ∧ y.history = pushTail 8 x.history { outcome := .void cause, deviation := none, time := now }
    ∧ y.trials = x.trials ∧ y.streak = x.streak ∧ y.fails = x.fails ∧ y.worst = x.worst
    ∧ y.phase = .none ∧ y.trial = .none ∧ y.cueHeld = false ∧ y.allowance = 0 ∧ y.inFlight = none

/-- A trial that depends on the loop position: a sensor trial, or a chute trial not yet in OBSERVING
(R104). -/
def onLoop (x : Context) : Prop :=
  x.kind = .sensor ∨ (x.kind = .chute ∧ (x.phase = .aiming ∨ x.phase = .firing))

/-- The value that a stimulus record sends in a frame that departs at `now` (R43, R45, R46). -/
def Stimulus.activeAt (r : Stimulus) (now : Nat) : Bool :=
  match r.awaited, r.pulseEnd with
  | some (_, .level v), _ => decide (v = .active)
  | some (_, .pulse _), _ => true
  | none, some e => decide (r.value = .active) && decide (now < e)
  | none, none => decide (r.value = .active)

/-! ### Element records and output points -/

/-- A record whose sensor a chute takes as its eye (`some i`) or releases (`none`): the attached-to field
of an ATTACHED sensor follows, and any other record stands (R57). -/
def Element.attach (v : Option Nat) (e : Element) : Element :=
  match e.definition with
  | .sensor d => if d.mode = .attached then { e with definition := .sensor { d with attachedTo := v } } else e
  | _ => e

/-- The stimulus record of point `pt` where its source becomes `new` in `s` (R42): one that enters TEST
receives a record with value INACTIVE and nothing awaited, one that stays TEST for its context keeps its
record, and any other point has none. -/
def State.stimulusUnder (s : State) (pt : Nat) (new : Source) : Option Stimulus :=
  match new with
  | .test _ => if s.source pt = new then s.stimulus pt else some {}
  | _ => none

/-- From `s` to `t` the sources of the output points `pts`, and of no other, are derived afresh (R42): each
takes the source that its element gives in `t` and the record that goes with it, and every other point
keeps source and record. -/
def pointsDerived (pts : List Nat) (s t : State) : Prop :=
  ∀ pt, (pt ∈ pts → t.source pt = t.sourceOf pt ∧ t.stimulus pt = s.stimulusUnder pt (t.sourceOf pt))
    ∧ (pt ∉ pts → t.source pt = s.source pt ∧ t.stimulus pt = s.stimulus pt)

/-- `t` is `s` but for element records, output sources and stimulus records. -/
def sameButRecords (s t : State) : Prop :=
  t = { s with
        table := { t.table with layoutFixed := s.table.layoutFixed }
        ring := { s.ring with sources := t.ring.sources, stimuli := t.ring.stimuli } }

/-! ### Edges -/

/-- Each station that watches point `pt` is told of its edge to `level`: one Point Change notice, with the point,
the new level and the T and U of `s`, joins the queue of the station's port in `t` (R187, R193). -/
def State.toldOf (s : State) (pt : Nat) (level : Bool) (t : State) : State :=
  let body := be 2 pt ++ be 1 (if level then 1 else 0) ++ enc48 s.time ++ enc48 s.tracker.travel
  [Station.sta, .stb].foldl
    (fun t st => if pt ∈ (s.staLink st).watch then pushNotice (stationPort st) 0x62 body t else t) t

/-! ### Notices of a change -/

/-- What a notice of KIND and body `n` does to a port of `cap` places (R186): it joins the tail of a queue that has
room, under the port's notice sequence, and is dropped and counted by a full one; the sequence advances. -/
def Link.noticed (cap : Nat) (l : Link) (n : Nat × List Byte) : Link :=
  if l.queue.length < cap then
    { l with
      queue := l.queue ++ [{ kind := BitVec.ofNat 8 n.1, tag := BitVec.ofNat 8 l.seq, body := n.2 }]
      seq := (l.seq + 1) % 256 }
  else { l with dropped := min 65535 (l.dropped + 1), seq := (l.seq + 1) % 256 }

/-- No proof is in progress: every context is FREE, no check is owed, and no cue or expectation waits. -/
def State.noProof (s : State) : Prop :=
  s.engine.checkOwed = false ∧ (∀ c, (s.ctx c).state = .free) ∧ s.sched.cues = [] ∧ s.monitor = {}

/-- From `s` to `t` each of the three ports is sent one notice of KIND `kind` with `body`. A Station Port may have
been sent Proof Ended and Trial Outcome notices before it, of trials and proofs that the same change ends (log
entries 13 and 15); the Line Port is sent nothing else, and with no proof in progress no port is. -/
def State.notified (s t : State) (kind : Nat) (body : List Byte) : Prop :=
  ∀ p, ∃ before : List (Nat × List Byte),
    (∀ n ∈ before, n.1 = 0x60 ∨ n.1 = 0x61) ∧ (p = .line ∨ s.noProof → before = [])
      ∧ t.link p = (before ++ [(kind, body)]).foldl (Link.noticed (queueCap p)) (s.link p)

/-- The body of a Track State notice (R10, R193): state, fault cause (0 where there is none, log entry 55), geometry
event (NONE 0, APPLIED 1, DISCARDED 2) and T. -/
def trackBody (state : TrackState) (fault : Option FaultCause) (event now : Nat) : List Byte :=
  be 1 (trackCode state) ++ be 1 (match fault with | some c => faultCode c | none => 0) ++ be 1 event ++ enc48 now

/-- The body of a Ring State notice (R39, R193): the new and the previous state, the cause (ERRORS 0, SILENCE 1,
RESTART 2, ROLE 3, RECOVERED 4, COUNT 5), the ring error count, the role and T. -/
def ringBody (new prev : RingState) (cause errors : Nat) (role : RingRole) (now : Nat) : List Byte :=
  be 1 (ringCode new) ++ be 1 (ringCode prev) ++ be 1 cause ++ enc 1 errors ++ be 1 (roleCode role) ++ enc48 now

/-! ### Checks in sequence -/

/-- An order that its rule checks in sequence. Each check is the condition that refuses the order, with the body of
the refusal. The first that applies decides; where none does, the order is taken. -/
def decidedBy : List (Prop × List Byte) → (List Byte → Prop) → Prop → Prop
  | [], _, taken => taken
  | (applies, body) :: l, refused, taken =>
    (applies → refused body) ∧ (¬ applies → decidedBy l refused taken)

/-- A REFUSED body that names element `i` with its state and hold count as found (R81). -/
def State.naming (s : State) (r : Reason) (i : Nat) : List Byte :=
  refusedBody r { element := some (i, (s.elem i).state, (s.elem i).holdCount) }

/-- Steps 2 to 11 of R55 for a candidate of element `i`. A definition counts where an element holds it, or has it
staged. Whether a field that the kind or mode needs is missing, or a foreign one is given, stands with the candidate
(log entry 20). -/
def State.changeChecks (s : State) (i : Nat) (c : Candidate) : List (Prop × List Byte) :=
  let old := (s.elem i).definition
  let new := c.definition
  let state := (s.elem i).state
  let kindChange := old.kind ≠ .none ∧ new.kind ≠ old.kind
  let holds (j : Nat) (d : Definition) := d = (s.elem j).definition ∨ (s.elem j).staged = some d
  let shares (a b : List Nat) := ∃ x ∈ a, x ∈ b
  [(state = .live, refusedBody .live),
    (new.kind = .none ∧ old.kind ≠ .none ∧ state = .locked, refusedBody .lockedOut),
    (kindChange ∧ state = .testing, refusedBody .testing),
    (s.table.layoutFixed = true ∧ old.positional ≠ new.positional, refusedBody .layoutFixed),
    ((kindChange ∨ (old.mode = some .attached ∧ new.mode ≠ some .attached))
        ∧ ∃ j d, holds j d ∧ (i ∈ d.eyes ∨ i ∈ d.companions), refusedBody .inUse),
    (c.misfit = true ∨ new.inRange s.tracker.active = false, refusedBody .range),
    (∃ j d, j ≠ i ∧ holds j d
        ∧ (shares new.outputs d.outputs ∨ shares new.inputs d.inputs ∨ shares new.tachs d.tachs
          ∨ shares new.currents d.currents), refusedBody .pointTaken),
    (∃ e ∈ new.eyes, (s.elem e).definition.mode ≠ some .attached, refusedBody .notDefined),
    (¬ new.eyes.Nodup
        ∨ ∃ e ∈ new.eyes, ∃ j, j ≠ i
          ∧ ((s.sensorDef e).bind (·.attachedTo) = some j ∨ ∃ d, (s.elem j).staged = some d ∧ e ∈ d.eyes),
      refusedBody .inUse),
    (¬ new.companions.Nodup
        ∨ ∃ j ∈ new.companions, j = i ∨ j ∈ new.eyes ∨ 1023 < j ∨ (s.elem j).state = .empty,
      refusedBody .badCompanion)]

/-! ### Orders and replies -/

/-- The state after a good frame on port `p` whose reply has joined the port's queue (R185). -/
def State.replied (s : State) (p : Port) (kind : Nat) (tag : Byte) (body : List Byte) : State :=
  queueReply p kind tag [body] (goodFrame p s)

/-- The port has room for one more frame (R185). -/
def State.room (s : State) (p : Port) : Prop := (s.link p).queue.length < queueCap p

/-- The reply of an order of KIND `kind`: its own TAG, KIND + 0x80, and `body` (R185, R192). -/
def replyFrame (kind : Nat) (tag : Byte) (body : List Byte) : LinkFrame :=
  { kind := BitVec.ofNat 8 (kind + 0x80), tag := tag, body := body }

/-- The order's reply stands on the port's queue right after the frames that were waiting (R185). -/
def answers (s t : State) (p : Port) (kind : Nat) (tag : Byte) (body : List Byte) : Prop :=
  (s.link p).queue ++ [replyFrame kind tag body] <+: (t.link p).queue

/-- The port that an order arrived on and the KIND it carries; none for an event. -/
def arrivesAs : Instr → Option (Port × Nat)
  | .defineElement p _ _ _ _ => some (p, 0x01)
  | .amendElement p _ _ _ _ => some (p, 0x02)
  | .setGeometry p _ _ => some (p, 0x03)
  | .fixLayout p _ => some (p, 0x04)
  | .releaseLayout p _ => some (p, 0x05)
  | .orderProof p _ _ => some (p, 0x06)
  | .addArticles p _ _ _ => some (p, 0x07)
  | .abortProof p _ _ => some (p, 0x08)
  | .lockOut p _ _ => some (p, 0x09)
  | .unlock p _ _ => some (p, 0x0A)
  | .clearCarrier p _ _ => some (p, 0x0B)
  | .clearTrackFault p _ => some (p, 0x0C)
  | .ringRestart p _ => some (p, 0x0D)
  | .setRingRole p _ _ _ _ => some (p, 0x0E)
  | .setLapse p _ _ => some (p, 0x0F)
  | .watchPoint p _ _ => some (p, 0x10)
  | .unwatch p _ _ => some (p, 0x11)
  | .enlist p _ _ => some (p, 0x12)
  | .withdraw p _ _ => some (p, 0x13)
  | .withdrawFaulty p _ _ => some (p, 0x14)
  | .setPacing p _ _ _ _ => some (p, 0x15)
  | .setDriveLimit p _ _ => some (p, 0x16)
  | .readElement p _ _ => some (p, 0x17)
  | .readContext p _ _ => some (p, 0x18)
  | .readTrack p _ => some (p, 0x19)
  | .readRing p _ => some (p, 0x1A)
  | .readPoints p _ _ _ _ => some (p, 0x1B)
  | .readReservations p _ _ _ => some (p, 0x1C)
  | .readPort p _ _ => some (p, 0x1D)
  | _ => none

/-- The TAG of an order; 0 for an event. -/
def orderTag : Instr → Byte
  | .defineElement _ g _ _ _ | .amendElement _ g _ _ _ | .setGeometry _ g _ | .fixLayout _ g
  | .releaseLayout _ g | .orderProof _ g _ | .addArticles _ g _ _ | .abortProof _ g _ | .lockOut _ g _
  | .unlock _ g _ | .clearCarrier _ g _ | .clearTrackFault _ g | .ringRestart _ g
  | .setRingRole _ g _ _ _ | .setLapse _ g _ | .watchPoint _ g _ | .unwatch _ g _ | .enlist _ g _
  | .withdraw _ g _ | .withdrawFaulty _ g _ | .setPacing _ g _ _ _ | .setDriveLimit _ g _
  | .readElement _ g _ | .readContext _ g _ | .readTrack _ g | .readRing _ g | .readPoints _ g _ _ _
  | .readReservations _ g _ _ | .readPort _ g _ => g
  | _ => 0

end Sys2Proof.Machine
end

