-- ==== Sys2Proof/Certificates/Slice0/Obligations.lean ====
section
/-! DEFINITION. The statements about the CX214 that are to be proved: the step, the resets, the
invariants, the rules of the Order Desk, and for every command of the table where it completes and
what it leaves. -/

open Sys2Proof Sys2Proof.Machine

/-! ### The step and the machine as a whole -/

/-- Step runs the command at the front of the queue on the state with the queue's rest. -/
def Obligations.StepRunsTheFrontCommand : Prop :=
  ∀ (s : State) (c : Instr) (rest : List Instr), s.pending = c :: rest →
    step s = exec c { s with pending := rest }

/-- With nothing queued a step lets one microsecond pass: T rises by 1, stopping at 2^48 − 1, and travel stands
(DESIGN CHOICE, log entry 3). T, the queue of commands and the model's count of free values change by no
command but a reset (Conventions, time passes by itself; log entries 2 and 3). -/
def Obligations.TimePassesOnIdleStepsAlone : Prop :=
  (∀ s : State, s.pending = [] →
    ∃ t, step s = .next t ∧ t.time = min Config.max48 (s.time + 1)
      ∧ t.tracker.travel = s.tracker.travel ∧ t.pending = [])
    ∧ (∀ (c : Instr) (s t : State), isReset c = false → exec c s = .next t →
      t.time = s.time ∧ t.pending = s.pending ∧ t.freeSeq = s.freeSeq)

/-- U changes by forward counts alone (R12): every other command but a reset leaves it, and a forward
count raises it by 1, stopping at 2^48 − 1, exactly where b is 0. -/
def Obligations.TravelMovesByForwardCounts : Prop :=
  (∀ (c : Instr) (s t : State), isReset c = false → c ≠ .forwardCount → exec c s = .next t →
      t.tracker.travel = s.tracker.travel)
    ∧ ∀ s : State, ∃ t, exec .forwardCount s = .next t
      ∧ t.tracker.travel
        = if s.tracker.backlash = 0 then min Config.max48 (s.tracker.travel + 1) else s.tracker.travel

/-! ### Full reset (R9, R28, R50, R86, R91, R110, R111, R127, R167, R181, R183) -/

/-- Both resets leave the Loop Tracker at the values of R9, with the channel levels as the pins stand. -/
def Obligations.ResetLeavesTracker : Prop :=
  ∀ (pins : ResetPins) (s : State) (c : Instr), c = .powerOnReset pins ∨ c = .resetLineReset pins →
    ∃ t, exec c s = .next t ∧ t.time = 0
      ∧ t.tracker =
        { active :=
            { carriers := none, pitch := none, home := none, eye := none, revAllow := 16, homeTol := 40
              pitchTol := 24, vMin := 1, smooth := 3, setup := 2048 }
          staged := none, state := .unset, fault := none, pos := 0, travel := 0, backlash := 0, speed := 0
          moving := false, illegal := 0, corrections := 0, history := [], pitchTotal := 0, pitchRun := 0
          missing := 0, encA := pins.encA, encB := pins.encB, msTravel := 0, msNext := 1000 }

/-- Both resets leave the I/O Ring Interface at the values of R28. -/
def Obligations.ResetLeavesRing : Prop :=
  ∀ (pins : ResetPins) (s : State) (c : Instr), c = .powerOnReset pins ∨ c = .resetLineReset pins →
    ∃ t, exec c s = .next t
      ∧ t.ring.role = .relay ∧ t.ring.slots = 64 ∧ t.ring.originPeriod = 1000 ∧ t.ring.intervals = []
      ∧ t.ring.state = .lost ∧ t.ring.errors = 0 ∧ t.ring.goodRun = 0
      ∧ t.ring.totalBadCrc = 0 ∧ t.ring.totalSlot = 0 ∧ t.ring.totalSequence = 0
      ∧ t.ring.totalNoReturn = 0 ∧ t.ring.lastSeq = none ∧ t.ring.returnDeadline = none
      ∧ t.ring.silence = none ∧ t.ring.originSeq = 0
      ∧ (∀ pt, t.input pt = { level := false, time := 0, travel := 0 })
      ∧ (∀ pt, t.appliedLevel pt = false) ∧ (∀ pt, t.source pt = .pass)
      ∧ (∀ pt, t.stimulus pt = none)
      ∧ ∀ p, (t.link p).queue = []

/-- Both resets leave the table, contexts, map, scheduler, monitors and ports at their values; the
Machine Stop status takes the level of its input, and each Station Port the bit rate of its strap. Every proof
context is FREE with pause reason NONE, phase NONE, empty lists, counts 0 and no optional item, no cue held and
no allowance (R86); its owner, element, kind, mode, K, T_lim, trial-notice flag and direction, which the spec
gives a FREE context no value for, are the model's choice (DESIGN CHOICE, log entry 29), and its last suspect
is the model's own field (log entry 27). -/
def Obligations.ResetLeavesTheRest : Prop :=
  ∀ (pins : ResetPins) (s : State) (c : Instr), c = .powerOnReset pins ∨ c = .resetLineReset pins →
    ∃ t, exec c s = .next t
      ∧ (∀ i, t.elem i =
          { definition := .none, state := .empty, holder := .none, holdCount := 0, suppressed := 0
            proofCount := 0, staged := none, summary := none })
      ∧ t.table.layoutFixed = false
      ∧ (∀ c, t.ctx c =
          { state := .free, reason := .none, owner := .sta, element := 0, kind := .none, mode := none
            claim := [], companions := [], k := 0, tLim := 0, trials := 0, streak := 0, fails := 0, voids := 0
            limitVoids := 0, worst := none, phase := .none, notice := false, reverse := false, articles := []
            inFlight := none, history := [], cueHeld := false, allowance := 0, restEnd := none, settle := []
            ending := none, trial := .none, lastSuspect := none })
      ∧ (∀ k, t.carrier k = .free)
      ∧ t.engine.stop = pins.machineStop ∧ t.engine.ring = .lost ∧ t.engine.track = .unset
      ∧ t.engine.moving = false ∧ t.engine.limit = 1
      ∧ t.sched = { cues := [], spacing := 1, window := 16, allowed := 2, history := [] }
      ∧ t.monitor = { travelList := [], timeList := [] }
      ∧ (∀ ch, t.tachChan ch = { seen := false, lastEdge := 0, period := 0 })
      ∧ (∀ ch, t.currentChan ch = { y := 0, sample := 0, sampleTime := 0, step := .none })
      ∧ t.drives.scanSet = [] ∧ t.drives.limit = 1 ∧ t.countedDrives = 0
      ∧ (∀ p, t.link p = { queue := [], rxErrors := 0, overflow := 0, dropped := 0, seq := 0 })
      ∧ (∀ st, (t.staLink st).rx = .hunting ∧ (t.staLink st).watch = [] ∧ (t.staLink st).lapse = 10
          ∧ (t.staLink st).lastFrame = 0)
      ∧ (t.staLink .sta).rate =
          (match pins.strapA with | .heldLow => .r115200 | .leftOpen => .r460800 | .heldHigh => .r921600)
      ∧ (t.staLink .stb).rate =
          (match pins.strapB with | .heldLow => .r115200 | .leftOpen => .r460800 | .heldHigh => .r921600)

/-! ### Invariants -/

/-- The state after reset meets every invariant of this file. -/
def Obligations.ResetMeetsInvariants : Prop :=
  State.reset.canonical = true ∧ State.reset.inRange = true ∧ State.reset.monitor.ascending
    ∧ cuesAscend State.reset.sched.cues ∧ State.reset.engine.checkOwed = false

/-- Every step keeps every sparse table in its one canonical form. The tables and their form are the model's own
(DESIGN CHOICE, log entry 28): the spec numbers the items and says no more of how they are held. -/
def Obligations.StepsKeepTablesCanonical : Prop :=
  ∀ s t : State, s.canonical = true → step s = .next t → t.canonical = true

/-- Every step keeps what `State.inRange` holds: T at most 2^48 − 1; the tracker's geometries in the ranges of
R1 with p below L, its counts and its home history; the ring's settings, counts and interval history; the
pacing settings and pacing history; the drive limit and the Proof Engine's copy of it; and the ports' queues,
counts, watch lists and lapse times. -/
def Obligations.StepsKeepRanges : Prop :=
  ∀ s t : State, s.inRange = true → step s = .next t → t.inRange = true

/-- Every step keeps both lists of the Expectation Monitor in ascending order of close (R129), and the cue list in
ascending order of due point (R110). -/
def Obligations.StepsKeepListsAscending : Prop :=
  (∀ s t : State, s.monitor.ascending → step s = .next t → t.monitor.ascending)
    ∧ ∀ s t : State, cuesAscend s.sched.cues → step s = .next t → cuesAscend t.sched.cues

/-- No step leaves a check of the paused contexts owed: every check that R96 calls for is made in the
step that calls for it (log entry 3). -/
def Obligations.StepsOweNoCheck : Prop :=
  ∀ s t : State, s.engine.checkOwed = false → step s = .next t → t.engine.checkOwed = false

/-! ### The Order Desk (R182, R185, R186, R189) -/

/-- A frame whose body fits is read back whole from its envelope. -/
def Obligations.EnvelopeRoundTrip : Prop :=
  ∀ f : LinkFrame, f.body.length ≤ 248 → parseEnvelope f.bytes = some f

/-- What a reply is: one frame of KIND + 0x80 with the order's TAG at the tail of its own port's queue; on a
Station Port the arrival also sets the last-frame time and with it a new lapse deadline, and on the
Line Port MISO carried 0x00 throughout the write (R184). Nothing else changes. A notice joins the tail of a queue
that has room with the port's notice sequence for TAG; a full queue drops it and counts it; the sequence advances
in both cases (R186). -/
def Obligations.RepliesAndNoticesJoinQueues : Prop :=
  (∀ (s : State) (p : Port) (kind : Nat) (tag : Byte) (body : List Byte),
    (∀ q, (s.replied p kind tag body).link q =
        if q = p then { s.link p with queue := (s.link p).queue ++ [replyFrame kind tag body] }
        else s.link q)
      ∧ (∀ st, (s.replied p kind tag body).staLink st =
        if stationPort st = p then
          { s.staLink st with rx := .hunting, lastFrame := s.time, lapseJudged := false }
        else s.staLink st)
      ∧ (s.replied p kind tag body).links.miso = (if p = .line then [] else s.links.miso)
      ∧ s.replied p kind tag body = { s with links := (s.replied p kind tag body).links })
    ∧ (∀ (s : State) (p q : Port) (kind : Nat) (body : List Byte),
      (pushNotice p kind body s).link q =
        if q ≠ p then s.link q
        else if (s.link p).queue.length < queueCap p then
          { s.link p with
            queue := (s.link p).queue ++
              [{ kind := BitVec.ofNat 8 kind, tag := BitVec.ofNat 8 (s.link p).seq, body := body }]
            seq := ((s.link p).seq + 1) % 256 }
        else
          { s.link p with
            dropped := min 65535 ((s.link p).dropped + 1), seq := ((s.link p).seq + 1) % 256 })

/-- An order that finds no room for its reply is dropped: beside the good frame's bookkeeping only the port's
overflow count rises (R185). One place is room, but for Read Context, which needs two for a FREE context and
three for any other (R185; for a number above 15, log entry 23). An order from a port it is not permitted from
is refused NOT_PERMITTED and changes nothing (R189). -/
def Obligations.OrdersNeedRoomAndPermission : Prop :=
  (∀ (c : Instr) (s : State) (p : Port) (k : Nat), arrivesAs c = some (p, k) →
    (s.link p).queue.length = queueCap p →
    exec c s = .next ((goodFrame p s).mapLink p fun l => { l with overflow := min 65535 (l.overflow + 1) }))
    ∧ (∀ (p : Port) (tag : Byte) (c : Nat) (s : State),
      queueCap p < (s.link p).queue.length + (if c ≤ 15 ∧ (s.ctx c).state = .free then 2 else 3) →
      exec (.readContext p tag c) s =
        .next ((goodFrame p s).mapLink p fun l => { l with overflow := min 65535 (l.overflow + 1) }))
    ∧ (∀ (c : Instr) (s : State) (p : Port) (k : Nat), arrivesAs c = some (p, k) → s.room p →
      permittedFrom k p = false →
      exec c s = .next (s.replied p k (orderTag c) (refusedBody .notPermitted)))

/-- An order from a port it is permitted from is answered by one reply, right after the frames that
were waiting, with its own KIND and TAG; every notice it causes stands behind it (R185). The body of the reply
begins ACCEPTED or REFUSED, and an order that is refused, for whatever reason, has changed nothing: beside the good
frame's bookkeeping there is its reply alone (R80, R185). -/
def Obligations.OrdersAreAnsweredFirst : Prop :=
  ∀ (c : Instr) (s : State) (p : Port) (k : Nat), arrivesAs c = some (p, k) →
    (s.link p).queue.length + 3 ≤ queueCap p → permittedFrom k p = true →
    ∃ t body, exec c s = .next t ∧ answers s t p k (orderTag c) body
      ∧ (body.head? = some 0 ∨ (body.head? = some 1 ∧ t = s.replied p k (orderTag c) body))

/-! ### Element Table orders (R55 to R62, R68, R69) -/

/-- Define Element from a station is refused, and changes nothing, with the first reason of R55 that applies; a mode
outside the list is BAD_ORDER before them (DEDUCED, log entry 19). With none: of an EMPTY record, with a kind other
than NONE, the record takes the definition of the block, is UNPROVEN with counts 0 and no summary, keeps its hold
count; the reply is ACCEPTED with disposition DEFINED; each eye of a chute takes it as attached-to and keeps its
other items; the points of the new definition take the source and the stimulus record of R42; no other element
record, no other point and no other part of the state changes (R56, R62). With kind NONE, of a defined element, it
is removed: the record is EMPTY but for its hold count, each former eye is attached to no chute, the former output
points take the source and the stimulus record of R42; nothing else changes. With kind NONE, of an EMPTY record,
nothing changes, with the same reply (R59, R62). -/
def Obligations.DefineElementDefinesOrRemoves : Prop :=
  ∀ (p : Port) (tag : Byte) (i : Nat) (kind : Kind) (block : List Byte) (s : State),
    fromStation p = true → s.room p → s.canonical = true →
    let old := (s.elem i).definition
    let given := defineCandidate old kind block
    let new := given.definition
    decidedBy
      ([(kind = .sensor ∧ blockMode block = none, refusedBody .badOrder), (1023 < i, refusedBody .range)]
        ++ s.changeChecks i given)
      (fun body => exec (.defineElement p tag i kind block) s = .next (s.replied p 0x01 tag body))
      ((kind ≠ .none → (s.elem i).state = .empty → old = .none →
        ∃ t, exec (.defineElement p tag i kind block) s = .next t
          ∧ (∀ j, t.elem j =
              if j = i then
                { definition := new, state := .unproven, holder := (s.elem i).holder
                  holdCount := (s.elem i).holdCount, suppressed := 0, proofCount := 0, staged := none
                  summary := none }
              else if j ∈ new.eyes then (s.elem j).attach (some i)
              else s.elem j)
          ∧ (∀ j ∈ new.eyes, (t.sensorDef j).bind (·.attachedTo) = some i)
          ∧ pointsDerived new.outputs s t
          ∧ sameButRecords (s.replied p 0x01 tag (accepted [0])) t)
        ∧ (kind = .none → (s.elem i).state ≠ .empty →
          ∃ t, exec (.defineElement p tag i .none block) s = .next t
            ∧ (∀ j, t.elem j =
                if j = i then { holdCount := (s.elem i).holdCount }
                else if j ∈ old.eyes then (s.elem j).attach none
                else s.elem j)
            ∧ pointsDerived old.outputs s t
            ∧ sameButRecords (s.replied p 0x01 tag (accepted [3])) t)
        ∧ (kind = .none → (s.elem i).state = .empty →
          exec (.defineElement p tag i .none block) s = .next (s.replied p 0x01 tag (accepted [3]))))

/-- Amend Element from a station is refused, and changes nothing, with the first reason of R55 that applies, judged
on the definition it would give; a mode outside the list is BAD_ORDER, judged behind the index (DEDUCED, log entry
19). With none, a change of a defined element that is not TESTING, by Amend Element or by Define Element with a
kind other than NONE, takes effect at once, with disposition AMENDED: the record takes the new definition, with
the attached-to of an ATTACHED sensor kept; PROVEN and FAILED become UNPROVEN and other states stand, for the
element and for the chute that it is attached to as eye; each eye that the new definition names takes the element
as attached-to and each other former eye is attached to no chute (an element that so becomes a chute naming itself
as eye has nothing attached for it, DESIGN CHOICE, log entry 58); every other item of those records, every other
record and the rest of the state stand; the points of both definitions take the source and the stimulus record
of R42, and no other point does (R57, R60 to R62). -/
def Obligations.AmendElementAmends : Prop :=
  ∀ (p : Port) (tag : Byte) (i : Nat) (s : State), fromStation p = true → s.room p → s.canonical = true →
    let old := (s.elem i).definition
    let base := if (s.elem i).state = .testing then (s.elem i).staged.getD old else old
    let unproven (e : Element) : Element := { e with state := amendedState e.state }
    let amended (kind : Nat) (given : Definition) (t : State) : Prop :=
      let new := keepAttached old given
      t.elem i = { unproven (s.elem i) with definition := new }
        ∧ (∀ j, j ≠ i →
          let e := if (s.sensorDef i).bind (·.attachedTo) = some j then unproven (s.elem j) else s.elem j
          t.elem j =
            if j ∈ new.eyes then e.attach (some i) else if j ∈ old.eyes then e.attach none else e)
        ∧ pointsDerived (old.outputs ++ new.outputs) s t
        ∧ sameButRecords (s.replied p kind tag (accepted [1])) t
    (∀ (mask : Nat) (block : List Byte),
      decidedBy
        ([(1023 < i, refusedBody .range), (amendBadMode base mask block = true, refusedBody .badOrder),
            ((s.elem i).state = .empty, refusedBody .notDefined)]
          ++ s.changeChecks i (amendCandidate base mask block))
        (fun body => exec (.amendElement p tag i mask block) s = .next (s.replied p 0x02 tag body))
        ((s.elem i).state ≠ .testing → old ≠ .none →
          ∃ t, exec (.amendElement p tag i mask block) s = .next t
            ∧ amended 0x02 (amendCandidate old mask block).definition t))
      ∧ ∀ (kind : Kind) (block : List Byte), i ≤ 1023 → (s.elem i).state ≠ .empty →
        (s.elem i).state ≠ .testing → kind ≠ .none →
        (kind = .sensor → (blockMode block).isSome = true) →
        (∀ x ∈ s.changeChecks i (defineCandidate old kind block), ¬ x.1) →
        ∃ t, exec (.defineElement p tag i kind block) s = .next t
          ∧ amended 0x01 (defineCandidate old kind block).definition t

/-- A change of a TESTING element, by Define Element or by Amend Element, with no reason of R55 against it, is staged:
the record's staged amendment becomes the candidate, the reply carries disposition STAGED, and nothing else
changes (R58). -/
def Obligations.ChangeOfTestingElementIsStaged : Prop :=
  ∀ (p : Port) (tag : Byte) (i : Nat) (s : State),
    fromStation p = true → s.room p → s.canonical = true → i ≤ 1023 → (s.elem i).state = .testing →
    let old := (s.elem i).definition
    let base := (s.elem i).staged.getD old
    (∀ (kind : Kind) (block : List Byte), kind ≠ .none →
      (kind = .sensor → (blockMode block).isSome = true) →
      (∀ x ∈ s.changeChecks i (defineCandidate old kind block), ¬ x.1) →
      exec (.defineElement p tag i kind block) s =
        .next ((s.replied p 0x01 tag (accepted [2])).mapElem i fun e =>
          { e with staged := some (defineCandidate old kind block).definition }))
      ∧ ∀ (mask : Nat) (block : List Byte), base ≠ .none → amendBadMode base mask block = false →
        (∀ x ∈ s.changeChecks i (amendCandidate base mask block), ¬ x.1) →
        exec (.amendElement p tag i mask block) s =
          .next ((s.replied p 0x02 tag (accepted [2])).mapElem i fun e =>
            { e with staged := some (amendCandidate base mask block).definition })

/-- Fix Layout is refused TRACK_UNSET where the tracker is UNSET or holds a staged geometry, then TESTING where a
staged amendment changes a positional field; otherwise it sets Layout Fixed. Release Layout is refused LIVE where
an element is LIVE; otherwise it clears Layout Fixed. A refused order changes nothing, and a taken one nothing
else, with the reply ACCEPTED (R68, R69). -/
def Obligations.LayoutIsFixedAndReleased : Prop :=
  ∀ (p : Port) (tag : Byte) (s : State), fromStation p = true → s.room p → s.canonical = true →
    decidedBy
      [(s.tracker.state = .unset ∨ s.tracker.staged ≠ none, refusedBody .trackUnset),
        (∃ j d, (s.elem j).staged = some d ∧ (s.elem j).definition.positional ≠ d.positional,
          refusedBody .testing)]
      (fun body => exec (.fixLayout p tag) s = .next (s.replied p 0x04 tag body))
      (exec (.fixLayout p tag) s =
        .next { s.replied p 0x04 tag (accepted []) with table := { s.table with layoutFixed := true } })
      ∧ decidedBy [(∃ j, (s.elem j).state = .live, refusedBody .live)]
        (fun body => exec (.releaseLayout p tag) s = .next (s.replied p 0x05 tag body))
        (exec (.releaseLayout p tag) s =
          .next { s.replied p 0x05 tag (accepted []) with
            table := { s.table with layoutFixed := false } })

/-! ### Holding orders (R75 to R79, R83) -/

/-- Lock Out is refused for an index above 1,023 (RANGE, which names no element, DEDUCED, log entry 21), an EMPTY
record (NOT_DEFINED), and a record in TESTING, LIVE or LOCKED with that reason; of an UNPROVEN, PROVEN or FAILED
element it makes it LOCKED with the station as holder. Unlock is refused in the same way up to LIVE, and NOT_HOLDER
for a record that is not LOCKED or that another than the station holds; by its holder it makes a LOCKED element
UNPROVEN with no holder. A refusal names the element with its state and hold count and changes nothing. Of a taken
order its other items, every other element, every output point but its own and the rest of the state stand; its
points take the source and the stimulus record of R42 (R78 to R81). -/
def Obligations.LockOutAndUnlock : Prop :=
  ∀ (p : Port) (tag : Byte) (i : Nat) (s : State), fromStation p = true → s.room p →
    let state := (s.elem i).state
    let unfit : List (Prop × List Byte) :=
      [(1023 < i, refusedBody .range), (state = .empty, s.naming .notDefined i),
        (state = .testing, s.naming .testing i), (state = .live, s.naming .live i)]
    decidedBy (unfit ++ [(state = .locked, s.naming .lockedOut i)])
      (fun body => exec (.lockOut p tag i) s = .next (s.replied p 0x09 tag body))
      (∃ t, exec (.lockOut p tag i) s = .next t
        ∧ (∀ j, t.elem j =
            if j = i then { s.elem i with state := .locked, holder := portHolder p } else s.elem j)
        ∧ pointsDerived (s.elem i).definition.outputs s t
        ∧ sameButRecords (s.replied p 0x09 tag (accepted [])) t)
      ∧ decidedBy
        (unfit ++ [(state ≠ .locked, s.naming .notHolder i),
          ((s.elem i).holder ≠ portHolder p, s.naming .notHolder i)])
        (fun body => exec (.unlock p tag i) s = .next (s.replied p 0x0A tag body))
        (∃ t, exec (.unlock p tag i) s = .next t
          ∧ (∀ j, t.elem j =
              if j = i then { s.elem i with state := .unproven, holder := .none } else s.elem j)
          ∧ pointsDerived (s.elem i).definition.outputs s t
          ∧ sameButRecords (s.replied p 0x0A tag (accepted [])) t)

/-- Enlist, Withdraw and Withdraw Faulty are refused for an index above 1,023 (RANGE), an EMPTY record (NOT_DEFINED)
and an ATTACHED sensor (ATTACHED). Enlist then is refused LAYOUT_OPEN where Layout Fixed is clear, and for the first
of the element and its eyes that is TESTING, LIVE, LOCKED (LOCKED_OUT) or otherwise not PROVEN (NOT_DEFINED), or
has a hold count above 0 (QUIETED), which it names; the other two, NOT_HOLDER, where the element is not LIVE. A
refusal but RANGE and LAYOUT_OPEN names an element with its state and hold count (DEDUCED, log entry 21) and changes
nothing. Enlist makes the element and its eyes LIVE with holder LINE; Withdraw makes them PROVEN with no holder;
Withdraw Faulty makes the element FAILED, with the summary LINE_REPORTED, and its eyes PROVEN, each with no
holder. The other items of those records, every other record, every output point but those of the element and
its eyes and the rest of the state stand; those points take the source and the stimulus record of R42 (R65, R75 to
R77, R81). -/
def Obligations.EnlistAndWithdraw : Prop :=
  ∀ (tag : Byte) (i : Nat) (s : State), s.room .line →
    let claimed := i :: (s.elem i).definition.eyes
    let points := claimed.flatMap fun j => (s.elem j).definition.outputs
    let unfit : List (Prop × List Byte) :=
      [(1023 < i, refusedBody .range), ((s.elem i).state = .empty, s.naming .notDefined i),
        ((s.elem i).definition.mode = some .attached, s.naming .attached i)]
    let unready (j : Nat) : List (Prop × List Byte) :=
      [((s.elem j).state = .testing, s.naming .testing j), ((s.elem j).state = .live, s.naming .live j),
        ((s.elem j).state = .locked, s.naming .lockedOut j),
        ((s.elem j).state ≠ .proven, s.naming .notDefined j), (0 < (s.elem j).holdCount, s.naming .quieted j)]
    let notLive := unfit ++ [((s.elem i).state ≠ .live, s.naming .notHolder i)]
    decidedBy
      (unfit ++ [(s.table.layoutFixed = false, refusedBody .layoutOpen)] ++ claimed.flatMap unready)
      (fun body => exec (.enlist .line tag i) s = .next (s.replied .line 0x12 tag body))
      (∃ t, exec (.enlist .line tag i) s = .next t
        ∧ (∀ j, t.elem j =
            if j ∈ claimed then { s.elem j with state := .live, holder := .line } else s.elem j)
        ∧ pointsDerived points s t
        ∧ sameButRecords (s.replied .line 0x12 tag (accepted [])) t)
      ∧ decidedBy notLive
        (fun body => exec (.withdraw .line tag i) s = .next (s.replied .line 0x13 tag body))
        (∃ t, exec (.withdraw .line tag i) s = .next t
          ∧ (∀ j, t.elem j =
              if j ∈ claimed then { s.elem j with state := .proven, holder := .none } else s.elem j)
          ∧ pointsDerived points s t
          ∧ sameButRecords (s.replied .line 0x13 tag (accepted [])) t)
      ∧ decidedBy notLive
        (fun body => exec (.withdrawFaulty .line tag i) s = .next (s.replied .line 0x14 tag body))
        (∃ t, exec (.withdrawFaulty .line tag i) s = .next t
          ∧ (∀ j, t.elem j =
              if j = i then
                { s.elem i with
                  state := .failed, holder := .none
                  summary := some
                    { result := .lineReported, station := none, trials := 0, passes := 0, fails := 0
                      voids := 0, worst := 0, endTime := s.time } }
              else if j ∈ claimed then { s.elem j with state := .proven, holder := .none }
              else s.elem j)
          ∧ pointsDerived points s t
          ∧ sameButRecords (s.replied .line 0x14 tag (accepted [])) t)

/-- Set Lapse with at most 60 seconds sets the interval of the station's own port and nothing else; above 60 it is
refused RANGE and changes nothing (R83). Watch Point
and Unwatch act on the watch list of the port they arrive on: a new point joins the tail of a list of fewer
than 4, a point already there changes nothing, a full list refuses with BUSY, Unwatch takes the point off if
it is there, and a point above 1,023 is refused RANGE. The reply carries the list. -/
def Obligations.StationSettingsFollowOrders : Prop :=
  (∀ (st : Station) (tag : Byte) (seconds : Nat) (s : State), s.room (stationPort st) →
    exec (.setLapse (stationPort st) tag seconds) s =
      .next (
        if 60 < seconds then s.replied (stationPort st) 0x0F tag (refusedBody .range)
        else (s.replied (stationPort st) 0x0F tag (accepted [])).mapSta st fun x =>
          { x with lapse := seconds }))
    ∧ (∀ (st : Station) (tag : Byte) (pt : Nat) (s : State), s.room (stationPort st) →
      exec (.watchPoint (stationPort st) tag pt) s =
        .next (
          let l := (s.staLink st).watch
          let reply := s.replied (stationPort st) 0x10 tag
          if 1023 < pt then reply (refusedBody .range)
          else if pt ∈ l then reply (accepted (encList (be 2) l))
          else if 4 ≤ l.length then reply (refusedBody .busy)
          else (reply (accepted (encList (be 2) (l ++ [pt])))).mapSta st fun x =>
            { x with watch := l ++ [pt] })
        ∧ exec (.unwatch (stationPort st) tag pt) s =
        .next (
          let l := (s.staLink st).watch.filter fun q => decide (q ≠ pt)
          let reply := s.replied (stationPort st) 0x11 tag
          if 1023 < pt then reply (refusedBody .range)
          else (reply (accepted (encList (be 2) l))).mapSta st fun x => { x with watch := l }))

/-! ### Reads, and frames that are no orders (R26, R48, R49, R70, R93, R109, R182 to R189) -/

/-- A read from any port answers one image of its block as it stands when the order is taken, and changes
nothing else: Read Element, Read Track, Read Ring, Read Points, Read Reservations and Read Port. Read
Context of contexts 0..15, with three free places (two for a FREE context), answers the frames of the
context image and changes nothing else. An element, a run of points or of carriers, or a context that is out of
range is refused RANGE and changes nothing else (R49, R70, R93, R109). That the count of frames in a Read Port
of the port that it arrived on leaves its own reply out is the model's choice (DESIGN CHOICE, log entry 50).
The images rest on the codes, field order and widths of log entries 17 and 18 (DEDUCED, the codes of flags and
set-or-clear items DESIGN CHOICE), and on these choices (each DESIGN CHOICE): the free value of log entry 5 for a
number that its field cannot hold, the owner of a point by log entry 40, the attached-to bytes of log entry 48
for a sensor that is not ATTACHED, the signed widths of log entry 49 and the run of points with no count of log
entry 51. -/
def Obligations.ReadsAnswerImagesAlone : Prop :=
  (∀ (p : Port) (tag : Byte) (s : State), s.room p →
    (∀ i, exec (.readElement p tag i) s =
        .next (s.replied p 0x17 tag
          (if i ≤ 1023 then accepted (recordImage s i ++ enc48 s.time) else refusedBody .range)))
      ∧ exec (.readTrack p tag) s = .next (s.replied p 0x19 tag (accepted (trackImage s)))
      ∧ exec (.readRing p tag) s = .next (s.replied p 0x1A tag (accepted (ringImage s)))
      ∧ (∀ space first number, exec (.readPoints p tag space first number) s =
        .next (s.replied p 0x1B tag
          (if first ≤ 1023 ∧ 1 ≤ number ∧ number ≤ 16 ∧ first + number ≤ 1024 then
            accepted (pointsImage s space first number)
          else refusedBody .range)))
      ∧ (∀ n first number, s.tracker.active.carriers = some n →
        exec (.readReservations p tag first number) s =
          .next (s.replied p 0x1C tag
            (if first < n ∧ 1 ≤ number ∧ number ≤ 128 ∧ first + number ≤ n then
              accepted (reservationsImage s n first number)
            else refusedBody .range)))
      ∧ (s.tracker.active.carriers = none → ∀ first number,
        exec (.readReservations p tag first number) s = .next (s.replied p 0x1C tag (refusedBody .range)))
      ∧ ∀ named, exec (.readPort p tag named) s =
        .next (s.replied p 0x1D tag (accepted (portImage (goodFrame p s) named))))
    ∧ (∀ (p : Port) (tag : Byte) (c : Nat) (s : State), c ≤ 15 →
      (s.link p).queue.length + (if (s.ctx c).state = .free then 2 else 3) ≤ queueCap p →
      exec (.readContext p tag c) s = .next (queueReply p 0x18 tag (contextBodies s c) (goodFrame p s)))
    ∧ ∀ (p : Port) (tag : Byte) (c : Nat) (s : State), 15 < c →
      (s.link p).queue.length + 3 ≤ queueCap p →
      exec (.readContext p tag c) s = .next (s.replied p 0x18 tag (refusedBody .range))

/-- A good frame that is no well-formed order of its port is answered with the reason of R185 and changes
nothing else: BAD_ORDER for a KIND that is no order's or a body that is not the form's, NOT_PERMITTED for a
port the KIND is not permitted from. The reply to a KIND of 0x80 or above has the sum modulo 256 for KIND
(DESIGN CHOICE, log entry 47). -/
def Obligations.BadOrdersAreAnswered : Prop :=
  ∀ (p : Port) (f : LinkFrame) (r : Reason) (s : State), badOrderReason p f = some r →
    (s.link p).queue.length + 3 ≤ queueCap p →
    exec (.badOrder p f) s = .next (s.replied p f.kind.toNat f.tag (refusedBody r))

/-- A begun frame that meets a byte error, a bad LENGTH, a failing CRC or a gap is dropped whole: the receiver
is back in HUNTING, the port's receive-error count rises by 1, stopping at 65,535, and nothing else changes. That
the receiver is in HUNTING whatever bytes the command brings beyond the error is the model's choice (DESIGN
CHOICE, log entry 24): they are discarded with the frame.
A transfer on the Line Port that is neither a good write nor a read is counted in the same way; where its first
byte is SYNC it is a write, and MISO carried 0x00 throughout (R184). Where its first byte is neither SYNC nor
0x00, the spec does not say what MISO carries, and the model's record of MISO stands as it was (DESIGN CHOICE, log
entry 31). A read
transfer shifts out the oldest frame of the Line Port, with 0x00 after it, and takes it off the queue
exactly where it was sent whole; with nothing queued it shifts out 0x00. A frame sent from a Station Port
leaves its queue. Nothing else changes. -/
def Obligations.LinkEventsAreTaken : Prop :=
  (∀ s : State,
    (∀ (st : Station) (bytes : List Byte) (lineError : Bool),
      rxFrame (s.staLink st).rx bytes ≠ [] →
      (lineError = true ∨ badLength (rxFrame (s.staLink st).rx bytes) = true
        ∨ (frameWhole (rxFrame (s.staLink st).rx bytes) = true
          ∧ crcChecks ((rxFrame (s.staLink st).rx bytes).take
              (lengthOf (rxFrame (s.staLink st).rx bytes) + 4)) = false)) →
      exec (.receiveError st bytes lineError) s =
        .next ((s.mapSta st fun x => { x with rx := .hunting }).mapLink (stationPort st) fun l =>
          { l with rxErrors := min 65535 (l.rxErrors + 1) }))
      ∧ (∀ (st : Station) (bytes : List Byte), rxFrame (s.staLink st).rx bytes ≠ [] →
        frameWhole (rxFrame (s.staLink st).rx bytes) = false →
        exec (.receiveGap st bytes) s =
          .next ((s.mapSta st fun x => { x with rx := .hunting }).mapLink (stationPort st) fun l =>
            { l with rxErrors := min 65535 (l.rxErrors + 1) }))
      ∧ ∀ (b : Byte) (bytes : List Byte), b ≠ 0 → parseEnvelope (b :: bytes) = none →
        exec (.lineTransferDropped (b :: bytes)) s =
          .next { s with
            links :=
              { s.links with
                miso := if b = 0xC3 then [] else s.links.miso
                linkL := { s.links.linkL with rxErrors := min 65535 (s.links.linkL.rxErrors + 1) } } })
    ∧ (∀ s : State,
      (∀ (f : LinkFrame) (l : List LinkFrame) (n : Nat), (s.link .line).queue = f :: l →
        exec (.readTransfer n) s =
          .next { s with
            links :=
              { s.links with
                miso := f.bytes.take n ++ List.replicate (n - f.bytes.length) 0
                linkL :=
                  { s.links.linkL with queue := if f.bytes.length ≤ n then l else s.links.linkL.queue } } })
        ∧ (∀ n : Nat, (s.link .line).queue = [] →
          exec (.readTransfer n) s =
            .next { s with links := { s.links with miso := List.replicate n 0 } })
        ∧ ∀ (st : Station) (f : LinkFrame) (l : List LinkFrame), (s.link (stationPort st)).queue = f :: l →
          exec (.frameSent st) s =
            .next ((s.mapLink (stationPort st) fun x => { x with queue := l }).mapSta st fun x =>
              { x with tx := f.bytes }))

/-! ### Loop Tracker (R3 to R8, R11 to R25) -/

/-- Set Geometry from a station is refused, and changes nothing, with the first reason of R3 that applies:
LAYOUT_FIXED; RANGE for a field outside its range, for k above 7, for a defined or staged coordinate not below the
new L, and for a carrier not below the new N that is not FREE. With none, a k of 7 taken as 6, in TRACKING the set is
staged and nothing else changes (R4); in any other state it is applied at once. The tracker then holds the new set
with nothing staged, p at 0, b held to the new B and the moving flag judged by the new v_min; UNSET becomes UNHOMED;
every other item stands (R5). Each port is sent one Track State notice with event APPLIED (from UNSET this one
alone, DEDUCED, log entry 13; the fault cause without a flag, DESIGN CHOICE, log entry 55) (R10, R193). Where the
Proof Engine holds the tracker out of TRACKING already, the pacing history is then empty (R10, R111), and where
nothing can start as well, every running trial that depends on the loop position is voided with cause GEOMETRY, with
fewer than 7 limit voids its proof goes on PAUSED, and every other running trial goes on untouched (R10, R104). -/
def Obligations.SetGeometryStagesOrApplies : Prop :=
  ∀ (p : Port) (tag : Byte) (g : GeometryOrder) (s : State), fromStation p = true → s.room p →
    s.canonical = true →
    let k := min g.smooth 6
    let set : Geometry :=
      { carriers := some g.carriers, pitch := some g.pitch, home := some g.home, eye := some g.eye
        revAllow := g.revAllow, homeTol := g.homeTol, pitchTol := g.pitchTol, vMin := g.vMin, smooth := k
        setup := g.setup }
    let length := g.carriers * g.pitch
    let inRange := 8 ≤ g.carriers ∧ g.carriers ≤ 512 ∧ 32 ≤ g.pitch ∧ g.pitch ≤ 4096 ∧ length ≤ 2097152
      ∧ g.home < length ∧ g.eye < length ∧ g.revAllow ≤ 255 ∧ g.homeTol ≤ 1023 ∧ 1 ≤ g.pitchTol
      ∧ g.pitchTol ≤ 1023 ∧ g.vMin ≤ 65535 ∧ 16 ≤ g.setup ∧ g.setup ≤ 65535
    let moves := decide (g.vMin * 256 ≤ s.tracker.speed)
    let replied := s.replied p 0x03 tag (accepted (be 1 0 ++ be 1 k))
    let new : TrackState := if s.tracker.state = .unset then .unhomed else s.tracker.state
    decidedBy
      [(s.table.layoutFixed = true, refusedBody .layoutFixed), (¬ inRange, refusedBody .range),
        (7 < g.smooth, refusedBody .range),
        (∃ j d x, (d = (s.elem j).definition ∨ (s.elem j).staged = some d) ∧ d.coord? = some x ∧ length ≤ x,
          refusedBody .range),
        (∃ c, g.carriers ≤ c ∧ s.carrier c ≠ .free, refusedBody .range)]
      (fun body => exec (.setGeometry p tag g) s = .next (s.replied p 0x03 tag body))
      ((s.tracker.state = .tracking →
        exec (.setGeometry p tag g) s =
          .next { s.replied p 0x03 tag (accepted (be 1 1 ++ be 1 k)) with
            tracker := { s.tracker with staged := some set } })
        ∧ (s.tracker.state ≠ .tracking →
        ∃ t, exec (.setGeometry p tag g) s = .next t
          ∧ answers s t p 0x03 tag (accepted (be 1 0 ++ be 1 k))
          ∧ replied.notified t 0x63 (trackBody new (s.tracker.fault.map (·.cause)) 1 s.time)
          ∧ t.steadyPart = State.steadyPart
            { replied with
              tracker :=
                { s.tracker with
                  active := set, staged := none, pos := 0, backlash := min s.tracker.backlash g.revAllow
                  moving := moves, state := new }
              engine :=
                { s.engine with
                  track := if s.tracker.state = .unset then .unhomed else s.engine.track
                  moving := if moves = s.tracker.moving then s.engine.moving else moves } }
          ∧ (s.engine.track ≠ .tracking → t.sched.history = []
            ∧ (s.halted → ∀ c < 16, (s.ctx c).state = .running →
              (onLoop (s.ctx c) → (s.ctx c).limitVoids < 7 →
                voided .geometry s.haltReason s.time (s.ctx c) (t.ctx c))
                ∧ (¬ onLoop (s.ctx c) → t.ctx c = s.ctx c)))))

/-- Clear Track Fault in FAULTED enters UNHOMED with the fault record cleared and b, the illegal count, the
consecutive pitch-error count and m at 0, and reports the state to the Proof Engine and by one Track State notice
to each port, with no geometry event (R10, R193; with no cause, as code 0, DESIGN CHOICE, log entry 55; behind the
notices of trials that it ends, DESIGN CHOICE, log entry 13); every other item of the tracker stands. In any other
state it is refused NOT_FAULTED and changes nothing (R8). -/
def Obligations.ClearTrackFaultUnhomes : Prop :=
  ∀ (p : Port) (tag : Byte) (s : State), fromStation p = true → s.room p →
    (s.tracker.state = .faulted →
      ∃ t, exec (.clearTrackFault p tag) s = .next t
        ∧ answers s t p 0x0C tag (accepted [])
        ∧ (s.replied p 0x0C tag (accepted [])).notified t 0x63 (trackBody .unhomed none 0 s.time)
        ∧ t.steadyPart = State.steadyPart
          { s.replied p 0x0C tag (accepted []) with
            tracker :=
              { s.tracker with
                state := .unhomed, fault := none, backlash := 0, illegal := 0, pitchRun := 0, missing := 0 }
            engine := { s.engine with track := .unhomed } })
      ∧ (s.tracker.state ≠ .faulted →
        exec (.clearTrackFault p tag) s = .next (s.replied p 0x0C tag (refusedBody .notFaulted)))

/-- A forward count leaves the levels of the forward successor, from which the next transition is decoded (R11).
With b above 0, b decreases by 1 and nothing else changes (R12). With b at 0, U increases by 1,
stopping at 2^48 − 1, and in TRACKING p increases by 1 modulo L and m by 1; where m has then reached 2P, one
pitch error is counted and m is 0, and the third in a row enters FAULTED(PITCH) with detail MISSING, of which
each port is sent one Track State notice (R10, R22, R23, R193; behind the notices of trials that end, DESIGN CHOICE,
log entries 11 and 13). -/
def Obligations.ForwardCountAdvances : Prop :=
  ∀ s : State,
    (0 < s.tracker.backlash →
      exec .forwardCount s =
        .next { s with
          tracker :=
            { s.tracker with
              encA := (encForward (s.tracker.encA, s.tracker.encB)).1
              encB := (encForward (s.tracker.encA, s.tracker.encB)).2
              backlash := s.tracker.backlash - 1 } })
      ∧ (s.tracker.backlash = 0 →
        let moved : Tracker :=
          { s.tracker with
            encA := (encForward (s.tracker.encA, s.tracker.encB)).1
            encB := (encForward (s.tracker.encA, s.tracker.encB)).2
            travel := min Config.max48 (s.tracker.travel + 1)
            pos := if s.tracker.state = .tracking then (s.tracker.pos + 1) % s.loopLen else s.tracker.pos
            missing := if s.tracker.state = .tracking then s.tracker.missing + 1 else s.tracker.missing }
        let counted : Tracker :=
          { moved with
            pitchTotal := min 65535 (s.tracker.pitchTotal + 1)
            pitchRun := min 3 (s.tracker.pitchRun + 1), missing := 0 }
        ∃ t, exec .forwardCount s = .next t
          ∧ t.steadyPart = State.steadyPart
            (if s.tracker.state = .tracking ∧ 2 * s.pitch ≤ s.tracker.missing + 1 then
              if 2 ≤ s.tracker.pitchRun then
                { s with
                  tracker :=
                    { counted with
                      state := .faulted
                      fault := some { cause := .pitch, time := s.time, detail := .missing } }
                  engine := { s.engine with track := .faulted } }
              else { s with tracker := counted }
            else { s with tracker := moved })
          ∧ (s.tracker.state = .tracking → 2 * s.pitch ≤ s.tracker.missing + 1 → 2 ≤ s.tracker.pitchRun →
            s.notified t 0x63 (trackBody .faulted (some .pitch) 0 s.time)))

/-- A reverse count with b below B raises b by 1 and moves nothing else; with the allowance used up it enters
FAULTED(REVERSE) in UNHOMED and TRACKING, of which each port is sent one Track State notice with that cause (R10,
R193; behind the notices of trials that end, DESIGN CHOICE, log entry 13), and changes nothing beside the levels in
UNSET and FAULTED. -/
def Obligations.ReverseCountIsAbsorbed : Prop :=
  ∀ s : State,
    let levels : Tracker :=
      { s.tracker with
        encA := (encReverse (s.tracker.encA, s.tracker.encB)).1
        encB := (encReverse (s.tracker.encA, s.tracker.encB)).2 }
    (s.tracker.backlash < s.tracker.active.revAllow →
      exec .reverseCount s =
        .next { s with tracker := { levels with backlash := s.tracker.backlash + 1 } })
      ∧ (s.tracker.active.revAllow ≤ s.tracker.backlash →
        s.tracker.state = .unhomed ∨ s.tracker.state = .tracking →
        ∃ t, exec .reverseCount s = .next t
          ∧ s.notified t 0x63 (trackBody .faulted (some .reverse) 0 s.time)
          ∧ t.steadyPart = State.steadyPart
            { s with
              tracker :=
                { levels with
                  state := .faulted
                  fault := some { cause := .reverse, time := s.time, detail := .none } }
              engine := { s.engine with track := .faulted } })
      ∧ (s.tracker.active.revAllow ≤ s.tracker.backlash →
        s.tracker.state = .unset ∨ s.tracker.state = .faulted →
        exec .reverseCount s = .next { s with tracker := levels })

/-- An illegal transition turns both levels and adds 1 to the illegal-transition count, which stays at 4; the count
that reaches 4 enters FAULTED(ENCODER) in UNHOMED and TRACKING (R14), of which each port is sent one Track State
notice with that cause (R10, R193; behind the notices of trials that end, DESIGN CHOICE, log entry 13). Where the
tracker so leaves TRACKING, every running trial that depends on the loop position, a sensor trial or a chute trial in
AIMING or FIRING, is voided with cause TRACK: with fewer than 7 limit voids its proof goes on PAUSED, with the first
of STOP, RING and TRACK that holds for reason. A chute trial in OBSERVING and a drive trial go on untouched
(R104). -/
def Obligations.IllegalTransitionCounts : Prop :=
  ∀ s : State,
    let levels : Tracker :=
      { s.tracker with
        encA := !s.tracker.encA, encB := !s.tracker.encB, illegal := min 4 (s.tracker.illegal + 1) }
    ((s.tracker.illegal < 3 ∨ s.tracker.state = .unset ∨ s.tracker.state = .faulted) →
      exec .illegalTransition s = .next { s with tracker := levels })
      ∧ (s.tracker.illegal = 3 → s.tracker.state = .unhomed ∨ s.tracker.state = .tracking →
        ∃ t, exec .illegalTransition s = .next t
          ∧ s.notified t 0x63 (trackBody .faulted (some .encoder) 0 s.time)
          ∧ t.steadyPart = State.steadyPart
            { s with
              tracker :=
                { levels with
                  state := .faulted
                  fault := some { cause := .encoder, time := s.time, detail := .none } }
              engine := { s.engine with track := .faulted } }
          ∧ (s.engine.track = .tracking → ∀ c < 16, (s.ctx c).state = .running →
            (onLoop (s.ctx c) → (s.ctx c).limitVoids < 7 →
              voided .track
                (if s.engine.stop then .stop else if s.engine.ring = .good then .track else .ring)
                s.time (s.ctx c) (t.ctx c))
              ∧ (¬ onLoop (s.ctx c) → t.ctx c = s.ctx c)))

/-- A home pulse with b above 0 changes nothing; in UNSET and FAULTED it clears the illegal-transition count
alone. With no set staged, UNHOMED enters TRACKING with p at H, the consecutive pitch-error count and m at 0
(R16, R17), and each port is sent one Track State notice (R10, R193). A staged set that passes its re-check becomes
active at a home pulse taken in TRACKING: nothing stays staged, b is held to the new B, the home correction history
is empty, p is at the new H, and the moving flag is judged by the new v_min; no home error is computed (R17); each
port is sent one notice with event APPLIED. Where nothing can start, every running trial that depends on the loop
position is voided with cause GEOMETRY, with fewer than 7 limit voids its proof goes on PAUSED, and every other
running trial goes on untouched (R10, R104); there, and where no context proves a chute, the pacing history is then
empty (R10, R111). Taken in UNHOMED such a pulse enters TRACKING as well, with the two pitch counts at 0, and sends
the notice of the application and then that of the entry (DEDUCED, log entry 13). Notices stand behind those of
trials that end (DESIGN CHOICE, log entry 13). A staged set that fails its re-check is discarded, each port is told
DISCARDED (a notice's fault cause has no flag, DESIGN CHOICE, log entry 55), and the pulse is then taken as with no
set staged: it homes in UNHOMED and makes the home check in TRACKING (R17, R18). -/
def Obligations.HomePulseHomesOrApplies : Prop :=
  (∀ s : State,
    (0 < s.tracker.backlash → exec .homePulse s = .next s)
      ∧ (s.tracker.backlash = 0 → s.tracker.state = .unset ∨ s.tracker.state = .faulted →
        exec .homePulse s = .next { s with tracker := { s.tracker with illegal := 0 } })
      ∧ (s.tracker.backlash = 0 → s.tracker.state = .unhomed → s.tracker.staged = none →
        ∃ t, exec .homePulse s = .next t
          ∧ s.notified t 0x63 (trackBody .tracking (s.tracker.fault.map (·.cause)) 0 s.time)
          ∧ t.steadyPart = State.steadyPart
            { s with
              tracker :=
                { s.tracker with
                  illegal := 0, pos := s.tracker.active.home.getD 0, pitchRun := 0, missing := 0
                  state := .tracking }
              engine := { s.engine with track := .tracking } }))
    ∧ (∀ (s : State) (g : Geometry), s.tracker.backlash = 0 → s.tracker.staged = some g →
      let moves := decide (g.vMin * 256 ≤ s.tracker.speed)
      let cause := s.tracker.fault.map (·.cause)
      let applied : Tracker :=
        { s.tracker with
          illegal := 0, active := g, staged := none, backlash := 0, history := []
          pos := g.home.getD 0, moving := moves }
      let moved : Engine :=
        { s.engine with moving := if moves = s.tracker.moving then s.engine.moving else moves }
      let emptied (t : State) : Prop := s.halted ∨ (∀ c, (s.ctx c).kind ≠ .chute) → t.sched.history = []
      (s.tracker.state = .tracking → s.geometryFits g = true →
        ∃ t, exec .homePulse s = .next t ∧ emptied t
          ∧ s.notified t 0x63 (trackBody .tracking cause 1 s.time)
          ∧ t.steadyPart = State.steadyPart { s with tracker := applied, engine := moved }
          ∧ (s.halted → ∀ c < 16, (s.ctx c).state = .running →
            (onLoop (s.ctx c) → (s.ctx c).limitVoids < 7 →
              voided .geometry s.haltReason s.time (s.ctx c) (t.ctx c))
              ∧ (¬ onLoop (s.ctx c) → t.ctx c = s.ctx c)))
        ∧ (s.tracker.state = .unhomed → s.geometryFits g = true →
        ∃ u t, exec .homePulse s = .next t ∧ emptied t
          ∧ s.notified u 0x63 (trackBody .unhomed cause 1 s.time)
          ∧ u.notified t 0x63 (trackBody .tracking cause 0 s.time)
          ∧ t.steadyPart = State.steadyPart
            { s with
              tracker := { applied with pitchRun := 0, missing := 0, state := .tracking }
              engine := { moved with track := .tracking } })
        ∧ (s.tracker.state = .unhomed ∨ s.tracker.state = .tracking → s.geometryFits g = false →
          let left : State := { s with tracker := { s.tracker with illegal := 0, staged := none } }
          exec .homePulse s =
            exec .homePulse
              (pushNotice .line 0x63 (trackNotice left .discarded)
                (pushNotice .stb 0x63 (trackNotice left .discarded)
                  (pushNotice .sta 0x63 (trackNotice left .discarded) left)))))

/-- The home check of TRACKING with no set staged: e is congruent to p − H modulo L in [−L/2, L/2). Within the
effective tolerance p becomes H, the correction count rises by 1, stopping at 65,535, and a record of e, T and U
joins the history of four; beyond it the tracker enters FAULTED(SLIP) with detail e, and each port is sent one Track
State notice with that cause (R10, R18, R193; behind the notices of trials that end, DESIGN CHOICE, log entry 13). A
correction of 0 changes nothing else. Any other correction moves the due point of every pending cue, every entry of
the pacing history and every point of the travel windows by e, and the cue list and the travel list are then examined
(R19, R123, R143; the cue list first is the model's choice, log entry 7); where the shift makes nothing of either
list due, nothing else changes, but that no examination of the cue list is under way any more, in the model's
bookkeeping (log entry 10). -/
def Obligations.HomeCheckCorrectsOrFaults : Prop :=
  ∀ (s : State) (e : Int), s.tracker.backlash = 0 → s.tracker.state = .tracking →
    s.tracker.staged = none → 0 < s.loopLen →
    -(s.loopLen : Int) ≤ 2 * e → 2 * e < s.loopLen →
    (s.loopLen : Int) ∣ ((s.tracker.pos : Int) - s.tracker.active.home.getD 0) - e →
    let near := e.natAbs ≤ min s.tracker.active.homeTol (s.pitch / 2)
    let corrected : State :=
      { s with
        tracker :=
          { s.tracker with
            illegal := 0, pos := s.tracker.active.home.getD 0
            corrections := min 65535 (s.tracker.corrections + 1)
            history :=
              (s.tracker.history ++
                [({ error := e, time := s.time, travel := s.tracker.travel } : HomeRecord)]).drop
                (s.tracker.history.length - 3) } }
    let shifted : State :=
      { corrected with
        sched :=
          { s.sched with
            cues := s.sched.cues.map fun q => { q with due := q.due + e }
            history := s.sched.history.map fun u => u + e }
        monitor :=
          { s.monitor with
            travelList := s.monitor.travelList.map fun x =>
              { x with
                guardAt := x.guardAt + e, openAt := x.openAt + e, closeAt := x.closeAt + e
                nominal := x.nominal + e } } }
    (∃ t, exec .homePulse s = .next t
      ∧ t.steadyPart = State.steadyPart
        (if near then corrected
        else
          { s with
            tracker :=
              { s.tracker with
                illegal := 0, state := .faulted
                fault := some { cause := .slip, time := s.time, detail := .error e } }
            engine := { s.engine with track := .faulted } })
      ∧ (¬ near → s.notified t 0x63 (trackBody .faulted (some .slip) 0 s.time)))
      ∧ (near → e = 0 → exec .homePulse s = .next corrected)
      ∧ (near → e ≠ 0 → exec .homePulse s = .next (runTravelList (runCues shifted)))
      ∧ (near → e ≠ 0 → s.engine.checkOwed = false → s.monitor.used.Nodup →
        (∀ q ∈ s.sched.cues, s.tracker.travel < q.due + e - if q.aimed then 0 else (s.pitch : Int)) →
        (∀ x ∈ s.monitor.travelList, x.phase = .waiting ∧ s.tracker.travel < x.guardAt + e
          ∧ s.tracker.travel ≤ x.closeAt + e) →
        exec .homePulse s = .next { shifted with sched := { shifted.sched with examining := false } })

/-- A pitch-eye edge is checked in TRACKING with b at 0 and changes nothing otherwise (R21). The signed phase error
is r = ((p − E) mod L) mod P where 2r < P, and r − P otherwise. Within the effective tolerance the consecutive count
is 0; beyond it the total rises, stopping at 65,535, and the consecutive count by 1; in both cases m is 0. The third
in a row enters FAULTED(PITCH) with the error for detail (R21, R22). A missing-carrier run of 2P in TRACKING is
counted as one pitch error with m back at 0, the third in a row entering FAULTED(PITCH) with detail MISSING (R22,
R23). Of an entry to FAULTED each port is sent one Track State notice with that cause (R10, R193; behind the notices
of trials that end, DESIGN CHOICE, log entry 13). That the row MISSING_CARRIER acts where such a run stands in
TRACKING, and changes nothing otherwise, is the model's reading (DEDUCED, log entry 11): the forward count that
completes a run counts it itself. -/
def Obligations.PitchErrorsAreCounted : Prop :=
  (∀ s : State,
    (s.tracker.state ≠ .tracking ∨ 0 < s.tracker.backlash → exec .pitchEyeEdge s = .next s)
      ∧ (s.tracker.state = .tracking → s.tracker.backlash = 0 →
        let r : Nat :=
          (((s.tracker.pos : Int) - s.tracker.active.eye.getD 0) % (s.loopLen : Int)).toNat % s.pitch
        let e : Int := if 2 * r < s.pitch then r else (r : Int) - s.pitch
        let counted : Tracker :=
          { s.tracker with
            pitchTotal := min 65535 (s.tracker.pitchTotal + 1)
            pitchRun := min 3 (s.tracker.pitchRun + 1), missing := 0 }
        (e.natAbs ≤ min s.tracker.active.pitchTol (s.pitch / 4) →
          exec .pitchEyeEdge s =
            .next { s with tracker := { s.tracker with pitchRun := 0, missing := 0 } })
          ∧ (min s.tracker.active.pitchTol (s.pitch / 4) < e.natAbs → s.tracker.pitchRun < 2 →
            exec .pitchEyeEdge s = .next { s with tracker := counted })
          ∧ (min s.tracker.active.pitchTol (s.pitch / 4) < e.natAbs → 2 ≤ s.tracker.pitchRun →
            ∃ t, exec .pitchEyeEdge s = .next t
              ∧ s.notified t 0x63 (trackBody .faulted (some .pitch) 0 s.time)
              ∧ t.steadyPart = State.steadyPart
                { s with
                  tracker :=
                    { counted with
                      state := .faulted
                      fault := some { cause := .pitch, time := s.time, detail := .error e } }
                  engine := { s.engine with track := .faulted } })))
    ∧ (∀ s : State,
      let counted : Tracker :=
        { s.tracker with
          pitchTotal := min 65535 (s.tracker.pitchTotal + 1)
          pitchRun := min 3 (s.tracker.pitchRun + 1), missing := 0 }
      (s.tracker.state ≠ .tracking ∨ s.tracker.missing < 2 * s.pitch → exec .missingCarrier s = .next s)
        ∧ (s.tracker.state = .tracking → 2 * s.pitch ≤ s.tracker.missing → s.tracker.pitchRun < 2 →
          exec .missingCarrier s = .next { s with tracker := counted })
        ∧ (s.tracker.state = .tracking → 2 * s.pitch ≤ s.tracker.missing → 2 ≤ s.tracker.pitchRun →
          ∃ t, exec .missingCarrier s = .next t
            ∧ s.notified t 0x63 (trackBody .faulted (some .pitch) 0 s.time)
            ∧ t.steadyPart = State.steadyPart
              { s with
                tracker :=
                  { counted with
                    state := .faulted
                    fault := some { cause := .pitch, time := s.time, detail := .missing } }
                engine := { s.engine with track := .faulted } }))

/-- The speed update at a whole millisecond: d is the travel since the last one, at most 65,535, and v moves
by (d × 256 − v) ÷ 2^k, truncated toward zero; the moving flag is v at least v_min × 256, and a change of it
is reported (R24, R25). Between milliseconds nothing changes. -/
def Obligations.SpeedUpdateSmooths : Prop :=
  ∀ s : State,
    (s.time < s.tracker.msNext → exec .speedUpdate s = .next s)
      ∧ (s.tracker.msNext ≤ s.time →
        ∃ (t : State) (v : Nat), exec .speedUpdate s = .next t
          ∧ (v : Int) = (s.tracker.speed : Int)
            + Int.tdiv ((min 65535 (s.tracker.travel - s.tracker.msTravel) * 256 : Nat) - (s.tracker.speed : Int))
                (2 ^ s.tracker.active.smooth)
          ∧ t.steadyPart = State.steadyPart
            { s with
              tracker :=
                { s.tracker with
                  speed := v, msTravel := s.tracker.travel, msNext := s.tracker.msNext + 1000
                  moving := decide (s.tracker.active.vMin * 256 ≤ v) }
              engine :=
                { s.engine with
                  moving :=
                    if decide (s.tracker.active.vMin * 256 ≤ v) = s.tracker.moving then s.engine.moving
                    else decide (s.tracker.active.vMin * 256 ≤ v) } })

/-! ### I/O Ring Interface (R29 to R40) -/

/-- Ring Restart sets the error count and the consecutive-good count to 0, clears return pending and the silence
deadline and enters LOST: where the ring was not LOST already, each port is sent one Ring State notice with the
previous state and cause RESTART, behind the notices of trials that end (DEDUCED, log entry 15), and otherwise none;
every other item of the ring stands (R30, R39, R193). Set Ring Role is refused, and changes nothing, with RANGE for a
slot count outside 1..64 or a period outside 250..2,000 µs, then LIVE where an element is LIVE, then BUSY where a
context is not FREE. Otherwise it sets role, S and period, empties the interval history, sets the next origin
sequence to 0 and restarts the ring, with cause ROLE and the new role in the notice. In ORIGIN the first frame
departs at once: S slots, sequence 0, input bits 0 and a proper CRC, with the next one due a period later (R29, R34).
With no stimulus awaited, the bit of a PASS point is the inactive level of the element whose present definition names
it, or 0 for a point of no element, one that only a staged amendment names included (DESIGN CHOICE, log entry 40),
that of a HOLD point its inactive level, that of a TEST point follows its stimulus, and the applied image takes every
bit sent (R32, R34, R43). -/
def Obligations.RingOrdersRestartRing : Prop :=
  let told (cause : Nat) (role : RingRole) (u t : State) : Prop :=
    if u.ring.state = .lost then t.links = u.links
    else u.notified t 0x64 (ringBody .lost u.ring.state cause 0 role u.time)
  (∀ (p : Port) (tag : Byte) (s : State), fromStation p = true → s.room p →
    ∃ t, exec (.ringRestart p tag) s = .next t
      ∧ answers s t p 0x0D tag (accepted [])
      ∧ told 2 s.ring.role (s.replied p 0x0D tag (accepted [])) t
      ∧ t.steadyPart = State.steadyPart
        { s.replied p 0x0D tag (accepted []) with
          ring :=
            { s.ring with
              errors := 0, goodRun := 0, returnDeadline := none, silence := none, state := .lost }
          engine :=
            { s.engine with ring := if s.ring.state = .lost then s.engine.ring else .lost } })
    ∧ (∀ (p : Port) (tag : Byte) (role : RingRole) (slots period : Nat) (s : State), fromStation p = true →
      s.room p → s.canonical = true →
      let reply (code : Nat) : List Byte := accepted (be 1 code ++ be 1 slots ++ be 2 period)
      decidedBy
        [(¬ (1 ≤ slots ∧ slots ≤ 64 ∧ 250 ≤ period ∧ period ≤ 2000), refusedBody .range),
          (∃ j, (s.elem j).state = .live, refusedBody .live),
          (∃ c < 16, (s.ctx c).state ≠ .free, refusedBody .busy)]
        (fun body => exec (.setRingRole p tag role slots period) s = .next (s.replied p 0x0E tag body))
        ((role = .relay → ∃ t, exec (.setRingRole p tag .relay slots period) s = .next t
          ∧ answers s t p 0x0E tag (reply 0)
          ∧ told 3 .relay (s.replied p 0x0E tag (reply 0)) t
          ∧ t.steadyPart = State.steadyPart
            { s.replied p 0x0E tag (accepted []) with
              ring :=
                { s.ring with
                  role := .relay, slots := slots, originPeriod := period, intervals := []
                  lastArrival := none, originSeq := 0, originNext := none, errors := 0, goodRun := 0
                  returnDeadline := none, silence := none, state := .lost }
              engine :=
                { s.engine with ring := if s.ring.state = .lost then s.engine.ring else .lost } })
          ∧ (role = .origin → ∃ t f, exec (.setRingRole p tag .origin slots period) s = .next t
            ∧ answers s t p 0x0E tag (reply 1)
            ∧ (s.noProof → told 3 .origin (s.replied p 0x0E tag (reply 1)) t)
            ∧ t.ring.nodeOut = some f ∧ f.count.toNat = slots ∧ f.seq = 0 ∧ f.slots.length = slots
            ∧ (∀ w ∈ f.slots, w.inp = 0) ∧ f.crc = f.properCrc
            ∧ t.steadyPart = State.steadyPart
              { s.replied p 0x0E tag (accepted []) with
                ring :=
                  { s.ring with
                    role := .origin, slots := slots, originPeriod := period, intervals := []
                    lastArrival := none, originSeq := 1, originNext := some (s.time + period), errors := 0
                    goodRun := 0, returnDeadline := some (s.time + period), silence := none, state := .lost
                    lastSeq := some 0, applied := t.ring.applied, nodeOut := some f }
                engine :=
                  { s.engine with ring := if s.ring.state = .lost then s.engine.ring else .lost } }
            ∧ (s.departing = [] →
              (∀ n (h : n < f.slots.length), ∀ j < 16,
                (s.source (n * 16 + j) = .pass →
                  f.slots[n].out.getLsbD j =
                    match s.ownerOf (n * 16 + j) with
                    | some i => !(s.elem i).definition.activeHigh
                    | none => false)
                  ∧ (s.source (n * 16 + j) = .hold → f.slots[n].out.getLsbD j = !s.pointHigh (n * 16 + j))
                  ∧ ∀ c r, s.source (n * 16 + j) = .test c → s.stimulus (n * 16 + j) = some r →
                    f.slots[n].out.getLsbD j = (r.activeAt s.time == s.pointHigh (n * 16 + j)))
                ∧ ∀ pt, t.appliedLevel pt =
                  match f.slots[pt / 16]? with
                  | some w => w.out.getLsbD (pt % 16)
                  | none => s.appliedLevel pt))))

/-- What a counted error of kind `k` leaves: its total one higher, stopping at 65,535, the error count 8 higher,
stopping at 255, the consecutive-good count at 0; outside LOST the state follows the error count, and entering LOST
leaves no silence deadline (R31, R37, R38). On a change of state each port is sent one Ring State notice with both
states, cause ERRORS on entering LOST and COUNT otherwise, the error count, the role and T (R39, R193; behind the
notices of the trials that end, DEDUCED, log entry 15); with the state unchanged the ports stand. Entering LOST
leaves no trial running. Where nothing could start before it either, every running trial is voided with cause RING,
and with fewer than 7 limit voids its proof goes on PAUSED with reason RING, or STOP while Machine Stop is asserted
(R105). -/
def Obligations.RingErrorIsCounted : Prop :=
  ∀ (k : RingError) (s : State),
    let n := min 255 (s.ring.errors + 8)
    let new : RingState :=
      if s.ring.state = .lost then .lost else if n ≤ 95 then .good else if n ≤ 191 then .degraded else .lost
    (s.ring.state ≠ .lost → new = .lost → ∀ c < 16, ((ringError k s).ctx c).state ≠ .running
      ∧ (s.halted → (s.ctx c).state = .running → (s.ctx c).limitVoids < 7 →
        voided .ring (if s.engine.stop then .stop else .ring) s.time (s.ctx c) ((ringError k s).ctx c)))
    ∧ (new = s.ring.state → (ringError k s).links = s.links)
    ∧ (new ≠ s.ring.state →
      s.notified (ringError k s) 0x64
        (ringBody new s.ring.state (if new = .lost then 0 else 5) n s.ring.role s.time))
    ∧ (ringError k s).steadyPart = State.steadyPart
      { s with
        ring :=
          { s.ring with
            errors := n, goodRun := 0, state := new
            silence := if s.ring.state ≠ .lost ∧ new = .lost then none else s.ring.silence
            totalBadCrc :=
              if k = .badCrc then min 65535 (s.ring.totalBadCrc + 1) else s.ring.totalBadCrc
            totalSlot := if k = .slotMismatch then min 65535 (s.ring.totalSlot + 1) else s.ring.totalSlot
            totalSequence :=
              if k = .sequence then min 65535 (s.ring.totalSequence + 1) else s.ring.totalSequence
            totalNoReturn :=
              if k = .noReturn then min 65535 (s.ring.totalNoReturn + 1) else s.ring.totalNoReturn }
        engine :=
          { s.engine with
            ring := if new = s.ring.state then s.engine.ring else new } }

/-- A scanner frame in ORIGIN changes nothing. In RELAY a frame whose CRC checks and whose slot count is S departs at
once with its header and input bits as received; the bit of an output point whose source is PASS goes out as
received, that of a HOLD point at its inactive level, that of a TEST point by its stimulus as the departing frame
leaves it, and the CRC is the proper one. The applied image takes every bit sent and keeps the points of slots at or
above S. The last outbound sequence is the frame's, and the silence deadline and return pending are set from the
departure by the nominal period. A departure that finds the last frame's return still pending counts one NO_RETURN
before the outputs are taken, and a ring lost by it has no silence deadline (DEDUCED, log entry 15); sources, stimuli
and contexts below are as that error leaves them (R32, R36, R43, R45, R46). Where no stimulus departs with the frame,
the suppressed-command count of an element with a TEST or HOLD point that was commanded active and sent otherwise
rises by 1, stopping at 65,535, and no other record changes (R44). Where the one stimulus that departs is the pulse
of a discharge, the trial records the departure and its T and enters OBSERVING with its carrier SUSPECT, in flight
and off the list, and its ENTRY window, and its FULL window where it has a full eye, stand open from T by the chute's
settings (R45, R149, R150). Where it is the level of a running drive trial's point, ACTIVE in RAMP and INACTIVE in
STOP are recorded DEPARTED and begin the time of the phase, the latter the quiet span too (R175, R177). Where it is
INACTIVE on a point of a CLOSING context's settle set, the point leaves the set, and with the last one, where no
context is PAUSED, the proof's claim is released: the context is FREE, no member has a holder and each listed carrier
is FREE (R107, R108). -/
def Obligations.ScannerFramePasses : Prop :=
  ∀ (f : RingFrame) (s : State),
    (s.ring.role = .origin → exec (.scannerFrame f) s = .next s)
      ∧ (s.ring.role = .relay → f.crc = f.properCrc → f.count.toNat = s.ring.slots →
        f.slots.length = s.ring.slots → s.canonical = true →
        let pending := s.ring.returnDeadline.isSome = true
        let opened : State := (takeInterval s).mapRing fun g =>
          { g with lastSeq := some f.seq.toNat, silence := some (s.time + 3 * g.nominal) }
        let u : State := if pending then ringError .noReturn opened else opened
        let lost := pending ∧ s.ring.state ≠ .lost ∧ 191 < min 255 (s.ring.errors + 8)
        ∃ t g, exec (.scannerFrame f) s = .next t
          ∧ t.ring.nodeOut = some g ∧ g.count = f.count ∧ g.seq = f.seq ∧ g.crc = g.properCrc
          ∧ g.slots.length = f.slots.length
          ∧ (∀ n (hg : n < g.slots.length) (hf : n < f.slots.length), g.slots[n].inp = f.slots[n].inp
            ∧ (∀ j < 16, u.source (n * 16 + j) = .pass →
              g.slots[n].out.getLsbD j = f.slots[n].out.getLsbD j)
            ∧ (∀ j < 16, u.source (n * 16 + j) = .hold →
              g.slots[n].out.getLsbD j = !u.pointHigh (n * 16 + j))
            ∧ ∀ j < 16, ∀ c r, u.source (n * 16 + j) = .test c → u.stimulus (n * 16 + j) = some r →
              g.slots[n].out.getLsbD j = (r.activeAt s.time == u.pointHigh (n * 16 + j)))
          ∧ (∀ pt, t.appliedLevel pt =
            match g.slots[pt / 16]? with
            | some w => w.out.getLsbD (pt % 16)
            | none => s.appliedLevel pt)
          ∧ t.ring.lastSeq = some f.seq.toNat
          ∧ t.ring.silence = (if lost then none else some (s.time + 3 * t.ring.nominal))
          ∧ t.ring.returnDeadline = some (s.time + t.ring.nominal)
          ∧ t.ring.errors = (if pending then min 255 (s.ring.errors + 8) else s.ring.errors)
          ∧ t.ring.goodRun = (if pending then 0 else s.ring.goodRun)
          ∧ t.ring.totalNoReturn =
            (if pending then min 65535 (s.ring.totalNoReturn + 1) else s.ring.totalNoReturn)
          ∧ t.ring.state = u.ring.state
          ∧ (¬ pending → t.ring.state = s.ring.state ∧ ∀ pt, u.source pt = s.source pt
            ∧ u.stimulus pt = s.stimulus pt)
          ∧ t.ring.image = s.ring.image ∧ t.tracker = s.tracker
          ∧ (u.departing = [] → ∀ i,
            let suppressed := ∃ pt w, f.slots[pt / 16]? = some w ∧ u.source pt ≠ .pass
              ∧ u.ownerOf pt = some i ∧ w.out.getLsbD (pt % 16) = u.pointHigh pt
              ∧ t.appliedLevel pt ≠ u.pointHigh pt
            (suppressed →
              t.elem i = { u.elem i with suppressed := min 65535 ((u.elem i).suppressed + 1) })
              ∧ (¬ suppressed → t.elem i = u.elem i))
          ∧ (∀ (pt c : Nat) (v : StimValue), u.departing = [(pt, c, .level v)] → u.engine.checkOwed = false →
            (∀ (r : DriveTrial) (d : DriveDef), (u.ctx c).state = .running → (u.ctx c).trial = .drive r →
              u.driveDef (u.ctx c).element = some d → d.point (u.ctx c).reverse = pt →
              let left (y : DriveTrial) : Prop :=
                t.stimulus pt = some { value := v, awaited := none, pulseEnd := none }
                  ∧ t.ctx c = { u.ctx c with trial := .drive y } ∧ ∀ c', c' ≠ c → t.ctx c' = u.ctx c'
              (v = .active → (u.ctx c).phase = .ramp →
                left { r with
                  stim := .departed, phaseStart := s.time, phaseDeadline := some (s.time + d.accel * 1000) })
                ∧ (v = .inactive → (u.ctx c).phase = .stop →
                  left { r with
                    stim := .departed, phaseStart := s.time, phaseDeadline := some (s.time + d.stop * 1000)
                    quietStart := some s.time }))
              ∧ (v = .inactive → (u.ctx c).state = .closing → pt ∈ (u.ctx c).settle →
                let rest := (u.ctx c).settle.filter fun q => decide (q ≠ pt)
                (rest ≠ [] → t.ctx c = { u.ctx c with settle := rest })
                  ∧ (rest = [] → (∀ c' < 16, (u.ctx c').state ≠ .paused) →
                    (t.ctx c).state = .free ∧ (∀ m ∈ (u.ctx c).claim, (t.elem m.1).holder = .none)
                      ∧ ∀ k ∈ (u.ctx c).articles, t.carrier k = .free)
                  ∧ ((∀ c' < 16, (u.ctx c').state ≠ .paused) → ∀ c', c' ≠ c → t.ctx c' = u.ctx c')))
          ∧ ∀ (pt c w : Nat) (r : ChuteTrial) (d : ChuteDef) (eye : SensorDef),
            u.departing = [(pt, c, .pulse w)] → u.engine.checkOwed = false →
            (u.ctx c).state = .running → (u.ctx c).phase = .firing → (u.ctx c).trial = .chute r →
            u.chuteDef (u.ctx c).element = some d → u.sensorDef d.entryEye = some eye → 0 < d.winOpen →
            u.monitor.entriesOf c = [] → 2 ≤ (u.ctx c).allowance →
            (∃ a b : Nat, a < b ∧ b < 24 ∧ a ∉ u.monitor.used ∧ b ∉ u.monitor.used) →
            let entry (n : Nat) : Entry :=
              { num := n, ctx := c, point := eye.input, kind := .arrive, level := eye.blockedHigh
                base := .time, guardAt := s.time, openAt := s.time + d.winOpen * 1000
                closeAt := s.time + d.winClose * 1000
                nominal := s.time + (d.winOpen + d.winClose) * 500, phase := .guard, role := .entry
                template := some
                  { kind := .depart, level := eye.blockedHigh, base := .time, role := .clear, openOff := 0
                    closeOff := d.clearLimit * 1000 }
                prior := none }
            let full (n : Nat) (eye : SensorDef) : Entry :=
              { num := n, ctx := c, point := eye.input, kind := .quiet, level := eye.blockedHigh
                base := .time, guardAt := s.time, openAt := s.time
                closeAt := s.time + (d.winClose + d.clearLimit) * 1000
                nominal := s.time + (d.winClose + d.clearLimit) * 1000, phase := .opened, role := .full
                template := none, prior := none }
            t.stimulus pt = some { value := .active, awaited := none, pulseEnd := some (s.time + w * 1000) }
              ∧ t.ctx c =
                { u.ctx c with
                  phase := .observing, articles := (u.ctx c).articles.tail, inFlight := some r.carrier
                  trial := .chute { r with stim := .departed, tStim := some s.time } }
              ∧ (∀ c', c' ≠ c → t.ctx c' = u.ctx c')
              ∧ (∀ k, t.carrier k = if k = r.carrier then .suspect else u.carrier k)
              ∧ (d.fullEye = none → ∃ n, n < 24 ∧ n ∉ u.monitor.used
                ∧ t.monitor =
                  { u.monitor with timeList := insertByClose (entry n) u.monitor.timeList })
              ∧ ∀ i second, d.fullEye = some i → u.sensorDef i = some second →
                ∃ n m, n < 24 ∧ m < 24 ∧ n ≠ m ∧ n ∉ u.monitor.used ∧ m ∉ u.monitor.used
                  ∧ t.monitor =
                    { u.monitor with
                      timeList := insertByClose (full m second) (insertByClose (entry n) u.monitor.timeList) })

/-- A scanner frame with an error is discarded: the nodes receive nothing, its interval is taken and its error
counted (R31, R32). A frame from the nodes with an error is passed to the scanner in RELAY as received,
clears return pending and counts its error: BAD_CRC first, then SLOT_MISMATCH, then SEQUENCE where no return
was pending or the sequence is not the last outbound one. The image stands (R31, R33, R36, R40). -/
def Obligations.BadRingFramesAreCounted : Prop :=
  (∀ (f : RingFrame) (k : RingError) (s : State), s.ring.role = .relay →
    frameError s.ring.slots f true = some k →
    exec (.scannerFrame f) s = .next (ringError k (takeInterval s))
      ∧ (ringError k (takeInterval s)).ring.nodeOut = s.ring.nodeOut
      ∧ (ringError k (takeInterval s)).ring.applied = s.ring.applied
      ∧ (ringError k (takeInterval s)).ring.lastArrival = some s.time)
    ∧ (∀ (f : RingFrame) (s : State),
      let k : RingError :=
        if f.crc ≠ f.properCrc then .badCrc
        else if f.count.toNat ≠ s.ring.slots then .slotMismatch else .sequence
      (f.crc ≠ f.properCrc ∨ f.count.toNat ≠ s.ring.slots ∨ s.ring.returnDeadline = none
        ∨ s.ring.lastSeq ≠ some f.seq.toNat) →
      exec (.nodeFrame f) s =
        .next (ringError k (s.mapRing fun g =>
          { g with
            ringOut := if g.role = .relay then some f else g.ringOut
            returnDeadline := none }))
        ∧ ∀ t, exec (.nodeFrame f) s = .next t → t.ring.image = s.ring.image)

/-- A frame from the nodes is passed to the scanner as received in RELAY and clears return pending. If it answers the
last departed frame and is good, the error count falls by 1 and the consecutive-good count rises by 1; 64 in a row
bring LOST to GOOD with the error count at 0, and otherwise outside LOST the state follows the count. Each point of
slots 0..S−1 takes its level, a changed one with the arrival T and the U of that instant (R33, R36 to R38, R40).
Where the ring state stands and no changed point has an expectation entry, each changed point, in ascending order, is
told to each station that watches it, by one Point Change notice with the point, the new level, T and U, and the
ports stand otherwise (R187, R193). Where the state changes and no point does, each port is sent one Ring State
notice with both states, cause RECOVERED on the return from LOST, else ERRORS on entering LOST and COUNT otherwise
(R39, R193; behind the notices of trials that end, DEDUCED, log entry 15). -/
def Obligations.GoodNodeFrameIsTaken : Prop :=
  ∀ (f : RingFrame) (s : State), s.ring.returnDeadline.isSome = true →
    s.ring.lastSeq = some f.seq.toNat → f.crc = f.properCrc → f.count.toNat = s.ring.slots →
    f.slots.length = s.ring.slots →
    let n := s.ring.errors - 1
    let good := min 64 (s.ring.goodRun + 1)
    let back := s.ring.state = .lost ∧ good = 64
    let new : RingState :=
      if back then .good
      else if s.ring.state = .lost then .lost
      else if n ≤ 95 then .good else if n ≤ 191 then .degraded else .lost
    ∃ t, exec (.nodeFrame f) s = .next t
      ∧ t.ring.ringOut = (if s.ring.role = .relay then some f else s.ring.ringOut)
      ∧ t.ring.returnDeadline = none
      ∧ t.ring.errors = (if back then 0 else n)
      ∧ t.ring.state = new
      ∧ (s.ring.state = .lost ∨ new ≠ .lost → t.ring.goodRun = good)
      ∧ (∀ k (h : k < f.slots.length), ∀ j < 16,
        t.input (k * 16 + j) =
          if f.slots[k].inp.getLsbD j = (s.input (k * 16 + j)).level then s.input (k * 16 + j)
          else { level := f.slots[k].inp.getLsbD j, time := s.time, travel := s.tracker.travel })
      ∧ (∀ pt, s.ring.slots * 16 ≤ pt → t.input pt = s.input pt)
      ∧ t.tracker = s.tracker
      ∧ (new = s.ring.state → (∀ x ∈ s.edges f, ∀ e ∈ s.monitor.travelList ++ s.monitor.timeList,
          e.point ≠ x.1) →
        t.links = ((s.edges f).foldl (fun u x => s.toldOf x.1 x.2 u) s).links)
      ∧ (new ≠ s.ring.state → s.edges f = [] →
        s.notified t 0x64
          (ringBody new s.ring.state (if back then 4 else if new = .lost then 0 else 5)
            (if back then 0 else n) s.ring.role s.time))

/-- An origin frame departs in ORIGIN at its time: the next origin sequence, S slots with input bits 0 and a
proper CRC; the sequence advances modulo 256, the next frame is due a period later, and return pending is set
from the departure. A departure that finds the last frame's return still pending counts one NO_RETURN before the
outputs are taken (DEDUCED, log entry 15). As that leaves sources and stimuli, the bit of an output point whose source
is PASS is the inactive level of the element whose present definition names it, or 0 for a point of no element, one
that only a staged amendment names included (DESIGN CHOICE, log entry 40), that of a HOLD point its inactive level,
that of a TEST point follows its stimulus as the departing frame leaves it, and the applied image takes every bit
sent. In RELAY, or before its time, nothing changes (R32, R34, R36, R43). -/
def Obligations.OriginFrameDeparts : Prop :=
  ∀ s : State,
    (s.ring.role = .relay ∨ (∀ d ∈ s.ring.originNext, s.time < d) → exec .originFrame s = .next s)
      ∧ (∀ d, s.ring.role = .origin → s.ring.originNext = some d → d ≤ s.time → s.ring.slots ≤ 64 →
        s.ring.originSeq < 256 →
        let pending := s.ring.returnDeadline.isSome = true
        let opened : State := s.mapRing fun g =>
          { g with
            originSeq := (g.originSeq + 1) % 256, originNext := some (s.time + g.originPeriod)
            lastSeq := some g.originSeq }
        let u : State := if pending then ringError .noReturn opened else opened
        ∃ t f, exec .originFrame s = .next t
          ∧ t.ring.nodeOut = some f ∧ f.count.toNat = s.ring.slots ∧ f.seq.toNat = s.ring.originSeq
          ∧ f.slots.length = s.ring.slots ∧ (∀ w ∈ f.slots, w.inp = 0) ∧ f.crc = f.properCrc
          ∧ t.ring.originSeq = (s.ring.originSeq + 1) % 256
          ∧ t.ring.originNext = some (s.time + s.ring.originPeriod)
          ∧ t.ring.lastSeq = some s.ring.originSeq
          ∧ t.ring.returnDeadline = some (s.time + s.ring.originPeriod)
          ∧ t.ring.errors = (if pending then min 255 (s.ring.errors + 8) else s.ring.errors)
          ∧ t.ring.goodRun = (if pending then 0 else s.ring.goodRun)
          ∧ t.ring.totalNoReturn =
            (if pending then min 65535 (s.ring.totalNoReturn + 1) else s.ring.totalNoReturn)
          ∧ t.ring.state = u.ring.state
          ∧ (¬ pending → t.ring.state = s.ring.state ∧ ∀ pt, u.source pt = s.source pt
            ∧ u.stimulus pt = s.stimulus pt)
          ∧ t.ring.image = s.ring.image ∧ t.tracker = s.tracker
          ∧ (s.canonical = true →
            (∀ n (h : n < f.slots.length), ∀ j < 16,
              (u.source (n * 16 + j) = .pass →
                f.slots[n].out.getLsbD j =
                  match u.ownerOf (n * 16 + j) with
                  | some i => !(u.elem i).definition.activeHigh
                  | none => false)
                ∧ (u.source (n * 16 + j) = .hold → f.slots[n].out.getLsbD j = !u.pointHigh (n * 16 + j))
                ∧ ∀ c r, u.source (n * 16 + j) = .test c → u.stimulus (n * 16 + j) = some r →
                  f.slots[n].out.getLsbD j = (r.activeAt s.time == u.pointHigh (n * 16 + j)))
              ∧ ∀ pt, t.appliedLevel pt =
                match f.slots[pt / 16]? with
                | some w => w.out.getLsbD (pt % 16)
                | none => s.appliedLevel pt))

/-- The expiry of return pending clears it and counts one NO_RETURN; before its deadline nothing changes
(R36). The silence deadline, reached in RELAY in GOOD or DEGRADED, enters LOST with the consecutive-good
count at 0, no silence deadline and the error count kept; and each port is sent one Ring State notice with
cause SILENCE (R39, R193; behind the notices of the trials that end, DEDUCED, log entry 15); before it, or in ORIGIN,
nothing changes (R38). It
leaves no trial running; where no context is CLOSING every running trial is voided with cause RING, and with
fewer than 7 limit voids its proof goes on PAUSED with reason RING, or STOP while Machine Stop is asserted
(R105). -/
def Obligations.RingDeadlinesExpire : Prop :=
  ∀ s : State,
    ((∀ d ∈ s.ring.returnDeadline, s.time < d) → exec .returnExpiry s = .next s)
      ∧ (∀ d, s.ring.returnDeadline = some d → d ≤ s.time →
        exec .returnExpiry s =
          .next (ringError .noReturn { s with ring := { s.ring with returnDeadline := none } }))
      ∧ (s.ring.role = .origin ∨ (∀ d ∈ s.ring.silence, s.time < d) → exec .silenceDeadline s = .next s)
      ∧ (∀ d, s.ring.role = .relay → s.ring.silence = some d → d ≤ s.time → s.ring.state ≠ .lost →
        ∃ t, exec .silenceDeadline s = .next t
          ∧ s.notified t 0x64 (ringBody .lost s.ring.state 1 s.ring.errors .relay s.time)
          ∧ t.steadyPart = State.steadyPart
            { s with
              ring := { s.ring with state := .lost, goodRun := 0, silence := none }
              engine := { s.engine with ring := .lost } }
          ∧ (∀ c < 16, (t.ctx c).state ≠ .running)
          ∧ (s.engine.checkOwed = false → (∀ c, (s.ctx c).state ≠ .closing) →
            ∀ c < 16, (s.ctx c).state = .running → (s.ctx c).limitVoids < 7 →
              voided .ring (if s.engine.stop then .stop else .ring) s.time (s.ctx c) (t.ctx c)))

/-! ### Proof orders and the carrier map (R72, R73, R88 to R92, R106, R115, R171) -/

/-- Order Proof from a station is refused, and changes nothing, with the first reason of R88 that applies: RANGE for
the index, NOT_DEFINED for an EMPTY record, ATTACHED, RANGE for K or T_lim, for a reverse direction without reverse
point or a point of the claim set outside the ring, and for the article list, NO_CONTEXT, CARRIER_BUSY, which names
the first listed carrier that is not FREE and its map state, and then a member of the claim set that is TESTING,
LIVE, LOCKED (LOCKED_OUT) or has a hold count (QUIETED), or a companion that is LIVE (COMPANION_LIVE), each named
with its state and hold count (R72, R81). Otherwise it is answered ACCEPTED with the lowest FREE context and a pause
reason. While Machine Stop is asserted the context is as R89 fills it, PAUSED with reason STOP: every member of the
claim set is TESTING and held by the station, each companion's hold count is one higher, each listed carrier is
ARTICLE for the context, and every point concerned takes the source of R42; every other element, carrier and cue
stands. Every other paused context records STOP: that the check of one context's Order Proof examines them all is the
model's choice (log entry 41). -/
def Obligations.OrderProofFillsContext : Prop :=
  ∀ (p : Port) (tag : Byte) (o : ProofOrder) (st : Station) (s : State),
    portStation p = some st → s.room p →
    let d := (s.elem o.element).definition
    let members := o.element :: d.eyes
    let unclaimable (j : Nat) : List (Prop × List Byte) :=
      [((s.elem j).state = .testing, s.naming .testing j), ((s.elem j).state = .live, s.naming .live j),
        ((s.elem j).state = .locked, s.naming .lockedOut j), (0 < (s.elem j).holdCount, s.naming .quieted j)]
    let beyond := ∀ n, s.tracker.active.carriers = some n → ∃ k ∈ o.articles, n ≤ k
    decidedBy
      ([(1023 < o.element, refusedBody .range), ((s.elem o.element).state = .empty, refusedBody .notDefined),
          (d.mode = some .attached, refusedBody .attached),
          (¬ (1 ≤ o.k ∧ o.k ≤ 15 ∧ o.k ≤ o.tLim ∧ o.tLim ≤ 63), refusedBody .range),
          ((o.reverse = true ∧ ∀ e, s.driveDef o.element = some e → e.reverse = none)
            ∨ (∃ j ∈ members, ∃ pt ∈ (s.elem j).definition.outputs ++ (s.elem j).definition.inputs,
              s.ring.slots * 16 ≤ pt), refusedBody .range),
          (8 < o.articles.length ∨ ¬ o.articles.Nodup
            ∨ (o.articles ≠ [] ∧ (d.kind = .drive ∨ d.mode = some .carrier ∨ beyond)), refusedBody .range),
          (∀ c < 16, (s.ctx c).state ≠ .free, refusedBody .noContext)]
        ++ o.articles.map (fun k =>
          (s.carrier k ≠ .free, refusedBody .carrierBusy { carrier := some (k, s.carrier k) }))
        ++ members.flatMap unclaimable
        ++ d.companions.map (fun j => ((s.elem j).state = .live, s.naming .companionLive j)))
      (fun body => exec (.orderProof p tag o) s = .next (s.replied p 0x06 tag body))
      (∀ c < 16, (s.ctx c).state = .free → (∀ c' < c, (s.ctx c').state ≠ .free) →
        (∃ t r, exec (.orderProof p tag o) s = .next t
          ∧ answers s t p 0x06 tag (accepted (be 1 c ++ be 1 r))
          ∧ t.steadyPart = (s.replied p 0x06 tag []).steadyPart)
        ∧ (s.engine.stop = true →
          ∃ t, exec (.orderProof p tag o) s = .next t
            ∧ answers s t p 0x06 tag (accepted (be 1 c ++ be 1 (reasonCode .stop)))
            ∧ t.ctx c =
              { state := .paused, reason := .stop, owner := st, element := o.element, kind := d.kind
                mode := d.mode, claim := members.map fun j => (j, (s.elem j).state)
                companions := d.companions, k := o.k, tLim := o.tLim, notice := o.notice
                reverse := o.reverse, articles := o.articles }
            ∧ (∀ c' < 16, c' ≠ c → t.ctx c' = (s.ctx c').halt .stop)
            ∧ (∀ j ∈ members, (t.elem j).state = .testing ∧ (t.elem j).holder = stationHolder st)
            ∧ (∀ j, (t.elem j).holdCount = (s.elem j).holdCount + d.companions.count j)
            ∧ (∀ j, j ∉ members → j ∉ d.companions → t.elem j = s.elem j)
            ∧ (∀ k, t.carrier k = if k ∈ o.articles then .article c else s.carrier k)
            ∧ (∀ j ∈ members ++ d.companions, ∀ pt ∈ (s.elem j).definition.outputs,
              t.source pt = t.sourceOf pt)
            ∧ t.sched = s.sched ∧ t.monitor = s.monitor ∧ t.drives = s.drives))

/-- Add Articles from a station is refused, and changes nothing, with the first reason of R90 that applies: RANGE for
the context number, NOT_HOLDER for a FREE context or one of another owner and for one in CLOSING, RANGE for a DRIVE, a
CARRIER sensor, a carrier twice or a carrier not below N (an empty list and N unset included, DEDUCED, log entry 22),
ARTICLES_FULL, CARRIER_BUSY. Otherwise it is answered with the list as it then stands, and touches the
steady part of no block. In a RUNNING context the carriers join the tail of the list and become ARTICLE for the
context, and nothing else changes; in a PAUSED one the start conditions are checked as well, which where
nothing can start, with Machine Stop asserted or the ring not GOOD, leaves that reason with every paused context
and changes nothing else (R90, R94, R96; that it examines every paused context is the model's choice, log entry
41). Clear Carrier is refused RANGE for a carrier not below N or with N unset, and HELD for one that is ARTICLE for a
context or in flight; otherwise it makes the carrier FREE. Neither changes anything else (R92). -/
def Obligations.CarrierOrdersKeepTheMap : Prop :=
  ∀ (p : Port) (tag : Byte) (s : State), fromStation p = true → s.room p →
    let below (k : Nat) : Prop := ∃ n, s.tracker.active.carriers = some n ∧ k < n
    (∀ (c : Nat) (l : List Nat),
      let x := s.ctx c
      let all := x.articles ++ l
      let replied := s.replied p 0x07 tag (accepted (encList (be 2) all))
      decidedBy
        [(15 < c, refusedBody .range),
          (x.state = .free ∨ portStation p ≠ some x.owner, refusedBody .notHolder),
          (x.state = .closing, refusedBody .notHolder),
          (x.kind = .drive ∨ x.mode = some .carrier ∨ l = [] ∨ ¬ l.Nodup ∨ (∃ k ∈ l, ¬ below k),
            refusedBody .range),
          (8 < all.length, refusedBody .articlesFull),
          (∃ k ∈ l, s.carrier k ≠ .free, refusedBody .carrierBusy)]
        (fun body => exec (.addArticles p tag c l) s = .next (s.replied p 0x07 tag body))
        ((∃ t, exec (.addArticles p tag c l) s = .next t
          ∧ answers s t p 0x07 tag (accepted (encList (be 2) all))
          ∧ t.steadyPart = (s.replied p 0x07 tag []).steadyPart)
          ∧ (x.state = .running →
            exec (.addArticles p tag c l) s =
              .next ((replied.setCtx c { x with articles := all }).setCarriers l (.article c)))
          ∧ (x.state = .paused → s.halted →
            ∃ t, exec (.addArticles p tag c l) s = .next t
              ∧ (∀ c' < 16, t.ctx c' =
                Context.halt s.haltReason (if c' = c then { x with articles := all } else s.ctx c'))
              ∧ (∀ k, t.carrier k = if k ∈ l then .article c else s.carrier k)
              ∧ t = { replied with
                      engine :=
                        { s.engine with contexts := t.engine.contexts, carriers := t.engine.carriers } })))
      ∧ ∀ k : Nat,
        decidedBy
          [(¬ below k, refusedBody .range),
            ((∃ c, s.carrier k = .article c) ∨ (∃ c < 16, (s.ctx c).inFlight = some k), refusedBody .held)]
          (fun body => exec (.clearCarrier p tag k) s = .next (s.replied p 0x0B tag body))
          (exec (.clearCarrier p tag k) s =
            .next ((s.replied p 0x0B tag (accepted [0])).setCarrier k .free))

/-- Abort Proof from a station is refused, and changes nothing, RANGE for a context number above 15 and NOT_HOLDER
for a FREE context or one of another owner. Of the station's own context: in CLOSING it is answered CLOSING with the
result and changes nothing; in PAUSED or RUNNING it is answered ABORTED and the proof ends: where no other context
waits in PAUSED, the context is then FREE, or CLOSING with ABORTED by ORDER until its points have settled. -/
def Obligations.AbortProofEndsProof : Prop :=
  ∀ (p : Port) (tag : Byte) (c : Nat) (s : State), s.room p → fromStation p = true →
    decidedBy
      [(15 < c, refusedBody .range),
        ((s.ctx c).state = .free ∨ portStation p ≠ some (s.ctx c).owner, refusedBody .notHolder)]
      (fun body => exec (.abortProof p tag c) s = .next (s.replied p 0x08 tag body))
      ((∀ r cause, (s.ctx c).state = .closing → (s.ctx c).ending = some (r, cause) →
        exec (.abortProof p tag c) s =
          .next (s.replied p 0x08 tag (accepted (be 1 0 ++ be 1 (resultCode r)))))
        ∧ ((s.ctx c).state ≠ .closing →
        ∃ t, exec (.abortProof p tag c) s = .next t
          ∧ answers s t p 0x08 tag (accepted (be 1 1))
          ∧ t.steadyPart = (s.replied p 0x08 tag []).steadyPart
          ∧ ((∀ c' < 16, c' ≠ c → (s.ctx c').state ≠ .paused) →
            (t.ctx c).state = .free
              ∨ ((t.ctx c).state = .closing ∧ (t.ctx c).ending = some (.aborted, .order)
                ∧ (t.ctx c).settle ≠ []))))

/-- Set Pacing takes G, W and Q clamped to 0..64, 1..512 and 1..8, answers the values taken and changes
nothing else. Set Drive Limit takes D clamped to 1..4, reports it to the Proof Engine and answers it (R115,
R171). -/
def Obligations.LineOrdersSetLimits : Prop :=
  ∀ (tag : Byte) (s : State), s.room .line →
    (∀ g w q : Nat,
      exec (.setPacing .line tag g w q) s =
        .next { s.replied .line 0x15 tag (accepted
            (be 1 (min 64 g) ++ be 2 (max 1 (min 512 w)) ++ be 1 (max 1 (min 8 q)))) with
          sched :=
            { s.sched with
              spacing := min 64 g, window := max 1 (min 512 w), allowed := max 1 (min 8 q) } })
      ∧ ∀ d : Nat, ∃ t, exec (.setDriveLimit .line tag d) s = .next t
        ∧ answers s t .line 0x16 tag (accepted (be 1 (max 1 (min 4 d))))
        ∧ t.steadyPart = State.steadyPart
          { s.replied .line 0x16 tag [] with
            drives := { s.drives with limit := max 1 (min 4 d) }
            engine := { s.engine with limit := max 1 (min 4 d) } }

/-! ### Trials, outcomes and proofs (R94 to R108) -/

/-- An assertion of Machine Stop leaves no trial running: every running context whose limit voids stand below
8 is PAUSED with one void more, at most 63, and its trials, streak, fails and limit voids as they were; every
paused context has reason STOP. A release records for each paused context its first failing condition, where
each has one. A repeated level changes nothing (R101, R103). -/
def Obligations.MachineStopVoidsTrials : Prop :=
  ∀ s : State,
    (s.engine.stop = true → exec .machineStopAsserted s = .next s)
      ∧ (s.engine.stop = false → exec .machineStopReleased s = .next s)
      ∧ (s.engine.stop = false →
      ∃ t, exec .machineStopAsserted s = .next t
        ∧ t.steadyPart = State.steadyPart { s with engine := { s.engine with stop := true } }
        ∧ (∀ c < 16, (t.ctx c).state ≠ .running
          ∧ ((t.ctx c).state = .paused → (t.ctx c).reason = .stop))
        ∧ (∀ c < 16, (s.ctx c).state = .running → (s.ctx c).limitVoids < 8 →
          (t.ctx c).state = .paused ∧ (t.ctx c).voids = min 63 ((s.ctx c).voids + 1)
            ∧ (t.ctx c).trials = (s.ctx c).trials ∧ (t.ctx c).streak = (s.ctx c).streak
            ∧ (t.ctx c).fails = (s.ctx c).fails ∧ (t.ctx c).limitVoids = (s.ctx c).limitVoids))
      ∧ (s.engine.stop = true →
      let freed : State := { s with engine := { s.engine with stop := false } }
      ∃ t, exec .machineStopReleased s = .next t ∧ t.steadyPart = freed.steadyPart
        ∧ ((∀ c < 16, (s.ctx c).state = .paused → freed.firstFail (s.ctx c) ≠ none) →
          ∀ c < 16, t.ctx c = (s.ctx c).halt ((freed.firstFail (s.ctx c)).getD .none)))

/-- A check of a halted state starts nothing: each of the sixteen contexts that is PAUSED records STOP while
Machine Stop is asserted and RING otherwise, and nothing else changes (R94, R96). -/
def Obligations.HaltedChecksRecordReasons : Prop :=
  ∀ s : State, s.halted →
    (∀ c < 16, (check s).ctx c = (s.ctx c).halt s.haltReason)
      ∧ check s = { s with engine := { s.engine with contexts := (check s).engine.contexts } }

/-- The counting of an outcome and the decision on the proof (R98, R99). -/
def Obligations.OutcomesAreCountedAndDecided : Prop :=
  ∀ (x : Context) (o : TrialOutcome) (d : Option Int),
    let y := countOutcome x o d
    let counted := ∀ cause, o ≠ .void cause
    (y.trials = match o with | .void _ => x.trials | _ => x.trials + 1)
      ∧ (y.streak = match o with | .pass => x.streak + 1 | .fail _ => 0 | .void _ => x.streak)
      ∧ (y.fails = match o with | .fail _ => x.fails + 1 | _ => x.fails)
      ∧ (y.voids = match o with | .void _ => min 63 (x.voids + 1) | _ => x.voids)
      ∧ (y.limitVoids =
          match o with
          | .void .stop => x.limitVoids
          | .void _ => x.limitVoids + 1
          | _ => x.limitVoids)
      ∧ (∀ dev, counted → d = some dev →
        y.worst = if (∀ w ∈ x.worst, w.natAbs < dev.natAbs) then some dev else x.worst)
      ∧ (d = none ∨ ¬ counted → y.worst = x.worst)
      ∧ (counted → y.streak = y.k → decideProof y o = some (.passed, .count))
      ∧ (counted → y.streak ≠ y.k → y.streak + (y.tLim - y.trials) < y.k →
        decideProof y o = some (.failed, .count))
      ∧ (counted → y.streak ≠ y.k → y.k ≤ y.streak + (y.tLim - y.trials) → decideProof y o = none)
      ∧ (¬ counted → 8 ≤ y.limitVoids → decideProof y o = some (.abandoned, .voids))
      ∧ (¬ counted → y.limitVoids < 8 → decideProof y o = none)

/-- An outcome of a running trial is counted and joins the tail of the history, and the trial ends (R97, R98, R102):
the context's cue and its entries are gone, every other cue standing; no change is awaited on its TEST points, and
each whose value is ACTIVE is asked for INACTIVE (not so while the ring is LOST, R45); a drive's current channel
leaves the scan request set, and the rest end of a drive trial is the T of the outcome plus the rest time, absent
with a rest time of 0; there is no trial, phase, cue, allowance or carrier in flight, which is FREE after a PASS and
stands otherwise; of an ARTICLE sensor the head of the article list moves to its tail (R162). With the trial-notice
flag set, one Trial Outcome notice is queued to the owner's port, with the context, the element, the outcome, its
code or cause (with no flag, 0 for a PASS, log entries 17 and 55), the deviation (4 bytes with no flag, 0 where
absent, DESIGN CHOICE, log entry 54), the dwell of a PASS of a chute or sensor trial with its flag, T, and trials,
streak, fails and voids after the count; with the flag clear the ports stand (R97, R193). Where the proof goes on the
context is PAUSED and the check of R96 is owed (the model's bookkeeping, log entry 9); an outcome that ends the proof
does all this before the closing sequence begins (R99). For a context that is not RUNNING it is not taken (R97,
R102). -/
def Obligations.OutcomesEndTrials : Prop :=
  ∀ (c : Nat) (o : TrialOutcome) (d : Option Int) (s : State),
    let x := s.ctx c
    let y := countOutcome x o d
    let noticed : State :=
      let dwell : Option Int :=
        match o, x.trial with
        | .pass, .chute r => r.dwell
        | .pass, .sensor r => r.dwell
        | _, _ => none
      let what : Nat := match o with | .pass => 0 | .fail _ => 1 | .void _ => 2
      let body := be 1 c ++ be 2 x.element ++ be 1 what ++ be 1 (outcomeDetail x.kind o) ++ encDev (d.getD 0)
        ++ (match dwell with | some v => 1 :: encDev v | none => 0 :: be 4 0)
        ++ enc48 s.time ++ be 1 y.trials ++ be 1 y.streak ++ be 1 y.fails ++ be 1 y.voids
      if x.notice then pushNotice (stationPort x.owner) 0x61 body s else s
    let drive : Option DriveDef := if x.kind = .drive then s.driveDef x.element else none
    let ended (u : State) : Prop :=
      (u.ctx c).phase = .none ∧ (u.ctx c).trial = .none ∧ (u.ctx c).cueHeld = false
        ∧ (u.ctx c).allowance = 0 ∧ (u.ctx c).inFlight = none
        ∧ (u.ctx c).trials = y.trials ∧ (u.ctx c).streak = y.streak ∧ (u.ctx c).fails = y.fails
        ∧ (u.ctx c).voids = y.voids ∧ (u.ctx c).limitVoids = y.limitVoids ∧ (u.ctx c).worst = y.worst
        ∧ (u.ctx c).history =
          (x.history ++ [({ outcome := o, deviation := d, time := s.time } : OutcomeRecord)]).drop
            (x.history.length - 7)
        ∧ (u.ctx c).restEnd =
          (if x.kind = .drive then
            drive.bind fun e => if e.rest = 0 then none else some (s.time + e.rest * 1000)
          else x.restEnd)
        ∧ (u.ctx c).articles =
          (if x.mode = some .article then x.articles.drop 1 ++ x.articles.take 1 else x.articles)
        ∧ (∀ c', c' ≠ c → u.ctx c' = s.ctx c')
        ∧ (∀ k, u.carrier k = if x.inFlight = some k ∧ o = .pass then .free else s.carrier k)
        ∧ u.cueOf c = none
        ∧ u.sched = { s.sched with cues := s.sched.cues.filter fun q => decide (q.ctx ≠ c) }
        ∧ u.monitor.entriesOf c = [] ∧ (∀ c', c' ≠ c → u.monitor.entriesOf c' = s.monitor.entriesOf c')
        ∧ (s.canonical = true → ∀ pt, u.stimulus pt =
          if s.source pt = .test c then
            (s.stimulus pt).map fun r =>
              { r with
                awaited :=
                  if r.value = .active ∧ s.ring.state ≠ .lost then some (c, .level .inactive) else none }
          else s.stimulus pt)
        ∧ (∀ pt, u.source pt = s.source pt)
        ∧ u.drives =
          { s.drives with
            scanSet := s.drives.scanSet.filter fun ch => decide (drive.bind (·.current) ≠ some ch) }
        ∧ u.links = noticed.links ∧ u.table = s.table ∧ u.steadyPart = s.steadyPart
    (x.state ≠ .running → takeOutcome c o d s = s)
      ∧ (∀ r cause, x.state = .running → decideProof y o = some (r, cause) →
        ∃ u, takeOutcome c o d s = enterClosing c r cause u ∧ ended u)
      ∧ (x.state = .running → decideProof y o = none →
        let t := takeOutcome c o d s
        ended t ∧ (t.ctx c).state = .paused ∧ t.engine.checkOwed = true)

/-- A drive trial starts in PRECHECK with the record of R173; its current channel joins the scan request set
with y 0 and step ASSIST; every other context, the table, the map, the cues and the expectations stand (R96,
R170, R173). That the row TRIAL_START starts the context it names with no other examined before it is the model's
choice (DESIGN CHOICE, log entry 56), and so is that the rise of the count of drive trials calls for no check
(DESIGN CHOICE, log entry 57). At the end of a rest the same start is made, where this context alone is
PAUSED (R94). -/
def Obligations.DriveTrialStarts : Prop :=
  ∀ (c : Fin 16) (d : DriveDef) (s : State), s.engine.checkOwed = false →
    (s.ctx c).state = .paused → (s.ctx c).kind = .drive → s.driveDef (s.ctx c).element = some d →
    s.firstFail (s.ctx c) = none →
    (∃ t, exec (.trialStart c) s = .next t
      ∧ t.ctx c =
        { s.ctx c with
          state := .running, reason := .none, phase := .precheck
          trial := .drive
            { phaseStart := s.time, phaseDeadline := some (s.time + d.stop * 1000)
              quietStart := some s.time, motionDeadline := none, stim := .none, assisted := none
              plain := none, captures := 0, farthest := none, peak := 0 } }
      ∧ (∀ c', c' ≠ c.val → t.ctx c' = s.ctx c')
      ∧ (∀ ch, d.current = some ch →
        t.currentChan ch = { s.currentChan ch with y := 0, step := .assist } ∧ ch ∈ t.drives.scanSet)
      ∧ (d.current = none → t.drives = s.drives)
      ∧ t.steadyPart = s.steadyPart ∧ t.table = s.table ∧ t.engine.carriers = s.engine.carriers
      ∧ t.sched = s.sched ∧ t.monitor = s.monitor ∧ t.links = s.links)
      ∧ ((s.ctx c).reason = .rest → (∃ e, (s.ctx c).restEnd = some e ∧ e ≤ s.time) →
        (∀ c' < 16, c' ≠ c.val → (s.ctx c').state ≠ .paused) →
        exec (.restEnd c) s = exec (.trialStart c) s)

/-- A sensor trial starts in WATCHING with an allowance of 1, its record, and one EDGE entry on the travel
list. The nominal point of a CARRIER sensor is the next arrival of a leading edge at least half a pitch away,
and the expected carrier the one whose leading edge that is; that of an ARTICLE sensor is where the listed
carrier's centre stands over it, at least half a pitch away (R156 to R159). The record also keeps the T of the
start, the model's own field (log entry 45). The row starts the context it names alone (DESIGN CHOICE, log entry
56). -/
def Obligations.SensorTrialStarts : Prop :=
  ∀ (c : Fin 16) (d : SensorDef) (n : Nat) (s : State), s.engine.checkOwed = false →
    (s.ctx c).state = .paused → (s.ctx c).kind = .sensor → s.sensorDef (s.ctx c).element = some d →
    s.firstFail (s.ctx c) = none → s.monitor.entriesOf c = [] → s.monitor.lowestFree = some n →
    32 ≤ s.pitch → s.pitch ≤ s.loopLen →
    (d.mode = .carrier ∨ (d.mode = .article ∧ (s.ctx c).articles ≠ [])) →
    let half := s.pitch / 2
    let k := (s.ctx c).articles.headD 0
    let r : Nat := (((s.tracker.pos : Int) - d.coord) % (s.loopLen : Int)).toNat % s.pitch
    let near : Nat :=
      if d.mode = .article then
        (((d.coord + k * s.pitch + half : Nat) - (s.tracker.pos : Int)) % (s.loopLen : Int)).toNat
      else (s.pitch - r) % s.pitch
    let dist : Nat :=
      if near < half then near + (if d.mode = .article then s.loopLen else s.pitch) else near
    let nominal : Int := s.tracker.travel + dist
    let tol : Nat := min d.tol (s.pitch / 4)
    ∃ t x e, exec (.trialStart c) s = .next t
      ∧ t.ctx c =
        { s.ctx c with
          state := .running, reason := .none, phase := .watching, allowance := 1, trial := .sensor x }
      ∧ x.distance = dist ∧ x.start = s.time ∧ x.edgeDev = none ∧ x.dwell = none
      ∧ x.carrier = (if d.mode = .article then some k else none)
      ∧ x.expected =
        (if d.mode = .article then k
        else
          ((((s.tracker.pos : Int) - d.coord) % (s.loopLen : Int)).toNat / s.pitch
            + if r = 0 ∨ half ≤ near then 1 else 2) % s.tracker.active.carriers.getD 0)
      ∧ t.monitor.find n = some e ∧ (e.phase = .waiting ∨ e.phase = .guard)
      ∧ e =
        { num := n, ctx := c, point := d.input, kind := .arrive, level := d.blockedHigh, base := .travel
          guardAt := nominal - half, openAt := nominal - tol, closeAt := nominal + tol, nominal := nominal
          phase := e.phase, role := .edge
          template := some
            { kind := .depart, level := d.blockedHigh, base := .travel, role := .clear, openOff := 0
              closeOff := d.depart }
          prior := none }
      ∧ (∀ c', c' ≠ c.val → t.ctx c' = s.ctx c')
      ∧ t.steadyPart = s.steadyPart ∧ t.table = s.table ∧ t.engine.carriers = s.engine.carriers
      ∧ t.sched = s.sched ∧ t.drives = s.drives ∧ t.links = s.links

/-- A chute trial starts in AIMING with an allowance of 2 and the record of R146 for the carrier at the head
of the list. Where a candidate is admitted more than a pitch ahead of U, and no cue stands within a pitch of
it, its cue joins the list with the admitted due point, the lead and the retry count, and no other cue
changes (R112 to R117, R146, R147). Where the fifth candidate is refused as well, no cue joins the list: the trial,
aiming at the carrier at the head of the list, takes the outcome VOID with cause PACING, and the paused context is
checked at once (R117; in the terms of the outcome and the check that it calls for, log entry 9). Where that is
the eighth limit void and no other context is PAUSED, the proof ends ABANDONED by VOIDS: the context is FREE, or
CLOSING until its points have settled (R99, R107, R117). The row starts the context it names alone (DESIGN CHOICE,
log entry 56). -/
def Obligations.ChuteTrialStarts : Prop :=
  ∀ (c : Fin 16) (d : ChuteDef) (k : Nat) (rest : List Nat) (s : State),
    s.engine.checkOwed = false → (s.ctx c).state = .paused → (s.ctx c).kind = .chute →
    s.chuteDef (s.ctx c).element = some d → s.firstFail (s.ctx c) = none →
    (s.ctx c).articles = k :: rest →
    let lead := leadOf s.tracker.speed d.latency s.loopLen
    let first : Int := s.tracker.travel +
      aimDistance s.tracker.active s.tracker.pos (targetOf s.tracker.active d.coord k) lead
    let admitted := admission (s.sched.spacing * s.pitch) (s.sched.window * s.pitch) s.sched.allowed s.loopLen
      (pruneHistory s).sched.points 5 0 first
    let started : Context :=
      { s.ctx c with
        state := .running, reason := .none, phase := .aiming, allowance := 2
        trial := .chute
          { carrier := k, stim := .none, tStim := none, entryDev := none, dwell := none
            clearMet := false, fullMet := if d.fullEye.isSome then some false else none
            leadUsed := none } }
    (admitted = none →
      exec (.trialStart c) s =
        .next (settle (takeOutcome c (.void .pacing) none (pruneHistory (s.setCtx c started)))))
      ∧ (admitted = none → 7 ≤ (s.ctx c).limitVoids →
        (∀ c' < 16, c' ≠ c.val → (s.ctx c').state ≠ .paused) →
        ∃ t, exec (.trialStart c) s = .next t ∧ t.cueOf c = none
          ∧ ((t.ctx c).state = .free
            ∨ ((t.ctx c).state = .closing ∧ (t.ctx c).ending = some (.abandoned, .voids))))
      ∧ ∀ (due : Int) (r : Nat), admitted = some (due, r) → (s.tracker.travel : Int) < due - s.pitch →
        (∀ q ∈ s.sched.cues, q.ctx ≠ c.val ∧ (s.tracker.travel : Int) < q.due - s.pitch) →
        ∃ t, exec (.trialStart c) s = .next t
          ∧ t.ctx c = { started with cueHeld := true }
          ∧ t.cueOf c = some
              { ctx := c, element := (s.ctx c).element, due := due, point := d.discharge
                activeHigh := d.activeHigh, width := d.pulse, carrier := k, lead := lead, retries := r
                aimed := false }
          ∧ (∀ c', c' ≠ c.val → t.ctx c' = s.ctx c' ∧ t.cueOf c' = s.cueOf c')
          ∧ t.steadyPart = s.steadyPart ∧ t.table = s.table ∧ t.engine.carriers = s.engine.carriers
          ∧ t.monitor = s.monitor ∧ t.drives = s.drives ∧ t.links = s.links

/-! ### Cues (R113 to R122) -/

/-- The lead, the target, the first candidate and its admission: a candidate is admitted exactly where every
pacing point lies at least G·P away and no run of W·P values of U that contains it holds more than Q of it
and the pacing points; a refused one is tried a revolution later with one retry more (R113, R114, R116,
R117). -/
def Obligations.AimsAreComputedAndAdmitted : Prop :=
  (∀ v lat l : Nat, leadOf v lat l = min ((v * lat + 128000) / 256000) (l / 2))
    ∧ (∀ (g : Geometry) (coord k : Nat), 0 < g.length →
      (targetOf g coord k : Int) = ((coord + k * g.pitch.getD 0 + g.pitch.getD 0 / 2 : Nat) : Int) % g.length)
    ∧ (∀ (g : Geometry) (p target lead : Nat), 0 < g.length →
      g.effSetup ≤ aimDistance g p target lead ∧ aimDistance g p target lead < g.effSetup + g.length
        ∧ (g.length : Int) ∣ (p : Int) + aimDistance g p target lead - (target - lead))
    ∧ (∀ gap len q l : Nat, ∀ pts : List Int, ∀ (n r : Nat) (u : Int),
      let fits := (∀ x ∈ pts, gap ≤ (u - x).natAbs)
        ∧ ∀ a : Int, a ≤ u → u < a + len →
          ((u :: pts).filter fun x => decide (a ≤ x ∧ x < a + len)).length ≤ q
      (fits → admission gap len q l pts (n + 1) r u = some (u, r))
        ∧ (¬ fits → admission gap len q l pts (n + 1) r u = admission gap len q l pts n (r + 1) (u + l)))

/-- An increase of U prunes the pacing history and begins an examination of the cue list, which is under way, in the
model's bookkeeping (log entry 10), where the final aim or the fire of the first cue is due, and over at once where
neither is. The list is examined from its head and the examination ends at the first cue for which nothing is due
(R118): where no examination is under way, the head is another context's cue, or nothing is due of it, the final aim
and the fire of context c change nothing. In an examination: the final aim of the cue at the head, where no other
cue is due and it does not fall due itself: the move is the lead used less the new lead, held within floor(P/8)
either way; the due point rises by it and the lead used falls by it, and the flag is set, and the examination is
over; nothing else changes (R119). The fire of an aimed cue at the head that is due: with both eyes clear the pulse
is awaited on the discharge point, the cue leaves, the due point joins the history of eight and the trial enters
FIRING (R120, R122); with an eye blocked the trial fails with that eye's code (R121); the examination goes on where
something is due of the cue then first. -/
def Obligations.CuesAimAndFire : Prop :=
  (∀ s : State, s.tracker.backlash = 0 → s.tracker.travel < Config.max48 →
    (s.tracker.state = .tracking → s.tracker.missing + 1 < 2 * s.pitch) →
    ∃ t, exec .forwardCount s = .next t
      ∧ (t.sched.examining = true ↔ ∃ q ∈ t.sched.cues.head?, t.aimDue q = true ∨ t.fireDue q = true)
      ∧ ∀ u ∈ t.sched.history, (t.tracker.travel : Int) - u ≤ (t.sched.window * t.pitch : Nat))
    ∧ (∀ (c : Fin 16) (s : State),
      s.sched.examining = false
        ∨ (∀ q ∈ s.sched.cues.head?, q.ctx ≠ c.val ∨ (s.aimDue q = false ∧ s.fireDue q = false)) →
      exec (.cueFinalAim c) s = .next s ∧ exec (.cueFire c) s = .next s)
    ∧ ∀ (c : Fin 16) (q : Cue) (rest : List Cue) (d : ChuteDef) (s : State), s.engine.checkOwed = false →
    s.sched.examining = true → s.sched.cues = q :: rest → q.ctx = c.val → s.chuteDef q.element = some d →
    (let bound : Int := (s.pitch / 8 : Nat)
      let move := max (-bound) (min bound (q.lead - leadOf s.tracker.speed d.latency s.loopLen))
      q.aimed = false → q.due - s.pitch ≤ s.tracker.travel → (s.tracker.travel : Int) < q.due + move →
      (∀ x ∈ rest, x.ctx ≠ c.val ∧ s.aimDue x = false ∧ s.fireDue x = false) →
      ∃ t, exec (.cueFinalAim c) s = .next t
        ∧ t.cueOf c = some { q with due := q.due + move, lead := q.lead - move, aimed := true }
        ∧ (∀ c', c' ≠ c.val → t.cueOf c' = s.cueOf c')
        ∧ t = { s with sched := { s.sched with cues := t.sched.cues, examining := false } })
      ∧ (∀ (r : ChuteTrial) (x : Stimulus), q.aimed = true → q.due ≤ s.tracker.travel →
        s.eyeBlocked (some d.entryEye) = false → s.eyeBlocked d.fullEye = false →
        (s.ctx c).trial = .chute r → s.ring.state ≠ .lost → s.source q.point = .test c →
        s.stimulus q.point = some x →
        ∃ t, exec (.cueFire c) s = .next t
          ∧ t.cueOf c = none ∧ (∀ c', c' ≠ c.val → t.cueOf c' = s.cueOf c')
          ∧ t.sched.history = (s.sched.history ++ [q.due]).drop (s.sched.history.length - 7)
          ∧ (t.sched.examining = true ↔ ∃ x ∈ t.sched.cues.head?, t.aimDue x = true ∨ t.fireDue x = true)
          ∧ t.stimulus q.point = some { x with awaited := some (c, .pulse q.width) }
          ∧ t.ctx c =
            { s.ctx c with
              cueHeld := false, phase := .firing
              trial := .chute { r with stim := .awaited, leadUsed := some q.lead.toNat } }
          ∧ (∀ c', c' ≠ c.val → t.ctx c' = s.ctx c')
          ∧ t.steadyPart = s.steadyPart ∧ t.table = s.table ∧ t.engine.carriers = s.engine.carriers
          ∧ t.monitor = s.monitor ∧ t.drives = s.drives ∧ t.links = s.links)
      ∧ (q.aimed = true → q.due ≤ s.tracker.travel →
        s.eyeBlocked (some d.entryEye) = true ∨ s.eyeBlocked d.fullEye = true →
        exec (.cueFire c) s =
          .next (beginExam (settle (takeOutcome c
            (.fail (if s.eyeBlocked (some d.entryEye) then .entryBlocked else .chuteFull)) none
            (removeCue c s)))))

/-! ### Expectations (R127 to R143) -/

/-- The phase of an entry follows its position (R131). A list is taken in list order: of the entries of one list of
which something is due, an opening or a passed close, the first alone is examined by the events of its own, and
those of any other entry change nothing (R132, R141). Of that first entry: an entry whose open has been reached,
with nothing for its opening check to find, enters OPEN and nothing else changes; an ARRIVE whose point stands at
its level then fails PRESET, with the code ENTRY_BLOCKED for an ENTRY window, and a DEPART without successor whose
point has left its level is MET with deviation 0 (R133, R140). An entry in OPEN whose close has passed gets its
close verdict: MISSED for ARRIVE, STUCK or, on a chute, JAM for DEPART; a QUIET FULL window with no successor is met
and freed, and the trial that still awaits its CLEAR verdict records it (R136, R139, R140, R151). The report of a
MET gives a sensor trial its PASS, and a chute trial its PASS once CLEAR and FULL are both met (R139, R151, R160).
An edge of a point, brought by a good frame from the nodes, is judged by the used entry on the point by its stamp:
outside guard and close it changes nothing; in the guard an ARRIVE at its level fails EARLY, but for an edge that
falls together with the start of a sensor trial whose EDGE window's guard starts at that very U, which is not judged
(R164; to fall together is to have the T and the U of the start, DEDUCED, log entry 45); in the open region, an
entry not yet in OPEN first makes its opening check on the level before the edge, and then an ARRIVE at its level is
MET and a DEPART that leaves its level is MET, each with the stamp less the nominal point for deviation, and a QUIET
fails DISTURBED (R134, R135, R137, R140). An ARRIVE that is MET with the successor that the rules give their windows
becomes that successor at the matching instant, already open (R138). Each station that watches the point is then
told by one Point Change notice of the point, the new level, T and U (R187, R193; behind the notices of the verdict
by DESIGN CHOICE, log entry 44). -/
def Obligations.ExpectationsOpenAndClose : Prop :=
  (∀ (e : Entry) (pos : Int), e.guardAt ≤ e.openAt →
    (e.phaseAt pos = .waiting ↔ pos < e.guardAt)
      ∧ (e.phaseAt pos = .guard ↔ e.guardAt ≤ pos ∧ pos < e.openAt)
      ∧ (e.phaseAt pos = .opened ↔ e.openAt ≤ pos))
    ∧ (∀ (n : Fin 24) (s : State),
      let due (e : Entry) : Bool :=
        decide ((e.phase ≠ .opened ∧ e.openAt ≤ s.position e.base) ∨ e.closeAt < s.position e.base)
      (∀ x ∈ s.monitor.travelList.find? due, x.num ≠ n) → (∀ x ∈ s.monitor.timeList.find? due, x.num ≠ n) →
      exec (.expectationOpens n) s = .next s ∧ exec (.expectationClosePassed n) s = .next s)
    ∧ (∀ (n : Fin 24) (e : Entry) (s : State), s.engine.checkOwed = false →
      s.monitor.find n = some e → e.guardAt ≤ e.openAt → e.openAt ≤ s.position e.base →
      let due (x : Entry) : Bool :=
        decide ((x.phase ≠ .opened ∧ x.openAt ≤ s.position x.base) ∨ x.closeAt < s.position x.base)
      (∃ l ∈ [s.monitor.travelList, s.monitor.timeList], l.find? due = some e) → s.monitor.used.Nodup →
      let passed := s.mapMonitor fun m => m.setPhase n .opened
      (e.phase ≠ .opened → s.position e.base ≤ e.closeAt →
        (match e.kind with
          | .arrive => (s.input e.point).level ≠ e.level
          | .depart => (s.input e.point).level = e.level
          | .quiet => True) →
        exec (.expectationOpens n) s = .next passed)
        ∧ (e.phase ≠ .opened → e.kind = .arrive → (s.input e.point).level = e.level →
          exec (.expectationOpens n) s =
            .next (settle (takeOutcome e.ctx
              (.fail (if e.role = .entry then .entryBlocked else .preset)) none passed)))
        ∧ (e.phase ≠ .opened → e.kind = .depart → (s.input e.point).level ≠ e.level → e.template = none →
          exec (.expectationOpens n) s =
            .next (settle (reportMet e.ctx e.role 0 e.prior (passed.mapMonitor fun m => m.drop n))))
        ∧ (e.phase = .opened → e.closeAt < s.position e.base →
          (e.kind = .arrive →
            exec (.expectationClosePassed n) s = .next (settle (takeOutcome e.ctx (.fail .missed) none passed)))
            ∧ (e.kind = .depart →
              exec (.expectationClosePassed n) s =
                .next (settle (takeOutcome e.ctx
                  (.fail (if (s.ctx e.ctx).kind = .chute then .jam else .stuck)) none passed)))
            ∧ (∀ r, e.kind = .quiet → e.role = .full → e.template = none →
              (s.ctx e.ctx).trial = .chute r → r.clearMet = false →
              exec (.expectationClosePassed n) s =
                .next ((s.mapMonitor fun m => m.drop n).setCtx e.ctx
                  { s.ctx e.ctx with trial := .chute { r with fullMet := some true } }))))
    ∧ (∀ (c : Nat) (dev : Int) (prior : Option (Role × Int)) (s : State),
      (∀ role r, (s.ctx c).trial = .sensor r →
        reportMet c role dev prior s =
          takeOutcome c .pass (prior.map (·.2))
            (s.setCtx c
              { s.ctx c with
                trial := .sensor { r with dwell := some dev, edgeDev := prior.map (·.2) } }))
        ∧ ∀ r, (s.ctx c).trial = .chute r →
          let cleared := s.setCtx c
            { s.ctx c with
              trial := .chute { r with clearMet := true, dwell := some dev, entryDev := prior.map (·.2) } }
          let quiet := s.setCtx c { s.ctx c with trial := .chute { r with fullMet := some true } }
          reportMet c .clear dev prior s =
              (if r.fullMet = some false then cleared else takeOutcome c .pass (prior.map (·.2)) cleared)
            ∧ reportMet c .full dev prior s =
              if r.clearMet then takeOutcome c .pass r.entryDev quiet else quiet)
    ∧ ∀ (f : RingFrame) (pt : Nat) (level : Bool) (e : Entry) (s : State), s.engine.checkOwed = false →
      s.ring.state = .good → s.ring.errors ≤ 96 → s.ring.returnDeadline.isSome = true →
      s.ring.lastSeq = some f.seq.toNat → f.crc = f.properCrc → f.count.toNat = s.ring.slots →
      s.edges f = [(pt, level)] →
      ((s.monitor.travelList ++ s.monitor.timeList).filter fun x => decide (x.point = pt)) = [e] →
      s.monitor.find e.num = some e → e.guardAt ≤ e.openAt →
      let answer := exec (.nodeFrame f) s
      let stamped : State :=
        { s with
          ring :=
            { s.ring with
              ringOut := if s.ring.role = .relay then some f else s.ring.ringOut
              returnDeadline := none, errors := s.ring.errors - 1, goodRun := min 64 (s.ring.goodRun + 1)
              image := Table.set {} s.ring.image pt
                { level := level, time := s.time, travel := s.tracker.travel } } }
      let phased (ph : WinPhase) : State := stamped.mapMonitor fun m => m.setPhase e.num ph
      let told (t : State) : Host.Outcome State Fault Refusal := .next (s.toldOf pt level t)
      let fails (code : FailCode) (ph : WinPhase) : Host.Outcome State Fault Refusal :=
        told (settle (takeOutcome e.ctx (.fail code) none (phased ph)))
      let met (dev : Int) : Host.Outcome State Fault Refusal :=
        told (settle (reportMet e.ctx e.role dev e.prior
          ((phased .opened).mapMonitor fun m => m.drop e.num)))
      let pos := s.position e.base
      let together := ∃ r : SensorTrial, (s.ctx e.ctx).trial = .sensor r ∧ e.role = .edge ∧ r.start = s.time
        ∧ e.guardAt = s.tracker.travel ∧ e.nominal = (s.tracker.travel : Int) + r.distance
      (pos < e.guardAt ∨ e.closeAt < pos → answer = told (phased e.phase))
        ∧ (e.guardAt ≤ pos → pos < e.openAt → pos ≤ e.closeAt →
          (together → answer = told (phased e.phase))
            ∧ (¬ together → answer =
              if e.kind = .arrive ∧ level = e.level then fails .early e.phase else told (phased e.phase)))
        ∧ (e.openAt ≤ pos → pos ≤ e.closeAt →
          (e.kind = .arrive → level ≠ e.level →
            answer =
              if e.phase = .opened then told (phased .opened)
              else fails (if e.role = .entry then .entryBlocked else .preset) .opened)
            ∧ (e.kind = .arrive → level = e.level → e.template = none → answer = met (pos - e.nominal))
            ∧ (∀ w, e.kind = .arrive → level = e.level →
              e.template = some
                { kind := .depart, level := e.level, base := e.base, role := .clear, openOff := 0
                  closeOff := w } →
              answer =
                told (stamped.mapMonitor fun m => (m.drop e.num).join
                  { e with
                    kind := .depart, role := .clear, guardAt := pos, openAt := pos, closeAt := pos + w
                    nominal := pos, phase := .opened, template := none
                    prior := some (e.role, pos - e.nominal) }))
            ∧ (e.kind = .depart → e.template = none →
              answer =
                if level ≠ e.level then met (pos - e.nominal)
                else if e.phase = .opened then told (phased .opened) else met 0)
            ∧ (e.kind = .quiet → answer = fails .overflow .opened))

/-! ### The end of a proof and the lapse of a station (R74, R84, R85, R108) -/

/-- The second part of the closing sequence of a CLOSING context whose points have settled, where no context is
PAUSED: the summary is written and the proof count rises, at most to 65,535; every staged amendment of the claim set
replaces the present definition and is dropped, with the attached-to fields of a chute's former and new eyes brought
up to date, those eyes' own staged amendments applied as well; every member loses its holder and takes the state its
result gives, or UNPROVEN where its own staged amendment was applied, or where it is the chute and one of its eyes'
was; each companion's hold count falls by one; the points of the members and companions take the source and the
stimulus record of R42, and no other point does; each listed carrier is FREE; the context is FREE; and one Proof
Ended notice is queued to the owner's port, with the context, the element, the result and its cause, the summary as
written, the number of carriers freed and the carrier left SUSPECT by the last trial, as the model keeps it (DEDUCED,
log entry 27) (R63, R64, R66, R74, R108, R193). -/
def Obligations.SecondPartReleasesClaim : Prop :=
  ∀ (c : Fin 16) (r : ProofResult) (cause : EndCause) (s : State),
    (s.ctx c).state = .closing → (s.ctx c).settle = [] → (s.ctx c).ending = some (r, cause) →
    (∀ c' < 16, (s.ctx c').state ≠ .paused) → ((s.ctx c).claim.map (·.1)).Nodup →
    let x := s.ctx c
    let members := x.claim.map (·.1)
    let changed (j : Nat) : Prop := j ∈ members ∧ (s.elem j).staged ≠ none
    let old (j : Nat) : Definition := (s.elem j).definition
    let summary := be 1 (resultCode r) ++ be 1 (stationCode x.owner) ++ be 1 x.trials
      ++ be 1 (x.trials - x.fails) ++ be 1 x.fails ++ be 1 x.voids ++ encDev (x.worst.getD 0) ++ enc48 s.time
    let ended := be 1 c.val ++ be 2 x.element ++ be 1 (resultCode r) ++ be 1 (endCauseCode cause) ++ summary
      ++ be 1 x.articles.length ++ encIndex x.lastSuspect
    ∃ t, exec (.closingSecondPart c) s = .next t
      ∧ (t.ctx c).state = .free ∧ (∀ c', c' ≠ c.val → t.ctx c' = s.ctx c')
      ∧ (t.elem x.element).summary = some
          { result := r, station := some x.owner, trials := x.trials, passes := x.trials - x.fails
            fails := x.fails, voids := x.voids, worst := x.worst.getD 0, endTime := s.time }
      ∧ (t.elem x.element).proofCount = min 65535 ((s.elem x.element).proofCount + 1)
      ∧ (∀ j, (t.elem j).staged = if j ∈ members then none else (s.elem j).staged)
      ∧ (∀ m ∈ x.claim, (t.elem m.1).holder = .none
        ∧ (let amended := changed m.1 ∨ (m.1 = x.element ∧ x.kind = .chute ∧ ∃ j, changed j)
          (amended → (t.elem m.1).state = .unproven)
            ∧ (¬ amended → (t.elem m.1).state =
              (match r with
                | .passed => .proven
                | .failed => if m.1 = x.element then .failed else m.2
                | _ => m.2))))
      ∧ ((∀ j d, changed j → (s.elem j).staged = some d → d.eyes = [] ∧ (old j).eyes = []) →
        ∀ j, (t.elem j).definition =
          match (s.elem j).staged with
          | some d => if j ∈ members then keepAttached (old j) d else old j
          | none => old j)
      ∧ (∀ d, changed x.element → (s.elem x.element).staged = some d →
        (∀ j, changed j → j = x.element)
          ∨ (members.head? = some x.element ∧ ∀ j e, changed j → j ≠ x.element → (s.elem j).staged = some e →
            e.eyes = [] ∧ (old j).eyes = []) →
        ∀ j,
          let held : Definition :=
            if j = x.element then old j
            else if j ∈ d.eyes then ((s.elem j).attach (some x.element)).definition
            else if j ∈ (old x.element).eyes then ((s.elem j).attach none).definition
            else old j
          (t.elem j).definition =
            match (s.elem j).staged with
            | some e => if j ∈ members then keepAttached held e else held
            | none => held)
      ∧ (∀ j, (t.elem j).holdCount = (s.elem j).holdCount - x.companions.count j)
      ∧ ((∀ m ∈ x.claim, m.2 ≠ .testing) →
        pointsDerived ((members ++ x.companions).flatMap fun j =>
          (old j).outputs ++ (t.elem j).definition.outputs) s t)
      ∧ (∀ k, t.carrier k = if k ∈ x.articles then .free else s.carrier k)
      ∧ t.links = (pushNotice (stationPort x.owner) 0x60 ended s).links
      ∧ t.steadyPart = s.steadyPart ∧ t.sched = s.sched ∧ t.monitor = s.monitor ∧ t.drives = s.drives

/-- The lapse deadline of a Station Port: before it, with the interval 0, or judged already, nothing changes;
reached by a station that owns no context, it is judged with no effect; reached by one that owns a context, the
station lapses, and the steady part of no block but its own port's changes (R84). Where nothing can start, each
of its contexts in PAUSED or RUNNING has then ended: it is FREE, or CLOSING with ABORTED by LAPSE; every other
context stands but for its pause reason; and each of the other two ports is told how many have ended (R85).
Where every proof of the station is CLOSING already, the notices carry a count of 0 (DESIGN CHOICE, log entry
26) and nothing else changes. -/
def Obligations.LapseDeadlineIsJudged : Prop :=
  ∀ (st : Station) (s : State),
    let judged := s.mapSta st fun x => { x with lapseJudged := true }
    let going (c : Nat) : Prop :=
      (s.ctx c).owner = st ∧ ((s.ctx c).state = .paused ∨ (s.ctx c).state = .running)
    (s.lapseDue st = true ↔
      (s.staLink st).lapse ≠ 0 ∧ (s.staLink st).lapseJudged = false
        ∧ (s.staLink st).lastFrame + (s.staLink st).lapse * 1000000 ≤ s.time)
      ∧ (s.lapseDue st = false → exec (.lapseDeadline st) s = .next s)
      ∧ (s.lapseDue st = true → (∀ c < 16, (s.ctx c).state = .free ∨ (s.ctx c).owner ≠ st) →
        exec (.lapseDeadline st) s = .next judged)
      ∧ (s.lapseDue st = true → (∃ c < 16, (s.ctx c).state ≠ .free ∧ (s.ctx c).owner = st) →
        (∃ t, exec (.lapseDeadline st) s = .next t ∧ t.steadyPart = judged.steadyPart)
          ∧ (s.halted →
            let ended := ((List.range 16).filter fun c => decide (going c)).length
            ∃ t, exec (.lapseDeadline st) s = .next t
              ∧ (∀ c < 16, going c → (t.ctx c).state = .free
                ∨ ((t.ctx c).state = .closing ∧ (t.ctx c).ending = some (.aborted, .lapse)))
              ∧ (∀ c < 16, ¬ going c → t.ctx c = { s.ctx c with reason := (t.ctx c).reason })
              ∧ ∀ q, q ≠ stationPort st →
                t.link q = (pushNotice q 0x65 (lapsedNotice st ended s.time) s).link q)
          ∧ ((∀ c < 16, (s.ctx c).owner = st → (s.ctx c).state = .free ∨ (s.ctx c).state = .closing) →
            exec (.lapseDeadline st) s =
              .next (([Port.sta, .stb, .line].filter fun p => decide (p ≠ stationPort st)).foldl
                (fun t p => pushNotice p 0x65 (lapsedNotice st 0 s.time) t) judged)))

/-! ### Drive Monitor and drive trials (R168 to R177) -/

/-- A rising edge of a tach channel sets its last edge T; with the edge-seen flag clear it sets the flag and
measures nothing; otherwise the period is the time since the last edge, at most 16,777,215 µs, and is a
capture. A capture that no running drive trial owns changes nothing else; in PRECHECK and STOP it sets the
quiet start; in HOLD within the band it is counted, moves the motion deadline and may be the farthest, and
outside the band it fails the trial (R168, R174, R176, R177). -/
def Obligations.TachEdgesAreCaptured : Prop :=
  ∀ (ch : Fin 16) (s : State),
    let x := s.tachChan ch
    let period := min 16777215 (s.time - x.lastEdge)
    let took (y : Tach) : State := { s with drives := { s.drives with tach := Table.set {} s.drives.tach ch y } }
    let captured := took { seen := true, lastEdge := s.time, period := period }
    let owner := s.trialOfChannel fun d => decide (d.tach = ch)
    (x.seen = false →
      exec (.tachEdge ch) s = .next (took { seen := true, lastEdge := s.time, period := x.period }))
      ∧ (x.seen = true → owner = none → exec (.tachEdge ch) s = .next captured)
      ∧ ∀ (c : Nat) (r : DriveTrial) (d : DriveDef), x.seen = true → owner = some c →
        (s.ctx c).trial = .drive r → s.driveDef (s.ctx c).element = some d →
        ((s.ctx c).phase = .precheck ∨ (s.ctx c).phase = .stop →
          exec (.tachEdge ch) s =
            .next (captured.setCtx c { s.ctx c with trial := .drive { r with quietStart := some s.time } }))
          ∧ ((s.ctx c).phase = .ramp → exec (.tachEdge ch) s = .next captured)
          ∧ ((s.ctx c).phase = .hold →
            let centre : Int := ((d.bandMin + d.bandMax) / 2 : Nat)
            (d.bandMin ≤ period → period ≤ d.bandMax →
              exec (.tachEdge ch) s =
                .next (captured.setCtx c
                  { s.ctx c with
                    trial := .drive
                      { r with
                        captures := min 65535 (r.captures + 1)
                        motionDeadline := some (s.time + 2 * d.bandMax)
                        farthest :=
                          if ∀ f ∈ r.farthest, ((f : Int) - centre).natAbs < ((period : Int) - centre).natAbs
                          then some period else r.farthest } }))
              ∧ (period < d.bandMin ∨ d.bandMax < period →
                exec (.tachEdge ch) s =
                  .next (settle (takeOutcome c
                    (.fail (if period < d.bandMin then .overspeed else .underspeed))
                    (some ((period : Int) - centre)) captured))))

/-- A scan is made at a whole millisecond, and not before. With an empty request set it changes only the time
of the next one. For the one channel of a request set that a running trial owns, the sample and its T are
written. In RAMP, HOLD and STOP, y moves by (x × 256 − y) ÷ 2^f truncated toward zero; in RAMP and HOLD the peak
rises to y and a y of at least the limit × 256 fails the trial with OVERCURRENT, and in STOP nothing is judged
(R169, R175 to R177). In PRECHECK the first sample is the assisted one, which fails the trial with WIRING from
3,072 on, and the second the plain one, which fails it with LOADED from an eighth of the limit on; below that
RAMP begins where the quiet span is complete too; a later sample changes nothing else (R174). -/
def Obligations.ScansAreFiltered : Prop :=
  ∀ (samples : List (BitVec 12)) (s : State),
    (s.time < s.drives.scanNext → exec (.currentScan samples) s = .next s)
      ∧ (s.drives.scanNext ≤ s.time → s.drives.scanSet = [] →
        exec (.currentScan samples) s =
          .next { s with drives := { s.drives with scanNext := s.drives.scanNext + 1000 } })
      ∧ ∀ (ch c : Nat) (r : DriveTrial) (d : DriveDef), s.drives.scanNext ≤ s.time →
        s.drives.scanSet = [ch] →
        s.trialOfChannel (fun d => decide (d.current = some ch)) = some c →
        (s.ctx c).trial = .drive r → s.driveDef (s.ctx c).element = some d →
        let x : Nat := (samples.getD ch 0).toNat
        let scanned : State := { s with drives := { s.drives with scanNext := s.drives.scanNext + 1000 } }
        let taken (step : Assist) : Current :=
          { s.currentChan ch with sample := x, sampleTime := s.time, step := step }
        let recorded (step : Assist) (r' : DriveTrial) : State :=
          (scanned.setCurrent ch (taken step)).setCtx c { s.ctx c with trial := .drive r' }
        ((s.ctx c).phase = .ramp ∨ (s.ctx c).phase = .hold ∨ (s.ctx c).phase = .stop →
          (s.currentChan ch).step = .none →
          ∃ y : Nat,
            (y : Int) = ((s.currentChan ch).y : Int)
              + Int.tdiv (((x * 256 : Nat) : Int) - ((s.currentChan ch).y : Int)) (2 ^ d.filter)
            ∧ (let filtered := (scanned.setCurrent ch (taken .none)).setCurrent ch { taken .none with y := y }
              let judged := filtered.setCtx c { s.ctx c with trial := .drive { r with peak := max r.peak y } }
              exec (.currentScan samples) s =
                .next (if (s.ctx c).phase = .stop then filtered
                  else if d.limit * 256 ≤ y then settle (takeOutcome c (.fail .overcurrent) none judged)
                  else judged)))
          ∧ ((s.ctx c).phase = .precheck →
            ((s.currentChan ch).step = .assist →
              let assisted := recorded .plain { r with assisted := some x }
              exec (.currentScan samples) s =
                .next (if 3072 ≤ x then settle (takeOutcome c (.fail .wiring) none assisted) else assisted))
              ∧ (∀ q : Fin 16, q.val = c → (s.currentChan ch).step = .plain →
                let plain := recorded .none { r with plain := some x }
                exec (.currentScan samples) s =
                  if d.limit / 8 ≤ x then .next (settle (takeOutcome c (.fail .loaded) none plain))
                  else exec (.quietSpanComplete q) plain)
              ∧ ((s.currentChan ch).step = .none →
                exec (.currentScan samples) s = .next (scanned.setCurrent ch (taken .none))))

/-- The phases of a running drive trial end as the rules give: PRECHECK in RAMP, with ACTIVE asked of the
drive point, once quiet and checks are complete, or in NO_STOP at its deadline with quiet incomplete; RAMP in
HOLD at its deadline; HOLD in NO_MOTION at the motion deadline, or at its own deadline with no capture, and
otherwise in STOP, with INACTIVE asked of the drive point; STOP, once INACTIVE has departed, in a PASS with
the farthest period less the band centre when quiet is reached in time, and in NO_STOP at its deadline
otherwise (R174 to R177). On entering STOP the phase deadline is absent until INACTIVE departs (DEDUCED, log
entry 14). Where T has reached both deadlines of HOLD, the row taken decides, the spec giving no order (DESIGN
CHOICE, log entry 7). -/
def Obligations.DrivePhasesEnd : Prop :=
  ∀ (c : Fin 16) (r : DriveTrial) (d : DriveDef) (s : State), s.calm →
    (s.ctx c).state = .running → (s.ctx c).trial = .drive r → s.driveDef (s.ctx c).element = some d →
    let pt := d.point (s.ctx c).reverse
    let centre : Int := ((d.bandMin + d.bandMax) / 2 : Nat)
    let past (x : Option Nat) := ∃ t, x = some t ∧ t ≤ s.time
    let quiet := ∃ q, r.quietStart = some q ∧ q + 2 * d.bandMax ≤ s.time
    let ends (o : TrialOutcome) (dev : Option Int) : Host.Outcome State Fault Refusal :=
      .next (settle (takeOutcome c o dev s))
    ((s.ctx c).phase = .precheck →
      ((quiet → d.current = none ∨ r.plain.isSome = true →
        ∀ x, s.ring.state ≠ .lost → s.source pt = .test c → s.stimulus pt = some x →
          exec (.quietSpanComplete c) s =
            .next ((s.setStimulus pt (some { x with awaited := some (c, .level .active) })).setCtx c
              { s.ctx c with
                phase := .ramp, trial := .drive { r with stim := .awaited, phaseDeadline := none } }))
        ∧ (¬ quiet → exec (.quietSpanComplete c) s = .next s)
        ∧ (past r.phaseDeadline → (∃ q, r.quietStart = some q ∧ s.time < q + 2 * d.bandMax) →
          exec (.precheckDeadline c) s = ends (.fail .noStop) none)))
      ∧ ((s.ctx c).phase = .ramp → past r.phaseDeadline →
        exec (.rampDeadline c) s =
          .next (s.setCtx c
            { s.ctx c with
              phase := .hold
              trial := .drive
                { r with
                  phaseStart := s.time, phaseDeadline := some (s.time + d.hold * 1000)
                  motionDeadline := some (s.time + 2 * d.bandMax) } }))
      ∧ ((s.ctx c).phase = .hold →
        (past r.motionDeadline → exec (.motionDeadline c) s = ends (.fail .noMotion) none)
          ∧ (past r.phaseDeadline → r.captures = 0 →
            exec (.holdDeadline c) s = ends (.fail .noMotion) none)
          ∧ (past r.phaseDeadline → 0 < r.captures →
            ∀ x, s.ring.state ≠ .lost → s.source pt = .test c → s.stimulus pt = some x →
              exec (.holdDeadline c) s =
                .next ((s.setStimulus pt (some { x with awaited := some (c, .level .inactive) })).setCtx c
                  { s.ctx c with
                    phase := .stop
                    trial := .drive
                      { r with stim := .awaited, phaseDeadline := none, motionDeadline := none } })))
      ∧ ((s.ctx c).phase = .stop → r.stim = .departed →
        (∀ e, quiet → r.phaseDeadline = some e → s.time ≤ e →
          exec (.stopQuietReached c) s = ends .pass (r.farthest.map fun f => (f : Int) - centre))
          ∧ (past r.phaseDeadline → (∃ q, r.quietStart = some q ∧ s.time < q + 2 * d.bandMax) →
            exec (.stopDeadline c) s = ends (.fail .noStop) none))
end

