-- ==== Sys2Proof/Laws/Tables.lean ====
section
/-! SUPPORT. Laws of the sparse tables: what an entry reads after a write, and that every operation
keeps the canonical form. -/

namespace Sys2Proof.Machine

variable {α : Type}

/-- A listed entry reads as listed. -/
theorem Table.get_put_self (d : α) (t : Table α) (i : Nat) (v : α) :
    Table.get d (Table.put t i v) i = v := by
  induction t with
  | nil => simp [Table.put, Table.get]
  | cons e t ih =>
    obtain ⟨k, w⟩ := e
    simp only [Table.put]
    split
    · simp [Table.get]
    · split
      · rename_i h; simp [Table.get, h]
      · rename_i h; simp [Table.get, h, ih]

/-- Listing one entry leaves every other as it was. -/
theorem Table.get_put_ne (d : α) (t : Table α) {i j : Nat} (v : α) (h : j ≠ i) :
    Table.get d (Table.put t i v) j = Table.get d t j := by
  induction t with
  | nil => simp [Table.put, Table.get, h]
  | cons e t ih =>
    obtain ⟨k, w⟩ := e
    simp only [Table.put]
    split
    · simp [Table.get, h]
    · split
      · rename_i h2; subst h2; simp [Table.get, h]
      · simp [Table.get, ih]

/-- An entry taken off the list reads as the reset entry. -/
theorem Table.get_unlist_self (d : α) (t : Table α) (i : Nat) :
    Table.get d (Table.unlist t i) i = d := by
  induction t with
  | nil => rfl
  | cons e t ih =>
    obtain ⟨k, w⟩ := e
    by_cases h : k = i
    · simpa [Table.unlist, h] using ih
    · simpa [Table.unlist, h, Table.get, Ne.symm h] using ih

/-- Unlisting one entry leaves every other as it was. -/
theorem Table.get_unlist_ne (d : α) (t : Table α) {i j : Nat} (h : j ≠ i) :
    Table.get d (Table.unlist t i) j = Table.get d t j := by
  induction t with
  | nil => rfl
  | cons e t ih =>
    obtain ⟨k, w⟩ := e
    by_cases hk : k = i
    · subst hk; simpa [Table.unlist, Table.get, h] using ih
    · by_cases hj : j = k
      · subst hj; simp [Table.unlist, hk, Table.get]
      · simpa [Table.unlist, hk, Table.get, hj] using ih

/-- Every number of a listed table after a listing is the new one or an old one. -/
theorem Table.mem_put {t : Table α} {i : Nat} {v : α} {e : Nat × α} (h : e ∈ Table.put t i v) :
    e = (i, v) ∨ e ∈ t := by
  induction t with
  | nil => simpa [Table.put] using h
  | cons x t ih =>
    obtain ⟨k, w⟩ := x
    simp only [Table.put] at h
    split at h
    · simpa using h
    · split at h
      · rename_i _ hk
        rcases List.mem_cons.1 h with h | h
        · left; rw [h, hk]
        · right; exact List.mem_cons_of_mem _ h
      · rcases List.mem_cons.1 h with h | h
        · right; rw [h]; exact List.mem_cons_self
        · rcases ih h with h | h
          · exact Or.inl h
          · exact Or.inr (List.mem_cons_of_mem _ h)

variable [DecidableEq α]

/-- A written entry reads as written. -/
@[simp] theorem Table.get_set_self (d : α) (t : Table α) (i : Nat) (v : α) :
    Table.get d (Table.set d t i v) i = v := by
  unfold Table.set
  split
  · rename_i h; rw [Table.get_unlist_self, h]
  · exact Table.get_put_self d t i v

/-- A write leaves every other entry as it was. -/
theorem Table.get_set_ne (d : α) (t : Table α) {i j : Nat} (v : α) (h : j ≠ i) :
    Table.get d (Table.set d t i v) j = Table.get d t j := by
  unfold Table.set
  split
  · exact Table.get_unlist_ne d t h
  · exact Table.get_put_ne d t v h

/-- What any entry reads after a write. -/
theorem Table.get_set (d : α) (t : Table α) (i j : Nat) (v : α) :
    Table.get d (Table.set d t i v) j = if j = i then v else Table.get d t j := by
  split
  · rename_i h; subst h; exact Table.get_set_self d t j v
  · rename_i h; exact Table.get_set_ne d t v h

/-- The empty table is canonical. -/
@[simp] theorem Table.wf_nil (d : α) : Table.wf d ([] : Table α) = true := rfl

/-- Listing keeps the canonical form, for a value other than the reset entry. -/
theorem Table.wf_put {d : α} {t : Table α} (i : Nat) {v : α} (hv : v ≠ d) (h : Table.wf d t = true) :
    Table.wf d (Table.put t i v) = true := by
  induction t with
  | nil => simp [Table.put, Table.wf, hv]
  | cons e t ih =>
    obtain ⟨k, w⟩ := e
    simp only [Table.wf, Bool.and_eq_true, decide_eq_true_eq, List.all_eq_true] at h
    obtain ⟨⟨hw, hall⟩, ht⟩ := h
    simp only [Table.put]
    split
    · rename_i hik
      simp only [Table.wf, Bool.and_eq_true, decide_eq_true_eq, List.all_eq_true]
      refine ⟨⟨hv, ?_⟩, ⟨hw, hall⟩, ht⟩
      intro x hx
      rcases List.mem_cons.1 hx with hx | hx
      · subst hx; exact hik
      · exact lt_trans hik (hall x hx)
    · split
      · simp only [Table.wf, Bool.and_eq_true, decide_eq_true_eq, List.all_eq_true]
        exact ⟨⟨hv, hall⟩, ht⟩
      · simp only [Table.wf, Bool.and_eq_true, decide_eq_true_eq, List.all_eq_true]
        refine ⟨⟨hw, ?_⟩, ih ht⟩
        intro x hx
        rcases Table.mem_put hx with hx | hx
        · subst hx
          show k < i
          omega
        · exact hall x hx

/-- Unlisting keeps the canonical form. -/
theorem Table.wf_unlist {d : α} {t : Table α} (i : Nat) (h : Table.wf d t = true) :
    Table.wf d (Table.unlist t i) = true := by
  induction t with
  | nil => rfl
  | cons e t ih =>
    obtain ⟨k, w⟩ := e
    simp only [Table.wf, Bool.and_eq_true, decide_eq_true_eq, List.all_eq_true] at h
    obtain ⟨⟨hw, hall⟩, ht⟩ := h
    have ih := ih ht
    by_cases hk : k = i
    · simpa [Table.unlist, hk] using ih
    · have hu : Table.unlist ((k, w) :: t) i = (k, w) :: Table.unlist t i := by
        simp [Table.unlist, hk]
      rw [hu]
      simp only [Table.wf, Bool.and_eq_true, decide_eq_true_eq, List.all_eq_true]
      refine ⟨⟨hw, fun x hx => hall x ?_⟩, ih⟩
      exact (List.mem_filter.1 hx).1

/-- Every write keeps the canonical form. -/
theorem Table.wf_set {d : α} {t : Table α} (i : Nat) (v : α) (h : Table.wf d t = true) :
    Table.wf d (Table.set d t i v) = true := by
  unfold Table.set
  split
  · exact Table.wf_unlist i h
  · rename_i hv; exact Table.wf_put i hv h

end Sys2Proof.Machine
end

