-- ==== Sys2Proof/Laws/State.lean ====
section
/-! SUPPORT. One lemma per field per update of State, true by `rfl`, and what the numbered families
read after a write. -/

namespace Sys2Proof.Machine

open Sys2Proof

variable (s : State)

@[simp] theorem mapTracker_time (f : Tracker → Tracker) : (s.mapTracker f).time = s.time := rfl
@[simp] theorem mapTracker_tracker (f : Tracker → Tracker) : (s.mapTracker f).tracker = f s.tracker := rfl
@[simp] theorem mapTracker_ring (f : Tracker → Tracker) : (s.mapTracker f).ring = s.ring := rfl
@[simp] theorem mapTracker_table (f : Tracker → Tracker) : (s.mapTracker f).table = s.table := rfl
@[simp] theorem mapTracker_engine (f : Tracker → Tracker) : (s.mapTracker f).engine = s.engine := rfl
@[simp] theorem mapTracker_sched (f : Tracker → Tracker) : (s.mapTracker f).sched = s.sched := rfl
@[simp] theorem mapTracker_monitor (f : Tracker → Tracker) : (s.mapTracker f).monitor = s.monitor := rfl
@[simp] theorem mapTracker_drives (f : Tracker → Tracker) : (s.mapTracker f).drives = s.drives := rfl
@[simp] theorem mapTracker_links (f : Tracker → Tracker) : (s.mapTracker f).links = s.links := rfl
@[simp] theorem mapTracker_freeSeq (f : Tracker → Tracker) : (s.mapTracker f).freeSeq = s.freeSeq := rfl
@[simp] theorem mapTracker_pending (f : Tracker → Tracker) : (s.mapTracker f).pending = s.pending := rfl

@[simp] theorem mapRing_time (f : Ring → Ring) : (s.mapRing f).time = s.time := rfl
@[simp] theorem mapRing_tracker (f : Ring → Ring) : (s.mapRing f).tracker = s.tracker := rfl
@[simp] theorem mapRing_ring (f : Ring → Ring) : (s.mapRing f).ring = f s.ring := rfl
@[simp] theorem mapRing_table (f : Ring → Ring) : (s.mapRing f).table = s.table := rfl
@[simp] theorem mapRing_engine (f : Ring → Ring) : (s.mapRing f).engine = s.engine := rfl
@[simp] theorem mapRing_sched (f : Ring → Ring) : (s.mapRing f).sched = s.sched := rfl
@[simp] theorem mapRing_monitor (f : Ring → Ring) : (s.mapRing f).monitor = s.monitor := rfl
@[simp] theorem mapRing_drives (f : Ring → Ring) : (s.mapRing f).drives = s.drives := rfl
@[simp] theorem mapRing_links (f : Ring → Ring) : (s.mapRing f).links = s.links := rfl
@[simp] theorem mapRing_freeSeq (f : Ring → Ring) : (s.mapRing f).freeSeq = s.freeSeq := rfl
@[simp] theorem mapRing_pending (f : Ring → Ring) : (s.mapRing f).pending = s.pending := rfl

@[simp] theorem mapTable_time (f : ElementTable → ElementTable) : (s.mapTable f).time = s.time := rfl
@[simp] theorem mapTable_tracker (f : ElementTable → ElementTable) : (s.mapTable f).tracker = s.tracker := rfl
@[simp] theorem mapTable_ring (f : ElementTable → ElementTable) : (s.mapTable f).ring = s.ring := rfl
@[simp] theorem mapTable_table (f : ElementTable → ElementTable) : (s.mapTable f).table = f s.table := rfl
@[simp] theorem mapTable_engine (f : ElementTable → ElementTable) : (s.mapTable f).engine = s.engine := rfl
@[simp] theorem mapTable_sched (f : ElementTable → ElementTable) : (s.mapTable f).sched = s.sched := rfl
@[simp] theorem mapTable_monitor (f : ElementTable → ElementTable) : (s.mapTable f).monitor = s.monitor := rfl
@[simp] theorem mapTable_drives (f : ElementTable → ElementTable) : (s.mapTable f).drives = s.drives := rfl
@[simp] theorem mapTable_links (f : ElementTable → ElementTable) : (s.mapTable f).links = s.links := rfl
@[simp] theorem mapTable_freeSeq (f : ElementTable → ElementTable) : (s.mapTable f).freeSeq = s.freeSeq := rfl
@[simp] theorem mapTable_pending (f : ElementTable → ElementTable) : (s.mapTable f).pending = s.pending := rfl

@[simp] theorem mapEngine_time (f : Engine → Engine) : (s.mapEngine f).time = s.time := rfl
@[simp] theorem mapEngine_tracker (f : Engine → Engine) : (s.mapEngine f).tracker = s.tracker := rfl
@[simp] theorem mapEngine_ring (f : Engine → Engine) : (s.mapEngine f).ring = s.ring := rfl
@[simp] theorem mapEngine_table (f : Engine → Engine) : (s.mapEngine f).table = s.table := rfl
@[simp] theorem mapEngine_engine (f : Engine → Engine) : (s.mapEngine f).engine = f s.engine := rfl
@[simp] theorem mapEngine_sched (f : Engine → Engine) : (s.mapEngine f).sched = s.sched := rfl
@[simp] theorem mapEngine_monitor (f : Engine → Engine) : (s.mapEngine f).monitor = s.monitor := rfl
@[simp] theorem mapEngine_drives (f : Engine → Engine) : (s.mapEngine f).drives = s.drives := rfl
@[simp] theorem mapEngine_links (f : Engine → Engine) : (s.mapEngine f).links = s.links := rfl
@[simp] theorem mapEngine_freeSeq (f : Engine → Engine) : (s.mapEngine f).freeSeq = s.freeSeq := rfl
@[simp] theorem mapEngine_pending (f : Engine → Engine) : (s.mapEngine f).pending = s.pending := rfl

@[simp] theorem mapSched_time (f : Scheduler → Scheduler) : (s.mapSched f).time = s.time := rfl
@[simp] theorem mapSched_tracker (f : Scheduler → Scheduler) : (s.mapSched f).tracker = s.tracker := rfl
@[simp] theorem mapSched_ring (f : Scheduler → Scheduler) : (s.mapSched f).ring = s.ring := rfl
@[simp] theorem mapSched_table (f : Scheduler → Scheduler) : (s.mapSched f).table = s.table := rfl
@[simp] theorem mapSched_engine (f : Scheduler → Scheduler) : (s.mapSched f).engine = s.engine := rfl
@[simp] theorem mapSched_sched (f : Scheduler → Scheduler) : (s.mapSched f).sched = f s.sched := rfl
@[simp] theorem mapSched_monitor (f : Scheduler → Scheduler) : (s.mapSched f).monitor = s.monitor := rfl
@[simp] theorem mapSched_drives (f : Scheduler → Scheduler) : (s.mapSched f).drives = s.drives := rfl
@[simp] theorem mapSched_links (f : Scheduler → Scheduler) : (s.mapSched f).links = s.links := rfl
@[simp] theorem mapSched_freeSeq (f : Scheduler → Scheduler) : (s.mapSched f).freeSeq = s.freeSeq := rfl
@[simp] theorem mapSched_pending (f : Scheduler → Scheduler) : (s.mapSched f).pending = s.pending := rfl

@[simp] theorem mapMonitor_time (f : Monitor → Monitor) : (s.mapMonitor f).time = s.time := rfl
@[simp] theorem mapMonitor_tracker (f : Monitor → Monitor) : (s.mapMonitor f).tracker = s.tracker := rfl
@[simp] theorem mapMonitor_ring (f : Monitor → Monitor) : (s.mapMonitor f).ring = s.ring := rfl
@[simp] theorem mapMonitor_table (f : Monitor → Monitor) : (s.mapMonitor f).table = s.table := rfl
@[simp] theorem mapMonitor_engine (f : Monitor → Monitor) : (s.mapMonitor f).engine = s.engine := rfl
@[simp] theorem mapMonitor_sched (f : Monitor → Monitor) : (s.mapMonitor f).sched = s.sched := rfl
@[simp] theorem mapMonitor_monitor (f : Monitor → Monitor) : (s.mapMonitor f).monitor = f s.monitor := rfl
@[simp] theorem mapMonitor_drives (f : Monitor → Monitor) : (s.mapMonitor f).drives = s.drives := rfl
@[simp] theorem mapMonitor_links (f : Monitor → Monitor) : (s.mapMonitor f).links = s.links := rfl
@[simp] theorem mapMonitor_freeSeq (f : Monitor → Monitor) : (s.mapMonitor f).freeSeq = s.freeSeq := rfl
@[simp] theorem mapMonitor_pending (f : Monitor → Monitor) : (s.mapMonitor f).pending = s.pending := rfl

@[simp] theorem mapDrives_time (f : Drives → Drives) : (s.mapDrives f).time = s.time := rfl
@[simp] theorem mapDrives_tracker (f : Drives → Drives) : (s.mapDrives f).tracker = s.tracker := rfl
@[simp] theorem mapDrives_ring (f : Drives → Drives) : (s.mapDrives f).ring = s.ring := rfl
@[simp] theorem mapDrives_table (f : Drives → Drives) : (s.mapDrives f).table = s.table := rfl
@[simp] theorem mapDrives_engine (f : Drives → Drives) : (s.mapDrives f).engine = s.engine := rfl
@[simp] theorem mapDrives_sched (f : Drives → Drives) : (s.mapDrives f).sched = s.sched := rfl
@[simp] theorem mapDrives_monitor (f : Drives → Drives) : (s.mapDrives f).monitor = s.monitor := rfl
@[simp] theorem mapDrives_drives (f : Drives → Drives) : (s.mapDrives f).drives = f s.drives := rfl
@[simp] theorem mapDrives_links (f : Drives → Drives) : (s.mapDrives f).links = s.links := rfl
@[simp] theorem mapDrives_freeSeq (f : Drives → Drives) : (s.mapDrives f).freeSeq = s.freeSeq := rfl
@[simp] theorem mapDrives_pending (f : Drives → Drives) : (s.mapDrives f).pending = s.pending := rfl

@[simp] theorem mapLinks_time (f : Links → Links) : (s.mapLinks f).time = s.time := rfl
@[simp] theorem mapLinks_tracker (f : Links → Links) : (s.mapLinks f).tracker = s.tracker := rfl
@[simp] theorem mapLinks_ring (f : Links → Links) : (s.mapLinks f).ring = s.ring := rfl
@[simp] theorem mapLinks_table (f : Links → Links) : (s.mapLinks f).table = s.table := rfl
@[simp] theorem mapLinks_engine (f : Links → Links) : (s.mapLinks f).engine = s.engine := rfl
@[simp] theorem mapLinks_sched (f : Links → Links) : (s.mapLinks f).sched = s.sched := rfl
@[simp] theorem mapLinks_monitor (f : Links → Links) : (s.mapLinks f).monitor = s.monitor := rfl
@[simp] theorem mapLinks_drives (f : Links → Links) : (s.mapLinks f).drives = s.drives := rfl
@[simp] theorem mapLinks_links (f : Links → Links) : (s.mapLinks f).links = f s.links := rfl
@[simp] theorem mapLinks_freeSeq (f : Links → Links) : (s.mapLinks f).freeSeq = s.freeSeq := rfl
@[simp] theorem mapLinks_pending (f : Links → Links) : (s.mapLinks f).pending = s.pending := rfl

@[simp] theorem setElem_time (i : Nat) (e : Element) : (s.setElem i e).time = s.time := rfl
@[simp] theorem setElem_tracker (i : Nat) (e : Element) : (s.setElem i e).tracker = s.tracker := rfl
@[simp] theorem setElem_ring (i : Nat) (e : Element) : (s.setElem i e).ring = s.ring := rfl
@[simp] theorem setElem_engine (i : Nat) (e : Element) : (s.setElem i e).engine = s.engine := rfl
@[simp] theorem setElem_sched (i : Nat) (e : Element) : (s.setElem i e).sched = s.sched := rfl
@[simp] theorem setElem_monitor (i : Nat) (e : Element) : (s.setElem i e).monitor = s.monitor := rfl
@[simp] theorem setElem_drives (i : Nat) (e : Element) : (s.setElem i e).drives = s.drives := rfl
@[simp] theorem setElem_links (i : Nat) (e : Element) : (s.setElem i e).links = s.links := rfl
@[simp] theorem setElem_freeSeq (i : Nat) (e : Element) : (s.setElem i e).freeSeq = s.freeSeq := rfl
@[simp] theorem setElem_pending (i : Nat) (e : Element) : (s.setElem i e).pending = s.pending := rfl

@[simp] theorem setCtx_time (c : Nat) (x : Context) : (s.setCtx c x).time = s.time := rfl
@[simp] theorem setCtx_tracker (c : Nat) (x : Context) : (s.setCtx c x).tracker = s.tracker := rfl
@[simp] theorem setCtx_ring (c : Nat) (x : Context) : (s.setCtx c x).ring = s.ring := rfl
@[simp] theorem setCtx_table (c : Nat) (x : Context) : (s.setCtx c x).table = s.table := rfl
@[simp] theorem setCtx_sched (c : Nat) (x : Context) : (s.setCtx c x).sched = s.sched := rfl
@[simp] theorem setCtx_monitor (c : Nat) (x : Context) : (s.setCtx c x).monitor = s.monitor := rfl
@[simp] theorem setCtx_drives (c : Nat) (x : Context) : (s.setCtx c x).drives = s.drives := rfl
@[simp] theorem setCtx_links (c : Nat) (x : Context) : (s.setCtx c x).links = s.links := rfl
@[simp] theorem setCtx_freeSeq (c : Nat) (x : Context) : (s.setCtx c x).freeSeq = s.freeSeq := rfl
@[simp] theorem setCtx_pending (c : Nat) (x : Context) : (s.setCtx c x).pending = s.pending := rfl

@[simp] theorem setCarrier_time (k : Nat) (r : Reservation) : (s.setCarrier k r).time = s.time := rfl
@[simp] theorem setCarrier_tracker (k : Nat) (r : Reservation) : (s.setCarrier k r).tracker = s.tracker := rfl
@[simp] theorem setCarrier_ring (k : Nat) (r : Reservation) : (s.setCarrier k r).ring = s.ring := rfl
@[simp] theorem setCarrier_table (k : Nat) (r : Reservation) : (s.setCarrier k r).table = s.table := rfl
@[simp] theorem setCarrier_sched (k : Nat) (r : Reservation) : (s.setCarrier k r).sched = s.sched := rfl
@[simp] theorem setCarrier_monitor (k : Nat) (r : Reservation) : (s.setCarrier k r).monitor = s.monitor := rfl
@[simp] theorem setCarrier_drives (k : Nat) (r : Reservation) : (s.setCarrier k r).drives = s.drives := rfl
@[simp] theorem setCarrier_links (k : Nat) (r : Reservation) : (s.setCarrier k r).links = s.links := rfl
@[simp] theorem setCarrier_freeSeq (k : Nat) (r : Reservation) : (s.setCarrier k r).freeSeq = s.freeSeq := rfl
@[simp] theorem setCarrier_pending (k : Nat) (r : Reservation) : (s.setCarrier k r).pending = s.pending := rfl

@[simp] theorem setStimulus_time (pt : Nat) (r : Option Stimulus) : (s.setStimulus pt r).time = s.time := rfl
@[simp] theorem setStimulus_tracker (pt : Nat) (r : Option Stimulus) : (s.setStimulus pt r).tracker = s.tracker := rfl
@[simp] theorem setStimulus_table (pt : Nat) (r : Option Stimulus) : (s.setStimulus pt r).table = s.table := rfl
@[simp] theorem setStimulus_engine (pt : Nat) (r : Option Stimulus) : (s.setStimulus pt r).engine = s.engine := rfl
@[simp] theorem setStimulus_sched (pt : Nat) (r : Option Stimulus) : (s.setStimulus pt r).sched = s.sched := rfl
@[simp] theorem setStimulus_monitor (pt : Nat) (r : Option Stimulus) : (s.setStimulus pt r).monitor = s.monitor := rfl
@[simp] theorem setStimulus_drives (pt : Nat) (r : Option Stimulus) : (s.setStimulus pt r).drives = s.drives := rfl
@[simp] theorem setStimulus_links (pt : Nat) (r : Option Stimulus) : (s.setStimulus pt r).links = s.links := rfl
@[simp] theorem setStimulus_freeSeq (pt : Nat) (r : Option Stimulus) : (s.setStimulus pt r).freeSeq = s.freeSeq := rfl
@[simp] theorem setStimulus_pending (pt : Nat) (r : Option Stimulus) : (s.setStimulus pt r).pending = s.pending := rfl

@[simp] theorem setCurrent_time (ch : Nat) (x : Current) : (s.setCurrent ch x).time = s.time := rfl
@[simp] theorem setCurrent_tracker (ch : Nat) (x : Current) : (s.setCurrent ch x).tracker = s.tracker := rfl
@[simp] theorem setCurrent_ring (ch : Nat) (x : Current) : (s.setCurrent ch x).ring = s.ring := rfl
@[simp] theorem setCurrent_table (ch : Nat) (x : Current) : (s.setCurrent ch x).table = s.table := rfl
@[simp] theorem setCurrent_engine (ch : Nat) (x : Current) : (s.setCurrent ch x).engine = s.engine := rfl
@[simp] theorem setCurrent_sched (ch : Nat) (x : Current) : (s.setCurrent ch x).sched = s.sched := rfl
@[simp] theorem setCurrent_monitor (ch : Nat) (x : Current) : (s.setCurrent ch x).monitor = s.monitor := rfl
@[simp] theorem setCurrent_links (ch : Nat) (x : Current) : (s.setCurrent ch x).links = s.links := rfl
@[simp] theorem setCurrent_freeSeq (ch : Nat) (x : Current) : (s.setCurrent ch x).freeSeq = s.freeSeq := rfl
@[simp] theorem setCurrent_pending (ch : Nat) (x : Current) : (s.setCurrent ch x).pending = s.pending := rfl

@[simp] theorem mapLink_time (p : Port) (f : Link → Link) : (s.mapLink p f).time = s.time := rfl
@[simp] theorem mapLink_tracker (p : Port) (f : Link → Link) : (s.mapLink p f).tracker = s.tracker := rfl
@[simp] theorem mapLink_ring (p : Port) (f : Link → Link) : (s.mapLink p f).ring = s.ring := rfl
@[simp] theorem mapLink_table (p : Port) (f : Link → Link) : (s.mapLink p f).table = s.table := rfl
@[simp] theorem mapLink_engine (p : Port) (f : Link → Link) : (s.mapLink p f).engine = s.engine := rfl
@[simp] theorem mapLink_sched (p : Port) (f : Link → Link) : (s.mapLink p f).sched = s.sched := rfl
@[simp] theorem mapLink_monitor (p : Port) (f : Link → Link) : (s.mapLink p f).monitor = s.monitor := rfl
@[simp] theorem mapLink_drives (p : Port) (f : Link → Link) : (s.mapLink p f).drives = s.drives := rfl
@[simp] theorem mapLink_freeSeq (p : Port) (f : Link → Link) : (s.mapLink p f).freeSeq = s.freeSeq := rfl
@[simp] theorem mapLink_pending (p : Port) (f : Link → Link) : (s.mapLink p f).pending = s.pending := rfl

@[simp] theorem mapSta_time (st : Station) (f : StationLink → StationLink) : (s.mapSta st f).time = s.time := rfl
@[simp] theorem mapSta_tracker (st : Station) (f : StationLink → StationLink) : (s.mapSta st f).tracker = s.tracker := rfl
@[simp] theorem mapSta_ring (st : Station) (f : StationLink → StationLink) : (s.mapSta st f).ring = s.ring := rfl
@[simp] theorem mapSta_table (st : Station) (f : StationLink → StationLink) : (s.mapSta st f).table = s.table := rfl
@[simp] theorem mapSta_engine (st : Station) (f : StationLink → StationLink) : (s.mapSta st f).engine = s.engine := rfl
@[simp] theorem mapSta_sched (st : Station) (f : StationLink → StationLink) : (s.mapSta st f).sched = s.sched := rfl
@[simp] theorem mapSta_monitor (st : Station) (f : StationLink → StationLink) : (s.mapSta st f).monitor = s.monitor := rfl
@[simp] theorem mapSta_drives (st : Station) (f : StationLink → StationLink) : (s.mapSta st f).drives = s.drives := rfl
@[simp] theorem mapSta_freeSeq (st : Station) (f : StationLink → StationLink) : (s.mapSta st f).freeSeq = s.freeSeq := rfl
@[simp] theorem mapSta_pending (st : Station) (f : StationLink → StationLink) : (s.mapSta st f).pending = s.pending := rfl

/-! ### Numbered families -/

@[simp] theorem elem_setElem_self (i : Nat) (e : Element) : (s.setElem i e).elem i = e :=
  Table.get_set_self _ _ _ _

theorem elem_setElem_ne {i j : Nat} (e : Element) (h : j ≠ i) : (s.setElem i e).elem j = s.elem j :=
  Table.get_set_ne _ _ _ h

theorem elem_setElem (i j : Nat) (e : Element) :
    (s.setElem i e).elem j = if j = i then e else s.elem j := Table.get_set _ _ _ _ _

@[simp] theorem ctx_setCtx_self (c : Nat) (x : Context) : (s.setCtx c x).ctx c = x :=
  Table.get_set_self _ _ _ _

theorem ctx_setCtx_ne {c d : Nat} (x : Context) (h : d ≠ c) : (s.setCtx c x).ctx d = s.ctx d :=
  Table.get_set_ne _ _ _ h

theorem ctx_setCtx (c d : Nat) (x : Context) :
    (s.setCtx c x).ctx d = if d = c then x else s.ctx d := Table.get_set _ _ _ _ _

@[simp] theorem carrier_setCarrier_self (k : Nat) (r : Reservation) : (s.setCarrier k r).carrier k = r :=
  Table.get_set_self _ _ _ _

theorem carrier_setCarrier_ne {k j : Nat} (r : Reservation) (h : j ≠ k) :
    (s.setCarrier k r).carrier j = s.carrier j := Table.get_set_ne _ _ _ h

@[simp] theorem stimulus_setStimulus_self (pt : Nat) (r : Option Stimulus) :
    (s.setStimulus pt r).stimulus pt = r := Table.get_set_self _ _ _ _

theorem stimulus_setStimulus_ne {pt q : Nat} (r : Option Stimulus) (h : q ≠ pt) :
    (s.setStimulus pt r).stimulus q = s.stimulus q := Table.get_set_ne _ _ _ h

@[simp] theorem currentChan_setCurrent_self (ch : Nat) (x : Current) :
    (s.setCurrent ch x).currentChan ch = x := Table.get_set_self _ _ _ _

@[simp] theorem elem_setCtx (c : Nat) (x : Context) (i : Nat) : (s.setCtx c x).elem i = s.elem i := rfl
@[simp] theorem elem_setCarrier (k : Nat) (r : Reservation) (i : Nat) :
    (s.setCarrier k r).elem i = s.elem i := rfl
@[simp] theorem ctx_setElem (i : Nat) (e : Element) (c : Nat) : (s.setElem i e).ctx c = s.ctx c := rfl
@[simp] theorem ctx_setCarrier (k : Nat) (r : Reservation) (c : Nat) :
    (s.setCarrier k r).ctx c = s.ctx c := rfl
@[simp] theorem carrier_setCtx (c : Nat) (x : Context) (k : Nat) :
    (s.setCtx c x).carrier k = s.carrier k := rfl
@[simp] theorem carrier_setElem (i : Nat) (e : Element) (k : Nat) :
    (s.setElem i e).carrier k = s.carrier k := rfl

/-! ### Ports -/

@[simp] theorem link_mapLink_self (p : Port) (f : Link → Link) : (s.mapLink p f).link p = f (s.link p) := by
  cases p <;> rfl

theorem link_mapLink_ne {p q : Port} (f : Link → Link) (h : q ≠ p) : (s.mapLink p f).link q = s.link q := by
  cases p <;> cases q <;> first | rfl | exact absurd rfl h

@[simp] theorem staLink_mapLink (p : Port) (f : Link → Link) (st : Station) :
    (s.mapLink p f).staLink st = s.staLink st := by cases p <;> cases st <;> rfl

@[simp] theorem staLink_mapSta_self (st : Station) (f : StationLink → StationLink) :
    (s.mapSta st f).staLink st = f (s.staLink st) := by cases st <;> rfl

theorem staLink_mapSta_ne {st tt : Station} (f : StationLink → StationLink) (h : tt ≠ st) :
    (s.mapSta st f).staLink tt = s.staLink tt := by
  cases st <;> cases tt <;> first | rfl | exact absurd rfl h

@[simp] theorem link_mapSta (st : Station) (f : StationLink → StationLink) (p : Port) :
    (s.mapSta st f).link p = s.link p := by cases p <;> cases st <;> rfl

end Sys2Proof.Machine
end

