-- ==== Sys2Proof/Laws/Keeps.lean ====
section
/-! SUPPORT. What the shared operations can do, said once: a property of states that every elementary
change keeps is kept by every operation on stimuli, trials, cues, expectations, starts and checks.
With "this block is as it was" for the property, each lemma is a frame. -/

namespace Sys2Proof.Machine

open Sys2Proof

/-- What the inner operations do to the pool of expectation entries. -/
inductive MonitorMove : Monitor → Monitor → Prop
  | phase (m : Monitor) (n : Nat) (ph : WinPhase) : MonitorMove m (m.setPhase n ph)
  | drop (m : Monitor) (n : Nat) : MonitorMove m (m.drop n)
  | join (m : Monitor) (e : Entry) : MonitorMove m (m.join e)
  | endCtx (m : Monitor) (c : Nat) : MonitorMove m (m.endCtx c)

/-- What the operations do to the cue list: cues leave, one joins in its place by due point, one is aimed where it
stands, all are shifted. -/
inductive CuesMove (l : List Cue) : List Cue → Prop
  | leave (f : Cue → Bool) : CuesMove l (l.filter f)
  | join (q : Cue) : CuesMove l (insertByDue q l)
  | replace (f : Cue → Bool) (q : Cue) : CuesMove l (insertByDue q (l.filter f))
  | aimed (q new : Cue) (h : new.due = q.due) : CuesMove l (l.map fun x => if x = q then new else x)
  | shift (e : Int) : CuesMove l (l.map fun u => { u with due := u.due + e })

/-- A property that every elementary change of the inner operations keeps. The notices of these operations are
Proof Ended and Trial Outcome, to a station. -/
structure Closed (P : State → Prop) : Prop where
  elem : ∀ s i e, P s → P (s.setElem i e)
  ctx : ∀ s c x, P s → P (s.setCtx c x)
  carrier : ∀ s k r, P s → P (s.setCarrier k r)
  stim : ∀ s pt r, P s → P (s.setStimulus pt r)
  source : ∀ s pt v, P s → P (s.mapRing fun g => { g with sources := Table.set .pass g.sources pt v })
  cues : ∀ s l, CuesMove s.sched.cues l → P s → P (s.mapSched fun q => { q with cues := l })
  history : ∀ s l, (l.length ≤ 8 ∨ l.length ≤ s.sched.history.length) → P s →
    P (s.mapSched fun q => { q with history := l })
  examining : ∀ s b, P s → P (s.mapSched fun q => { q with examining := b })
  monitor : ∀ s m, MonitorMove s.monitor m → P s → P (s.mapMonitor fun _ => m)
  scan : ∀ s l, P s → P (s.mapDrives fun d => { d with scanSet := l })
  current : ∀ s ch x, P s → P (s.setCurrent ch x)
  notice : ∀ s st k b, k = 0x60 ∨ k = 0x61 → P s → P (pushNotice (stationPort st) k b s)
  owed : ∀ s b, P s → P (s.mapEngine fun e => { e with checkOwed := b })

/-- A fold keeps what each of its steps keeps. -/
theorem foldl_keeps {α : Type} {P : State → Prop} {f : State → α → State} (h : ∀ s a, P s → P (f s a))
    (l : List α) (s : State) (hs : P s) : P (l.foldl f s) := by
  induction l generalizing s with
  | nil => exact hs
  | cons a l ih => exact ih _ (h s a hs)

/-- A fold keeps what each of its steps keeps, for a fold that carries a second value. -/
theorem foldl_keeps_fst {α β : Type} {P : State → Prop} {f : State × β → α → State × β}
    (h : ∀ s a, P s.1 → P (f s a).1) (l : List α) (s : State × β) (hs : P s.1) : P (l.foldl f s).1 := by
  induction l generalizing s with
  | nil => exact hs
  | cons a l ih => exact ih _ (h s a hs)

/-- The last entries of a list with one more are at most `cap`. -/
theorem pushTail_length {α : Type} (cap : Nat) (l : List α) (x : α) : (pushTail cap l x).length ≤ cap := by
  simp only [pushTail, List.length_drop, List.length_append, List.length_singleton]
  omega

namespace Closed

variable {P : State → Prop} (h : Closed P)
include h

/-- The pool after any of its moves. -/
theorem pool (s : State) (f : Monitor → Monitor) (hm : MonitorMove s.monitor (f s.monitor)) (hs : P s) :
    P (s.mapMonitor f) := h.monitor s (f s.monitor) hm hs

/-! ### Stimuli -/

theorem derivePoint (s : State) (pt : Nat) (hs : P s) : P (derivePoint s pt) := by
  have h1 := h.source s pt (s.sourceOf pt) hs
  unfold Machine.derivePoint
  dsimp only
  split
  · split
    · exact h1
    · exact h.stim _ _ _ h1
  · exact h.stim _ _ _ h1

theorem deriveSources (pts : List Nat) (s : State) (hs : P s) : P (deriveSources pts s) :=
  foldl_keeps (fun s pt => h.derivePoint s pt) pts s hs

theorem requestStimulus (c pt : Nat) (ch : StimChange) (s : State) (hs : P s) :
    P (requestStimulus c pt ch s).1 := by
  unfold Machine.requestStimulus
  split
  · exact hs
  · split
    · exact hs
    · split
      · exact h.stim _ _ _ hs
      · exact hs

theorem askInactive (c : Nat) (pts : List Nat) (s : State) (hs : P s) : P (askInactive c pts s).1 :=
  foldl_keeps_fst (β := List Nat) (fun a pt ha => h.requestStimulus c pt _ a.1 ha) pts (s, []) hs

theorem clearAwaited (s : State) (pt : Nat) (hs : P s) : P (clearAwaited s pt) := by
  unfold Machine.clearAwaited
  split
  · exact h.stim _ _ _ hs
  · exact hs

theorem cancelAwaited (c : Nat) (s : State) (hs : P s) : P (cancelAwaited c s) :=
  foldl_keeps (fun s pt => h.clearAwaited s pt) _ s hs

/-! ### Trials and proofs -/

theorem setAttached (v : Option Nat) (s : State) (i : Nat) (hs : P s) : P (setAttached v s i) := by
  unfold Machine.setAttached
  split
  · split
    · exact h.elem _ _ _ hs
    · exact hs
  · exact hs

theorem installDefinition (i : Nat) (d : Definition) (s : State) (hs : P s) :
    P (installDefinition i d s) :=
  foldl_keeps (fun s j => h.setAttached _ s j) _ _
    (h.elem _ _ _ (foldl_keeps (fun s j => h.setAttached _ s j) _ s hs))

theorem setCarriers (ks : List Nat) (r : Reservation) (s : State) (hs : P s) : P (s.setCarriers ks r) :=
  foldl_keeps (fun s k => h.carrier s k r) ks s hs

theorem settleCarrier (x : Context) (o : Option TrialOutcome) (s : State) (hs : P s) :
    P (settleCarrier x o s) := by
  unfold Machine.settleCarrier
  split
  · split
    · exact h.carrier _ _ _ hs
    · exact hs
  · exact hs

theorem endTrial (c : Nat) (o : Option TrialOutcome) (s : State) (hs : P s) : P (endTrial c o s) := by
  unfold Machine.endTrial
  refine h.owed _ true (h.ctx _ _ _ (h.settleCarrier _ _ _ ?_))
  have h1 : P (s.mapSched fun q => { q with cues := q.cues.filter fun u => decide (u.ctx ≠ c) }) :=
    h.cues s _ (.leave _) hs
  have h2 := h.cancelAwaited c _ (h.pool _ (fun m => m.endCtx c) (MonitorMove.endCtx _ c) h1)
  split
  · exact h.scan _ _ (h.askInactive _ _ _ h2)
  · exact h.askInactive _ _ _ h2

theorem applyStaged (l : List Nat) (s : State) (hs : P s) : P (applyStaged l s) := by
  refine foldl_keeps (fun s i hs => ?_) l s hs
  split
  · exact h.elem _ _ _ (h.installDefinition _ _ _ hs)
  · exact hs

theorem secondPart (c : Nat) (s : State) (hs : P s) : P (secondPart c s) := by
  unfold Machine.secondPart
  refine h.owed _ true (h.ctx _ _ _ (h.notice _ _ _ _ (.inl rfl) (h.setCarriers _ _ _ (h.deriveSources _ _ ?_))))
  refine foldl_keeps (fun s i => h.elem s i _) _ _ ?_
  refine foldl_keeps (fun s m hs => h.elem s _ _ hs) _ _ ?_
  exact h.applyStaged _ _ (h.elem _ _ _ hs)

theorem enterClosing (c : Nat) (r : ProofResult) (cause : EndCause) (s : State) (hs : P s) :
    P (enterClosing c r cause s) := by
  unfold Machine.enterClosing
  have h1 : P (if (s.ctx c).phase = .none then Machine.cancelAwaited c s else Machine.endTrial c none s) := by
    split
    · exact h.cancelAwaited _ _ hs
    · exact h.endTrial _ _ _ hs
  generalize (if (s.ctx c).phase = .none then Machine.cancelAwaited c s else Machine.endTrial c none s) =
    s1 at h1
  dsimp only
  split
  · exact h.secondPart _ _ (h.ctx _ _ _ (h.askInactive _ _ _ h1))
  · exact h.ctx _ _ _ (h.askInactive _ _ _ h1)

theorem settlePoint (c pt : Nat) (s : State) (hs : P s) : P (settlePoint c pt s) := by
  unfold Machine.settlePoint
  dsimp only
  split
  · split
    · exact h.secondPart _ _ (h.ctx _ _ _ hs)
    · exact h.ctx _ _ _ hs
  · exact hs

theorem takeOutcome (c : Nat) (o : TrialOutcome) (d : Option Int) (s : State) (hs : P s) :
    P (takeOutcome c o d s) := by
  unfold Machine.takeOutcome
  dsimp only
  split
  · exact hs
  · have h1 := h.endTrial c (some o) s hs
    have h2 := h.ctx _ c (countOutcome
      { (Machine.endTrial c (some o) s).ctx c with
        history := pushTail 8 ((Machine.endTrial c (some o) s).ctx c).history
          { outcome := o, deviation := d, time := (Machine.endTrial c (some o) s).time } } o d) h1
    split
    · split
      · exact h.enterClosing _ _ _ _ (h.notice _ _ _ _ (.inr rfl) h2)
      · exact h.enterClosing _ _ _ _ h2
    · split
      · exact h.owed _ true (h.ctx _ _ _ (h.notice _ _ _ _ (.inr rfl) h2))
      · exact h.owed _ true (h.ctx _ _ _ h2)

/-! ### Expectations -/

theorem reportMet (c : Nat) (role : Role) (dev : Int) (prior : Option (Role × Int)) (s : State)
    (hs : P s) : P (reportMet c role dev prior s) := by
  unfold Machine.reportMet
  split
  · dsimp only
    split
    · exact h.takeOutcome _ _ _ _ (h.ctx _ _ _ hs)
    · exact h.ctx _ _ _ hs
  · exact h.takeOutcome _ _ _ _ (h.ctx _ _ _ hs)
  · exact hs

theorem applyVerdict {again : Nat → State → State} (ha : ∀ n s, P s → P (again n s)) (e : Entry)
    (v : Verdict) (s : State) (hs : P s) : P (applyVerdict again e v s) := by
  unfold Machine.applyVerdict
  split
  · exact h.takeOutcome _ _ _ _ hs
  · split
    · exact ha _ _ (h.pool (s.mapMonitor fun m => m.drop e.num) (fun m => m.join _)
        (MonitorMove.join _ _) (h.pool s _ (MonitorMove.drop _ _) hs))
    · exact h.reportMet _ _ _ _ _ (h.pool _ _ (MonitorMove.drop _ _) hs)

theorem examineWith {again : Nat → State → State} (ha : ∀ n s, P s → P (again n s)) (n : Nat)
    (s : State) (hs : P s) : P (examineWith again n s) := by
  unfold Machine.examineWith
  split
  · exact hs
  · dsimp only
    split
    · exact h.applyVerdict ha _ _ _ (h.pool _ _ (MonitorMove.phase _ _ _) hs)
    · exact h.pool _ _ (MonitorMove.phase _ _ _) hs

theorem examine (n : Nat) (s : State) (hs : P s) : P (examine n s) :=
  h.examineWith (fun n s hs => h.examineWith (fun _ _ hs => hs) n s hs) n s hs

theorem examineEach {settle : State → State} (ht : ∀ s, P s → P (settle s)) (es : List Entry)
    (s : State) (hs : P s) : P (examineEach settle es s) := by
  refine foldl_keeps (fun s e hs => ?_) es s hs
  split
  · exact ht _ (h.examine _ _ hs)
  · exact hs

theorem judgeEntry (level : Bool) (t u : Nat) (e : Entry) (s : State) (hs : P s) :
    P (judgeEntry level t u e s) := by
  unfold Machine.judgeEntry
  dsimp only
  split
  · exact h.applyVerdict (fun n s hs => h.examine n s hs) _ _ _
      (h.pool _ _ (MonitorMove.phase _ _ _) hs)
  · exact h.pool _ _ (MonitorMove.phase _ _ _) hs

theorem judgeEdge {settle : State → State} (ht : ∀ s, P s → P (settle s)) (pt : Nat) (level : Bool)
    (t u : Nat) (s : State) (hs : P s) : P (judgeEdge settle pt level t u s) := by
  refine foldl_keeps (fun s e hs => ?_) _ s hs
  split
  · exact ht _ (h.judgeEntry _ _ _ _ _ hs)
  · exact hs

theorem insertEntry (e : Entry) (s : State) (hs : P s) : P (insertEntry e s) := by
  unfold Machine.insertEntry
  dsimp only
  split
  · split
    · exact h.examine _ _ (h.pool _ _ (MonitorMove.join _ _) hs)
    · exact hs
  · exact hs

theorem placeWindow (c : Nat) (w : SensorDef → Nat → Entry) (eye : Option Nat) (t : Nat) (s : State)
    (hs : P s) : P (placeWindow c w eye t s) := by
  unfold Machine.placeWindow
  split
  · split
    · exact h.insertEntry _ _ hs
    · exact hs
  · exact hs

theorem chuteDeparture (c : Nat) (s : State) (hs : P s) : P (chuteDeparture c s) := by
  unfold Machine.chuteDeparture
  dsimp only
  split
  · split
    · split
      · exact h.ctx _ _ _ (h.placeWindow _ _ _ _ _
          (h.placeWindow _ _ _ _ _ (h.carrier _ _ _ (h.ctx _ _ _ hs))))
      · exact h.placeWindow _ _ _ _ _ (h.placeWindow _ _ _ _ _ (h.carrier _ _ _ (h.ctx _ _ _ hs)))
    · exact hs
  · exact hs

/-! ### Cues -/

theorem removeCue (c : Nat) (s : State) (hs : P s) : P (removeCue c s) :=
  h.ctx _ _ _ (h.cues s _ (.leave _) hs)

theorem pruneHistory (s : State) (hs : P s) : P (pruneHistory s) :=
  h.history s _ (Or.inr (List.length_filter_le _ _)) hs

theorem finalAim (q : Cue) (s : State) (hs : P s) : P (finalAim q s) := by
  unfold Machine.finalAim
  refine h.cues s _ ?_ hs
  split
  · rename_i hm; exact .aimed q _ (by rw [hm]; exact Int.add_zero _)
  · exact .replace _ _

theorem discharge (q : Cue) (s : State) (hs : P s) : P (discharge q s) := by
  unfold Machine.discharge
  refine h.ctx _ _ _ (h.history _ _ (Or.inl ?_) (h.removeCue _ _ (h.requestStimulus _ _ _ _ hs)))
  exact pushTail_length 8 _ _

theorem fireCue (q : Cue) (s : State) (hs : P s) : P (fireCue q s) := by
  unfold Machine.fireCue
  split
  · exact h.discharge _ _ hs
  · split
    · exact h.takeOutcome _ _ _ _ (h.removeCue _ _ hs)
    · split
      · exact h.takeOutcome _ _ _ _ (h.removeCue _ _ hs)
      · exact h.discharge _ _ hs

theorem examineCuesLoop {settle : State → State} (ht : ∀ s, P s → P (settle s)) (n : Nat)
    (done : List Nat) (s : State) (hs : P s) : P (examineCuesLoop settle n done s) := by
  induction n generalizing done s with
  | zero => exact hs
  | succ n ih =>
    unfold Machine.examineCuesLoop
    split
    · exact hs
    · split
      · exact ih _ _ (h.finalAim _ _ hs)
      · exact ih _ _ (ht _ (h.fireCue _ _ hs))

theorem examineCues {settle : State → State} (ht : ∀ s, P s → P (settle s)) (s : State) (hs : P s) :
    P (examineCues settle s) := h.examining _ false (h.examineCuesLoop ht _ _ s hs)

theorem aim (c k : Nat) (s : State) (hs : P s) : P (aim c k s) := by
  unfold Machine.aim
  dsimp only
  split
  · exact hs
  · split
    · exact h.examineCues (fun _ hs => hs) _ (h.ctx _ _ _ (h.cues _ _ (.join _) (h.pruneHistory _ hs)))
    · exact h.takeOutcome _ _ _ _ (h.pruneHistory _ hs)

theorem beginExam (s : State) (hs : P s) : P (beginExam s) := h.examining s _ hs

/-! ### Starts and checks -/

theorem startChute (c : Nat) (s : State) (hs : P s) : P (startChute c s) :=
  h.aim _ _ _ (h.ctx _ _ _ hs)

theorem startSensor (c : Nat) (s : State) (hs : P s) : P (startSensor c s) := by
  unfold Machine.startSensor
  dsimp only
  split
  · exact hs
  · exact h.insertEntry _ _ (h.ctx _ _ _ hs)

theorem joinScan (ch : Option Nat) (s : State) (hs : P s) : P (joinScan ch s) := by
  unfold Machine.joinScan
  split
  · exact h.scan _ _ (h.current _ _ _ hs)
  · exact hs

theorem startDrive (c : Nat) (s : State) (hs : P s) : P (startDrive c s) := by
  unfold Machine.startDrive
  dsimp only
  split
  · exact hs
  · exact h.askInactive _ _ _ (h.joinScan _ _ (h.ctx _ _ _ hs))

theorem startTrial (c : Nat) (s : State) (hs : P s) : P (startTrial c s) := by
  unfold Machine.startTrial
  split
  · exact h.startChute _ _ hs
  · exact h.startSensor _ _ hs
  · exact h.startDrive _ _ hs
  · exact hs

theorem examineCtx (c : Nat) (s : State) (hs : P s) : P (examineCtx c s) := by
  unfold Machine.examineCtx
  dsimp only
  split
  · split
    · exact h.ctx _ _ _ hs
    · exact h.startTrial _ _ hs
  · exact hs

theorem checkPass (s : State) (hs : P s) : P (checkPass s) := by
  refine foldl_keeps (fun s c hs => ?_) _ _ (h.owed s false hs)
  split
  · exact hs
  · exact h.examineCtx _ _ hs

theorem checkLoop (n : Nat) (s : State) (hs : P s) : P (checkLoop n s) := by
  induction n generalizing s with
  | zero => exact h.owed s false hs
  | succ n ih =>
    unfold Machine.checkLoop
    dsimp only
    split
    · exact ih _ (h.checkPass _ hs)
    · exact h.checkPass _ hs

theorem check (s : State) (hs : P s) : P (check s) := h.checkLoop _ s hs

theorem settle (s : State) (hs : P s) : P (settle s) := by
  unfold Machine.settle
  split
  · exact h.check _ hs
  · exact hs

theorem runCues (s : State) (hs : P s) : P (runCues s) := h.examineCues h.settle s hs

theorem runTravelList (s : State) (hs : P s) : P (runTravelList s) := h.examineEach h.settle _ s hs

theorem runTimeList (s : State) (hs : P s) : P (runTimeList s) := h.examineEach h.settle _ s hs

end Closed

end Sys2Proof.Machine
end

