-- ==== Sys2Proof/Laws/Orders.lean ====
section
/-! SUPPORT. The shared operations of the Order Desk and of output points, one lemma each for what they
can do: the taking of an order and of a read, the reply and its place, refusals, stimulus requests, output
sources and stimulus records, the eyes of a chute, holdings. -/

namespace Sys2Proof.Machine

open Sys2Proof

/-! ### Taking an order (R185) -/

/-- A good frame leaves every queue. -/
@[simp] theorem goodFrame_queue (p q : Port) (s : State) :
    ((goodFrame p s).link q).queue = (s.link q).queue := by cases p <;> cases q <;> rfl

/-- Room is judged on the queue alone. -/
theorem hasRoom_goodFrame (p : Port) (n : Nat) (s : State) :
    hasRoom p n (goodFrame p s) = decide ((s.link p).queue.length + n ≤ queueCap p) := by simp [hasRoom]

/-- An order is dropped for want of room, refused NOT_PERMITTED, or replied to; nothing else. -/
theorem takeOrder_cases (p : Port) (permitted : Port → Bool) (k : Nat) (tag : Byte)
    (eff : State → State × List Byte) (s : State) :
    takeOrder p permitted k tag eff s =
      if queueCap p < (s.link p).queue.length + 1 then dropOrder p (goodFrame p s)
      else if permitted p = false then s.replied p k tag (refusedBody .notPermitted)
      else replyWith p k tag eff (goodFrame p s) := by
  unfold takeOrder
  simp only [hasRoom_goodFrame, State.replied]
  by_cases h : (s.link p).queue.length + 1 ≤ queueCap p
  · cases permitted p <;> simp [h, Nat.not_lt.mpr h]
  · simp [h, Nat.lt_of_not_le h]

/-- With room and permission an order is replied to. -/
theorem takeOrder_taken {s : State} {p : Port} {permitted : Port → Bool} (k : Nat) (tag : Byte)
    (eff : State → State × List Byte) (h : s.room p) (hp : permitted p = true) :
    takeOrder p permitted k tag eff s = replyWith p k tag eff (goodFrame p s) := by
  have : ¬ queueCap p < (s.link p).queue.length + 1 := Nat.not_lt.mpr h
  rw [takeOrder_cases, if_neg this, hp]
  rfl

/-- A read with the room it needs is replied to from the state as it stands. -/
theorem takeRead_taken {s : State} {p : Port} (k n : Nat) (tag : Byte) (read : State → List (List Byte))
    (h : (s.link p).queue.length + n ≤ queueCap p) :
    takeRead p k n tag read s = queueReply p k tag (read (goodFrame p s)) (goodFrame p s) := by
  simp [takeRead, hasRoom_goodFrame, h]

/-- An effect that leaves its port's queue: the reply joins the tail, and the effect's state stands. -/
theorem replyWith_quiet (p : Port) (k : Nat) (tag : Byte) (eff : State → State × List Byte) (s : State)
    (h : ((eff (queueReply p k tag [[]] s)).1.link p).queue = (s.link p).queue ++ [replyFrame k tag []]) :
    replyWith p k tag eff s =
      (eff (queueReply p k tag [[]] s)).1.mapLink p fun l =>
        { l with queue := (s.link p).queue ++ [replyFrame k tag (eff (queueReply p k tag [[]] s)).2] } := by
  unfold replyWith
  dsimp only
  cases p <;> simp only [State.mapLink, State.mapLinks, State.link] at * <;> rw [h] <;> simp [replyFrame]

/-- An effect that refuses: the reply is the refusal, and nothing else changes. -/
theorem replyWith_refuse (p : Port) (k : Nat) (tag : Byte) (r : Reason) (b : Blame)
    (eff : State → State × List Byte) (s : State)
    (h : eff (queueReply p k tag [[]] s) = refuse (queueReply p k tag [[]] s) r b) :
    replyWith p k tag eff s = queueReply p k tag [refusedBody r b] s := by
  unfold replyWith
  dsimp only
  rw [h]
  cases p <;> simp [refuse, queueReply, State.mapLink, State.mapLinks, State.link]

/-- An effect that only adds frames behind its reply's place: the reply stands right after the frames that
were waiting. -/
theorem replyWith_tail (p : Port) (k : Nat) (tag : Byte) (eff : State → State × List Byte) (s : State)
    (h : (s.link p).queue ++ [replyFrame k tag []] <+: ((eff (queueReply p k tag [[]] s)).1.link p).queue) :
    (s.link p).queue ++ [replyFrame k tag (eff (queueReply p k tag [[]] s)).2]
      <+: ((replyWith p k tag eff s).link p).queue := by
  obtain ⟨l, hl⟩ := h
  refine ⟨l, ?_⟩
  unfold replyWith
  dsimp only
  rw [link_mapLink_self]
  dsimp only
  rw [← hl]
  simp [replyFrame]

/-! ### Stimuli and sources (R42, R45) -/

/-- A stimulus request is cancelled at once and changes nothing, or is taken and awaited. -/
theorem requestStimulus_cases (c pt : Nat) (ch : StimChange) (s : State) :
    requestStimulus c pt ch s = (s, false)
      ∨ ∃ r, s.stimulus pt = some r ∧ s.ring.state ≠ .lost ∧ s.source pt = .test c
        ∧ requestStimulus c pt ch s = (s.setStimulus pt (some { r with awaited := some (c, ch) }), true) := by
  unfold requestStimulus
  split
  · exact .inl rfl
  · rename_i h1
    split
    · exact .inl rfl
    · rename_i h2
      split
      · rename_i r hr
        exact .inr ⟨r, hr, h1, by simpa using h2, rfl⟩
      · exact .inl rfl

/-- A request in a ring that is not LOST, for a TEST point of the context, is taken. -/
theorem requestStimulus_taken {c pt : Nat} (ch : StimChange) {s : State} {r : Stimulus}
    (hl : s.ring.state ≠ .lost) (hs : s.source pt = .test c) (hr : s.stimulus pt = some r) :
    requestStimulus c pt ch s = (s.setStimulus pt (some { r with awaited := some (c, ch) }), true) := by
  simp [requestStimulus, hl, hs, hr]

/-- A point derived afresh takes the source that its element gives; the others stand. -/
theorem source_derivePoint (s : State) (pt q : Nat) :
    (derivePoint s pt).source q = if q = pt then s.sourceOf pt else s.source q := by
  have key : (derivePoint s pt).source q
      = Table.get .pass (Table.set .pass s.ring.sources pt (s.sourceOf pt)) q := by
    unfold derivePoint
    dsimp only
    split
    · split <;> rfl
    · rfl
  rw [key, Table.get_set]
  rfl

/-- What an element gives its points is not touched by a derivation. -/
@[simp] theorem sourceOf_derivePoint (s : State) (pt q : Nat) : (derivePoint s pt).sourceOf q = s.sourceOf q := by
  unfold derivePoint
  dsimp only
  split
  · split <;> rfl
  · rfl

/-- After a derivation of several points each of them has the source that its element gives. -/
theorem source_deriveSources (pts : List Nat) (s : State) (q : Nat) :
    (deriveSources pts s).source q = if q ∈ pts then s.sourceOf q else s.source q := by
  unfold deriveSources
  induction pts generalizing s with
  | nil => rfl
  | cons pt l ih =>
    rw [List.foldl_cons, ih]
    simp only [sourceOf_derivePoint, source_derivePoint, List.mem_cons]
    by_cases h : q = pt
    · subst h; simp
    · simp [h]

/-- Once derived, a point's stimulus record is what R42 makes of it; the others stand. -/
theorem stimulus_derivePoint (s : State) (pt q : Nat) :
    (derivePoint s pt).stimulus q = if q = pt then s.stimulusUnder pt (s.sourceOf pt) else s.stimulus q := by
  unfold derivePoint State.stimulusUnder
  dsimp only
  split
  · rename_i c hc
    by_cases hk : s.source pt = s.sourceOf pt
    · simp only [hk, decide_true, if_true]
      by_cases h : q = pt
      · subst h; simp [hc]; rfl
      · simp [h]; rfl
    · rw [hc] at hk
      simp only [hc, hk, decide_false, if_false, Bool.false_eq_true]
      by_cases h : q = pt
      · subst h; simp
      · rw [stimulus_setStimulus_ne _ _ h, if_neg h]; rfl
  · rename_i hn
    by_cases h : q = pt
    · subst h
      simp
    · rw [stimulus_setStimulus_ne _ _ h, if_neg h]; rfl

/-- After a derivation of several points each of them has the stimulus record that R42 makes of it. -/
theorem stimulus_deriveSources (pts : List Nat) (s : State) (q : Nat) :
    (deriveSources pts s).stimulus q = if q ∈ pts then s.stimulusUnder q (s.sourceOf q) else s.stimulus q := by
  unfold deriveSources
  induction pts generalizing s with
  | nil => rfl
  | cons pt l ih =>
    rw [List.foldl_cons, ih]
    simp only [sourceOf_derivePoint, stimulus_derivePoint, List.mem_cons]
    by_cases h : q = pt
    · subst h
      have : (derivePoint s q).stimulusUnder q (s.sourceOf q) = s.stimulusUnder q (s.sourceOf q) := by
        unfold State.stimulusUnder
        cases hc : s.sourceOf q <;> simp [source_derivePoint, stimulus_derivePoint, State.stimulusUnder, hc]
      simp [this]
    · have : (derivePoint s pt).stimulusUnder q (s.sourceOf q) = s.stimulusUnder q (s.sourceOf q) := by
        unfold State.stimulusUnder
        simp [source_derivePoint, stimulus_derivePoint, h]
      simp [this, h]

/-- What an element gives its points is not touched by a derivation of several points. -/
@[simp] theorem sourceOf_deriveSources (pts : List Nat) (s : State) (q : Nat) :
    (deriveSources pts s).sourceOf q = s.sourceOf q := by
  unfold deriveSources
  induction pts generalizing s with
  | nil => rfl
  | cons pt l ih => rw [List.foldl_cons, ih, sourceOf_derivePoint]

/-- A derivation after changes that touch no source and no stimulus record derives the points from the state
before them. -/
theorem pointsDerived_deriveSources {s u : State} (pts : List Nat) (h : u.ring = s.ring) :
    pointsDerived pts s (deriveSources pts u) := by
  have hs : ∀ q, u.source q = s.source q := fun q => by simp only [State.source, h]
  have hr : ∀ q, u.stimulus q = s.stimulus q := fun q => by simp only [State.stimulus, h]
  intro pt
  rw [source_deriveSources, stimulus_deriveSources, sourceOf_deriveSources]
  constructor <;> intro hp <;> simp [hp, State.stimulusUnder, hs, hr]

/-- A derivation touches nothing but output sources and stimulus records. -/
theorem deriveSources_table (pts : List Nat) (s : State) : (deriveSources pts s).table = s.table := by
  unfold deriveSources
  induction pts generalizing s with
  | nil => rfl
  | cons pt l ih =>
    rw [List.foldl_cons, ih]
    unfold derivePoint
    dsimp only
    split
    · split <;> rfl
    · rfl

/-! ### Changes of element records and output points alone -/

/-- A state differs from itself in no record. -/
theorem sameButRecords.refl (s : State) : sameButRecords s s := rfl

/-- The write of a record is a change of records alone. -/
theorem sameButRecords.setElem {s t : State} (h : sameButRecords s t) (i : Nat) (e : Element) :
    sameButRecords s (t.setElem i e) := by
  unfold sameButRecords at h ⊢
  rw [h]
  rfl

/-- The derivation of sources is a change of output points alone. -/
theorem sameButRecords.deriveSources {s t : State} (h : sameButRecords s t) (pts : List Nat) :
    sameButRecords s (deriveSources pts t) := by
  unfold Machine.deriveSources
  induction pts generalizing t with
  | nil => exact h
  | cons pt l ih =>
    refine ih ?_
    unfold sameButRecords at h ⊢
    unfold derivePoint
    dsimp only
    split
    · split <;> rw [h] <;> rfl
    · rw [h]; rfl

/-- An order's effect that changes records and output points alone: its reply stands, and its records and
points. -/
theorem replyWith_records {p : Port} {k : Nat} {tag : Byte} {eff : State → State × List Byte} {s t : State}
    {body : List Byte} (he : eff (queueReply p k tag [[]] s) = (t, body))
    (h : sameButRecords (queueReply p k tag [[]] s) t) :
    replyWith p k tag eff s = { t with links := (queueReply p k tag [body] s).links } := by
  have hl : t.links = (queueReply p k tag [[]] s).links := by rw [h]
  unfold replyWith
  dsimp only
  rw [he]
  dsimp only
  cases t
  dsimp only at hl
  subst hl
  cases p <;> simp [queueReply, State.mapLink, State.mapLinks, State.link]

/-- The taking of an order whose effect changes records and output points alone. -/
theorem takeOrder_records {p : Port} {permitted : Port → Bool} {k : Nat} {tag : Byte}
    {eff : State → State × List Byte} {s t : State} {body : List Byte} (hr : s.room p)
    (hp : permitted p = true) (he : eff (queueReply p k tag [[]] (goodFrame p s)) = (t, body))
    (h : sameButRecords (queueReply p k tag [[]] (goodFrame p s)) t) :
    takeOrder p permitted k tag eff s = { t with links := (s.replied p k tag body).links }
      ∧ sameButRecords (s.replied p k tag body) { t with links := (s.replied p k tag body).links } := by
  rw [takeOrder_taken k tag eff hr hp, replyWith_records he h]
  refine ⟨rfl, ?_⟩
  unfold sameButRecords at h ⊢
  conv_lhs => rw [h]
  cases p <;> rfl

/-! ### Records of eyes and holders (R57, R75 to R79) -/

/-- The write of one record reads back, and every other record stands. -/
theorem elem_mapElem (s : State) (i j : Nat) (f : Element → Element) :
    (s.mapElem i f).elem j = if j = i then f (s.elem i) else s.elem j := elem_setElem _ _ _ _

/-- One eye is taken or released; every other record stands. -/
theorem elem_setAttached (v : Option Nat) (s : State) (i j : Nat) :
    (setAttached v s i).elem j = if j = i then (s.elem i).attach v else s.elem j := by
  have keep : s.elem j = if j = i then s.elem i else s.elem j := by split <;> simp_all
  unfold setAttached
  split
  · rename_i d hd
    by_cases hm : d.mode = .attached
    · simp only [hm, if_true, elem_mapElem, Element.attach, hd]
    · simpa only [hm, if_false, Element.attach, hd] using keep
  · rename_i hn
    have : (s.elem i).attach v = s.elem i := by
      unfold Element.attach
      split
      · rename_i d hd; exact absurd hd (hn d)
      · rfl
    rw [this]
    exact keep

/-- Taking an eye twice is taking it once. -/
@[simp] theorem Element.attach_attach (v w : Option Nat) (e : Element) : (e.attach w).attach v = e.attach v := by
  cases e with | mk d st ho hc su pc sg sm =>
  cases d with
  | sensor d => by_cases h : d.mode = .attached <;> simp [Element.attach, h]
  | _ => rfl

/-- Several eyes are taken or released; every other record stands. -/
theorem elem_foldl_setAttached (v : Option Nat) (l : List Nat) (s : State) (j : Nat) :
    (l.foldl (setAttached v) s).elem j = if j ∈ l then (s.elem j).attach v else s.elem j := by
  induction l generalizing s with
  | nil => rfl
  | cons i l ih =>
    rw [List.foldl_cons, ih, elem_setAttached]
    by_cases h : j = i
    · subst h; simp
    · simp [h]

/-- A definition that takes effect: the element's own record, the eyes it names, and the eyes it leaves (R57). -/
theorem elem_installDefinition (i : Nat) (d : Definition) (s : State) (j : Nat) :
    (installDefinition i d s).elem j =
      let base := if j ∈ (s.elem i).definition.eyes then (s.elem j).attach none else s.elem j
      let own := if j = i then { base with definition := keepAttached (s.elem i).definition d } else base
      if j ∈ d.eyes then own.attach (some i) else own := by
  unfold installDefinition
  dsimp only
  rw [elem_foldl_setAttached, elem_mapElem, elem_foldl_setAttached, elem_foldl_setAttached]
  by_cases h : j = i
  · subst h; simp
  · simp [h]

/-- The holding of several elements is set; every other record stands. -/
theorem elem_holdEach (st : ElState) (h : Holder) (l : List Nat) (s : State) (j : Nat) :
    (holdEach st h l s).elem j = if j ∈ l then { s.elem j with state := st, holder := h } else s.elem j := by
  unfold holdEach
  induction l generalizing s with
  | nil => rfl
  | cons i l ih =>
    rw [List.foldl_cons, ih]
    unfold setHolding
    rw [elem_mapElem]
    by_cases hj : j = i
    · subst hj; simp
    · simp [hj]

/-- Eyes are records alone. -/
theorem sameButRecords.setAttached {s t : State} (h : sameButRecords s t) (v : Option Nat) (i : Nat) :
    sameButRecords s (setAttached v t i) := by
  unfold Machine.setAttached
  split
  · split
    · exact h.setElem _ _
    · exact h
  · exact h

/-- A definition that takes effect changes records alone. -/
theorem sameButRecords.installDefinition {s t : State} (h : sameButRecords s t) (i : Nat) (d : Definition) :
    sameButRecords s (installDefinition i d t) := by
  have eyes : ∀ (v : Option Nat) (l : List Nat) (u : State), sameButRecords s u →
      sameButRecords s (l.foldl (Machine.setAttached v) u) := by
    intro v l
    induction l with
    | nil => exact fun u hu => hu
    | cons i l ih => exact fun u hu => ih _ (hu.setAttached v i)
  exact eyes _ _ _ ((eyes _ _ _ h).setElem _ _)

/-- A definition that takes effect touches no output point of itself. -/
theorem installDefinition_ring (i : Nat) (d : Definition) (s : State) : (installDefinition i d s).ring = s.ring := by
  have one : ∀ (v : Option Nat) (u : State) (j : Nat), (setAttached v u j).ring = u.ring := by
    intro v u j
    unfold setAttached
    split
    · split <;> rfl
    · rfl
  have eyes : ∀ (v : Option Nat) (l : List Nat) (u : State), (l.foldl (setAttached v) u).ring = u.ring := by
    intro v l
    induction l with
    | nil => intro u; rfl
    | cons i l ih => intro u; rw [List.foldl_cons, ih, one]
  unfold installDefinition
  dsimp only
  rw [eyes]
  exact eyes _ _ _

/-- The setting of holdings changes records alone. -/
theorem sameButRecords.holdEach {s t : State} (h : sameButRecords s t) (st : ElState) (ho : Holder)
    (l : List Nat) : sameButRecords s (holdEach st ho l t) := by
  unfold Machine.holdEach
  induction l generalizing t with
  | nil => exact h
  | cons i l ih => exact ih (h.setElem _ _)

/-- The setting of holdings touches no output point of itself. -/
theorem holdEach_ring (st : ElState) (ho : Holder) (l : List Nat) (s : State) : (holdEach st ho l s).ring = s.ring := by
  unfold holdEach
  induction l generalizing s with
  | nil => rfl
  | cons i l ih => rw [List.foldl_cons, ih]; rfl

end Sys2Proof.Machine
end

