-- ==== Sys2Proof/Laws/Checks.lean ====
section
/-! SUPPORT. What an order that its rule checks in sequence can do: how a sequence of checks joins, what a
refused order leaves, and the sequences of R55 and R72 as the model runs them; and what the notices of a change
do to the ports. -/

namespace Sys2Proof.Machine

open Sys2Proof

/-! ### Sequences of checks -/

/-- A sequence of checks goes on into the next where none of it applies. -/
theorem decidedBy_append (l m : List (Prop × List Byte)) (refused : List Byte → Prop) (taken : Prop) :
    decidedBy (l ++ m) refused taken ↔ decidedBy l refused (decidedBy m refused taken) := by
  induction l with
  | nil => rfl
  | cons x l ih => simp [decidedBy, ih]

/-- What a sequence of checks decides may be weakened on both sides. -/
theorem decidedBy_mono {l : List (Prop × List Byte)} {refused refused' : List Byte → Prop} {taken taken' : Prop}
    (hr : ∀ b, refused b → refused' b) (ht : taken → taken') (h : decidedBy l refused taken) :
    decidedBy l refused' taken' := by
  induction l with
  | nil => exact ht h
  | cons x l ih => exact ⟨fun a => hr _ (h.1 a), fun a => ih (h.2 a)⟩

/-- Where no check applies a sequence of checks says that the order is taken. -/
theorem decidedBy_taken {l : List (Prop × List Byte)} {refused : List Byte → Prop} {taken : Prop}
    (h : ∀ x ∈ l, ¬ x.1) : decidedBy l refused taken ↔ taken := by
  induction l with
  | nil => rfl
  | cons x l ih =>
    have hx := h x (by simp)
    exact ⟨fun d => (ih fun y hy => h y (by simp [hy])).1 (d.2 hx),
      fun t => ⟨fun a => absurd a hx, fun _ => (ih fun y hy => h y (by simp [hy])).2 t⟩⟩

/-- A sequence of checks with no refused body has no check that applies. -/
theorem decidedBy_unrefused {l : List (Prop × List Byte)} {taken : Prop}
    (h : decidedBy l (fun _ => False) taken) : ∀ x ∈ l, ¬ x.1 := by
  induction l with
  | nil => simp
  | cons x l ih =>
    intro y hy
    rcases List.mem_cons.1 hy with rfl | hy
    · exact h.1
    · exact ih (h.2 h.1) y hy

/-- One step of a chain of checks is one check of the sequence. -/
theorem decidedBy_ite {a : Prop} {b : Prop} [Decidable b] {r : Reason} {rest : Option Reason}
    {l : List (Prop × List Byte)} (hab : a ↔ b)
    (hl : decidedBy l (fun body => ∃ r, rest = some r ∧ refusedBody r = body) (rest = none)) :
    decidedBy ((a, refusedBody r) :: l)
      (fun body => ∃ r', (if b then some r else rest) = some r' ∧ refusedBody r' = body)
      ((if b then some r else rest) = none) := by
  by_cases h : b
  · exact ⟨fun _ => ⟨r, by simp [h], rfl⟩, fun ha => absurd (hab.2 h) ha⟩
  · simp only [if_neg h]
    exact ⟨fun ha => absurd (hab.1 ha) h, fun _ => hl⟩

/-- A search for the first entry that fails is a sequence of checks, one for each entry. -/
theorem decidedBy_find? {α : Type} (f : α → Bool) (body : α → List Byte) (refused : List Byte → Prop)
    (taken : Prop) (l : List α) (hr : ∀ a, l.find? f = some a → refused (body a)) (ht : l.find? f = none → taken) :
    decidedBy (l.map fun a => (f a = true, body a)) refused taken := by
  induction l with
  | nil => exact ht rfl
  | cons a l ih =>
    refine ⟨fun h => hr a (by simp [show f a = true from h]), fun h => ih (fun b hb => hr b ?_) fun hn => ht ?_⟩
    · have : f a = false := by simpa using h
      simpa [this] using hb
    · have : f a = false := by simpa using h
      simpa [this] using hn

/-- The checks of several entries, one after another, where those of one entry apply exactly where the search takes
it. -/
theorem decidedBy_flatMap {α : Type} (f : α → Bool) (checks : α → List (Prop × List Byte))
    (refused : List Byte → Prop) (taken : Prop) (l : List α)
    (hc : ∀ a ∈ l, ∀ next : Prop, (f a = true → decidedBy (checks a) refused False) →
      (f a = false → next) → decidedBy (checks a) refused next)
    (hr : ∀ a, l.find? f = some a → decidedBy (checks a) refused False) (ht : l.find? f = none → taken) :
    decidedBy (l.flatMap checks) refused taken := by
  induction l with
  | nil => exact ht rfl
  | cons a l ih =>
    rw [List.flatMap_cons, decidedBy_append]
    refine hc a (by simp) _ (fun h => hr a (by simp [h])) fun h =>
      ih (fun b hb => hc b (by simp [hb])) (fun b hb => hr b ?_) fun hn => ht ?_
    · simpa [h] using hb
    · simpa [h] using hn

/-! ### Refused orders (R80, R185) -/

/-- An order with room and permission whose effect is a refusal leaves its reply and nothing else. -/
theorem takeOrder_refused {s : State} {p : Port} {permitted : Port → Bool} (k : Nat) (tag : Byte)
    {eff : State → State × List Byte} {r : Reason} {b : Blame} (h : s.room p) (hp : permitted p = true)
    (he : eff (queueReply p k tag [[]] (goodFrame p s)) = refuse (queueReply p k tag [[]] (goodFrame p s)) r b) :
    takeOrder p permitted k tag eff s = s.replied p k tag (refusedBody r b) := by
  rw [takeOrder_taken k tag eff h hp, replyWith_refuse p k tag r b eff _ he]; rfl

/-- The state in which an order's effect is judged is the order's state in all but the ports. -/
theorem queueReply_goodFrame (p : Port) (k : Nat) (tag : Byte) (bodies : List (List Byte)) (s : State) :
    queueReply p k tag bodies (goodFrame p s)
      = { s with links := (queueReply p k tag bodies (goodFrame p s)).links } := by cases p <;> rfl

/-- An order with room and permission is decided as its effect decides it. -/
theorem takeOrder_decided {s : State} {p : Port} {permitted : Port → Bool} (k : Nat) (tag : Byte)
    {eff : State → State × List Byte} (h : s.room p) (hp : permitted p = true) {l : List (Prop × List Byte)}
    {taken : Prop}
    (hd : decidedBy l
      (fun body => ∃ r b, body = refusedBody r b
        ∧ eff (queueReply p k tag [[]] (goodFrame p s)) = refuse (queueReply p k tag [[]] (goodFrame p s)) r b)
      taken) :
    decidedBy l
      (fun body => (Host.Outcome.next (takeOrder p permitted k tag eff s) : Result) =
        .next (s.replied p k tag body)) taken := by
  refine decidedBy_mono ?_ id hd
  rintro _ ⟨r, b, rfl, he⟩
  rw [takeOrder_refused k tag h hp he]

/-! ### Tables searched whole -/

/-- In a canonical table some listed entry has a property that the reset entry lacks exactly where some entry has
it. -/
theorem Table.any_iff {α : Type} [DecidableEq α] {d : α} {t : Table α} (h : Table.wf d t = true)
    (f : Nat → α → Bool) (hd : ∀ i, f i d = false) :
    (t.any fun e => f e.1 e.2) = true ↔ ∃ i, f i (Table.get d t i) = true := by
  induction t with
  | nil => simp [Table.get, hd]
  | cons e t ih =>
    obtain ⟨k, v⟩ := e
    simp only [Table.wf, Bool.and_eq_true, List.all_eq_true, decide_eq_true_eq] at h
    rw [List.any_cons, Bool.or_eq_true, ih h.2]
    constructor
    · rintro (hv | ⟨i, hi⟩)
      · exact ⟨k, by simpa [Table.get] using hv⟩
      · refine ⟨i, ?_⟩
        have : i ≠ k := by
          rintro rfl
          have : Table.get d t i = d := by
            have h12 := h.1.2
            clear ih h hi
            induction t with
            | nil => rfl
            | cons x t ih =>
              have : i ≠ x.1 := Nat.ne_of_lt (h12 x (by simp))
              simp only [Table.get, this, if_false]
              exact ih fun y hy => h12 y (by simp [hy])
          rw [this, hd] at hi; exact absurd hi (by simp)
        simpa [Table.get, this] using hi
    · rintro ⟨i, hi⟩
      by_cases hk : i = k
      · subst hk; exact .inl (by simpa [Table.get] using hi)
      · exact .inr ⟨i, by simpa [Table.get, hk] using hi⟩

/-- In a canonical state some element record has a property that an EMPTY record lacks exactly where some listed
one has it. -/
theorem any_record {s : State} (h : s.canonical = true) (f : Nat → Element → Bool) (hd : ∀ i, f i {} = false) :
    (s.table.records.any fun e => f e.1 e.2) = true ↔ ∃ i, f i (s.elem i) = true := by
  have hw : Table.wf {} s.table.records = true := by
    simp only [State.canonical, Bool.and_eq_true] at h; exact h.1.1.1.1.1.1.1.1
  exact Table.any_iff hw f hd

/-- Two lists share an entry. -/
theorem meet_iff (a b : List Nat) : meet a b = true ↔ ∃ x ∈ a, x ∈ b := by simp [meet]

/-- A definition counts for a record as the present or the staged one. -/
theorem any_definition (e : Element) (f : Definition → Bool) :
    e.definitions.any f = true ↔ ∃ d, (d = e.definition ∨ e.staged = some d) ∧ f d = true := by
  cases h : e.staged <;> simp [Element.definitions, h]

/-! ### The checks of a candidate (R55) -/

/-- The model's judgement of a candidate is the sequence of R55. -/
theorem candidateFault_decided {s : State} (h : s.canonical = true) (i : Nat) (c : Candidate) :
    decidedBy (s.changeChecks i c) (fun body => ∃ r, s.candidateFault i c = some r ∧ refusedBody r = body)
      (s.candidateFault i c = none) := by
  have href : s.referenced i = true ↔
      ∃ j d, (d = (s.elem j).definition ∨ (s.elem j).staged = some d) ∧ (i ∈ d.eyes ∨ i ∈ d.companions) := by
    unfold State.referenced
    rw [any_record h (fun _ e => e.definitions.any fun d => decide (i ∈ d.eyes) || decide (i ∈ d.companions))
      (by intro; rfl)]
    simp only [any_definition, Bool.or_eq_true, decide_eq_true_eq]
  have hpt : ∀ new, s.pointTaken i new = true ↔
      ∃ j d, j ≠ i ∧ (d = (s.elem j).definition ∨ (s.elem j).staged = some d) ∧
        ((∃ x ∈ new.outputs, x ∈ d.outputs) ∨ (∃ x ∈ new.inputs, x ∈ d.inputs) ∨ (∃ x ∈ new.tachs, x ∈ d.tachs)
          ∨ ∃ x ∈ new.currents, x ∈ d.currents) := by
    intro new
    unfold State.pointTaken State.otherHas
    rw [any_record h (fun j e => decide (j ≠ i) && e.definitions.any fun o =>
      meet new.outputs o.outputs || meet new.inputs o.inputs || meet new.tachs o.tachs
        || meet new.currents o.currents) (by intro; simp [Element.definitions, Definition.outputs, meet,
          Definition.inputs, Definition.tachs, Definition.currents])]
    simp only [Bool.and_eq_true, any_definition, Bool.or_eq_true, meet_iff, decide_eq_true_eq]
    constructor
    · rintro ⟨j, hj, d, hd, hx⟩
      exact ⟨j, d, hj, hd, by rcases hx with ((hx | hx) | hx) | hx <;> simp [hx]⟩
    · rintro ⟨j, d, hj, hd, hx⟩
      exact ⟨j, hj, d, hd, by rcases hx with hx | hx | hx | hx <;> simp [hx]⟩
  have heye : ∀ e, s.eyeInUse i e = true ↔ ∃ j, j ≠ i ∧ ((s.sensorDef e).bind (·.attachedTo) = some j
      ∨ ∃ d, (s.elem j).staged = some d ∧ e ∈ d.eyes) := by
    intro e
    unfold State.eyeInUse
    rw [Bool.or_eq_true]
    refine (or_congr Iff.rfl (any_record h (fun j r => decide (j ≠ i) && match r.staged with
      | some d => decide (e ∈ d.eyes) | none => false) (by intro; simp))).trans ?_
    constructor
    · rintro (hm | ⟨j, hj⟩)
      · split at hm
        · rename_i j hj; exact ⟨j, by simpa using hm, .inl hj⟩
        · simp at hm
      · simp only [Bool.and_eq_true, decide_eq_true_eq] at hj
        refine ⟨j, hj.1, .inr ?_⟩
        have h2 := hj.2
        split at h2
        · rename_i d hd; exact ⟨d, hd, by simpa using h2⟩
        · simp at h2
    · rintro ⟨j, hj, hm | ⟨d, hd, he⟩⟩
      · left; simp [hm, hj]
      · right; exact ⟨j, by simp [hj, hd, he]⟩
  have hnone : decidedBy [] (fun body => ∃ r, (none : Option Reason) = some r ∧ refusedBody r = body)
    ((none : Option Reason) = none) := rfl
  unfold State.changeChecks State.candidateFault
  refine decidedBy_ite (Iff.rfl) (decidedBy_ite ?_ (decidedBy_ite ?_ (decidedBy_ite ?_ (decidedBy_ite ?_
    (decidedBy_ite ?_ (decidedBy_ite ?_ (decidedBy_ite ?_ (decidedBy_ite ?_ (decidedBy_ite ?_ hnone)))))))))
  · simp [and_assoc]
  · simp [and_assoc]
  · simp [positionalChange]
  · simp [href]
  · simp
  · exact (hpt _).symm
  · simp [State.isAttached]
  · simp [heye]
  · simp [State.badCompanions, or_assoc]

/-- A candidate has no reason of R55 against it exactly where none of its checks applies. -/
theorem candidateFault_none_iff {s : State} (h : s.canonical = true) (i : Nat) (c : Candidate) :
    s.candidateFault i c = none ↔ ∀ x ∈ s.changeChecks i c, ¬ x.1 := by
  refine ⟨fun hn => decidedBy_unrefused (decidedBy_mono ?_ id (candidateFault_decided h i c)),
    fun hx => (decidedBy_taken hx).1 (candidateFault_decided h i c)⟩
  rintro b ⟨r, hr, _⟩
  rw [hn] at hr
  cases hr

/-! ### The checks of claim sets (R72, R75) -/

/-- The first member of an element and its eyes that Enlist refuses decides, by steps 5 and 6 of R75. -/
theorem enlistFault_decided (s : State) (i : Nat) (refused : List Byte → Prop) (taken : Prop)
    (hr : ∀ j, (s.withEyes i).find? (fun j => (s.enlistFault j).isSome) = some j →
      refused (s.naming ((s.enlistFault j).getD .notDefined) j))
    (ht : (s.withEyes i).find? (fun j => (s.enlistFault j).isSome) = none → taken) :
    decidedBy
      ((i :: (s.elem i).definition.eyes).flatMap fun j =>
        [((s.elem j).state = .testing, s.naming .testing j), ((s.elem j).state = .live, s.naming .live j),
          ((s.elem j).state = .locked, s.naming .lockedOut j),
          ((s.elem j).state ≠ .proven, s.naming .notDefined j),
          (0 < (s.elem j).holdCount, s.naming .quieted j)]) refused taken := by
  refine decidedBy_flatMap (fun j => (s.enlistFault j).isSome) _ refused taken _ ?_ ?_ ht
  · intro a _ next h1 h2
    simp only [decidedBy, State.enlistFault] at *
    cases hs : (s.elem a).state <;> simp_all
  · intro a ha
    have := hr a ha
    have hf := List.find?_some ha
    simp only [decidedBy, State.enlistFault] at *
    cases hs : (s.elem a).state <;> simp_all

/-- The first member of a claim set that refuses the claim decides, and behind the members the first companion that
is LIVE (R72). -/
theorem claimFault_decided (s : State) (i : Nat) (refused : List Byte → Prop) (taken : Prop)
    (hr : ∀ r j, s.claimFault i = some (r, j) → refused (s.naming r j)) (ht : s.claimFault i = none → taken) :
    decidedBy
      (((i :: (s.elem i).definition.eyes).flatMap fun j =>
          [((s.elem j).state = .testing, s.naming .testing j), ((s.elem j).state = .live, s.naming .live j),
            ((s.elem j).state = .locked, s.naming .lockedOut j),
            (0 < (s.elem j).holdCount, s.naming .quieted j)])
        ++ (s.elem i).definition.companions.map fun j => ((s.elem j).state = .live, s.naming .companionLive j))
      refused taken := by
  rw [decidedBy_append]
  refine decidedBy_flatMap (fun j => (s.memberFault j).isSome) _ refused _ _ ?_ ?_ ?_
  · intro a _ next h1 h2
    simp only [decidedBy, State.memberFault] at *
    cases hs : (s.elem a).state <;> simp_all
  · intro a ha
    have := hr ((s.memberFault a).getD .testing) a (by
      unfold State.claimFault; rw [show (s.claimSet i).find? _ = some a from ha])
    have hf := List.find?_some ha
    simp only [decidedBy, State.memberFault] at *
    cases hs : (s.elem a).state <;> simp_all
  · intro hn
    have := decidedBy_find? (fun j => decide ((s.elem j).state = .live)) (fun j => s.naming .companionLive j)
      refused taken (s.elem i).definition.companions
      (fun a ha => hr _ _ (by
        unfold State.claimFault; rw [show (s.claimSet i).find? _ = none from hn]; simp [ha]))
      (fun hnn => ht (by
        unfold State.claimFault; rw [show (s.claimSet i).find? _ = none from hn]; simp [hnn]))
    simpa using this

end Sys2Proof.Machine
end

