-- ==== Sys2Proof/Laws/Frames.lean ====
section
/-! SUPPORT. Frames: what checks, voids and verdicts leave alone (`State.steadyPart`), that they only
add frames at the tail of a port's queue, what a check does where nothing can start, whose turn it is in the
cue list and in a list of expectations, and what a lapse does to one context. -/

namespace Sys2Proof.Machine

open Sys2Proof

/-- No inner operation touches the steady part of the state. -/
theorem steady_closed (v : State) : Closed fun s => s.steadyPart = v where
  elem _ _ _ h := h
  ctx _ _ _ h := h
  carrier _ _ _ h := h
  stim _ _ _ h := h
  source _ _ _ h := h
  cues _ _ _ h := h
  history _ _ _ h := h
  examining _ _ h := h
  monitor _ _ _ h := h
  scan _ _ h := h
  current _ _ _ h := h
  notice s st k b _ h := by
    rw [← h]
    generalize stationPort st = p
    cases p <;> simp only [pushNotice, State.mapLink] <;> simp only [State.steadyPart, State.mapLinks] <;>
      split <;> rfl
  owed _ _ h := h

/-- The inner operations only add frames at the tail of a port's queue. -/
theorem tail_closed (p : Port) (l : List LinkFrame) : Closed fun s => l <+: (s.link p).queue where
  elem _ _ _ h := h
  ctx _ _ _ h := h
  carrier _ _ _ h := h
  stim _ _ _ h := h
  source _ _ _ h := h
  cues _ _ _ h := h
  history _ _ _ h := h
  examining _ _ h := h
  monitor _ _ _ h := h
  scan _ _ h := h
  current _ _ _ h := h
  notice s st k b _ h := by
    generalize stationPort st = q
    cases p <;> cases q <;> first
      | exact h
      | (simp only [pushNotice, State.mapLink, State.mapLinks, State.link] at h ⊢
         split
         · exact h.trans (List.prefix_append _ _)
         · exact h)
  owed _ _ h := h

/-- Clearing an owed check where none is owed changes nothing. -/
theorem payCheck_eq (s : State) (h : s.engine.checkOwed = false) : s.payCheck = s := by
  cases s with | mk t tr rg tb en sc mo dr lk fr pe =>
  cases en
  simp only at h
  subst h
  rfl

/-- Nothing is owed after a check. -/
theorem checkLoop_owed (n : Nat) (s : State) : (checkLoop n s).engine.checkOwed = false := by
  induction n generalizing s with
  | zero => rfl
  | succ n ih =>
    unfold checkLoop
    dsimp only
    split
    · exact ih _
    · rename_i h; simpa using h

/-- Nothing is owed after a check. -/
@[simp] theorem check_owed (s : State) : (check s).engine.checkOwed = false := checkLoop_owed _ _

/-- Nothing is owed after a settling. -/
@[simp] theorem settle_owed (s : State) : (settle s).engine.checkOwed = false := by
  unfold settle
  split
  · exact check_owed s
  · rename_i h; simpa using h

/-- Nothing is settled where nothing is owed. -/
theorem settle_eq (s : State) (h : s.engine.checkOwed = false) : settle s = s := by simp [settle, h]

/-- A check passes over contexts that are not PAUSED. -/
theorem checkPass_idle (s : State) (h : ∀ c < 16, (s.ctx c).state ≠ .paused) : checkPass s = s.payCheck := by
  have key : ∀ l : List Nat, (∀ c ∈ l, (s.ctx c).state ≠ .paused) →
      l.foldl (fun s c => if s.engine.checkOwed then s else examineCtx c s) s.payCheck = s.payCheck := by
    intro l
    induction l with
    | nil => intro _; rfl
    | cons c l ih =>
      intro hl
      have hc : (s.payCheck.ctx c).state ≠ .paused := hl c (by simp)
      have : (if s.payCheck.engine.checkOwed then s.payCheck else examineCtx c s.payCheck) = s.payCheck := by
        split
        · rfl
        · simp [examineCtx, hc]
      rw [List.foldl_cons, this]
      exact ih fun d hd => hl d (by simp [hd])
  exact key _ fun c hc => h c (by simpa [ctxNumbers] using hc)

/-- A check with no context PAUSED pays what is owed and does nothing else. -/
theorem check_idle (s : State) (h : ∀ c < 16, (s.ctx c).state ≠ .paused) : check s = s.payCheck := by
  unfold check checkLoop
  dsimp only
  rw [checkPass_idle s h]
  rfl

/-- In a calm state a check changes nothing. -/
theorem check_calm (s : State) (h : s.calm) : check s = s := by
  rw [check_idle s h.2, payCheck_eq s h.1]

/-- An examination that has aimed no cue yet handles the head of the list next, where something is due of it, and
no other cue (R118). -/
theorem nextCue_eq_some (s : State) (cues : List Cue) (q : Cue) :
    s.nextCue [] cues = some q ↔ ∃ l, cues = q :: l ∧ (s.aimDue q = true ∨ s.fireDue q = true) := by
  cases cues with
  | nil => simp [State.nextCue]
  | cons x l =>
    by_cases hd : s.aimDue x = true ∨ s.fireDue x = true
    · simp only [State.nextCue, Bool.or_eq_true, hd, if_true, Option.some.injEq, List.cons.injEq]
      exact ⟨fun h => h ▸ ⟨l, ⟨rfl, rfl⟩, hd⟩, fun ⟨_, h, _⟩ => h.1⟩
    · simp only [State.nextCue, Bool.or_eq_true, hd, if_false, List.not_mem_nil, List.cons.injEq]
      exact ⟨nofun, fun ⟨_, h, h2⟩ => absurd (h.1 ▸ h2) hd⟩

/-- The turn is the head's, where an examination is under way and something is due of it; every cue behind
it waits (R118). -/
theorem cueTurn_eq_some (s : State) (c : Nat) (q : Cue) :
    s.cueTurn c = some q ↔
      s.sched.examining = true
        ∧ ∃ l, s.sched.cues = q :: l ∧ q.ctx = c ∧ (s.aimDue q = true ∨ s.fireDue q = true) := by
  unfold State.cueTurn
  split
  · rename_i he
    rw [Option.filter_eq_some_iff, nextCue_eq_some]
    simp only [he, true_and, decide_eq_true_eq]
    exact ⟨fun ⟨⟨l, h, h2⟩, hq⟩ => ⟨l, h, hq, h2⟩, fun ⟨l, h, hq, h2⟩ => ⟨⟨l, h, h2⟩, hq⟩⟩
  · rename_i he
    exact ⟨nofun, fun h => absurd h.1 he⟩

/-- An examination that begins is under way exactly where something is due of the first cue (R118). -/
theorem beginExam_examining (s : State) :
    (beginExam s).sched.examining = true
      ↔ ∃ q l, s.sched.cues = q :: l ∧ (s.aimDue q = true ∨ s.fireDue q = true) := by
  simp only [beginExam, State.mapSched, Option.isSome_iff_exists, nextCue_eq_some]

/-- The turn is that of the first entry of its list of which something is due (R132, R141). -/
theorem entryTurn_eq_some (s : State) (n : Nat) (e : Entry) (hn : s.monitor.used.Nodup) :
    s.entryTurn n = some e ↔
      e.num = n ∧ (s.firstDue s.monitor.travelList = some e ∨ s.firstDue s.monitor.timeList = some e) := by
  have apart : ∀ x y, s.firstDue s.monitor.travelList = some x → s.firstDue s.monitor.timeList = some y →
      x.num ≠ y.num := by
    intro x y hx hy
    unfold Monitor.used at hn
    rw [List.map_append, List.nodup_append] at hn
    exact hn.2.2 _ (List.mem_map_of_mem (List.mem_of_find?_eq_some hx)) _
      (List.mem_map_of_mem (List.mem_of_find?_eq_some hy))
  unfold State.entryTurn
  revert apart
  generalize s.firstDue s.monitor.travelList = a, s.firstDue s.monitor.timeList = b
  intro apart
  cases a <;> cases b <;>
    simp only [Option.toList, List.nil_append, List.cons_append, List.find?_cons, List.find?_nil]
  all_goals grind

/-- A lapse ends and counts a context of its station in PAUSED or RUNNING, and passes over any other (R85). -/
theorem lapseOne_cases (st : Station) (r : State × Nat) (c : Nat) :
    lapseOne st r c = r
        ∧ ((r.1.ctx c).owner ≠ st ∨ ((r.1.ctx c).state ≠ .paused ∧ (r.1.ctx c).state ≠ .running))
      ∨ lapseOne st r c = (settle (enterClosing c .aborted .lapse r.1), r.2 + 1)
        ∧ (r.1.ctx c).owner = st ∧ ((r.1.ctx c).state = .paused ∨ (r.1.ctx c).state = .running) := by
  unfold lapseOne
  dsimp only
  split
  · rename_i h; exact .inr ⟨rfl, h⟩
  · rename_i h; exact .inl ⟨rfl, by tauto⟩

end Sys2Proof.Machine
end

