-- ==== Sys2Proof/Laws/Notices.lean ====
section
/-! SUPPORT. What the reports of the tracker and of the ring do to the ports: the notices of the trials and proofs
they end, none of them on the Line Port, and then the notice of the change itself; and that with no proof in
progress a report sends nothing (R10, R39, R97, R108, R186). -/

namespace Sys2Proof.Machine

open Sys2Proof

/-- A notice to one port, as the port takes it. -/
theorem link_pushNotice (p q : Port) (k : Nat) (b : List Byte) (s : State) :
    (pushNotice p k b s).link q = if q = p then (s.link p).noticed (queueCap p) (k, b) else s.link q := by
  unfold pushNotice
  by_cases h : q = p
  · subst h; rw [link_mapLink_self, if_pos rfl]; rfl
  · rw [link_mapLink_ne s _ h, if_neg h]

/-- A notice to all three ports, as each takes it. -/
theorem link_noticeAll (k : Nat) (b : List Byte) (s : State) (p : Port) :
    (noticeAll k b s).link p = (s.link p).noticed (queueCap p) (k, b) := by
  unfold noticeAll; cases p <;> simp [link_pushNotice]

/-! ### Outcomes and proof ends alone -/

/-- From `u` to `t` each Station Port has been sent nothing but Proof Ended and Trial Outcome notices, and the Line
Port nothing. -/
def State.toldOutcomes (u t : State) : Prop :=
  ∀ p, ∃ before : List (Nat × List Byte), (∀ n ∈ before, n.1 = 0x60 ∨ n.1 = 0x61) ∧ (p = .line → before = [])
    ∧ t.link p = before.foldl (Link.noticed (queueCap p)) (u.link p)

/-- With the ports as they were nothing has been sent. -/
theorem toldOutcomes_of_links {u t : State} (h : t.links = u.links) : u.toldOutcomes t := fun p =>
  ⟨[], by simp, fun _ => rfl, by unfold State.link; rw [h]; rfl⟩

/-- The inner operations send outcomes and proof ends alone. -/
theorem toldOutcomes_closed (u : State) : Closed u.toldOutcomes where
  elem _ _ _ h := h
  ctx _ _ _ h := h
  carrier _ _ _ h := h
  stim _ _ _ h := h
  source _ _ _ h := h
  cues _ _ _ h := h
  history _ _ _ h := h
  examining _ _ h := h
  monitor _ _ _ h := h
  scan _ _ h := h
  current _ _ _ h := h
  notice s st k b hk h p := by
    obtain ⟨l, hl, h2, h3⟩ := h p
    by_cases hp : p = stationPort st
    · refine ⟨l ++ [(k, b)], fun n hn => ?_, fun hl => ?_, ?_⟩
      · rcases List.mem_append.1 hn with hn | hn
        · exact hl n hn
        · simp only [List.mem_singleton] at hn; subst hn; exact hk
      · subst hl; cases st <;> cases hp
      · rw [link_pushNotice, if_pos hp, List.foldl_append, ← hp, h3]; rfl
    · exact ⟨l, hl, h2, by rw [link_pushNotice, if_neg hp]; exact h3⟩
  owed _ _ h := h

/-- A notice to all ports behind outcomes and proof ends alone, and alone with no proof in progress. -/
theorem notified_noticeAll {u t : State} (k : Nat) (b : List Byte) (h : u.toldOutcomes t)
    (hn : u.noProof → t.links = u.links) : u.notified (noticeAll k b t) k b := by
  intro p
  obtain ⟨l, hl, h2, h3⟩ := h p
  by_cases hq : u.noProof
  · refine ⟨[], by simp, fun _ => rfl, ?_⟩
    rw [link_noticeAll, show t.link p = u.link p by unfold State.link; rw [hn hq]]; rfl
  · refine ⟨l, hl, fun h => h.elim h2 (absurd · hq), ?_⟩
    rw [link_noticeAll, List.foldl_append, h3]; rfl

/-! ### Reports -/

/-- A property that the inner operations keep, and the new report itself, is kept by the report of the ring. -/
theorem Closed.reportRing {P : State → Prop} (h : Closed P) (s : State)
    (hs : P (s.mapEngine fun e => { e with ring := s.ring.state })) : P (reportRing s) := by
  unfold Machine.reportRing
  dsimp only
  split
  · exact h.check _ (foldl_keeps (fun _ _ hs => h.takeOutcome _ _ _ _ hs) _ _ hs)
  · exact h.check _ hs
  · split
    · refine h.check _ (foldl_keeps (fun s c hs => ?_) _ _ hs)
      unfold settleStuck; split
      · exact h.askInactive _ _ _ hs
      · exact hs
    · exact h.check _ hs

/-- A property that the inner operations keep, and the new report itself, is kept by the report of the tracker. -/
theorem Closed.reportTrack {P : State → Prop} (h : Closed P) (s : State)
    (hs : P (s.mapEngine fun e => { e with track := s.tracker.state })) : P (reportTrack s) := by
  unfold Machine.reportTrack
  dsimp only
  split
  · exact h.check _ (foldl_keeps (fun _ _ hs => h.takeOutcome _ _ _ _ hs) _ _ hs)
  · exact h.check _ hs

/-- A property that the inner operations keep is kept where every awaited change is cancelled. -/
theorem Closed.cancelAllAwaited {P : State → Prop} (h : Closed P) (s : State) (hs : P s) :
    P (cancelAllAwaited s) := by
  refine foldl_keeps (fun s w hs => ?_) _ _ (foldl_keeps (fun s w hs => h.clearAwaited s _ hs) _ s hs)
  unfold reportCancelled
  dsimp only
  split
  · split
    · exact h.ctx _ _ _ hs
    · exact hs
  · exact h.settle _ (h.settlePoint _ _ _ hs)

/-! ### With no proof in progress -/

/-- No check is owed and every context is FREE. -/
def State.unproving (s : State) : Prop := s.engine.checkOwed = false ∧ ∀ c, (s.ctx c).state = .free

/-- Nothing is voided where nothing runs. -/
theorem voidAll_unproving {s : State} (h : s.unproving) (sel : Context → Bool) (cause : VoidCause) :
    voidAll sel cause s = s := by
  unfold voidAll
  rw [List.filter_eq_nil_iff.2 fun c _ => by simp [h.2 c]]
  rfl

/-- Nothing starts where nothing is PAUSED. -/
theorem check_unproving {s : State} (h : s.unproving) : check s = s :=
  check_calm s ⟨h.1, fun c _ => by rw [h.2 c]; decide⟩

/-- A cancelled change has no one to be reported to. -/
theorem reportCancelled_unproving {s : State} (h : s.unproving) (c pt : Nat) : reportCancelled c pt s = s := by
  unfold reportCancelled
  dsimp only
  split
  · rw [if_neg]; simp [State.firing, h.2 c]
  · rw [show settlePoint c pt s = s from by unfold settlePoint; rw [if_neg]; simp [h.2 c]]
    exact settle_eq s h.1

/-- A cancellation of every awaited change touches the stimulus records alone. -/
theorem cancelAllAwaited_unproving {s : State} (h : s.unproving) :
    ∃ g, cancelAllAwaited s = { s with ring := g } := by
  have clear : ∀ (l : List (Nat × Nat)) (u : State),
      ∃ g, l.foldl (fun s w => clearAwaited s w.1) u = { u with ring := g } := by
    intro l
    induction l with
    | nil => exact fun u => ⟨u.ring, rfl⟩
    | cons a l ih =>
      intro u
      obtain ⟨g, hg⟩ := ih (clearAwaited u a.1)
      refine ⟨g, ?_⟩
      rw [List.foldl_cons, hg, show clearAwaited u a.1 = { u with ring := (clearAwaited u a.1).ring } by
        unfold clearAwaited; split <;> rfl]
  have report : ∀ (l : List (Nat × Nat)) {u : State}, u.unproving →
      l.foldl (fun s w => reportCancelled w.2 w.1 s) u = u := by
    intro l u hu
    induction l with
    | nil => rfl
    | cons a l ih => rw [List.foldl_cons, reportCancelled_unproving hu, ih]
  unfold cancelAllAwaited
  dsimp only
  obtain ⟨g, hg⟩ := clear
    (s.ring.stimuli.filterMap fun e => e.2.bind fun r => r.awaited.map fun a => (e.1, a.1)) s
  rw [hg]
  exact ⟨g, report _ h⟩

/-- A report of the ring then records the state and does nothing else. -/
theorem reportRing_unproving {s : State} (h : s.unproving) :
    reportRing s = s.mapEngine fun e => { e with ring := s.ring.state } := by
  have h2 : State.unproving (s.mapEngine fun e => { e with ring := s.ring.state }) := h
  have h3 : ctxNumbers.foldl settleStuck (s.mapEngine fun e => { e with ring := s.ring.state })
      = s.mapEngine fun e => { e with ring := s.ring.state } := by
    generalize ctxNumbers = l
    induction l with
    | nil => rfl
    | cons a l ih =>
      rw [List.foldl_cons, show ∀ u : State, u.unproving → settleStuck u a = u from fun u hu => by
        unfold settleStuck; rw [if_neg]; simp [hu.2 a]]
      · exact ih
      · exact h2
  unfold reportRing
  dsimp only
  split
  · rw [voidAll_unproving h2, check_unproving h2]
  · rw [check_unproving h2]
  · split
    · rw [h3, check_unproving h2]
    · rw [check_unproving h2]

/-- A report of the tracker then records the state and does nothing else. -/
theorem reportTrack_unproving {s : State} (h : s.unproving) :
    reportTrack s = s.mapEngine fun e => { e with track := s.tracker.state } := by
  have h2 : State.unproving (s.mapEngine fun e => { e with track := s.tracker.state }) := h
  unfold reportTrack
  dsimp only
  split
  · rw [voidAll_unproving h2, check_unproving h2]
  · rw [check_unproving h2]

/-! ### Changes of state (R10, R39) -/

/-- A change of ring state sends each port one Ring State notice, with both states, the cause, the error count, the
role and T, behind the outcomes and proof ends it brings (R39). -/
theorem changeRing_notified (new : RingState) (cause : RingCause) {u s : State} (hl : s.links = u.links)
    (hq : u.noProof → s.unproving) :
    u.notified (changeRing new cause s) 0x64
      (ringBody new s.ring.state (ringCauseCode cause) s.ring.errors s.ring.role s.time) := by
  let s1 := s.mapRing fun g => { g with state := new }
  let s2 := if new = .lost then cancelAllAwaited s1 else s1
  have body : ∀ t : State, t.ring.state = new → t.ring.errors = s.ring.errors → t.ring.role = s.ring.role →
      t.time = s.time → ringNotice t s.ring.state cause =
        ringBody new s.ring.state (ringCauseCode cause) s.ring.errors s.ring.role s.time := by
    intro t h1 h2 h3 h4; unfold ringNotice ringBody; rw [h1, h2, h3, h4]
  have st1 : s2.steadyPart = s1.steadyPart := by
    show (if new = .lost then _ else _ : State).steadyPart = _
    split
    · exact (steady_closed s1.steadyPart).cancelAllAwaited _ rfl
    · rfl
  have st2 : (reportRing s2).steadyPart = (s2.mapEngine fun e => { e with ring := s2.ring.state }).steadyPart :=
    (steady_closed _).reportRing _ rfl
  have fields : ∀ {α : Type} (f : State → α), (∀ v : State, f v.steadyPart = f v) →
      (∀ v : State, f (v.mapEngine fun e => { e with ring := v.ring.state }) = f v) →
      f (reportRing s2) = f s1 := by
    intro α f hf he; rw [← hf, st2, hf, he, ← hf, st1, hf]
  have told : u.toldOutcomes (reportRing s2) := by
    refine (toldOutcomes_closed u).reportRing s2 ?_
    show u.toldOutcomes s2
    have t1 : u.toldOutcomes s1 := toldOutcomes_of_links hl
    show u.toldOutcomes (if new = .lost then _ else _)
    split
    · exact (toldOutcomes_closed u).cancelAllAwaited _ t1
    · exact t1
  have quiet : u.noProof → (reportRing s2).links = u.links := by
    intro hu
    have h1 : s1.unproving := hq hu
    have h2 : s2.unproving ∧ s2.links = s1.links := by
      show State.unproving (if new = .lost then _ else _ : State) ∧ (if new = .lost then _ else _ : State).links = _
      split
      · obtain ⟨g, hg⟩ := cancelAllAwaited_unproving h1
        rw [hg]; exact ⟨h1, rfl⟩
      · exact ⟨h1, rfl⟩
    rw [reportRing_unproving h2.1]
    exact h2.2.trans hl
  show u.notified (noticeAll 0x64 (ringNotice (reportRing s2) s.ring.state cause) (reportRing s2)) 0x64 _
  rw [body (reportRing s2) (fields (fun t => t.ring.state) (fun _ => rfl) fun _ => rfl)
    (fields (fun t => t.ring.errors) (fun _ => rfl) fun _ => rfl)
    (fields (fun t => t.ring.role) (fun _ => rfl) fun _ => rfl)
    (fields (fun t => t.time) (fun _ => rfl) fun _ => rfl)]
  exact notified_noticeAll 0x64 _ told quiet

/-- A change of tracker state sends each port one Track State notice, with the state, the fault cause and T, behind
the outcomes and proof ends it brings (R10). -/
theorem enterTrack_notified (st : TrackState) {u s : State} (hl : s.links = u.links) (hq : u.noProof → s.unproving) :
    u.notified (enterTrack st s) 0x63 (trackBody st (s.tracker.fault.map (·.cause)) 0 s.time) := by
  let s1 := s.mapTracker fun t => { t with state := st }
  have st2 : (reportTrack s1).steadyPart = (s1.mapEngine fun e => { e with track := s1.tracker.state }).steadyPart :=
    (steady_closed _).reportTrack _ rfl
  have told : u.toldOutcomes (reportTrack s1) :=
    (toldOutcomes_closed u).reportTrack s1 (toldOutcomes_of_links hl)
  have quiet : u.noProof → (reportTrack s1).links = u.links := by
    intro hu
    rw [reportTrack_unproving (s := s1) (hq hu)]; exact hl
  have body : trackNotice (reportTrack s1) .none = trackBody st (s.tracker.fault.map (·.cause)) 0 s.time := by
    have ht : (reportTrack s1).tracker = s1.tracker := by have h := congrArg State.tracker st2; exact h
    have hT : (reportTrack s1).time = s1.time := by have h := congrArg State.time st2; exact h
    unfold trackNotice trackBody
    rw [ht, hT]
    show be 1 (trackCode st) ++ be 1 (match s.tracker.fault with | some f => faultCode f.cause | none => 0) ++ _ ++ _
      = _
    cases s.tracker.fault <;> rfl
  show u.notified (noticeAll 0x63 (trackNotice (reportTrack s1) .none) (reportTrack s1)) 0x63 _
  rw [body]
  exact notified_noticeAll 0x63 _ told quiet

end Sys2Proof.Machine
end

