-- ==== Sys2Proof/Laws/PerInstr.lean ====
section
/-! SUPPORT. The family `Fits`: what every well-formed command carries fits the widest field of R190,
and an order's KIND is one of R192's; one lemma for each constructor of `Instr`. -/

namespace Sys2Proof.Laws.Fits

open Sys2Proof Sys2Proof.Machine

/-- The ten numbers of a geometry order. -/
def geometryNumbers (g : GeometryOrder) : List Nat :=
  [g.carriers, g.pitch, g.home, g.eye, g.revAllow, g.homeTol, g.pitchTol, g.vMin, g.smooth, g.setup]

/-- The numbers that a command carries in its fields. -/
def numbers : Instr → List Nat
  | .powerOnReset _ => []
  | .resetLineReset _ => []
  | .defineElement _ _ i _ _ => [i]
  | .amendElement _ _ i mask _ => [i, mask]
  | .setGeometry _ _ g => geometryNumbers g
  | .fixLayout _ _ => []
  | .releaseLayout _ _ => []
  | .orderProof _ _ o => o.element :: o.k :: o.tLim :: o.articles
  | .addArticles _ _ c l => c :: l
  | .abortProof _ _ c => [c]
  | .lockOut _ _ i => [i]
  | .unlock _ _ i => [i]
  | .clearCarrier _ _ k => [k]
  | .clearTrackFault _ _ => []
  | .ringRestart _ _ => []
  | .setRingRole _ _ _ slots period => [slots, period]
  | .setLapse _ _ seconds => [seconds]
  | .watchPoint _ _ pt => [pt]
  | .unwatch _ _ pt => [pt]
  | .enlist _ _ i => [i]
  | .withdraw _ _ i => [i]
  | .withdrawFaulty _ _ i => [i]
  | .setPacing _ _ g w q => [g, w, q]
  | .setDriveLimit _ _ d => [d]
  | .readElement _ _ i => [i]
  | .readContext _ _ c => [c]
  | .readTrack _ _ => []
  | .readRing _ _ => []
  | .readPoints _ _ _ first number => [first, number]
  | .readReservations _ _ first number => [first, number]
  | .readPort _ _ _ => []
  | .badOrder _ _ => []
  | .receiveError _ _ _ => []
  | .receiveGap _ _ => []
  | .lineTransferDropped _ => []
  | .readTransfer _ => []
  | .frameSent _ => []
  | .forwardCount => []
  | .reverseCount => []
  | .illegalTransition => []
  | .homePulse => []
  | .pitchEyeEdge => []
  | .missingCarrier => []
  | .speedUpdate => []
  | .scannerFrame _ => []
  | .nodeFrame _ => []
  | .originFrame => []
  | .returnExpiry => []
  | .silenceDeadline => []
  | .machineStopAsserted => []
  | .machineStopReleased => []
  | .trialStart _ => []
  | .cueFinalAim _ => []
  | .cueFire _ => []
  | .expectationOpens _ => []
  | .expectationClosePassed _ => []
  | .closingSecondPart _ => []
  | .lapseDeadline _ => []
  | .restEnd _ => []
  | .tachEdge _ => []
  | .currentScan _ => []
  | .quietSpanComplete _ => []
  | .precheckDeadline _ => []
  | .rampDeadline _ => []
  | .motionDeadline _ => []
  | .holdDeadline _ => []
  | .stopQuietReached _ => []
  | .stopDeadline _ => []

/-- A well-formed command's numbers fit four bytes, and an order's KIND lies in 0x01..0x1D. -/
def Statement (i : Instr) : Prop :=
  (i.wf = true → ∀ v ∈ numbers i, v < 256 ^ 4) ∧ ∀ p k, arrivesAs i = some (p, k) → 1 ≤ k ∧ k ≤ 0x1D

/-- The numbers of a well-formed geometry order. -/
theorem geometry_fits (g : GeometryOrder) (h : g.wf = true) : ∀ v ∈ geometryNumbers g, v < 256 ^ 4 := by
  simp only [GeometryOrder.wf, fits, Bool.and_eq_true, decide_eq_true_eq] at h
  simp only [geometryNumbers, List.mem_cons, List.not_mem_nil, or_false]
  omega

/-- The entries of a list field. -/
theorem list_fits {n : Nat} {l : List Nat} (h : carriersFit n l = true) : ∀ v ∈ l, v < 256 ^ 4 := by
  intro v hv
  simp only [carriersFit, Bool.and_eq_true, List.all_eq_true, fits, decide_eq_true_eq] at h
  have := h.2 v hv
  omega

/-- The numbers of a well-formed proof order. -/
theorem proof_fits (o : ProofOrder) (h : o.wf = true) :
    ∀ v ∈ o.element :: o.k :: o.tLim :: o.articles, v < 256 ^ 4 := by
  simp only [ProofOrder.wf, fits, Bool.and_eq_true, decide_eq_true_eq] at h
  simp only [List.mem_cons]
  rintro v (rfl | rfl | rfl | hv)
  · omega
  · omega
  · omega
  · exact list_fits h.2 v hv

/-- The numbers of a well-formed Add Articles. -/
theorem articles_fit {c : Nat} {l : List Nat} (h : (fits 1 c && carriersFit 1 l) = true) :
    ∀ v ∈ c :: l, v < 256 ^ 4 := by
  simp only [fits, Bool.and_eq_true, decide_eq_true_eq] at h
  simp only [List.mem_cons]
  rintro v (rfl | hv)
  · omega
  · exact list_fits h.2 v hv

/-- A field of `n` bytes, at most 4, holds a number below 256 ^ 4. -/
theorem fits_four {n v : Nat} (hn : n ≤ 4) (h : fits n v = true) : v < 256 ^ 4 :=
  lt_of_lt_of_le (of_decide_eq_true h) (Nat.pow_le_pow_right (by decide) hn)

/-- One field. -/
theorem one {n a : Nat} (hn : n ≤ 4) (h : fits n a = true) : ∀ v ∈ [a], v < 256 ^ 4 := by
  simpa using fits_four hn h

/-- One field, with a further check. -/
theorem one_and {n a : Nat} {b : Bool} (hn : n ≤ 4) (h : (fits n a && b) = true) :
    ∀ v ∈ [a], v < 256 ^ 4 := one hn (by simp_all)

/-- Two fields. -/
theorem two {m n a b : Nat} (hm : m ≤ 4) (hn : n ≤ 4) (h : (fits m a && fits n b) = true) :
    ∀ v ∈ [a, b], v < 256 ^ 4 := by
  rw [Bool.and_eq_true] at h
  simpa using And.intro (fits_four hm h.1) (fits_four hn h.2)

/-- Two fields, with a further check. -/
theorem two_and {m n a b : Nat} {c : Bool} (hm : m ≤ 4) (hn : n ≤ 4)
    (h : (fits m a && fits n b && c) = true) : ∀ v ∈ [a, b], v < 256 ^ 4 := two hm hn (by simp_all)

/-- Three fields. -/
theorem three {l m n a b c : Nat} (hl : l ≤ 4) (hm : m ≤ 4) (hn : n ≤ 4)
    (h : (fits l a && fits m b && fits n c) = true) : ∀ v ∈ [a, b, c], v < 256 ^ 4 := by
  rw [Bool.and_eq_true, Bool.and_eq_true] at h
  simpa using And.intro (fits_four hl h.1.1) (And.intro (fits_four hm h.1.2) (fits_four hn h.2))

/-- No field. -/
theorem nothing {a : Prop} (_ : a) : ∀ v ∈ ([] : List Nat), v < 256 ^ 4 := by simp

/-- An event: no KIND and no numbers. -/
theorem event {i : Instr} (hn : numbers i = []) (ho : arrivesAs i = none) : Statement i :=
  ⟨fun _ => by rw [hn]; simp, by simp [ho]⟩

/-- An order of KIND `k`. -/
theorem order {i : Instr} {p : Port} {k : Nat} (ho : arrivesAs i = some (p, k)) (hk : 1 ≤ k ∧ k ≤ 0x1D)
    (hn : i.wf = true → ∀ v ∈ numbers i, v < 256 ^ 4) : Statement i :=
  ⟨hn, by rw [ho]; rintro q l h; cases h; exact hk⟩

theorem powerOnReset (pins : ResetPins) : Statement (.powerOnReset pins) := event rfl rfl
theorem resetLineReset (pins : ResetPins) : Statement (.resetLineReset pins) := event rfl rfl
theorem defineElement (p : Port) (tag : Byte) (i : Nat) (kind : Kind) (block : List Byte) :
    Statement (.defineElement p tag i kind block) :=
  order rfl (by decide) (one_and (by decide))
theorem amendElement (p : Port) (tag : Byte) (i : Nat) (mask : Nat) (block : List Byte) :
    Statement (.amendElement p tag i mask block) :=
  order rfl (by decide) (two_and (by decide) (by decide))
theorem setGeometry (p : Port) (tag : Byte) (g : GeometryOrder) :
    Statement (.setGeometry p tag g) :=
  order rfl (by decide) (geometry_fits g)
theorem fixLayout (p : Port) (tag : Byte) : Statement (.fixLayout p tag) :=
  order rfl (by decide) nothing
theorem releaseLayout (p : Port) (tag : Byte) : Statement (.releaseLayout p tag) :=
  order rfl (by decide) nothing
theorem orderProof (p : Port) (tag : Byte) (o : ProofOrder) : Statement (.orderProof p tag o) :=
  order rfl (by decide) (proof_fits o)
theorem addArticles (p : Port) (tag : Byte) (c : Nat) (carriers : List Nat) :
    Statement (.addArticles p tag c carriers) :=
  order rfl (by decide) articles_fit
theorem abortProof (p : Port) (tag : Byte) (c : Nat) : Statement (.abortProof p tag c) :=
  order rfl (by decide) (one (by decide))
theorem lockOut (p : Port) (tag : Byte) (i : Nat) : Statement (.lockOut p tag i) :=
  order rfl (by decide) (one (by decide))
theorem unlock (p : Port) (tag : Byte) (i : Nat) : Statement (.unlock p tag i) :=
  order rfl (by decide) (one (by decide))
theorem clearCarrier (p : Port) (tag : Byte) (k : Nat) : Statement (.clearCarrier p tag k) :=
  order rfl (by decide) (one (by decide))
theorem clearTrackFault (p : Port) (tag : Byte) : Statement (.clearTrackFault p tag) :=
  order rfl (by decide) nothing
theorem ringRestart (p : Port) (tag : Byte) : Statement (.ringRestart p tag) :=
  order rfl (by decide) nothing
theorem setRingRole (p : Port) (tag : Byte) (role : RingRole) (slots period : Nat) :
    Statement (.setRingRole p tag role slots period) :=
  order rfl (by decide) (two (by decide) (by decide))
theorem setLapse (p : Port) (tag : Byte) (seconds : Nat) : Statement (.setLapse p tag seconds) :=
  order rfl (by decide) (one (by decide))
theorem watchPoint (p : Port) (tag : Byte) (pt : Nat) : Statement (.watchPoint p tag pt) :=
  order rfl (by decide) (one (by decide))
theorem unwatch (p : Port) (tag : Byte) (pt : Nat) : Statement (.unwatch p tag pt) :=
  order rfl (by decide) (one (by decide))
theorem enlist (p : Port) (tag : Byte) (i : Nat) : Statement (.enlist p tag i) :=
  order rfl (by decide) (one (by decide))
theorem withdraw (p : Port) (tag : Byte) (i : Nat) : Statement (.withdraw p tag i) :=
  order rfl (by decide) (one (by decide))
theorem withdrawFaulty (p : Port) (tag : Byte) (i : Nat) : Statement (.withdrawFaulty p tag i) :=
  order rfl (by decide) (one (by decide))
theorem setPacing (p : Port) (tag : Byte) (g w q : Nat) : Statement (.setPacing p tag g w q) :=
  order rfl (by decide) (three (by decide) (by decide) (by decide))
theorem setDriveLimit (p : Port) (tag : Byte) (d : Nat) : Statement (.setDriveLimit p tag d) :=
  order rfl (by decide) (one (by decide))
theorem readElement (p : Port) (tag : Byte) (i : Nat) : Statement (.readElement p tag i) :=
  order rfl (by decide) (one (by decide))
theorem readContext (p : Port) (tag : Byte) (c : Nat) : Statement (.readContext p tag c) :=
  order rfl (by decide) (one (by decide))
theorem readTrack (p : Port) (tag : Byte) : Statement (.readTrack p tag) :=
  order rfl (by decide) nothing
theorem readRing (p : Port) (tag : Byte) : Statement (.readRing p tag) :=
  order rfl (by decide) nothing
theorem readPoints (p : Port) (tag : Byte) (space : Space) (first number : Nat) :
    Statement (.readPoints p tag space first number) :=
  order rfl (by decide) (two (by decide) (by decide))
theorem readReservations (p : Port) (tag : Byte) (first number : Nat) :
    Statement (.readReservations p tag first number) :=
  order rfl (by decide) (two (by decide) (by decide))
theorem readPort (p : Port) (tag : Byte) (named : Port) : Statement (.readPort p tag named) :=
  order rfl (by decide) nothing
theorem badOrder (p : Port) (frame : LinkFrame) : Statement (.badOrder p frame) := event rfl rfl
theorem receiveError (st : Station) (bytes : List Byte) (lineError : Bool) :
    Statement (.receiveError st bytes lineError) :=
  event rfl rfl
theorem receiveGap (st : Station) (bytes : List Byte) : Statement (.receiveGap st bytes) :=
  event rfl rfl
theorem lineTransferDropped (bytes : List Byte) : Statement (.lineTransferDropped bytes) :=
  event rfl rfl
theorem readTransfer (clocked : Nat) : Statement (.readTransfer clocked) := event rfl rfl
theorem frameSent (st : Station) : Statement (.frameSent st) := event rfl rfl
theorem forwardCount : Statement .forwardCount := event rfl rfl
theorem reverseCount : Statement .reverseCount := event rfl rfl
theorem illegalTransition : Statement .illegalTransition := event rfl rfl
theorem homePulse : Statement .homePulse := event rfl rfl
theorem pitchEyeEdge : Statement .pitchEyeEdge := event rfl rfl
theorem missingCarrier : Statement .missingCarrier := event rfl rfl
theorem speedUpdate : Statement .speedUpdate := event rfl rfl
theorem scannerFrame (f : RingFrame) : Statement (.scannerFrame f) := event rfl rfl
theorem nodeFrame (f : RingFrame) : Statement (.nodeFrame f) := event rfl rfl
theorem originFrame : Statement .originFrame := event rfl rfl
theorem returnExpiry : Statement .returnExpiry := event rfl rfl
theorem silenceDeadline : Statement .silenceDeadline := event rfl rfl
theorem machineStopAsserted : Statement .machineStopAsserted := event rfl rfl
theorem machineStopReleased : Statement .machineStopReleased := event rfl rfl
theorem trialStart (c : Fin 16) : Statement (.trialStart c) := event rfl rfl
theorem cueFinalAim (c : Fin 16) : Statement (.cueFinalAim c) := event rfl rfl
theorem cueFire (c : Fin 16) : Statement (.cueFire c) := event rfl rfl
theorem expectationOpens (n : Fin 24) : Statement (.expectationOpens n) := event rfl rfl
theorem expectationClosePassed (n : Fin 24) : Statement (.expectationClosePassed n) := event rfl rfl
theorem closingSecondPart (c : Fin 16) : Statement (.closingSecondPart c) := event rfl rfl
theorem lapseDeadline (st : Station) : Statement (.lapseDeadline st) := event rfl rfl
theorem restEnd (c : Fin 16) : Statement (.restEnd c) := event rfl rfl
theorem tachEdge (ch : Fin 16) : Statement (.tachEdge ch) := event rfl rfl
theorem currentScan (samples : List (BitVec 12)) : Statement (.currentScan samples) := event rfl rfl
theorem quietSpanComplete (c : Fin 16) : Statement (.quietSpanComplete c) := event rfl rfl
theorem precheckDeadline (c : Fin 16) : Statement (.precheckDeadline c) := event rfl rfl
theorem rampDeadline (c : Fin 16) : Statement (.rampDeadline c) := event rfl rfl
theorem motionDeadline (c : Fin 16) : Statement (.motionDeadline c) := event rfl rfl
theorem holdDeadline (c : Fin 16) : Statement (.holdDeadline c) := event rfl rfl
theorem stopQuietReached (c : Fin 16) : Statement (.stopQuietReached c) := event rfl rfl
theorem stopDeadline (c : Fin 16) : Statement (.stopDeadline c) := event rfl rfl

end Sys2Proof.Laws.Fits
end

