-- ==== Sys2Proof/Laws/Stable.lean ====
section
/-! SUPPORT. What a step can do, said once: a property of states that every elementary change of the
block keeps is kept by every step (`Stable.step_`). The elementary changes are listed by the block
they touch, as relations between its values before and after. -/

namespace Sys2Proof.Machine

open Sys2Proof

/-- The elementary changes of the Loop Tracker, beside the advance of travel. -/
inductive TrackerMove (t : Tracker) : Tracker → Prop
  | moving (m : Bool) : TrackerMove t { t with moving := m }
  | state (st : TrackState) : TrackerMove t { t with state := st }
  | fault (r : Option FaultRecord) : TrackerMove t { t with fault := r }
  | levels (a b : Bool) : TrackerMove t { t with encA := a, encB := b }
  | pay : TrackerMove t { t with backlash := t.backlash - 1 }
  | absorb (h : t.backlash < t.active.revAllow) : TrackerMove t { t with backlash := t.backlash + 1 }
  | illegal : TrackerMove t { t with illegal := capAdd 4 t.illegal 1 }
  | clearIllegal : TrackerMove t { t with illegal := 0 }
  | pitchGood : TrackerMove t { t with pitchRun := 0, missing := 0 }
  | pitchBad : TrackerMove t
      { t with pitchTotal := capAdd 65535 t.pitchTotal 1, pitchRun := capAdd 3 t.pitchRun 1, missing := 0 }
  | correct (r : HomeRecord) : TrackerMove t
      { t with
        pos := t.active.home.getD 0, corrections := capAdd 65535 t.corrections 1
        history := pushTail 4 t.history r }
  | applyStaged (g : Geometry) (h : t.staged = some g) : TrackerMove t
      { t with
        active := g, staged := none, backlash := min t.backlash g.revAllow, history := []
        pos := g.home.getD 0 }
  | discard : TrackerMove t { t with staged := none }
  | homeIn : TrackerMove t { t with pos := t.active.home.getD 0, pitchRun := 0, missing := 0 }
  | speed : TrackerMove t
      { t with
        speed := smoothStep (min 65535 (t.travel - t.msTravel) * 256) t.speed t.active.smooth
        msTravel := t.travel, msNext := t.msNext + 1000 }
  | applyNow (o : GeometryOrder) (st : TrackState) (h : orderInRange o = true) : TrackerMove t
      { t with
        active := orderGeometry o, staged := none, pos := 0, backlash := min t.backlash o.revAllow
        state := st }
  | stage (o : GeometryOrder) (h : orderInRange o = true) : TrackerMove t
      { t with staged := some (orderGeometry o) }
  | clearFault : TrackerMove t
      { t with fault := none, backlash := 0, illegal := 0, pitchRun := 0, missing := 0 }

/-- The elementary changes of the I/O Ring Interface, beside output sources and stimulus records. -/
inductive RingMove (g : Ring) : Ring → Prop
  | state (st : RingState) : RingMove g { g with state := st }
  | lose : RingMove g { g with goodRun := 0, silence := none }
  | error (k : RingError) : RingMove g
      { g.countTotal k with errors := capAdd 255 g.errors 8, goodRun := 0 }
  | good : RingMove g { g with errors := g.errors - 1, goodRun := capAdd 64 g.goodRun 1 }
  | recover : RingMove g { g with errors := 0 }
  | restart : RingMove g { g with errors := 0, goodRun := 0, returnDeadline := none, silence := none }
  | interval (l : List Nat) (t : Option Nat) (h : l.length ≤ 8 ∨ l = g.intervals) :
      RingMove g { g with intervals := l, lastArrival := t }
  | pending (d : Option Nat) : RingMove g { g with returnDeadline := d }
  | lastSeq (n : Nat) (h : n < 256) : RingMove g { g with lastSeq := some n }
  | silence (d : Option Nat) : RingMove g { g with silence := d }
  | sent (l : List (Slot × Nat)) (f : Option RingFrame) : RingMove g
      { g with applied := l.foldl (fun t e => Table.set 0 t e.2 e.1.out) g.applied, nodeOut := f }
  | origin (t : Option Nat) : RingMove g
      { g with originSeq := (g.originSeq + 1) % 256, originNext := t }
  | image (pt : Nat) (r : PointRecord) : RingMove g { g with image := Table.set {} g.image pt r }
  | arrival (f : Option RingFrame) : RingMove g { g with ringOut := f, returnDeadline := none }
  | role (r : RingRole) (slots period : Nat) (h : within 1 64 slots = true)
      (hp : within 250 2000 period = true) : RingMove g
      { g with
        role := r, slots := slots, originPeriod := period, intervals := [], lastArrival := none
        originSeq := 0, originNext := none }

/-- The elementary changes of one port's queue and counts, beside notices and replies. -/
inductive LinkMove (l : Link) : Link → Prop
  | overflow : LinkMove l { l with overflow := capAdd 65535 l.overflow 1 }
  | error : LinkMove l { l with rxErrors := capAdd 65535 l.rxErrors 1 }
  | pop : LinkMove l { l with queue := l.queue.tail }
  | patch (n : Nat) (f : LinkFrame) : LinkMove l { l with queue := l.queue.set n f }

/-- The elementary changes of what a Station Port holds beside. -/
inductive StationMove (x : StationLink) : StationLink → Prop
  | good (t : Nat) : StationMove x { x with rx := .hunting, lastFrame := t, lapseJudged := false }
  | hunt : StationMove x { x with rx := .hunting }
  | judged : StationMove x { x with lapseJudged := true }
  | lapse (n : Nat) (h : n ≤ 60) : StationMove x { x with lapse := n }
  | watch (l : List Nat) (h : l.length ≤ 4 ∨ l.length ≤ x.watch.length) : StationMove x { x with watch := l }
  | sent (b : List Byte) : StationMove x { x with tx := b }

/-- The elementary changes of the Drive Monitor, beside the scan set and the current channels. -/
inductive DrivesMove (d : Drives) : Drives → Prop
  | tach (ch : Nat) (x : Tach) : DrivesMove d { d with tach := Table.set {} d.tach ch x }
  | next (t : Nat) : DrivesMove d { d with scanNext := t }
  | limit (n : Nat) : DrivesMove d { d with limit := clampTo 1 4 n }

/-- The elementary changes of the Proof Engine, beside contexts and map. -/
inductive EngineMove (e : Engine) : Engine → Prop
  | track (st : TrackState) : EngineMove e { e with track := st }
  | ring (st : RingState) : EngineMove e { e with ring := st }
  | moving (m : Bool) : EngineMove e { e with moving := m }
  | stop (b : Bool) : EngineMove e { e with stop := b }
  | limit (n : Nat) : EngineMove e { e with limit := clampTo 1 4 n }

/-- A property of states that every elementary change keeps but for resets, the advance of travel and of
time, and the queue of waiting commands. -/
structure Lasting (P : State → Prop) : Prop extends Closed P where
  tracker : ∀ s t, TrackerMove s.tracker t → P s → P (s.mapTracker fun _ => t)
  ring : ∀ s g, RingMove s.ring g → P s → P (s.mapRing fun _ => g)
  engine : ∀ s e, EngineMove s.engine e → P s → P (s.mapEngine fun _ => e)
  drives : ∀ s d, DrivesMove s.drives d → P s → P (s.mapDrives fun _ => d)
  pacing : ∀ s g w q, P s → P (s.mapSched fun x =>
    { x with spacing := clampTo 0 64 g, window := clampTo 1 512 w, allowed := clampTo 1 8 q })
  shift : ∀ s d, P s → P (shiftTravel d s)
  told : ∀ s p k b, P s → P (pushNotice p k b s)
  layout : ∀ s b, P s → P (s.mapTable fun t => { t with layoutFixed := b })
  reply : ∀ s p k t bs, (s.link p).queue.length + bs.length ≤ queueCap p → P s →
    P (queueReply p k t bs s)
  link : ∀ s p f, LinkMove (s.link p) (f (s.link p)) → P s → P (s.mapLink p f)
  station : ∀ s st f, StationMove (s.staLink st) (f (s.staLink st)) → P s → P (s.mapSta st f)
  miso : ∀ s b, P s → P (s.mapLinks fun l => { l with miso := b })

/-- A property of states that every elementary change of the block keeps. -/
structure Stable (P : State → Prop) : Prop extends Lasting P where
  advance : ∀ s, P s → P (s.mapTracker Tracker.advance)
  guards : ∀ s, P s → P (refreshGuards s)
  time : ∀ s, P s → P { s with time := capAdd Config.max48 s.time 1 }
  free : ∀ s n, P s → P { s with freeSeq := n }
  queue : ∀ s l, P s → P { s with pending := l }
  reset : ∀ s pins, P s → P (fullReset pins s)

namespace Lasting

variable {P : State → Prop} (h : Lasting P)
include h

/-! ### The blocks after any of their moves -/

theorem trk (s : State) (f : Tracker → Tracker) (hm : TrackerMove s.tracker (f s.tracker)) (hs : P s) :
    P (s.mapTracker f) := h.tracker s (f s.tracker) hm hs

theorem rng (s : State) (f : Ring → Ring) (hm : RingMove s.ring (f s.ring)) (hs : P s) :
    P (s.mapRing f) := h.ring s (f s.ring) hm hs

theorem eng (s : State) (f : Engine → Engine) (hm : EngineMove s.engine (f s.engine)) (hs : P s) :
    P (s.mapEngine f) := h.engine s (f s.engine) hm hs

theorem drv (s : State) (f : Drives → Drives) (hm : DrivesMove s.drives (f s.drives)) (hs : P s) :
    P (s.mapDrives f) := h.drives s (f s.drives) hm hs

theorem noticeAll (k : Nat) (b : List Byte) (s : State) (hs : P s) : P (noticeAll k b s) :=
  h.told _ _ _ _ (h.told _ _ _ _ (h.told _ _ _ _ hs))

/-! ### Reports -/

theorem voidAll (sel : Context → Bool) (cause : VoidCause) (s : State) (hs : P s) :
    P (voidAll sel cause s) :=
  foldl_keeps (fun s c hs => h.takeOutcome c _ _ s hs) _ s hs

theorem reportTrack (s : State) (hs : P s) : P (reportTrack s) := by
  unfold Machine.reportTrack
  refine h.check _ ?_
  split
  · exact h.voidAll _ _ _ (h.eng s _ (.track _) hs)
  · exact h.eng s _ (.track _) hs

theorem reportGeometry (s : State) (hs : P s) : P (reportGeometry s) :=
  h.settle _ (h.voidAll _ _ _ (h.history s [] (Or.inl (by simp)) hs))

theorem updateMoving (s : State) (hs : P s) : P (updateMoving s) := by
  unfold Machine.updateMoving
  dsimp only
  split
  · exact hs
  · exact h.check _ (h.eng _ _ (.moving _) (h.trk s _ (.moving _) hs))

theorem noticeTrack (ev : GeometryEvent) (s : State) (hs : P s) : P (noticeTrack ev s) :=
  h.noticeAll _ _ _ hs

theorem enterTrack (st : TrackState) (s : State) (hs : P s) : P (enterTrack st s) :=
  h.noticeTrack _ _ (h.reportTrack _ (h.trk s _ (.state st) hs))

theorem enterFault (cause : FaultCause) (d : FaultDetail) (s : State) (hs : P s) :
    P (enterFault cause d s) := h.enterTrack _ _ (h.trk s _ (.fault _) hs)

theorem reportCancelled (c pt : Nat) (s : State) (hs : P s) : P (reportCancelled c pt s) := by
  unfold Machine.reportCancelled
  dsimp only
  split
  · split
    · exact h.ctx _ _ _ hs
    · exact hs
  · exact h.settle _ (h.settlePoint _ _ _ hs)

theorem cancelAllAwaited (s : State) (hs : P s) : P (cancelAllAwaited s) :=
  foldl_keeps (fun s _ hs => h.reportCancelled _ _ s hs) _ _
    (foldl_keeps (fun s _ hs => h.clearAwaited s _ hs) _ s hs)

theorem settleStuck (s : State) (c : Nat) (hs : P s) : P (settleStuck s c) := by
  unfold Machine.settleStuck
  split
  · exact h.askInactive _ _ _ hs
  · exact hs

theorem reportRing (s : State) (hs : P s) : P (reportRing s) := by
  unfold Machine.reportRing
  have h1 : P (s.mapEngine fun e => { e with ring := s.ring.state }) := h.eng s _ (.ring _) hs
  dsimp only
  split
  · exact h.check _ (h.voidAll _ _ _ h1)
  · exact h.check _ h1
  · refine h.check _ ?_
    split
    · exact foldl_keeps (fun s c hs => h.settleStuck s c hs) _ _ h1
    · exact h1

theorem changeRing (new : RingState) (cause : RingCause) (s : State) (hs : P s) :
    P (changeRing new cause s) := by
  unfold Machine.changeRing
  have h1 : P (s.mapRing fun g => { g with state := new }) := h.rng s _ (.state new) hs
  refine h.noticeAll _ _ _ (h.reportRing _ ?_)
  split
  · exact h.cancelAllAwaited _ h1
  · exact h1

theorem loseRing (cause : RingCause) (s : State) (hs : P s) : P (loseRing cause s) :=
  h.changeRing _ _ _ (h.rng s _ .lose hs)

theorem followErrors (s : State) (hs : P s) : P (followErrors s) := by
  unfold Machine.followErrors
  dsimp only
  split
  · exact hs
  · split
    · exact h.loseRing _ _ hs
    · exact h.changeRing _ _ _ hs

theorem ringError (k : RingError) (s : State) (hs : P s) : P (ringError k s) :=
  h.followErrors _ (h.rng s _ (.error k) hs)

theorem ringGood (s : State) (hs : P s) : P (ringGood s) := by
  unfold Machine.ringGood
  have h1 : P (s.mapRing fun g => { g with errors := g.errors - 1, goodRun := capAdd 64 g.goodRun 1 }) :=
    h.rng s _ .good hs
  dsimp only
  split
  · split
    · exact h.changeRing _ _ _ (h.rng _ _ .recover h1)
    · exact h1
  · exact h.followErrors _ h1

theorem restartRing (cause : RingCause) (s : State) (hs : P s) : P (restartRing cause s) := by
  unfold Machine.restartRing
  have h1 : P (s.mapRing fun g =>
      { g with errors := 0, goodRun := 0, returnDeadline := none, silence := none }) :=
    h.rng s _ .restart hs
  dsimp only
  split
  · exact h1
  · exact h.changeRing _ _ _ h1

/-! ### Frames -/

theorem takeInterval (s : State) (hs : P s) : P (takeInterval s) := by
  unfold Machine.takeInterval
  refine h.rng s _ (.interval _ _ ?_) hs
  split
  · split
    · exact Or.inl (pushTail_length _ _ _)
    · exact Or.inr rfl
  · exact Or.inr rfl

theorem renewReturn (s : State) (hs : P s) : P (renewReturn s) := by
  unfold Machine.renewReturn
  dsimp only
  split
  · exact h.rng _ _ (.pending _) (h.ringError _ _ hs)
  · exact h.rng _ _ (.pending _) hs

theorem departStimuli (s : State) (hs : P s) : P (departStimuli s) := by
  refine foldl_keeps (fun s pt hs => ?_) _ s hs
  split
  · exact h.stim _ _ _ hs
  · exact hs

theorem countSuppressed (slots : List Slot) (s : State) (hs : P s) : P (countSuppressed slots s) :=
  foldl_keeps (fun s i hs => h.elem s i _ hs) _ s hs

theorem driveDeparture (c : Nat) (v : StimValue) (s : State) (hs : P s) : P (driveDeparture c v s) := by
  unfold Machine.driveDeparture
  dsimp only
  split
  · split
    · exact h.ctx _ _ _ hs
    · exact h.ctx _ _ _ hs
    · exact hs
  · exact hs

theorem reportDeparture (pt c : Nat) (ch : StimChange) (s : State) (hs : P s) :
    P (reportDeparture pt c ch s) := by
  unfold Machine.reportDeparture
  dsimp only
  split
  · exact h.settlePoint _ _ _ hs
  · exact h.chuteDeparture _ _ hs
  · split
    · exact h.driveDeparture _ _ _ hs
    · exact hs
  · exact hs

theorem openDeparture (relay : Bool) (seq : Byte) (s : State) (hs : P s) :
    P (openDeparture relay seq s) := by
  have h1 : P (s.mapRing fun g => { g with lastSeq := some seq.toNat }) :=
    h.rng s _ (.lastSeq _ seq.isLt) hs
  unfold Machine.openDeparture
  dsimp only
  generalize (s.mapRing fun g => { g with lastSeq := some seq.toNat }) = s1 at h1
  split
  · exact h.rng _ _ (.silence _) h1
  · exact h1

theorem putFrame (count seq : Byte) (sent : List Slot) (s : State) (hs : P s) :
    P (putFrame count seq sent s) := by
  unfold Machine.putFrame
  exact h.rng _ _ (.sent _ _) hs

theorem departFrame (relay : Bool) (count seq : Byte) (slots : List Slot) (s : State) (hs : P s) :
    P (departFrame relay count seq slots s) := by
  have h1 := h.departStimuli _ (h.renewReturn _ (h.openDeparture relay seq _ hs))
  refine foldl_keeps (fun s d hs => h.settle _ (h.reportDeparture _ _ _ _ hs)) _ _ ?_
  cases relay
  · exact h.putFrame _ _ _ _ h1
  · exact h.countSuppressed _ _ (h.putFrame _ _ _ _ h1)

theorem makeOrigin (s : State) (hs : P s) : P (makeOrigin s) :=
  h.departFrame _ _ _ _ _ (h.rng s _ (.origin _) hs)

theorem scannerArrival (f : RingFrame) (s : State) (hs : P s) : P (scannerArrival f s) := by
  unfold Machine.scannerArrival
  split
  · exact hs
  · dsimp only
    split
    · exact h.ringError _ _ (h.takeInterval _ hs)
    · exact h.departFrame _ _ _ _ _ (h.takeInterval _ hs)

theorem noticeEdge (pt : Nat) (level : Bool) (s : State) (hs : P s) : P (noticeEdge pt level s) := by
  have h1 : ∀ (st : Station) (b : List Byte) (s : State), P s →
      P (if pt ∈ (s.staLink st).watch then pushNotice (stationPort st) 0x62 b s else s) := by
    intro st b s hs
    split
    · exact h.told _ _ _ _ hs
    · exact hs
  exact h1 _ _ _ (h1 _ _ _ hs)

theorem takeEdge (s : State) (e : Nat × Bool) (hs : P s) : P (takeEdge s e) :=
  h.noticeEdge _ _ _ (h.judgeEdge h.settle _ _ _ _ _ (h.rng s _ (.image _ _) hs))

theorem nodeArrival (f : RingFrame) (s : State) (hs : P s) : P (nodeArrival f s) := by
  unfold Machine.nodeArrival
  have h1 : P (s.mapRing fun g =>
      { g with ringOut := if g.role = .relay then some f else g.ringOut, returnDeadline := none }) :=
    h.rng s _ (.arrival _) hs
  dsimp only
  split
  · exact h.ringError _ _ h1
  · exact foldl_keeps (fun s e hs => h.takeEdge s e hs) _ _ (h.ringGood _ h1)

/-! ### Drive trials -/

theorem failDrive (c : Nat) (code : FailCode) (dev : Option Int) (s : State) (hs : P s) :
    P (failDrive c code dev s) := h.settle _ (h.takeOutcome _ _ _ _ hs)

theorem putDrive (c : Nat) (r : DriveTrial) (s : State) (hs : P s) : P (putDrive c r s) :=
  h.ctx _ _ _ hs

theorem enterRamp (c : Nat) (r : DriveTrial) (d : DriveDef) (s : State) (hs : P s) :
    P (enterRamp c r d s) := h.ctx _ _ _ (h.requestStimulus _ _ _ _ hs)

theorem tryRamp (c : Nat) (s : State) (hs : P s) : P (tryRamp c s) := by
  unfold Machine.tryRamp
  split
  · split
    · exact h.enterRamp _ _ _ _ hs
    · exact hs
  · exact hs

theorem enterStop (c : Nat) (r : DriveTrial) (d : DriveDef) (s : State) (hs : P s) :
    P (enterStop c r d s) := h.check _ (h.ctx _ _ _ (h.requestStimulus _ _ _ _ hs))

theorem capture (c period : Nat) (s : State) (hs : P s) : P (capture c period s) := by
  unfold Machine.capture
  dsimp only
  split
  · split
    · exact h.putDrive _ _ _ hs
    · exact h.putDrive _ _ _ hs
    · split
      · exact h.failDrive _ _ _ _ hs
      · split
        · exact h.failDrive _ _ _ _ hs
        · exact h.putDrive _ _ _ hs
    · exact hs
  · exact hs

theorem tachRise (ch : Nat) (s : State) (hs : P s) : P (tachRise ch s) := by
  unfold Machine.tachRise
  dsimp only
  split
  · split
    · exact h.capture _ _ _ (h.drv s _ (.tach _ _) hs)
    · exact h.drv s _ (.tach _ _) hs
  · exact h.drv s _ (.tach _ _) hs

theorem precheckSample (c x : Nat) (step : Assist) (r : DriveTrial) (d : DriveDef) (s : State)
    (hs : P s) : P (precheckSample c x step r d s) := by
  unfold Machine.precheckSample
  dsimp only
  split
  · split
    · exact h.failDrive _ _ _ _ (h.putDrive _ _ _ hs)
    · exact h.putDrive _ _ _ hs
  · split
    · exact h.failDrive _ _ _ _ (h.putDrive _ _ _ hs)
    · exact h.tryRamp _ _ (h.putDrive _ _ _ hs)
  · exact hs

theorem filterSample (c ch x : Nat) (r : DriveTrial) (d : DriveDef) (s : State) (hs : P s) :
    P (filterSample c ch x r d s) := by
  unfold Machine.filterSample
  dsimp only
  split
  · exact h.current _ _ _ hs
  · split
    · exact h.failDrive _ _ _ _ (h.putDrive _ _ _ (h.current _ _ _ hs))
    · exact h.putDrive _ _ _ (h.current _ _ _ hs)

theorem convert (ch x : Nat) (s : State) (hs : P s) : P (convert ch x s) := by
  unfold Machine.convert
  dsimp only
  generalize hq : ({ s.currentChan ch with sample := x, sampleTime := s.time, step := _ } : Current) = q
  have h1 : P (s.setCurrent ch q) := h.current _ _ _ hs
  generalize s.setCurrent ch q = s1 at h1 ⊢
  split
  · exact h1
  · split
    · split
      · exact h.precheckSample _ _ _ _ _ _ h1
      · exact h.filterSample _ _ _ _ _ _ h1
    · exact h1

theorem scan_ (f : Nat → Nat) (s : State) (hs : P s) : P (scan f s) :=
  foldl_keeps (fun s _ hs => h.convert _ _ s hs) _ s hs

theorem precheckOver (c : Nat) (s : State) (hs : P s) : P (precheckOver c s) := by
  unfold Machine.precheckOver
  split
  · split
    · exact h.failDrive _ _ _ _ hs
    · exact hs
  · exact hs

theorem rampOver (c : Nat) (s : State) (hs : P s) : P (rampOver c s) := by
  unfold Machine.rampOver
  split
  · split
    · exact h.ctx _ _ _ hs
    · exact hs
  · exact hs

theorem motionOver (c : Nat) (s : State) (hs : P s) : P (motionOver c s) := by
  unfold Machine.motionOver
  split
  · split
    · exact h.failDrive _ _ _ _ hs
    · exact hs
  · exact hs

theorem holdOver (c : Nat) (s : State) (hs : P s) : P (holdOver c s) := by
  unfold Machine.holdOver
  split
  · split
    · split
      · exact h.failDrive _ _ _ _ hs
      · exact h.enterStop _ _ _ _ hs
    · exact hs
  · exact hs

theorem stopQuiet (c : Nat) (s : State) (hs : P s) : P (stopQuiet c s) := by
  unfold Machine.stopQuiet
  split
  · split
    · exact h.settle _ (h.takeOutcome _ _ _ _ hs)
    · exact hs
  · exact hs

theorem stopOver (c : Nat) (s : State) (hs : P s) : P (stopOver c s) := by
  unfold Machine.stopOver
  split
  · split
    · exact h.failDrive _ _ _ _ hs
    · exact hs
  · exact hs

/-! ### Travel, home, pitch eye -/

theorem settleTravel (s : State) (hs : P s) : P (settleTravel s) := by
  refine h.runTravelList _ ?_
  split
  · exact h.runCues _ hs
  · exact hs

theorem countMissing (s : State) (hs : P s) : P (countMissing s) := by
  unfold Machine.countMissing
  dsimp only
  split
  · exact h.enterFault _ _ _ (h.trk s _ .pitchBad hs)
  · exact h.trk s _ .pitchBad hs

theorem shiftCues (e : Int) (s : State) (hs : P s) : P (shiftCues e s) := by
  have h1 := h.history _ (s.sched.history.map (· + e)) (Or.inr (by simp))
    (h.cues s (s.sched.cues.map fun u => { u with due := u.due + e }) (.shift e) hs)
  exact h1

theorem homeCheck (s : State) (hs : P s) : P (homeCheck s) := by
  unfold Machine.homeCheck
  dsimp only
  split
  · split
    · exact h.trk s _ (.correct _) hs
    · exact h.runTravelList _ (h.runCues _ (h.shift _ _ (h.shiftCues _ _ (h.trk s _ (.correct _) hs))))
  · exact h.enterFault _ _ _ hs

theorem applyStagedGeometry (g : Geometry) (s : State) (hg : s.tracker.staged = some g) (hs : P s) :
    P (applyStagedGeometry g s) :=
  h.noticeTrack _ _ (h.reportGeometry _ (h.updateMoving _ (h.trk s _ (.applyStaged g hg) hs)))

theorem discardStaged (s : State) (hs : P s) : P (discardStaged s) :=
  h.noticeTrack _ _ (h.trk s _ .discard hs)

theorem homeIn (s : State) (hs : P s) : P (homeIn s) := h.enterTrack _ _ (h.trk s _ .homeIn hs)

theorem takeHome (s : State) (hs : P s) : P (takeHome s) := by
  unfold Machine.takeHome
  have h1 : P (s.mapTracker fun t => { t with illegal := 0 }) := h.trk s _ .clearIllegal hs
  generalize (s.mapTracker fun t => { t with illegal := 0 }) = s1 at h1
  dsimp only
  split
  · exact h.homeIn _ h1
  · rename_i g _ hg
    refine h.homeIn _ ?_
    split
    · exact h.applyStagedGeometry _ _ hg h1
    · exact h.discardStaged _ h1
  · exact h.homeCheck _ h1
  · rename_i g _ hg
    split
    · exact h.applyStagedGeometry _ _ hg h1
    · exact h.homeCheck _ (h.discardStaged _ h1)
  · exact h1

theorem pitchCheck (s : State) (hs : P s) : P (pitchCheck s) := by
  unfold Machine.pitchCheck
  dsimp only
  split
  · exact h.trk s _ .pitchGood hs
  · split
    · exact h.enterFault _ _ _ (h.trk s _ .pitchBad hs)
    · exact h.trk s _ .pitchBad hs

/-! ### Events of T -/

theorem speedTick (s : State) (hs : P s) : P (speedTick s) := by
  unfold Machine.speedTick
  split
  · exact h.updateMoving _ (h.trk s _ .speed hs)
  · exact hs

theorem scanTick (f : Nat → Nat) (s : State) (hs : P s) : P (scanTick f s) := by
  unfold Machine.scanTick
  split
  · exact h.scan_ _ _ (h.drv s _ (.next _) hs)
  · exact hs

theorem silenceTick (s : State) (hs : P s) : P (silenceTick s) := by
  unfold Machine.silenceTick
  split
  · split
    · exact h.rng s _ (.silence _) hs
    · exact h.loseRing _ _ hs
  · exact hs

theorem returnTick (s : State) (hs : P s) : P (returnTick s) := by
  unfold Machine.returnTick
  split
  · exact h.ringError _ _ (h.rng s _ (.pending _) hs)
  · exact hs

theorem originTick (s : State) (hs : P s) : P (originTick s) := by
  unfold Machine.originTick
  split
  · exact h.makeOrigin _ hs
  · exact hs

theorem restTick (c : Nat) (s : State) (hs : P s) : P (restTick c s) := by
  unfold Machine.restTick
  dsimp only
  split
  · exact h.check _ hs
  · exact hs

theorem lapseOne (st : Station) (r : State × Nat) (c : Nat) (hs : P r.1) : P (lapseOne st r c).1 := by
  unfold Machine.lapseOne
  dsimp only
  split
  · exact h.settle _ (h.enterClosing _ _ _ _ hs)
  · exact hs

theorem lapse_ (st : Station) (s : State) (hs : P s) : P (lapse st s) := by
  unfold Machine.lapse
  dsimp only
  have h1 : P (ctxNumbers.foldl (Machine.lapseOne st) (s, 0)).1 :=
    foldl_keeps_fst (fun r c hr => h.lapseOne st r c hr) _ (s, 0) hs
  generalize ctxNumbers.foldl (Machine.lapseOne st) (s, 0) = r at h1 ⊢
  exact foldl_keeps (fun s p hs => h.told _ _ _ _ hs) _ _ h1

theorem lapseTick (st : Station) (s : State) (hs : P s) : P (lapseTick st s) := by
  unfold Machine.lapseTick
  split
  · have h1 : P (s.mapSta st fun x => { x with lapseJudged := true }) := h.station s st _ .judged hs
    dsimp only
    split
    · exact h1
    · exact h.lapse_ _ _ h1
  · exact hs

theorem driveTick (s : State) (c : Nat) (hs : P s) : P (driveTick s c) := by
  have h1 : P (precheckLate c (Machine.tryRamp c s)) := by
    unfold precheckLate
    split
    · split
      · exact h.tryRamp _ _ hs
      · exact h.precheckOver _ _ (h.tryRamp _ _ hs)
    · exact h.tryRamp _ _ hs
  exact h.stopOver _ _ (h.stopQuiet _ _ (h.holdOver _ _ (h.motionOver _ _ (h.rampOver _ _ h1))))

/-! ### Orders -/

theorem goodFrame (p : Port) (s : State) (hs : P s) : P (goodFrame p s) := by
  unfold Machine.goodFrame
  split
  · exact h.station s _ _ (.good _) hs
  · exact h.miso s _ hs

theorem dropOrder (p : Port) (s : State) (hs : P s) : P (dropOrder p s) :=
  h.link s p _ .overflow hs

/-- An order that changes state, whose effect keeps the property (R185). -/
theorem takeOrder (p : Port) (permitted : Port → Bool) (k : Nat) (tag : Byte)
    {eff : State → State × List Byte} (he : ∀ s, P s → P (eff s).1) (s : State) (hs : P s) :
    P (takeOrder p permitted k tag eff s) := by
  unfold Machine.takeOrder
  have h1 := h.goodFrame p s hs
  generalize Machine.goodFrame p s = s1 at h1
  dsimp only
  split
  · exact h.dropOrder _ _ h1
  · rename_i hr
    have hr : (s1.link p).queue.length + 1 ≤ queueCap p := by simpa [hasRoom] using hr
    split
    · exact h.reply _ _ _ _ _ hr h1
    · have h2 := he _ (h.reply s1 p k tag [[]] hr h1)
      unfold Machine.replyWith
      dsimp only
      generalize (eff (queueReply p k tag [[]] s1)) = r at h2 ⊢
      exact h.link _ _ _ (.patch _ _) h2

/-- An order that changes no state (R185). -/
theorem takeRead (p : Port) (k room : Nat) (tag : Byte) {read : State → List (List Byte)}
    (hr : ∀ t, (read t).length ≤ room) (s : State) (hs : P s) : P (takeRead p k room tag read s) := by
  unfold Machine.takeRead
  have h1 := h.goodFrame p s hs
  generalize Machine.goodFrame p s = s1 at h1
  dsimp only
  split
  · exact h.dropOrder _ _ h1
  · rename_i hq
    have hq : (s1.link p).queue.length + room ≤ queueCap p := by simpa [hasRoom] using hq
    exact h.reply _ _ _ _ _ (by have := hr s1; omega) h1

theorem takeChange (i : Nat) (new : Definition) (s : State) (hs : P s) : P (takeChange i new s) := by
  unfold Machine.takeChange
  split
  · split
    · exact hs
    · exact h.deriveSources _ _ (h.elem _ _ _ (h.installDefinition _ _ _ hs))
  · exact h.deriveSources _ _ (h.installDefinition _ _ _ (h.elem _ _ _ hs))
  · have h1 : P (amendChuteOf i s) := by
      unfold amendChuteOf
      split
      · exact h.elem _ _ _ hs
      · exact hs
    exact h.deriveSources _ _ (h.installDefinition _ _ _ (h.elem _ _ _ h1))
  · exact h.elem _ _ _ hs

theorem changeElement (i : Nat) (c : Candidate) (s : State) (hs : P s) : P (changeElement i c s).1 := by
  unfold Machine.changeElement
  split
  · exact hs
  · exact h.takeChange _ _ _ hs

theorem holdEach (st : ElState) (ho : Holder) (l : List Nat) (s : State) (hs : P s) :
    P (holdEach st ho l s) := foldl_keeps (fun _ _ hs => h.elem _ _ _ hs) _ s hs

theorem holdAll (st : ElState) (ho : Holder) (l : List Nat) (s : State) (hs : P s) :
    P (holdAll st ho l s) := h.deriveSources _ _ (h.holdEach _ _ _ _ hs)

theorem takeProof (c : Nat) (st : Station) (o : ProofOrder) (s : State) (hs : P s) :
    P (takeProof c st o s) := by
  unfold Machine.takeProof
  refine h.check _ (h.setCarriers _ _ _ (h.deriveSources _ _ ?_))
  refine foldl_keeps (fun s i hs => h.elem _ _ _ hs) _ _ ?_
  exact foldl_keeps (fun s i hs => h.elem _ _ _ hs) _ _ (h.ctx _ _ _ hs)

theorem proofEffect (p : Port) (o : ProofOrder) (s : State) (hs : P s) : P (proofEffect p o s).1 := by
  unfold Machine.proofEffect
  split
  · exact hs
  · exact hs
  · exact hs
  · split
    · exact hs
    · split
      · exact hs
      · exact h.takeProof _ _ _ _ hs

theorem articlesEffect (p : Port) (c : Nat) (l : List Nat) (s : State) (hs : P s) :
    P (articlesEffect p c l s).1 := by
  unfold Machine.articlesEffect
  split
  · exact hs
  · have h1 := h.setCarriers l (.article c) _
      (h.ctx s c { s.ctx c with articles := (s.ctx c).articles ++ l } hs)
    dsimp only
    split
    · exact h.check _ h1
    · exact h1

theorem abortEffect (p : Port) (c : Nat) (s : State) (hs : P s) : P (abortEffect p c s).1 := by
  unfold Machine.abortEffect
  split
  · exact hs
  · split
    · exact hs
    · split
      · exact hs
      · exact h.settle _ (h.enterClosing _ _ _ _ hs)

theorem geometryEffect (g : GeometryOrder) (s : State) (hs : P s) : P (geometryEffect g s).1 := by
  unfold Machine.geometryEffect
  split
  · exact hs
  · split
    · exact hs
    · rename_i hg
      have hg : orderInRange g = true := by simpa using hg
      split
      · exact hs
      · split
        · exact hs
        · split
          · dsimp only
            exact h.trk s _ (.stage g hg) hs
          · unfold applyNow
            dsimp only
            refine h.noticeTrack _ _ (h.reportGeometry _ ?_)
            have h1 := h.trk s (fun t =>
              { t with
                active := orderGeometry g, staged := none, pos := 0
                backlash := min t.backlash (orderGeometry g).revAllow
                state := if decide (s.tracker.state = .unset) = true then .unhomed else t.state })
              (.applyNow g _ hg) hs
            generalize (s.mapTracker fun t =>
              { t with
                active := orderGeometry g, staged := none, pos := 0
                backlash := min t.backlash (orderGeometry g).revAllow
                state := if decide (s.tracker.state = .unset) = true then .unhomed else t.state }) = s1 at h1 ⊢
            split
            · exact h.reportTrack _ (h.updateMoving _ h1)
            · exact h.updateMoving _ h1

theorem roleEffect (role : RingRole) (slots period : Nat) (s : State) (hs : P s) :
    P (roleEffect role slots period s).1 := by
  unfold Machine.roleEffect
  split
  · exact hs
  · rename_i hr
    have hr : within 1 64 slots = true ∧ within 250 2000 period = true := by simpa using hr
    split
    · exact hs
    · split
      · exact hs
      · unfold takeRole
        dsimp only
        have h1 := h.restartRing .role _ (h.rng s (fun g =>
          { g with
            role := role, slots := slots, originPeriod := period, intervals := [], lastArrival := none
            originSeq := 0, originNext := none }) (.role role slots period hr.1 hr.2) hs)
        split
        · exact h.makeOrigin _ h1
        · exact h1

theorem setWatch (p : Port) (l : List Nat) (s : State) (hs : P s)
    (hl : l.length ≤ 4 ∨ l.length ≤ (s.watchOf p).length) : P (setWatch p l s) := by
  unfold Machine.setWatch
  split
  · rename_i st hst
    refine h.station s st _ (.watch _ ?_) hs
    simpa [State.watchOf, hst] using hl
  · exact hs

theorem watchEffect (p : Port) (pt : Nat) (s : State) (hs : P s) : P (watchEffect p pt s).1 := by
  unfold Machine.watchEffect
  dsimp only
  split
  · exact hs
  · split
    · exact hs
    · split
      · rename_i hl
        exact h.setWatch _ _ _ hs (Or.inl (by simp; omega))
      · exact hs

theorem unwatchEffect (p : Port) (pt : Nat) (s : State) (hs : P s) : P (unwatchEffect p pt s).1 := by
  unfold Machine.unwatchEffect
  split
  · exact hs
  · exact h.setWatch _ _ _ hs (Or.inr (List.length_filter_le _ _))

theorem assertStop (s : State) (hs : P s) : P (assertStop s) := by
  unfold Machine.assertStop
  refine h.owed _ false ?_
  refine foldl_keeps (fun s c hs => ?_) _ _ ?_
  · unfold quiet
    split
    · exact h.askInactive _ _ _ hs
    · exact hs
  · refine foldl_keeps (fun s c hs => ?_) _ _ (h.voidAll _ _ _ (h.eng s _ (.stop true) hs))
    unfold recordStop
    split
    · exact h.ctx _ _ _ hs
    · exact hs

theorem badFrame (p : Port) (f : LinkFrame) (s : State) (hs : P s) : P (badFrame p f s) := by
  unfold Machine.badFrame
  split
  · exact hs
  · have h1 := h.goodFrame p s hs
    generalize Machine.goodFrame p s = s1 at h1
    dsimp only
    split
    · exact h.dropOrder _ _ h1
    · rename_i hq
      have hq : (s1.link p).queue.length + s1.frameRoom f ≤ queueCap p := by simpa [hasRoom] using hq
      have hf : 1 ≤ s1.frameRoom f := by
        unfold State.frameRoom
        split
        · split <;> omega
        · omega
      exact h.reply _ _ _ _ _ (by simp; omega) h1

theorem dropFrame (st : Station) (s : State) (hs : P s) : P (dropFrame st s) := by
  unfold Machine.dropFrame countReceive
  exact h.link _ _ _ .error (h.station s st _ .hunt hs)

theorem dropTransfer (bytes : List Byte) (s : State) (hs : P s) : P (dropTransfer bytes s) := by
  unfold Machine.dropTransfer countReceive
  split
  · exact h.link _ _ _ .error (h.miso s _ hs)
  · exact h.link s _ _ .error hs

theorem readOut (n : Nat) (s : State) (hs : P s) : P (readOut n s) := by
  unfold Machine.readOut
  dsimp only
  split
  · exact h.link _ _ _ .pop (h.miso s _ hs)
  · exact h.miso s _ hs

theorem sendHead (st : Station) (s : State) (hs : P s) : P (sendHead st s) := by
  unfold Machine.sendHead
  split
  · exact hs
  · rename_i f l hq
    have h1 := h.link s (stationPort st) (fun x => { x with queue := l })
      (by
        have : l = (s.link (stationPort st)).queue.tail := by rw [hq]; rfl
        rw [this]; exact .pop) hs
    exact h.station _ _ _ (.sent _) h1

theorem moveLevels (f : Bool × Bool → Bool × Bool) (s : State) (hs : P s) : P (moveLevels f s) := by
  unfold Machine.moveLevels
  exact h.trk s _ (.levels _ _) hs

theorem backward (s : State) (hs : P s) : P (backward s) := by
  unfold Machine.backward
  split
  · rename_i hb
    exact h.trk s _ (.absorb hb) hs
  · split
    · exact h.enterFault _ _ _ hs
    · exact hs

theorem illegal_ (s : State) (hs : P s) : P (illegal s) := by
  unfold Machine.illegal
  dsimp only
  split
  · exact h.enterFault _ _ _ (h.trk s _ .illegal hs)
  · exact h.trk s _ .illegal hs

/-! ### The step -/

/-- Every command but the resets and FORWARD_COUNT keeps a lasting property. -/
theorem exec_ (i : Instr) (s t : State) (hr : isReset i = false) (hf : i ≠ .forwardCount) (hs : P s)
    (he : exec i s = .next t) : P t := by
  cases i <;> simp only [exec] at he
  case powerOnReset pins => simp [isReset] at hr
  case resetLineReset pins => simp [isReset] at hr
  case defineElement p tag i kind block =>
    cases he
    refine h.takeOrder _ _ _ _ (fun s hs => ?_) _ hs
    unfold defineEffect
    split
    · exact hs
    · split
      · exact hs
      · exact h.changeElement _ _ _ hs
  case amendElement p tag i mask block =>
    cases he
    refine h.takeOrder _ _ _ _ (fun s hs => ?_) _ hs
    unfold amendEffect
    split
    · exact hs
    · split
      · exact hs
      · split
        · exact hs
        · exact h.changeElement _ _ _ hs
  case setGeometry p tag g => cases he; exact h.takeOrder _ _ _ _ (h.geometryEffect g) _ hs
  case fixLayout p tag =>
    cases he
    refine h.takeOrder _ _ _ _ (fun s hs => ?_) _ hs
    unfold fixEffect
    split
    · exact hs
    · split
      · exact hs
      · exact h.layout _ _ hs
  case releaseLayout p tag =>
    cases he
    refine h.takeOrder _ _ _ _ (fun s hs => ?_) _ hs
    unfold releaseEffect
    split
    · exact hs
    · exact h.layout _ _ hs
  case orderProof p tag o => cases he; exact h.takeOrder _ _ _ _ (h.proofEffect p o) _ hs
  case addArticles p tag c l => cases he; exact h.takeOrder _ _ _ _ (h.articlesEffect p c l) _ hs
  case abortProof p tag c => cases he; exact h.takeOrder _ _ _ _ (h.abortEffect p c) _ hs
  case lockOut p tag i =>
    cases he
    refine h.takeOrder _ _ _ _ (fun s hs => ?_) _ hs
    unfold lockEffect
    split
    · exact hs
    · split
      · exact hs
      · exact hs
      · exact hs
      · exact hs
      · exact h.holdAll _ _ _ _ hs
  case unlock p tag i =>
    cases he
    refine h.takeOrder _ _ _ _ (fun s hs => ?_) _ hs
    unfold unlockEffect
    split
    · exact hs
    · split
      · exact hs
      · exact hs
      · exact hs
      · split
        · exact h.holdAll _ _ _ _ hs
        · exact hs
      · exact hs
  case clearCarrier p tag k =>
    cases he
    refine h.takeOrder _ _ _ _ (fun s hs => ?_) _ hs
    unfold clearEffect
    split
    · exact hs
    · generalize ((match s.carrier k with | .article _ => true | _ => false) || s.inFlight k) = b
      cases b
      · exact h.carrier _ _ _ hs
      · exact hs
  case clearTrackFault p tag =>
    cases he
    refine h.takeOrder _ _ _ _ (fun s hs => ?_) _ hs
    unfold clearFaultEffect
    split
    · dsimp only
      exact h.enterTrack _ _ (h.trk s _ .clearFault hs)
    · exact hs
  case ringRestart p tag => cases he; exact h.takeOrder _ _ _ _ (fun s hs => h.restartRing _ s hs) _ hs
  case setRingRole p tag role slots period =>
    cases he; exact h.takeOrder _ _ _ _ (h.roleEffect role slots period) _ hs
  case setLapse p tag seconds =>
    cases he
    refine h.takeOrder _ _ _ _ (fun s hs => ?_) _ hs
    unfold setLapseEffect
    split
    · exact hs
    · rename_i hl
      split
      · dsimp only
        exact h.station s _ _ (.lapse seconds (by omega)) hs
      · exact hs
  case watchPoint p tag pt => cases he; exact h.takeOrder _ _ _ _ (h.watchEffect p pt) _ hs
  case unwatch p tag pt => cases he; exact h.takeOrder _ _ _ _ (h.unwatchEffect p pt) _ hs
  case enlist p tag i =>
    cases he
    refine h.takeOrder _ _ _ _ (fun s hs => ?_) _ hs
    unfold enlistEffect
    split
    · exact hs
    · split
      · exact hs
      · split
        · exact hs
        · split
          · exact hs
          · split
            · exact hs
            · exact h.holdAll _ _ _ _ hs
  case withdraw p tag i =>
    cases he
    refine h.takeOrder _ _ _ _ (fun s hs => ?_) _ hs
    unfold withdrawEffect
    split
    · exact hs
    · split
      · exact hs
      · exact h.holdAll _ _ _ _ hs
  case withdrawFaulty p tag i =>
    cases he
    refine h.takeOrder _ _ _ _ (fun s hs => ?_) _ hs
    unfold faultyEffect
    split
    · exact hs
    · split
      · exact hs
      · exact h.deriveSources _ _ (h.elem _ _ _ (h.holdEach _ _ _ _ hs))
  case setPacing p tag g w q => cases he; exact h.takeOrder _ _ _ _ (fun s hs => h.pacing s g w q hs) _ hs
  case setDriveLimit p tag d =>
    cases he
    refine h.takeOrder _ _ _ _ (fun s hs => ?_) _ hs
    exact h.check _ (h.eng _ _ (.limit d) (h.drv s _ (.limit d) hs))
  case readElement p tag i =>
    cases he
    exact h.takeRead _ _ _ _ (fun t => by unfold elementReply; split <;> simp) _ hs
  case readContext p tag c =>
    cases he
    have hc : (Machine.goodFrame p s).ctx c = s.ctx c := by
      unfold Machine.goodFrame
      split <;> rfl
    unfold Machine.takeRead
    have h1 := h.goodFrame p s hs
    dsimp only
    split
    · exact h.dropOrder _ _ h1
    · rename_i hq
      refine h.reply _ _ _ _ _ ?_ h1
      have hq : ((Machine.goodFrame p s).link p).queue.length + s.contextRoom c ≤ queueCap p := by
        simpa [hasRoom] using hq
      unfold State.contextRoom at hq
      unfold contextReply contextBodies
      rw [hc]
      split
      · rename_i h15
        rw [if_neg (by omega)] at hq
        simp only [List.length_singleton]
        omega
      · split
        · rename_i h15 hfree
          rw [if_pos ⟨by omega, hfree⟩] at hq
          simpa using hq
        · rename_i h15 hfree
          rw [if_neg (by tauto)] at hq
          simpa using hq
  case readTrack p tag => cases he; exact h.takeRead _ _ _ _ (fun t => by simp) _ hs
  case readRing p tag => cases he; exact h.takeRead _ _ _ _ (fun t => by simp) _ hs
  case readPoints p tag space first number =>
    cases he; exact h.takeRead _ _ _ _ (fun t => by unfold pointsReply; split <;> simp) _ hs
  case readReservations p tag first number =>
    cases he
    refine h.takeRead _ _ _ _ (fun t => ?_) _ hs
    unfold reservationsReply
    split
    · simp
    · split <;> simp
  case readPort p tag q => cases he; exact h.takeRead _ _ _ _ (fun t => by simp) _ hs
  case badOrder p f => cases he; exact h.badFrame _ _ _ hs
  case receiveError st bytes e =>
    cases he
    unfold receiveBad
    dsimp only
    split
    · exact h.dropFrame _ _ hs
    · exact hs
  case receiveGap st bytes =>
    cases he
    unfold receiveStall
    dsimp only
    split
    · exact h.dropFrame _ _ hs
    · exact hs
  case lineTransferDropped bytes =>
    cases he
    split
    · exact h.dropTransfer _ _ hs
    · exact hs
  case readTransfer n => cases he; exact h.readOut _ _ hs
  case frameSent st => cases he; exact h.sendHead _ _ hs
  case forwardCount => exact absurd rfl hf
  case reverseCount => cases he; exact h.backward _ (h.moveLevels _ _ hs)
  case illegalTransition => cases he; exact h.illegal_ _ (h.moveLevels _ _ hs)
  case homePulse =>
    cases he
    split
    · exact hs
    · exact h.takeHome _ hs
  case pitchEyeEdge =>
    cases he
    split
    · exact h.pitchCheck _ hs
    · exact hs
  case missingCarrier =>
    cases he
    split
    · exact h.countMissing _ hs
    · exact hs
  case speedUpdate => cases he; exact h.speedTick _ hs
  case scannerFrame f => cases he; exact h.scannerArrival _ _ hs
  case nodeFrame f => cases he; exact h.nodeArrival _ _ hs
  case originFrame => cases he; exact h.originTick _ hs
  case returnExpiry => cases he; exact h.returnTick _ hs
  case silenceDeadline => cases he; exact h.silenceTick _ hs
  case machineStopAsserted =>
    cases he
    split
    · exact hs
    · exact h.assertStop _ hs
  case machineStopReleased =>
    cases he
    split
    · exact h.check _ (h.eng s _ (.stop false) hs)
    · exact hs
  case trialStart c =>
    cases he
    split
    · exact h.settle _ (h.startTrial _ _ hs)
    · exact hs
  case cueFinalAim c =>
    cases he
    split
    · split
      · exact h.runCues _ hs
      · exact hs
    · exact hs
  case cueFire c =>
    cases he
    split
    · split
      · exact h.beginExam _ (h.settle _ (h.fireCue _ _ hs))
      · exact hs
    · exact hs
  case expectationOpens n =>
    cases he
    split
    · split
      · exact h.settle _ (h.examine _ _ hs)
      · exact hs
    · exact hs
  case expectationClosePassed n =>
    cases he
    split
    · split
      · exact h.settle _ (h.examine _ _ hs)
      · exact hs
    · exact hs
  case closingSecondPart c =>
    cases he
    split
    · exact h.settle _ (h.secondPart _ _ hs)
    · exact hs
  case lapseDeadline st => cases he; exact h.lapseTick _ _ hs
  case restEnd c => cases he; exact h.restTick _ _ hs
  case tachEdge ch => cases he; exact h.tachRise _ _ hs
  case currentScan l => cases he; exact h.scanTick _ _ hs
  case quietSpanComplete c => cases he; exact h.tryRamp _ _ hs
  case precheckDeadline c => cases he; exact h.precheckOver _ _ hs
  case rampDeadline c => cases he; exact h.rampOver _ _ hs
  case motionDeadline c => cases he; exact h.motionOver _ _ hs
  case holdDeadline c => cases he; exact h.holdOver _ _ hs
  case stopQuietReached c => cases he; exact h.stopQuiet _ _ hs
  case stopDeadline c => cases he; exact h.stopOver _ _ hs

end Lasting

namespace Stable

variable {P : State → Prop} (h : Stable P)
include h

theorem advanceTravel (s : State) (hs : P s) : P (advanceTravel s) := by
  refine h.guards _ ?_
  split
  · exact h.beginExam _ (h.pruneHistory _ (h.advance s hs))
  · exact h.advance s hs

theorem freeScan (s : State) (hs : P s) : P (freeScan s) := by
  unfold Machine.freeScan
  split
  · exact h.scanTick _ _ (h.free s _ hs)
  · exact h.scanTick _ _ hs

theorem settleTime (s : State) (hs : P s) : P (settleTime s) := by
  have h1 := h.originTick _ (h.returnTick _ (h.silenceTick _ (h.freeScan _ (h.speedTick s hs))))
  have h2 := foldl_keeps (f := Machine.driveTick) (fun s c hs => h.driveTick s c hs) ctxNumbers _
    (h.runTimeList _ h1)
  exact h.lapseTick _ _ (h.lapseTick _ _
    (foldl_keeps (f := fun s c => Machine.restTick c s) (fun s c hs => h.restTick c s hs) ctxNumbers _ h2))

theorem tick_ (s : State) (hs : P s) : P (tick s) :=
  h.guards _ (h.time _ (h.settleTime _ (h.settleTravel _ hs)))

theorem forward (s : State) (hs : P s) : P (forward s) := by
  unfold Machine.forward
  split
  · exact h.trk s _ .pay hs
  · have h1 := h.advanceTravel _ (h.settleTravel _ hs)
    dsimp only
    split
    · exact h.countMissing _ h1
    · exact h1

/-- Every command keeps a stable property. -/
theorem exec_ (i : Instr) (s t : State) (hs : P s) (he : exec i s = .next t) : P t := by
  by_cases hr : isReset i = false
  · by_cases hf : i = .forwardCount
    · subst hf
      cases he
      exact h.forward _ (h.moveLevels _ _ hs)
    · exact h.toLasting.exec_ i s t hr hf hs he
  · cases i <;> simp [isReset] at hr
    · cases he; exact h.reset _ _ hs
    · cases he; exact h.reset _ _ hs

/-- Every step keeps a stable property. -/
theorem step_ (s t : State) (hs : P s) (he : step s = .next t) : P t := by
  unfold step at he
  split at he
  · have ht : tick s = t := by injection he
    exact ht ▸ h.tick_ s hs
  · exact h.exec_ _ _ _ (h.queue s _ hs) he

end Stable

end Sys2Proof.Machine
end

