-- ==== Sys2Proof/Tests/Slice0.lean ====
section
/-! SUPPORT. Tests: ill-formed terms are refused, the CRC gives its published check value, small steps
answer what the rules say, and for every statement with hypotheses a named theorem shows a state and operands
that meet them. -/

namespace Sys2Proof.Tests

open Sys2Proof Sys2Proof.Machine

/-! ### A small plant: eight carriers of 32 counts, one chute with two eyes, two sensors, one drive -/

/-- A geometry with L = 256. -/
def geo : Geometry :=
  { carriers := some 8, pitch := some 32, home := some 10, eye := some 3, revAllow := 2, homeTol := 4
    pitchTol := 2, vMin := 1, smooth := 3, setup := 64 }

/-- An eye of chute 0 on input point `pt`. -/
def eye (pt : Nat) : SensorDef :=
  { input := pt, blockedHigh := true, mode := .attached, coord := 0, tol := 0, depart := 0, attachedTo := some 0 }

/-- Chute 0. -/
def chute : ChuteDef :=
  { coord := 200, discharge := 40, activeHigh := true, entryEye := 1, fullEye := some 2, latency := 0
    pulse := 10, winOpen := 0, winClose := 100, clearLimit := 100, companions := [5] }

/-- A sensor of its own on input point `pt`. -/
def gauge (mode : Mode) (pt : Nat) : SensorDef :=
  { input := pt, blockedHigh := true, mode := mode, coord := 5, tol := 4, depart := 30, attachedTo := none }

/-- Drive 5. -/
def drive : DriveDef :=
  { run := 41, reverse := some 42, activeHigh := true, tach := 1, current := some 2, accel := 10, hold := 10
    stop := 10, rest := 0, bandMin := 50, bandMax := 60, limit := 100, filter := 1, companions := [] }

/-- The definitions of elements 0 to 5. -/
def definitions : List Definition :=
  [.chute chute, .sensor (eye 0), .sensor (eye 1), .sensor (gauge .carrier 2), .sensor (gauge .article 3),
    .drive drive]

/-- The six records, each in state `st` with holder `h`. -/
def records (st : ElState) (h : Holder) : Table Element :=
  definitions.zipIdx.map fun d => (d.2, { definition := d.1, state := st, holder := h })

/-- The plant at rest: homed, moving, ring GOOD, every element UNPROVEN, no proof. -/
def plant : State :=
  { tracker := { active := geo, state := .tracking, pos := 20, travel := 5000, speed := 256, moving := true }
    ring := { state := .good }
    table := { records := records .unproven .none }
    engine := { ring := .good, track := .tracking, moving := true } }

/-- The plant with every element in state `st` with holder `h`, the layout fixed. -/
def plantIn (st : ElState) (h : Holder) : State :=
  { plant with table := { records := records st h, layoutFixed := true } }

/-- The plant before its first home. -/
def unhomed : State :=
  { plant with
    tracker := { plant.tracker with state := .unhomed }, engine := { plant.engine with track := .unhomed } }

/-- A proof of chute 0, PAUSED. -/
def chuteProof : Context :=
  { state := .paused, element := 0, kind := .chute, claim := [(0, .unproven), (1, .unproven), (2, .unproven)]
    companions := [5], k := 1, tLim := 3, articles := [2] }

/-- A proof of sensor 3, PAUSED. -/
def sensorProof : Context :=
  { state := .paused, element := 3, kind := .sensor, mode := some .carrier, claim := [(3, .unproven)], k := 1
    tLim := 3 }

/-- A proof of sensor 4 with carrier 2, PAUSED. -/
def articleProof : Context :=
  { sensorProof with element := 4, mode := some .article, claim := [(4, .unproven)], articles := [2] }

/-- A proof of drive 5, PAUSED. -/
def driveProof : Context :=
  { state := .paused, element := 5, kind := .drive, claim := [(5, .unproven)], k := 1, tLim := 3 }

/-- The plant with context 3 as given. -/
def proving (x : Context) : State := plant.setCtx 3 x

/-- A cue of context 3 on output point 40. -/
def cueAt (due : Int) (aimed : Bool) : Cue :=
  { ctx := 3, element := 0, due := due, point := 40, activeHigh := true, width := 10, carrier := 1, lead := 20
    retries := 0, aimed := aimed }

/-- An entry of context 3 on input point 0 whose open is 5000 and whose close is `close`. -/
def entry0 (kind : ExpKind) (role : Role) (ph : WinPhase) (close : Int) : Entry :=
  { num := 7, ctx := 3, point := 0, kind := kind, level := true, base := .travel, guardAt := 4990, openAt := 5000
    closeAt := close, nominal := 5000, phase := ph, role := role }

/-- The plant with Machine Stop asserted. -/
def stopped : State := { plant with engine := { plant.engine with stop := true } }

/-- The state that a command leaves. -/
def after (s : State) (c : Instr) : State := match exec c s with | .next t => t | _ => s

/-! ### Well-formedness refuses ill-formed terms -/

theorem test_field_too_wide : (Instr.lockOut .sta 0 65536).wf = false := by decide
theorem test_byte_too_wide : (Instr.abortProof .sta 0 256).wf = false := by decide
theorem test_mask_too_wide : (Instr.amendElement .sta 0 1 (2 ^ 32) (List.replicate 36 0)).wf = false := by
  decide
theorem test_block_too_short : (Instr.defineElement .sta 0 1 .chute []).wf = false := by decide
theorem test_geometry_too_wide :
    (Instr.setGeometry .sta 0
      { carriers := 8, pitch := 65536, home := 0, eye := 0, revAllow := 0, homeTol := 0, pitchTol := 1, vMin := 0
        smooth := 0, setup := 16 }).wf = false := by decide
/-- R191: a body of 248 bytes holds 120 carriers of Order Proof (6 bytes before the count) and 123 of Add Articles
(1 byte before it). -/
theorem test_list_too_long :
    [123, 124].map (fun n => (Instr.addArticles .sta 0 1 (List.replicate n 0)).wf) = [true, false]
      ∧ [120, 121].map (fun n =>
        (Instr.orderProof .sta 0
          { element := 0, k := 1, tLim := 3, notice := false, reverse := false
            articles := List.replicate n 0 }).wf) = [true, false] := by
  decide +kernel
/-- R191: the longest Add Articles, with 123 carriers, is decoded as the order it spells. -/
theorem test_longest_list :
    decodeOrder .sta { kind := 0x07, tag := 9, body := 5 :: 123 :: List.replicate 246 0 } =
      some (.addArticles .sta 9 5 (List.replicate 123 0)) := by
  decide +kernel
theorem test_list_entry_too_wide : (Instr.addArticles .sta 0 1 [65536]).wf = false := by decide
theorem test_proof_too_wide :
    (Instr.orderProof .sta 0
      { element := 0, k := 256, tLim := 3, notice := false, reverse := false, articles := [] }).wf = false := by
  decide
theorem test_ring_frame_too_short :
    (Instr.scannerFrame { count := 2, seq := 0, slots := [], crc := 0 }).wf = false := by decide
theorem test_body_too_long :
    (Instr.badOrder .sta { kind := 0, tag := 0, body := List.replicate 249 0 }).wf = false := by
  decide +kernel
theorem test_frame_too_long : (Instr.receiveGap .sta (List.replicate 255 0)).wf = false := by
  decide +kernel
theorem test_empty_transfer : (Instr.lineTransferDropped []).wf = false := by decide
theorem test_no_clock : (Instr.readTransfer 0).wf = false := by decide
theorem test_samples_missing : (Instr.currentScan []).wf = false := by decide
theorem test_order_well_formed : (Instr.setRingRole .sta 0 .origin 64 2000).wf = true := by decide

/-! ### Bytes, CRC and codes -/

/-- The CRC of the nine characters 123456789 is 0x29B1 (the published check value of this CRC-16). -/
theorem test_crc_check : crc16 [0x31, 0x32, 0x33, 0x34, 0x35, 0x36, 0x37, 0x38, 0x39] = 0x29B1#16 := by
  decide +kernel
theorem test_high_byte_first : be 3 0x010203 = [1, 2, 3] := by decide

theorem test_plant_canonical : plant.canonical = true := by decide
theorem test_proof_canonical : (proving chuteProof).canonical = true := by decide
theorem test_plant_in_range : plant.inRange = true := by decide

/-! ### Witnesses: the step, the resets, the invariants -/

theorem witness_StepRunsTheFrontCommand :
    ({ plant with pending := [.forwardCount, .homePulse] } : State).pending = .forwardCount :: [.homePulse] := rfl

theorem witness_TimePassesOnIdleStepsAlone :
    ({ plant with time := 2 ^ 48 - 1 } : State).pending = [] ∧ isReset .forwardCount = false
      ∧ exec .forwardCount plant = .next (after plant .forwardCount) := ⟨rfl, rfl, rfl⟩

theorem witness_TravelMovesByForwardCounts :
    isReset .homePulse = false ∧ Instr.homePulse ≠ .forwardCount
      ∧ exec .homePulse plant = .next (after plant .homePulse) := ⟨rfl, by decide, rfl⟩

/-- The pins of a reset with one strap each way. -/
def pins : ResetPins := { strapA := .heldLow, strapB := .heldHigh, machineStop := true, encA := true, encB := false }

theorem witness_ResetLeavesTracker :
    Instr.resetLineReset pins = .powerOnReset pins ∨ Instr.resetLineReset pins = .resetLineReset pins := .inr rfl
theorem witness_ResetLeavesRing :
    Instr.powerOnReset pins = .powerOnReset pins ∨ Instr.powerOnReset pins = .resetLineReset pins := .inl rfl
theorem witness_ResetLeavesTheRest :
    Instr.powerOnReset pins = .powerOnReset pins ∨ Instr.powerOnReset pins = .resetLineReset pins := .inl rfl

theorem witness_StepsKeepTablesCanonical : plant.canonical = true ∧ step plant = .next (tick plant) :=
  ⟨by decide, rfl⟩
theorem witness_StepsKeepRanges : plant.inRange = true ∧ step plant = .next (tick plant) := ⟨by decide, rfl⟩
theorem witness_StepsKeepListsAscending :
    (plant.monitor.ascending ∧ step plant = .next (tick plant))
      ∧ (let s : State := { plant with sched := { cues := [cueAt 5032 true, cueAt 5032 false, cueAt 5090 false] } };
        cuesAscend s.sched.cues ∧ step s = .next (tick s)) := by
  refine ⟨⟨⟨.nil, .nil⟩, rfl⟩, ?_, rfl⟩
  unfold cuesAscend; decide
theorem witness_StepsOweNoCheck : plant.engine.checkOwed = false ∧ step plant = .next (tick plant) := ⟨rfl, rfl⟩

/-! ### Witnesses: the Order Desk -/

/-- The plant with `n` frames waiting on every port. -/
def busy (n : Nat) : State :=
  let q : List LinkFrame := List.replicate n { kind := 0x97, tag := 0, body := [] }
  { plant with links := { linkA := { queue := q }, linkB := { queue := q }, linkL := { queue := q } } }

theorem witness_EnvelopeRoundTrip :
    ({ kind := 0x18, tag := 7, body := List.replicate 248 5 } : LinkFrame).body.length ≤ 248 := by decide +kernel

theorem witness_OrdersNeedRoomAndPermission :
    (arrivesAs (.fixLayout .sta 9) = some (.sta, 0x04) ∧ ((busy 16).link .sta).queue.length = queueCap .sta)
      ∧ (arrivesAs (.unwatch .line 9 0) = some (.line, 0x11) ∧ (busy 7).room .line
        ∧ permittedFrom 0x11 .line = false)
      ∧ (arrivesAs (.enlist .stb 9 0) = some (.stb, 0x12) ∧ (busy 15).room .stb
        ∧ permittedFrom 0x12 .stb = false)
      ∧ queueCap .sta < ((busy 15).link .sta).queue.length
          + (if 15 ≤ 15 ∧ ((busy 15).ctx 15).state = .free then 2 else 3)
      ∧ (let s := (busy 6).setCtx 0 driveProof;
        queueCap .line < (s.link .line).queue.length + (if 0 ≤ 15 ∧ (s.ctx 0).state = .free then 2 else 3))
      ∧ queueCap .stb < ((busy 14).link .stb).queue.length
          + (if 16 ≤ 15 ∧ ((busy 14).ctx 16).state = .free then 2 else 3) := by
  unfold State.room; decide

theorem witness_OrdersAreAnsweredFirst :
    arrivesAs (.readContext .line 9 0) = some (.line, 0x18)
      ∧ ((busy 5).link .line).queue.length + 3 ≤ queueCap .line ∧ permittedFrom 0x18 .line = true := by decide

/-! ### Witnesses: the Element Table -/

/-- A second chute with one eye, element 8. -/
def chute2 : ChuteDef := { chute with discharge := 50, entryEye := 8, fullEye := none, companions := [3] }

/-- The plant with an eye at element 8 that no chute names. -/
def spare : State := plant.setElem 8 { definition := .sensor { eye 5 with attachedTo := none }, state := .unproven }

/-- No check of R55 applies to a candidate that the model does not refuse. -/
theorem no_check {s : State} {i : Nat} {c : Candidate} (h : s.canonical = true) (hn : s.candidateFault i c = none) :
    ∀ x ∈ s.changeChecks i c, ¬ x.1 := (candidateFault_none_iff h i c).1 hn

theorem witness_DefineElementDefinesOrRemoves :
    (fromStation .sta = true ∧ spare.room .sta ∧ spare.canonical = true
      ∧ ¬ (Kind.chute = .sensor ∧ blockMode (blockImage (.chute chute2)) = none) ∧ ¬ 1023 < 1023
      ∧ (∀ x ∈ spare.changeChecks 1023 (defineCandidate .none .chute (blockImage (.chute chute2))), ¬ x.1)
      ∧ Kind.chute ≠ .none ∧ (spare.elem 1023).state = .empty ∧ (spare.elem 1023).definition = .none)
      ∧ (fromStation .stb = true ∧ plant.room .stb ∧ plant.canonical = true ∧ ¬ 1023 < 0
        ∧ (∀ x ∈ plant.changeChecks 0 (defineCandidate (plant.elem 0).definition .none []), ¬ x.1)
        ∧ (plant.elem 0).state ≠ .empty)
      ∧ (∀ x ∈ plant.changeChecks 9 (defineCandidate (plant.elem 9).definition .none []), ¬ x.1)
      ∧ (plant.elem 9).state = .empty :=
  ⟨⟨rfl, by unfold State.room; decide, by decide, by decide, by decide,
      no_check (by decide) (by decide), by decide, rfl, rfl⟩,
    ⟨rfl, by unfold State.room; decide, by decide, by decide, no_check (by decide) (by decide), by decide⟩,
    no_check (by decide) (by decide), rfl⟩

theorem witness_AmendElementAmends :
    (fromStation .sta = true ∧ plant.room .sta ∧ plant.canonical = true ∧ ¬ 1023 < 1
      ∧ ¬ (amendBadMode (plant.elem 1).definition 2 (List.replicate 36 0) = true) ∧ ¬ (plant.elem 1).state = .empty
      ∧ (∀ x ∈ plant.changeChecks 1 (amendCandidate (plant.elem 1).definition 2 (List.replicate 36 0)), ¬ x.1)
      ∧ (plant.elem 1).state ≠ .testing ∧ (plant.elem 1).definition ≠ .none)
      ∧ (spare.room .sta ∧ spare.canonical = true ∧ (spare.elem 0).state ≠ .empty ∧ (spare.elem 0).state ≠ .testing
        ∧ Kind.chute ≠ .none ∧ (Kind.chute = .sensor → (blockMode (blockImage (.chute chute2))).isSome = true)
        ∧ ∀ x ∈ spare.changeChecks 0 (defineCandidate (spare.elem 0).definition .chute (blockImage (.chute chute2))),
          ¬ x.1) :=
  ⟨⟨rfl, by unfold State.room; decide, by decide, by decide, by decide, by decide,
      no_check (by decide) (by decide), by decide, by decide⟩,
    by unfold State.room; decide, by decide, by decide, by decide, by decide, by decide,
    no_check (by decide) (by decide)⟩

/-- The plant with every element in TESTING. -/
def testing : State := { plantIn .testing .sta with table := { records := records .testing .sta } }

/-- A block that gives sensor 3 a wider tolerance. -/
def wider : List Byte := blockImage (.sensor { gauge .carrier 2 with tol := 8 })

theorem witness_ChangeOfTestingElementIsStaged :
    (fromStation .stb = true ∧ testing.room .stb ∧ testing.canonical = true ∧ 3 ≤ 1023
      ∧ (testing.elem 3).state = .testing)
      ∧ (Kind.sensor ≠ .none ∧ (Kind.sensor = .sensor → (blockMode wider).isSome = true)
        ∧ ∀ x ∈ testing.changeChecks 3 (defineCandidate (testing.elem 3).definition .sensor wider), ¬ x.1)
      ∧ ((testing.elem 3).staged.getD (testing.elem 3).definition) ≠ .none
      ∧ amendBadMode ((testing.elem 3).staged.getD (testing.elem 3).definition) 16 wider = false
      ∧ ∀ x ∈ testing.changeChecks 3
        (amendCandidate ((testing.elem 3).staged.getD (testing.elem 3).definition) 16 wider), ¬ x.1 :=
  ⟨⟨rfl, by unfold State.room; decide, by decide, by decide, rfl⟩,
    ⟨by decide, by decide, no_check (by decide) (by decide)⟩, by decide, by decide,
    no_check (by decide) (by decide)⟩

theorem witness_LayoutIsFixedAndReleased :
    (fromStation .sta = true ∧ plant.room .sta ∧ plant.canonical = true
      ∧ ¬ (plant.tracker.state = .unset ∨ plant.tracker.staged ≠ none)
      ∧ ¬ ∃ j d, (plant.elem j).staged = some d ∧ (plant.elem j).definition.positional ≠ d.positional)
      ∧ (fromStation .stb = true ∧ (plantIn .proven .none).room .stb ∧ (plantIn .proven .none).canonical = true
        ∧ ¬ ∃ j, ((plantIn .proven .none).elem j).state = .live) := by
  refine ⟨⟨rfl, by unfold State.room; decide, by decide, by decide, ?_⟩, rfl, by unfold State.room; decide,
    by decide, ?_⟩
  · rintro ⟨j, d, h, _⟩
    have := (any_record (s := plant) (by decide) (fun _ e => e.staged.isSome) fun _ => rfl).2 ⟨j, by simp [h]⟩
    revert this; decide
  · rintro ⟨j, h⟩
    have := (any_record (s := plantIn .proven .none) (by decide) (fun _ e => decide (e.state = .live))
      fun _ => rfl).2 ⟨j, by simp [h]⟩
    revert this; decide

/-! ### Witnesses: holding -/

theorem witness_LockOutAndUnlock :
    (fromStation .sta = true ∧ plant.room .sta ∧ ¬ 1023 < 5
      ∧ ∀ st ∈ [ElState.empty, .testing, .live, .locked], (plant.elem 5).state ≠ st)
      ∧ (let s := plantIn .locked .stb;
        fromStation .stb = true ∧ s.room .stb ∧ ¬ 1023 < 0
          ∧ (∀ st ∈ [ElState.empty, .testing, .live], (s.elem 0).state ≠ st) ∧ (s.elem 0).state = .locked
          ∧ (s.elem 0).holder = portHolder .stb) := by
  unfold State.room; decide

theorem witness_EnlistAndWithdraw :
    (let s := plantIn .proven .none;
      s.room .line ∧ ¬ 1023 < 0 ∧ (s.elem 0).state ≠ .empty ∧ (s.elem 0).definition.mode ≠ some .attached
        ∧ s.table.layoutFixed ≠ false
        ∧ ∀ j ∈ 0 :: (s.elem 0).definition.eyes, (s.elem j).state = .proven ∧ ¬ 0 < (s.elem j).holdCount)
      ∧ (let s := plantIn .live .line;
        s.room .line ∧ ¬ 1023 < 0 ∧ (s.elem 0).state ≠ .empty ∧ (s.elem 0).definition.mode ≠ some .attached
          ∧ (s.elem 0).state = .live) := by
  unfold State.room; decide

theorem witness_StationSettingsFollowOrders :
    (busy 15).room (stationPort .stb) ∧ (busy 15).room (stationPort .sta) := by
  unfold State.room; decide

/-! ### Witnesses: reads, bad orders, link events -/

theorem witness_ReadsAnswerImagesAlone :
    ((busy 7).room .line ∧ 1023 ≤ 1023 ∧ (1023 ≤ 1023 ∧ 1 ≤ 1 ∧ 1 ≤ 16 ∧ 1023 + 1 ≤ 1024)
      ∧ (1008 ≤ 1023 ∧ 1 ≤ 16 ∧ 16 ≤ 16 ∧ 1008 + 16 ≤ 1024)
      ∧ ((busy 7).tracker.active.carriers = some 8 ∧ 7 < 8 ∧ 1 ≤ 1 ∧ 1 ≤ 128 ∧ 7 + 1 ≤ 8))
      ∧ (15 ≤ 15 ∧ ((busy 14).ctx 15).state = .free
        ∧ ((busy 14).link .sta).queue.length
          + (if ((busy 14).ctx 15).state = .free then 2 else 3) ≤ queueCap .sta)
      ∧ (let s := (busy 13).setCtx 0 driveProof;
        0 ≤ 15 ∧ (s.link .stb).queue.length + (if (s.ctx 0).state = .free then 2 else 3) ≤ queueCap .stb) := by
  unfold State.room; decide

theorem witness_BadOrdersAreAnswered :
    (badOrderReason .sta { kind := 0x1E, tag := 1, body := [] } = some .badOrder
      ∧ ((busy 13).link .sta).queue.length + 3 ≤ queueCap .sta)
      ∧ badOrderReason .sta { kind := 0x04, tag := 1, body := [0] } = some .badOrder
      ∧ badOrderReason .line { kind := 0x11, tag := 1, body := [0, 0] } = some .notPermitted := by decide

theorem witness_LinkEventsAreTaken :
    (rxFrame (plant.staLink .sta).rx [0xC3, 0x01] ≠ [] ∧ badLength (rxFrame (plant.staLink .sta).rx [0xC3, 0x01]) = true)
      ∧ (rxFrame (plant.staLink .stb).rx [0xC3, 2, 4, 0, 0, 0] ≠ []
        ∧ frameWhole (rxFrame (plant.staLink .stb).rx [0xC3, 2, 4, 0, 0, 0]) = true
        ∧ crcChecks ((rxFrame (plant.staLink .stb).rx [0xC3, 2, 4, 0, 0, 0]).take
            (lengthOf (rxFrame (plant.staLink .stb).rx [0xC3, 2, 4, 0, 0, 0]) + 4)) = false)
      ∧ (rxFrame (plant.staLink .stb).rx [0, 0xC3] ≠ []
        ∧ frameWhole (rxFrame (plant.staLink .stb).rx [0, 0xC3]) = false)
      ∧ ((0xC3 : Byte) ≠ 0 ∧ parseEnvelope [0xC3, 0x01] = none)
      ∧ ((0x55 : Byte) ≠ 0 ∧ (0x55 : Byte) ≠ 0xC3 ∧ parseEnvelope [0x55] = none)
      ∧ ((busy 1).link .line).queue = { kind := 0x97, tag := 0, body := [] } :: []
      ∧ (plant.link .line).queue = []
      ∧ ((busy 1).link (stationPort .sta)).queue = { kind := 0x97, tag := 0, body := [] } :: [] := by
  decide +kernel

/-! ### Witnesses: the Loop Tracker -/

/-- An order for a loop of 8 carriers of 32 counts. -/
def loop8 : GeometryOrder :=
  { carriers := 8, pitch := 32, home := 255, eye := 0, revAllow := 255, homeTol := 1023, pitchTol := 1, vMin := 65535
    smooth := 7, setup := 16 }

/-- The plant with the tracker changed. -/
def tracked (f : Tracker → Tracker) : State := { plant with tracker := f plant.tracker }

/-- The tracker's states other than TRACKING. -/
def inState (st : TrackState) : State := tracked fun t => { t with state := st }

theorem witness_SetGeometryStagesOrApplies :
    (∀ s ∈ [plant, inState .unhomed, State.reset], fromStation .sta = true ∧ s.room .sta ∧ s.canonical = true
      ∧ s.table.layoutFixed = false ∧ orderInRange loop8 = true ∧ ¬ 7 < loop8.smooth
      ∧ s.geometryFits (orderGeometry loop8) = true)
      ∧ (plant.tracker.state = .tracking ∧ State.reset.tracker.state ≠ .tracking)
      ∧ (∀ x ∈ [({ sensorProof with state := .running } : Context),
          { chuteProof with state := .running, phase := .aiming, limitVoids := 6 },
          { driveProof with state := .running }],
        let s : State := { unhomed with engine := { (stopped.setCtx 3 x).engine with track := .unhomed } };
        s.room .sta ∧ s.canonical = true ∧ s.geometryFits (orderGeometry loop8) = true
          ∧ s.tracker.state ≠ .tracking ∧ s.engine.track ≠ .tracking
          ∧ (s.engine.checkOwed = false ∧ (s.engine.stop = true ∨ s.engine.ring ≠ .good))
          ∧ (s.ctx 3).state = .running ∧ (s.ctx 3).limitVoids < 7) := by
  unfold State.room; decide

theorem witness_ClearTrackFaultUnhomes :
    (fromStation .stb = true ∧ (inState .faulted).room .stb ∧ (inState .faulted).tracker.state = .faulted)
      ∧ (fromStation .sta = true ∧ plant.room .sta ∧ plant.tracker.state ≠ .faulted) := by
  unfold State.room; decide

theorem witness_ForwardCountAdvances :
    0 < (tracked fun t => { t with backlash := 1 }).tracker.backlash ∧ plant.tracker.backlash = 0
      ∧ (let s := tracked fun t => { t with missing := 63, pitchRun := 2 };
        s.tracker.backlash = 0 ∧ s.tracker.state = .tracking ∧ 2 * s.pitch ≤ s.tracker.missing + 1
          ∧ 2 ≤ s.tracker.pitchRun) := by decide

theorem witness_ReverseCountIsAbsorbed :
    (tracked fun t => { t with backlash := 1 }).tracker.backlash
        < (tracked fun t => { t with backlash := 1 }).tracker.active.revAllow
      ∧ (let s := tracked fun t => { t with backlash := 2 };
        s.tracker.active.revAllow ≤ s.tracker.backlash
          ∧ (s.tracker.state = .unhomed ∨ s.tracker.state = .tracking))
      ∧ (let s := tracked fun t => { t with backlash := 2, state := .faulted };
        s.tracker.active.revAllow ≤ s.tracker.backlash
          ∧ (s.tracker.state = .unset ∨ s.tracker.state = .faulted)) := by decide

theorem witness_IllegalTransitionCounts :
    ((tracked fun t => { t with illegal := 2 }).tracker.illegal < 3)
      ∧ (let s := tracked fun t => { t with illegal := 3 };
        s.tracker.illegal = 3 ∧ (s.tracker.state = .unhomed ∨ s.tracker.state = .tracking))
      ∧ (∀ x ∈ [({ sensorProof with state := .running } : Context),
          { chuteProof with state := .running, phase := .firing, limitVoids := 6 },
          { chuteProof with state := .running, phase := .observing }, { driveProof with state := .running }],
        let s : State := { proving x with tracker := { plant.tracker with illegal := 3 } };
        s.tracker.illegal = 3 ∧ s.engine.track = .tracking ∧ (s.ctx 3).state = .running
          ∧ (s.ctx 3).limitVoids < 7
          ∧ (((s.ctx 3).kind = .sensor ∨ ((s.ctx 3).kind = .chute
              ∧ ((s.ctx 3).phase = .aiming ∨ (s.ctx 3).phase = .firing)))
            ↔ x.kind = .sensor ∨ x.phase = .firing)) := by decide

/-- The plant with a set staged. -/
def staged : State := tracked fun t => { t with staged := some (orderGeometry loop8) }

theorem witness_HomePulseHomesOrApplies :
    0 < (tracked fun t => { t with backlash := 1 }).tracker.backlash
      ∧ ((inState .faulted).tracker.backlash = 0
        ∧ ((inState .faulted).tracker.state = .unset ∨ (inState .faulted).tracker.state = .faulted))
      ∧ (unhomed.tracker.backlash = 0 ∧ unhomed.tracker.state = .unhomed ∧ unhomed.tracker.staged = none)
      ∧ (staged.tracker.backlash = 0 ∧ staged.tracker.state = .tracking
        ∧ staged.tracker.staged = some (orderGeometry loop8)
        ∧ staged.geometryFits (orderGeometry loop8) = true)
      ∧ (∀ x ∈ [({ sensorProof with state := .running } : Context), { driveProof with state := .running }],
        let s : State := { staged.setCtx 3 x with engine := { (staged.setCtx 3 x).engine with ring := .degraded } };
        s.tracker.staged = some (orderGeometry loop8) ∧ s.geometryFits (orderGeometry loop8) = true
          ∧ (s.engine.checkOwed = false ∧ (s.engine.stop = true ∨ s.engine.ring ≠ .good))
          ∧ (s.ctx 3).state = .running ∧ (s.ctx 3).limitVoids < 7)
      ∧ (∀ st ∈ [TrackState.unhomed, .tracking], ∀ k ∈ [7, 8],
        let s := (tracked fun t => { t with state := st, staged := some (orderGeometry loop8) }).setCarrier k .suspect;
        s.tracker.backlash = 0 ∧ s.tracker.staged = some (orderGeometry loop8)
          ∧ (s.tracker.state = .unhomed ∨ s.tracker.state = .tracking)
          ∧ (s.geometryFits (orderGeometry loop8) = false ↔ k = 8))
      ∧ (∀ c, (staged.ctx c).kind ≠ .chute) := by
  refine ⟨by decide, by decide, by decide, by decide, by decide, by decide, fun c h => ?_⟩
  exact Kind.noConfusion (show Kind.none = .chute from h)

theorem witness_HomeCheckCorrectsOrFaults :
    (∀ a ∈ [((14 : Nat), (4 : Int)), (10, 0), (15, 5), (138, -128), (137, 127)],
      let s := tracked fun t => { t with pos := a.1 };
      s.tracker.backlash = 0 ∧ s.tracker.state = .tracking ∧ s.tracker.staged = none ∧ 0 < s.loopLen
        ∧ -(s.loopLen : Int) ≤ 2 * a.2 ∧ 2 * a.2 < s.loopLen
        ∧ (s.loopLen : Int) ∣ ((s.tracker.pos : Int) - s.tracker.active.home.getD 0) - a.2)
      ∧ (let s : State :=
          { tracked fun t => { t with pos := 6 } with
            sched := { cues := [cueAt 5037 false, cueAt 5101 true], history := [4900] }
            monitor := { travelList := [{ entry0 .arrive .edge .waiting 5020 with guardAt := 5005 }] } };
        (s.loopLen : Int) ∣ ((s.tracker.pos : Int) - s.tracker.active.home.getD 0) - (-4)
          ∧ (-4 : Int).natAbs ≤ min s.tracker.active.homeTol (s.pitch / 2) ∧ (-4 : Int) ≠ 0
          ∧ s.engine.checkOwed = false ∧ s.monitor.used.Nodup
          ∧ (∀ q ∈ s.sched.cues, s.tracker.travel < q.due + (-4) - if q.aimed then 0 else (s.pitch : Int))
          ∧ ∀ x ∈ s.monitor.travelList, x.phase = .waiting ∧ s.tracker.travel < x.guardAt + (-4)
            ∧ s.tracker.travel ≤ x.closeAt + (-4)) := by decide

theorem witness_PitchErrorsAreCounted :
    ((inState .unhomed).tracker.state ≠ .tracking ∨ 0 < (inState .unhomed).tracker.backlash)
      ∧ (plant.tracker.state = .tracking ∧ plant.tracker.backlash = 0)
      ∧ (let s := tracked fun t => { t with pos := 5 };
        s.phaseError.natAbs ≤ min s.tracker.active.pitchTol (s.pitch / 4))
      ∧ (let s := tracked fun t => { t with pos := 6, pitchRun := 1 };
        min s.tracker.active.pitchTol (s.pitch / 4) < s.phaseError.natAbs ∧ s.tracker.pitchRun < 2)
      ∧ (let s := tracked fun t => { t with pos := 0, pitchRun := 2 };
        min s.tracker.active.pitchTol (s.pitch / 4) < s.phaseError.natAbs ∧ 2 ≤ s.tracker.pitchRun)
      ∧ (let s := tracked fun t => { t with missing := 63 };
        s.tracker.missing < 2 * s.pitch)
      ∧ (let s := tracked fun t => { t with missing := 64, pitchRun := 1 };
        s.tracker.state = .tracking ∧ 2 * s.pitch ≤ s.tracker.missing ∧ s.tracker.pitchRun < 2)
      ∧ (let s := tracked fun t => { t with missing := 64, pitchRun := 2 };
        s.tracker.state = .tracking ∧ 2 * s.pitch ≤ s.tracker.missing ∧ 2 ≤ s.tracker.pitchRun) := by decide

theorem witness_SpeedUpdateSmooths :
    (({ plant with time := 999 } : State).time < plant.tracker.msNext)
      ∧ plant.tracker.msNext ≤ ({ plant with time := 1000 } : State).time := by decide

/-! ### Witnesses: the ring -/

/-- The plant on a ring of three slots, with the ring changed. -/
def ringed (f : Ring → Ring) : State := { plant with ring := f { plant.ring with slots := 3 } }

/-- A frame of three slots with the CRC that is proper to it. -/
def frame (seq : Byte) (slots : List Slot) : RingFrame :=
  let f : RingFrame := { count := BitVec.ofNat 8 slots.length, seq := seq, slots := slots, crc := 0 };
  { f with crc := f.properCrc }

/-- Three slots. -/
def slots3 : List Slot := [{ out := 1, inp := 3 }, { out := 0xFFFF, inp := 0 }, { out := 0x0200, inp := 0x8000 }]

theorem witness_RingOrdersRestartRing :
    (fromStation .sta = true ∧ plant.room .sta ∧ plant.canonical = true ∧ plant.departing = []
      ∧ plant.ring.state ≠ .lost ∧ State.reset.ring.state = .lost)
      ∧ (∀ a ∈ [(1, 250), (64, 2000)], 1 ≤ a.1 ∧ a.1 ≤ 64 ∧ 250 ≤ a.2 ∧ a.2 ≤ 2000)
      ∧ (¬ ∃ j, (plant.elem j).state = .live) ∧ (¬ ∃ c < 16, (plant.ctx c).state ≠ .free) ∧ plant.noProof := by
  refine ⟨by unfold State.room; decide, by decide, ?_, by decide, rfl, fun c => rfl, rfl, rfl⟩
  rintro ⟨j, h⟩
  have := (any_record (s := plant) (by decide) (fun _ e => decide (e.state = .live)) fun _ => rfl).2 ⟨j, by simp [h]⟩
  revert this; decide

theorem witness_RingErrorIsCounted :
    let s := ringed fun g => { g with errors := 190, state := .degraded };
    let s : State := { s.setCtx 3 { sensorProof with state := .running } with
      engine := { (s.setCtx 3 { sensorProof with state := .running }).engine with ring := .degraded } };
    s.ring.state ≠ .lost ∧ 191 < min 255 (s.ring.errors + 8)
      ∧ (s.engine.checkOwed = false ∧ (s.engine.stop = true ∨ s.engine.ring ≠ .good))
      ∧ (s.ctx 3).state = .running ∧ (s.ctx 3).limitVoids < 7 := by decide

/-- A ring with the return of its last frame pending, whose error count leaves it in its state (`e` of 10) or takes
it to LOST (`e` of 190). -/
def unmet (e : Nat) (s : State) : State := { s with ring := { s.ring with errors := e, returnDeadline := some 1000 } }

theorem witness_ScannerFramePasses :
    (ringed fun g => { g with role := .origin }).ring.role = .origin
      ∧ ∀ s ∈ [ringed id, unmet 10 (ringed id), unmet 190 (ringed id)],
        let f := frame 9 slots3;
        s.ring.role = .relay ∧ f.crc = f.properCrc ∧ f.count.toNat = s.ring.slots
          ∧ f.slots.length = s.ring.slots ∧ s.canonical = true ∧ s.departing = [] := by decide +kernel

theorem witness_BadRingFramesAreCounted :
    ((ringed id).ring.role = .relay
        ∧ frameError (ringed id).ring.slots { frame 9 slots3 with crc := 0 } true = some .badCrc)
      ∧ frameError (ringed id).ring.slots (frame 9 []) true = some .slotMismatch
      ∧ ((frame 9 slots3).crc ≠ (frame 9 slots3).properCrc
        ∨ (frame 9 slots3).count.toNat ≠ (ringed id).ring.slots
        ∨ (ringed id).ring.returnDeadline = none
        ∨ (ringed id).ring.lastSeq ≠ some (frame 9 slots3).seq.toNat) := by decide +kernel

/-- The ring of three slots with the return of frame 9 awaited. -/
def awaiting : State := ringed fun g => { g with returnDeadline := some 1000, lastSeq := some 9 }

theorem witness_GoodNodeFrameIsTaken :
    awaiting.ring.returnDeadline.isSome = true ∧ awaiting.ring.lastSeq = some (frame 9 slots3).seq.toNat
      ∧ (frame 9 slots3).crc = (frame 9 slots3).properCrc ∧ (frame 9 slots3).count.toNat = awaiting.ring.slots
      ∧ (frame 9 slots3).slots.length = awaiting.ring.slots
      ∧ ({ awaiting with ring := { awaiting.ring with state := .lost, goodRun := 62 } } : State).ring.state = .lost
      ∧ awaiting.ring.state = .good ∧ awaiting.ring.errors - 1 ≤ 95
      ∧ awaiting.edges (frame 9 slots3) = [(0, true), (1, true), (47, true)]
      ∧ awaiting.monitor.travelList ++ awaiting.monitor.timeList = []
      ∧ (let s := ringed fun g => { g with errors := 96, state := .degraded };
        s.ring.state = .degraded ∧ s.ring.errors - 1 ≤ 95
          ∧ s.edges (frame 9 (List.replicate 3 { out := 0, inp := 0 })) = []) := by
  decide +kernel

theorem witness_OriginFrameDeparts :
    ((ringed id).ring.role = .relay)
      ∧ (∀ f ∈ [id, unmet 10, unmet 190],
        let s := f (ringed fun g => { g with role := .origin, originNext := some 0, originSeq := 255 });
        s.ring.role = .origin ∧ s.ring.originNext = some 0 ∧ 0 ≤ s.time
          ∧ s.ring.slots ≤ 64 ∧ s.ring.originSeq < 256 ∧ s.canonical = true) := by decide

theorem witness_RingDeadlinesExpire :
    (∀ d ∈ awaiting.ring.returnDeadline, awaiting.time < d)
      ∧ (({ awaiting with time := 1000 } : State).ring.returnDeadline = some 1000
        ∧ 1000 ≤ ({ awaiting with time := 1000 } : State).time)
      ∧ (let s := ringed fun g => { g with silence := some 1 };
        s.ring.role = .origin ∨ ∀ d ∈ s.ring.silence, s.time < d)
      ∧ (let s := ringed fun g => { g with silence := some 0 };
        s.ring.role = .relay ∧ s.ring.silence = some 0 ∧ 0 ≤ s.time ∧ s.ring.state ≠ .lost)
      ∧ (let s := (ringed fun g => { g with silence := some 0 }).setCtx 3 { driveProof with state := .running };
        s.engine.checkOwed = false ∧ (∀ c, (s.ctx c).state ≠ .closing) ∧ (s.ctx 3).state = .running
          ∧ (s.ctx 3).limitVoids < 7) := by
  refine ⟨by decide, by decide, by decide, by decide, rfl, fun c => ?_, rfl, by decide⟩
  rw [ctx_setCtx]
  split
  · decide
  · exact fun h => CtxState.noConfusion h

/-! ### Witnesses: proofs and the carrier map -/

/-- An order for a proof of chute 0. -/
def proof0 : ProofOrder := { element := 0, k := 15, tLim := 63, notice := true, reverse := false, articles := [7, 0] }

theorem witness_OrderProofFillsContext :
    portStation .stb = some .stb ∧ stopped.room .stb ∧ ¬ 1023 < 0 ∧ (stopped.elem 0).state ≠ .empty
      ∧ (stopped.elem 0).definition.mode ≠ some .attached
      ∧ (1 ≤ proof0.k ∧ proof0.k ≤ 15 ∧ proof0.k ≤ proof0.tLim ∧ proof0.tLim ≤ 63) ∧ proof0.reverse = false
      ∧ (∀ j ∈ 0 :: (stopped.elem 0).definition.eyes,
        (∀ pt ∈ (stopped.elem j).definition.outputs ++ (stopped.elem j).definition.inputs,
          pt < stopped.ring.slots * 16)
          ∧ (stopped.elem j).state = .unproven ∧ (stopped.elem j).holdCount = 0)
      ∧ proof0.articles.length ≤ 8 ∧ proof0.articles.Nodup ∧ (stopped.elem 0).definition.kind = .chute
      ∧ stopped.tracker.active.carriers = some 8 ∧ (∀ k ∈ proof0.articles, k < 8 ∧ stopped.carrier k = .free)
      ∧ (∀ j ∈ (stopped.elem 0).definition.companions, (stopped.elem j).state ≠ .live)
      ∧ (stopped.ctx 0).state = .free ∧ (∀ c' < 0, (stopped.ctx c').state ≠ .free) ∧ stopped.engine.stop = true := by
  unfold State.room; decide

/-- Carrier 7 SUSPECT in the map. -/
def suspect7 : State := plant.setCarrier 7 .suspect

theorem witness_CarrierOrdersKeepTheMap :
    (∀ a ∈ [(proving chuteProof, [0, 1, 3, 4, 5, 6, 7]), (proving { chuteProof with state := .running }, [7]),
        (stopped.setCtx 3 chuteProof, [7])],
      let x := a.1.ctx 3;
      fromStation .sta = true ∧ a.1.room .sta ∧ ¬ 15 < 3 ∧ x.state ≠ .free ∧ portStation .sta = some x.owner
        ∧ x.state ≠ .closing ∧ x.kind ≠ .drive ∧ x.mode ≠ some .carrier ∧ a.2 ≠ [] ∧ a.2.Nodup
        ∧ a.1.tracker.active.carriers = some 8 ∧ (∀ k ∈ a.2, k < 8 ∧ a.1.carrier k = .free)
        ∧ (x.articles ++ a.2).length ≤ 8)
      ∧ (((proving { chuteProof with state := .running }).ctx 3).state = .running
        ∧ ((stopped.setCtx 3 chuteProof).ctx 3).state = .paused
        ∧ (let s := stopped.setCtx 3 chuteProof;
          s.engine.checkOwed = false ∧ (s.engine.stop = true ∨ s.engine.ring ≠ .good)))
      ∧ (suspect7.tracker.active.carriers = some 8 ∧ 7 < 8 ∧ suspect7.carrier 7 = .suspect
        ∧ ∀ c < 16, (suspect7.ctx c).inFlight ≠ some 7) := by
  unfold State.room; decide

theorem witness_AbortProofEndsProof :
    (∀ s ∈ [proving { chuteProof with state := .closing, ending := some (.passed, .count), settle := [40] },
        proving chuteProof],
      (s.link .sta).queue.length < queueCap .sta ∧ fromStation .sta = true ∧ ¬ 15 < 3 ∧ (s.ctx 3).state ≠ .free
        ∧ portStation .sta = some (s.ctx 3).owner)
      ∧ (let s := proving { chuteProof with state := .closing, ending := some (.passed, .count), settle := [40] };
        (s.ctx 3).state = .closing ∧ (s.ctx 3).ending = some (.passed, .count))
      ∧ (let s := proving chuteProof;
        (s.ctx 3).state ≠ .closing ∧ ∀ c' < 16, c' ≠ 3 → (s.ctx c').state ≠ .paused) := by decide

theorem witness_LineOrdersSetLimits : (busy 7).room .line := by unfold State.room; decide

/-! ### Witnesses: trials -/

/-- The plant with a running drive trial in phase `ph` and the record `r`. -/
def driving (ph : Phase) (r : DriveTrial) : State :=
  { proving { driveProof with state := .running, phase := ph, trial := .drive r } with time := 1000000 }

/-- A drive trial's record. -/
def record : DriveTrial := { phaseStart := 0, phaseDeadline := some 1000000, quietStart := some 999880 }

theorem witness_MachineStopVoidsTrials :
    stopped.engine.stop = true ∧ plant.engine.stop = false
      ∧ (((driving .hold record).ctx 3).state = .running ∧ ((driving .hold record).ctx 3).limitVoids < 8)
      ∧ (let s : State := { proving { chuteProof with articles := [] } with engine :=
            { (proving { chuteProof with articles := [] }).engine with stop := true } };
        let freed : State := { s with engine := { s.engine with stop := false } };
        s.engine.stop = true ∧ ∀ c < 16, (s.ctx c).state = .paused → freed.firstFail (s.ctx c) ≠ none) := by
  decide

theorem witness_HaltedChecksRecordReasons :
    stopped.halted ∧ State.reset.halted := by unfold State.halted; decide

theorem witness_OutcomesAreCountedAndDecided :
    (let y := countOutcome chuteProof .pass (some (-3));
      (∀ cause, TrialOutcome.pass ≠ .void cause) ∧ y.streak = y.k)
      ∧ (let y := countOutcome { chuteProof with k := 2, tLim := 2 } (.fail .jam) none;
        (∀ cause, TrialOutcome.fail .jam ≠ .void cause) ∧ y.streak ≠ y.k ∧ y.streak + (y.tLim - y.trials) < y.k)
      ∧ (let y := countOutcome chuteProof (.fail .jam) none;
        y.streak ≠ y.k ∧ y.k ≤ y.streak + (y.tLim - y.trials))
      ∧ (let y := countOutcome { chuteProof with limitVoids := 7 } (.void .pacing) none;
        ¬ (∀ cause, TrialOutcome.void .pacing ≠ .void cause) ∧ 8 ≤ y.limitVoids)
      ∧ (countOutcome { chuteProof with limitVoids := 7 } (.void .stop) none).limitVoids < 8 :=
  ⟨⟨nofun, by decide⟩, ⟨nofun, by decide⟩, by decide, ⟨fun h => h _ rfl, by decide⟩, by decide⟩

theorem witness_OutcomesEndTrials :
    (plant.ctx 3).state ≠ .running
      ∧ (let x := (driving .hold record).ctx 3;
        x.state = .running ∧ decideProof (countOutcome x (.fail .noMotion) none) (.fail .noMotion) = none
          ∧ decideProof (countOutcome x .pass (some 2)) .pass = some (.passed, .count))
      ∧ (driving .hold record).canonical = true := by decide

theorem witness_DriveTrialStarts :
    (let s := proving driveProof;
      s.engine.checkOwed = false ∧ (s.ctx 3).state = .paused ∧ (s.ctx 3).kind = .drive
        ∧ s.driveDef (s.ctx 3).element = some drive ∧ s.firstFail (s.ctx 3) = none)
      ∧ (let s := proving { driveProof with reason := .rest, restEnd := some 0 };
        s.firstFail (s.ctx 3) = none ∧ (s.ctx 3).reason = .rest ∧ (s.ctx 3).restEnd = some 0 ∧ 0 ≤ s.time
          ∧ ∀ c' < 16, c' ≠ 3 → (s.ctx c').state ≠ .paused) := by decide

theorem witness_SensorTrialStarts :
    ∀ a ∈ [(sensorProof, gauge .carrier 2), (articleProof, gauge .article 3)],
      let s := proving a.1;
      s.engine.checkOwed = false ∧ (s.ctx 3).state = .paused ∧ (s.ctx 3).kind = .sensor
        ∧ s.sensorDef (s.ctx 3).element = some a.2 ∧ s.firstFail (s.ctx 3) = none
        ∧ s.monitor.entriesOf 3 = [] ∧ s.monitor.lowestFree = some 0 ∧ 32 ≤ s.pitch ∧ s.pitch ≤ s.loopLen
        ∧ (a.2.mode = .carrier ∨ (a.2.mode = .article ∧ (s.ctx 3).articles ≠ [])) := by decide

/-- A cue of context 4 far ahead. -/
def cue4 : Cue :=
  { ctx := 4, element := 0, due := 5260, point := 50, activeHigh := true, width := 10, carrier := 1, lead := 0
    retries := 0, aimed := false }

theorem witness_ChuteTrialStarts :
    ∀ a ∈ [(([] : List Cue), (5260 : Int), (0 : Nat)), ([cue4], 5516, 1)],
      let s : State := { proving chuteProof with sched := { cues := a.1 } };
      s.engine.checkOwed = false ∧ (s.ctx 3).state = .paused ∧ (s.ctx 3).kind = .chute
        ∧ s.chuteDef (s.ctx 3).element = some chute ∧ s.firstFail (s.ctx 3) = none
        ∧ (s.ctx 3).articles = 2 :: [] ∧ (∀ q ∈ s.sched.cues, q.ctx ≠ 3)
        ∧ (∀ q ∈ s.sched.cues, (s.tracker.travel : Int) < q.due - s.pitch)
        ∧ admission (s.sched.spacing * s.pitch) (s.sched.window * s.pitch) s.sched.allowed s.loopLen
            (pruneHistory s).sched.points 5 0
            (s.tracker.travel + aimDistance s.tracker.active s.tracker.pos (targetOf s.tracker.active 200 2)
              (leadOf s.tracker.speed 0 s.loopLen)) = some (a.2.1, a.2.2)
        ∧ (s.tracker.travel : Int) < a.2.1 - s.pitch := by decide

/-- A cue 1,000 counts ahead under a spacing of 64 pitches, which refuses every candidate. -/
def crowded (x : Context) : State :=
  { proving x with sched := { cues := [{ cue4 with due := 6000 }], spacing := 64 } }

theorem witness_FifthCandidateIsRefused :
    ∀ n ∈ [0, 7],
      let s := crowded { chuteProof with limitVoids := n };
      s.engine.checkOwed = false ∧ (s.ctx 3).state = .paused ∧ (s.ctx 3).kind = .chute
        ∧ s.chuteDef (s.ctx 3).element = some chute ∧ s.firstFail (s.ctx 3) = none
        ∧ (s.ctx 3).articles = 2 :: []
        ∧ admission (s.sched.spacing * s.pitch) (s.sched.window * s.pitch) s.sched.allowed s.loopLen
            (pruneHistory s).sched.points 5 0
            (s.tracker.travel + aimDistance s.tracker.active s.tracker.pos (targetOf s.tracker.active 200 2)
              (leadOf s.tracker.speed 0 s.loopLen)) = none
        ∧ (s.ctx 3).limitVoids = n ∧ ∀ c' < 16, c' ≠ 3 → (s.ctx c').state ≠ .paused := by decide

theorem witness_AimsAreComputedAndAdmitted :
    0 < geo.length
      ∧ ((∀ x ∈ [(32 : Int)], 32 ≤ (64 - x).natAbs)
        ∧ ∀ a : Int, a ≤ 64 → 64 < a + (64 : Nat) →
          ((64 :: [(32 : Int)]).filter fun x => decide (a ≤ x ∧ x < a + (64 : Nat))).length ≤ 2) :=
  ⟨by decide, by decide, fun _ _ _ => List.length_filter_le _ _⟩

/-- A chute trial's record. -/
def aiming : ChuteTrial := { carrier := 2, fullMet := some false }

/-- The plant with a chute trial whose cue stands in the list, its discharge point in TEST. -/
def cued (q : Cue) : State :=
  { proving { chuteProof with
      state := .running, phase := .aiming, allowance := 2, cueHeld := true, trial := .chute aiming } with
    sched := { cues := [q], examining := true }
    ring := { plant.ring with sources := [(40, .test 3)], stimuli := [(40, some {})] } }

/-- The cue of context 3. -/
def cue3 : Cue := cueAt 5032 false

/-- The chute trial in FIRING with its pulse awaited, on a ring of three slots. -/
def discharging : State :=
  let s := proving { chuteProof with
    state := .running, phase := .firing, allowance := 2, trial := .chute { aiming with stim := .awaited } };
  { s with
    ring :=
      { plant.ring with
        slots := 3, sources := [(40, .test 3)], stimuli := [(40, some { awaited := some (3, .pulse 10) })] }
    table := { records := s.table.records.map fun e =>
      if e.1 = 0 then (0, { e.2 with definition := .chute { chute with winOpen := 5 } }) else e } }

theorem witness_DischargeDeparts :
    let s := discharging;
    let d : ChuteDef := { chute with winOpen := 5 };
    s.ring.role = .relay ∧ s.ring.returnDeadline = none ∧ s.ring.slots = 3 ∧ s.canonical = true
      ∧ s.departing = [(40, 3, .pulse 10)] ∧ s.engine.checkOwed = false ∧ (s.ctx 3).state = .running
      ∧ (s.ctx 3).phase = .firing ∧ (s.ctx 3).trial = .chute { aiming with stim := .awaited }
      ∧ s.chuteDef (s.ctx 3).element = some d ∧ s.sensorDef d.entryEye = some (eye 0) ∧ 0 < d.winOpen
      ∧ s.monitor.entriesOf 3 = [] ∧ 2 ≤ (s.ctx 3).allowance
      ∧ (0 < 1 ∧ 1 < 24 ∧ 0 ∉ s.monitor.used ∧ 1 ∉ s.monitor.used)
      ∧ d.fullEye = some 2 ∧ s.sensorDef 2 = some (eye 1) := by decide

/-- Context 3 with the one stimulus of point 40 or 41 awaiting a level, on a ring of three slots. -/
def leveling (x : Context) (pt : Nat) (v : StimValue) : State :=
  { proving x with
    ring :=
      { plant.ring with
        slots := 3, sources := [(pt, .test 3)]
        stimuli := [(pt, some { value := .active, awaited := some (3, .level v) })] } }

theorem witness_LevelDeparts :
    (∀ a ∈ [(Phase.ramp, StimValue.active), (.stop, .inactive)],
      let s := leveling { driveProof with state := .running, phase := a.1, trial := .drive record } 41 a.2;
      s.ring.role = .relay ∧ s.ring.returnDeadline = none ∧ s.canonical = true
        ∧ s.departing = [(41, 3, .level a.2)] ∧ s.engine.checkOwed = false ∧ (s.ctx 3).state = .running
        ∧ (s.ctx 3).trial = .drive record ∧ s.driveDef (s.ctx 3).element = some drive
        ∧ drive.point (s.ctx 3).reverse = 41 ∧ (s.ctx 3).phase = a.1)
      ∧ ∀ l ∈ [[40], [40, 43]],
        let s := leveling { chuteProof with state := .closing, settle := l } 40 .inactive;
        s.canonical = true ∧ s.departing = [(40, 3, .level .inactive)] ∧ s.engine.checkOwed = false
          ∧ (s.ctx 3).state = .closing ∧ 40 ∈ (s.ctx 3).settle
          ∧ (((s.ctx 3).settle.filter fun q => decide (q ≠ 40)) = [] ↔ l = [40])
          ∧ ∀ c < 16, (s.ctx c).state ≠ .paused := by decide

theorem witness_CuesAimAndFire :
    (let s := cued cue3;
      s.engine.checkOwed = false ∧ s.sched.cues = cue3 :: [] ∧ cue3.ctx = 3
        ∧ s.chuteDef cue3.element = some chute
        ∧ cue3.aimed = false ∧ cue3.due - s.pitch ≤ s.tracker.travel
        ∧ (s.tracker.travel : Int) < cue3.due
            + max (-((s.pitch / 8 : Nat) : Int)) (min ((s.pitch / 8 : Nat) : Int)
                (cue3.lead - leadOf s.tracker.speed chute.latency s.loopLen)))
      ∧ (let s : State := { cued cue3 with sched := { cues := [cue3, { cue4 with due := 5040 }] } };
        ∀ x ∈ [{ cue4 with due := 5040 }], x.ctx ≠ 3 ∧ s.aimDue x = false ∧ s.fireDue x = false)
      ∧ (let q := cueAt 5000 true;
        let s := cued q;
        s.sched.cues = q :: [] ∧ q.aimed = true ∧ q.due ≤ s.tracker.travel
          ∧ s.eyeBlocked (some chute.entryEye) = false
          ∧ s.eyeBlocked chute.fullEye = false ∧ (s.ctx 3).trial = .chute aiming ∧ s.ring.state ≠ .lost
          ∧ s.source q.point = .test 3 ∧ s.stimulus q.point = some {})
      ∧ (let s := cued (cueAt 5000 true);
        let s : State := { s with ring := { s.ring with image := [(1, { level := true })] } };
        s.eyeBlocked (some chute.entryEye) = true ∨ s.eyeBlocked chute.fullEye = true)
      ∧ (∀ q ∈ [cue4, cueAt 5001 true, cueAt 5033 false],
        let s : State := { cued cue3 with sched := { cues := [q, cueAt 5000 true], examining := true } };
        q.ctx ≠ 3 ∨ (s.aimDue q = false ∧ s.fireDue q = false))
      ∧ (cued cue3).sched.examining = true ∧ (proving chuteProof).sched.examining = false
      ∧ (plant.tracker.backlash = 0 ∧ plant.tracker.travel < Config.max48 ∧ plant.tracker.state = .tracking
        ∧ plant.tracker.missing + 1 < 2 * plant.pitch) := by decide

/-! ### Witnesses: expectations, the end of a proof, lapse -/

/-- The chute trial with one entry. -/
def watched (e : Entry) : State := { cued cue3 with monitor := { travelList := [e] } }

/-- Something of an entry is due, in the words of the statement. -/
def dueIn (s : State) (e : Entry) : Bool :=
  decide ((e.phase ≠ .opened ∧ e.openAt ≤ s.position e.base) ∨ e.closeAt < s.position e.base)

theorem witness_EntriesTakeTurns :
    let s : State := { watched (entry0 .arrive .edge .guard 5000) with
      monitor := { travelList := [entry0 .arrive .edge .guard 5000, { entry0 .arrive .edge .guard 5001 with num := 8 }] } };
    (∀ x ∈ s.monitor.travelList.find? (dueIn s), x.num ≠ 8) ∧ (∀ x ∈ s.monitor.timeList.find? (dueIn s), x.num ≠ 8) := by
  decide

theorem witness_ExpectationsOpenAndClose :
    (∀ k ∈ [ExpKind.arrive, .quiet],
      let e := entry0 k .entry .guard 5000;
      let s := watched e;
      s.engine.checkOwed = false ∧ s.monitor.find 7 = some e ∧ e.guardAt ≤ e.openAt ∧ e.openAt ≤ s.position e.base
        ∧ e.phase ≠ .opened ∧ s.position e.base ≤ e.closeAt ∧ s.monitor.travelList.find? (dueIn s) = some e
        ∧ s.monitor.used.Nodup ∧ (s.input e.point).level ≠ e.level)
      ∧ (let e := entry0 .depart .clear .guard 5000;
        (watched e).monitor.find 7 = some e ∧ (watched e).monitor.travelList.find? (dueIn (watched e)) = some e
          ∧ ((watched e).input e.point).level ≠ e.level ∧ e.template = none)
      ∧ (∀ k ∈ [ExpKind.arrive, .depart],
        let e := entry0 k .entry .guard 5000;
        let s : State := { watched e with ring := { plant.ring with image := [(0, { level := true })] } };
        s.monitor.find 7 = some e ∧ s.monitor.travelList.find? (dueIn s) = some e ∧ e.phase ≠ .opened
          ∧ (s.input e.point).level = e.level)
      ∧ (∀ k ∈ [ExpKind.arrive, .depart, .quiet],
        let e := entry0 k .full .opened 4999;
        let s := watched e;
        s.monitor.find 7 = some e ∧ s.monitor.travelList.find? (dueIn s) = some e ∧ e.phase = .opened
          ∧ e.closeAt < s.position e.base ∧ e.role = .full
          ∧ e.template = none ∧ (s.ctx e.ctx).trial = .chute aiming ∧ aiming.clearMet = false) := by
  decide

/-- A sensor trial's record. -/
def watching : SensorTrial := { carrier := none, expected := 1, distance := 40 }

theorem witness_MetReports :
    ((proving { sensorProof with state := .running, trial := .sensor watching }).ctx 3).trial = .sensor watching
      ∧ (∀ r ∈ [aiming, { aiming with fullMet := some true, clearMet := true }, { aiming with fullMet := none }],
        ((proving { chuteProof with state := .running, trial := .chute r }).ctx 3).trial = .chute r) := by decide

/-- A frame from the nodes that brings point 0 to `level` and no other point to a new level. -/
def edgeFrame (level : Bool) : RingFrame :=
  frame 9 [{ out := 0, inp := if level then 1 else 0 }, { out := 0, inp := 0 }, { out := 0, inp := 0 }]

/-- The chute trial with one entry on point 0, whose edge to `level` the next returned frame brings. -/
def edging (e : Entry) (level : Bool) : State :=
  let s := watched e;
  { s with
    ring :=
      { s.ring with
        slots := 3, returnDeadline := some 1000, lastSeq := some 9
        image := if level then [] else [(0, { level := true })] } }

/-- The successor of an ARRIVE window on travel. -/
def clearing : Template :=
  { kind := .depart, level := true, base := .travel, role := .clear, openOff := 0, closeOff := 30 }

theorem witness_EdgesAreJudged :
    ∀ e ∈ [{ entry0 .arrive .edge .waiting 5010 with guardAt := 5001, openAt := 5005 },
        { entry0 .arrive .edge .guard 5010 with openAt := 5001 }, { entry0 .depart .clear .guard 5010 with openAt := 5001 },
        entry0 .arrive .edge .opened 5000, entry0 .arrive .entry .guard 5000,
        { entry0 .arrive .edge .opened 5000 with template := some clearing },
        entry0 .depart .clear .opened 5000, entry0 .depart .clear .guard 5000, entry0 .quiet .full .opened 5000],
      ∀ level : Bool,
        let s := edging e level;
        let f := edgeFrame level;
        s.engine.checkOwed = false ∧ s.ring.state = .good ∧ s.ring.errors ≤ 96
          ∧ s.ring.returnDeadline.isSome = true ∧ s.ring.lastSeq = some f.seq.toNat ∧ f.crc = f.properCrc
          ∧ f.count.toNat = s.ring.slots ∧ s.edges f = [(0, level)]
          ∧ ((s.monitor.travelList ++ s.monitor.timeList).filter fun x => decide (x.point = 0)) = [e]
          ∧ s.monitor.find e.num = some e ∧ e.guardAt ≤ e.openAt := by decide +kernel

/-- A sensor trial that starts at T 0 with d = 16, half a pitch, so that its guard starts at the U of its start. -/
def atGuard : State :=
  let s := proving sensorProof;
  after
    { s with
      tracker := { s.tracker with pos := 21 }
      ring := { s.ring with slots := 3, returnDeadline := some 1000, lastSeq := some 9 } }
    (.trialStart 3)

/-- A frame from the nodes that brings point 2, that of sensor 3, to its blocked level. -/
def blockFrame : RingFrame := frame 9 [{ out := 0, inp := 4 }, { out := 0, inp := 0 }, { out := 0, inp := 0 }]

theorem witness_EdgeFallsTogetherWithStart :
    let r : SensorTrial := { carrier := none, expected := 1, distance := 16, start := 0 };
    (atGuard.ctx 3).trial = .sensor r ∧ atGuard.edges blockFrame = [(2, true)] ∧ atGuard.time = r.start
      ∧ atGuard.monitor.travelList.map (fun e => (e.role, e.guardAt)) = [(.edge, 5000)]
      ∧ atGuard.monitor.travelList.map (·.nominal) = [5000 + 16] ∧ atGuard.tracker.travel = 5000 := by
  decide

theorem witness_SecondPartReleasesClaim :
    let closed := proving { chuteProof with state := .closing, ending := some (.failed, .count) };
    let put (i : Nat) (d : Definition) : State := closed.mapElem i fun e => { e with staged := some d };
    let eyeLow : Definition := .sensor { eye 0 with blockedHigh := false };
    let both : State :=
      (put 0 (.chute { chute with fullEye := none })).mapElem 1 fun e => { e with staged := some eyeLow };
    (∀ s ∈ [closed, put 1 eyeLow, put 0 (.chute { chute with fullEye := none }), both],
      (s.ctx 3).state = .closing ∧ (s.ctx 3).settle = [] ∧ (s.ctx 3).ending = some (.failed, .count)
        ∧ (∀ c' < 16, (s.ctx c').state ≠ .paused) ∧ ((s.ctx 3).claim.map (·.1)).Nodup
        ∧ ∀ m ∈ (s.ctx 3).claim, m.2 ≠ .testing)
      ∧ (∀ m ∈ (closed.ctx 3).claim, ((put 1 eyeLow).elem m.1).staged = if m.1 = 1 then some eyeLow else none)
      ∧ eyeLow.eyes = [] ∧ ((put 1 eyeLow).elem 1).definition.eyes = []
      ∧ ∀ m ∈ (closed.ctx 3).claim,
        (((put 0 (.chute { chute with fullEye := none })).elem m.1).staged ≠ none ↔ m.1 = 0)
          ∧ (m.1 ≠ 0 → (both.elem m.1).staged = (if m.1 = 1 then some eyeLow else none)
            ∧ (both.elem m.1).definition.eyes = [])
          ∧ ((both.ctx 3).claim.map (·.1)).head? = some (both.ctx 3).element := by decide

theorem witness_LapseDeadlineIsJudged :
    ({ plant with time := 9999999 } : State).lapseDue .sta = false
      ∧ (let s : State := { plant with time := 10000000 };
        s.lapseDue .stb = true ∧ ∀ c < 16, (s.ctx c).state = .free ∨ (s.ctx c).owner ≠ .stb)
      ∧ (let s : State := { (stopped.setCtx 3 chuteProof).setCtx 5 { sensorProof with owner := .stb } with
            time := 10000000 };
        s.lapseDue .sta = true ∧ (∃ c < 16, (s.ctx c).state ≠ .free ∧ (s.ctx c).owner = .sta)
          ∧ (s.engine.checkOwed = false ∧ (s.engine.stop = true ∨ s.engine.ring ≠ .good))
          ∧ ((s.ctx 3).owner = .sta ∧ ((s.ctx 3).state = .paused ∨ (s.ctx 3).state = .running))
          ∧ ¬ ((s.ctx 5).owner = .sta ∧ ((s.ctx 5).state = .paused ∨ (s.ctx 5).state = .running)))
      ∧ (let s : State := { proving { chuteProof with state := .closing } with time := 10000000 };
        s.lapseDue .sta = true ∧ (∃ c < 16, (s.ctx c).state ≠ .free ∧ (s.ctx c).owner = .sta)
          ∧ ∀ c < 16, (s.ctx c).owner = .sta → (s.ctx c).state = .free ∨ (s.ctx c).state = .closing) := by
  decide

/-! ### Witnesses: drives -/

theorem witness_TachEdgesAreCaptured :
    (plant.tachChan 1).seen = false
      ∧ (let s : State := { plant with drives := { tach := [(1, { seen := true })] } };
        (s.tachChan 1).seen = true ∧ s.trialOfChannel (fun d => decide (d.tach = 1)) = none)
      ∧ (∀ a ∈ [(Phase.precheck, (999945 : Nat)), (.stop, 0), (.ramp, 0), (.hold, 999950), (.hold, 999940),
          (.hold, 999951), (.hold, 999939)],
        let s : State := { driving a.1 record with drives := { tach := [(1, { seen := true, lastEdge := a.2 })] } };
        (s.tachChan 1).seen = true ∧ s.trialOfChannel (fun d => decide (d.tach = 1)) = some 3
          ∧ (s.ctx 3).trial = .drive record ∧ s.driveDef (s.ctx 3).element = some drive ∧ (s.ctx 3).phase = a.1) := by
  decide

theorem witness_ScansAreFiltered :
    ({ plant with time := 999 } : State).time < plant.drives.scanNext
      ∧ (plant.drives.scanNext ≤ ({ plant with time := 1000 } : State).time ∧ plant.drives.scanSet = [])
      ∧ (∀ a ∈ [(Phase.ramp, Assist.none), (.hold, .none), (.stop, .none), (.precheck, .assist), (.precheck, .plain),
          (.precheck, .none)],
        let s : State := { driving a.1 record with drives := { scanSet := [2], current := [(2, { step := a.2 })] } };
        s.drives.scanNext ≤ s.time ∧ s.drives.scanSet = [2]
          ∧ s.trialOfChannel (fun d => decide (d.current = some 2)) = some 3
          ∧ (s.ctx 3).trial = .drive record ∧ s.driveDef (s.ctx 3).element = some drive
          ∧ (s.ctx 3).phase = a.1 ∧ (s.currentChan 2).step = a.2) := by
  decide

/-- The running drive trial with its run point in TEST. -/
def pointed (ph : Phase) (r : DriveTrial) : State :=
  let s := driving ph r;
  { s with ring := { s.ring with sources := [(41, .test 3)], stimuli := [(41, some {})] } }

theorem witness_DrivePhasesEnd :
    (∀ ph ∈ [Phase.precheck, .ramp, .hold, .stop],
      let s := pointed ph { record with plain := some 0, motionDeadline := some 1000000, stim := .departed };
      (s.engine.checkOwed = false ∧ ∀ c < 16, (s.ctx c).state ≠ .paused) ∧ (s.ctx 3).state = .running
        ∧ s.driveDef (s.ctx 3).element = some drive ∧ (s.ctx 3).phase = ph ∧ s.ring.state ≠ .lost
        ∧ s.source (drive.point (s.ctx 3).reverse) = .test 3 ∧ s.stimulus (drive.point (s.ctx 3).reverse) = some {}
        ∧ 1000000 ≤ s.time ∧ 999880 + 2 * drive.bandMax ≤ s.time ∧ s.time ≤ 1000000)
      ∧ (pointed .stop { record with quietStart := some 999881 }).time < 999881 + 2 * drive.bandMax := by decide

/-! ### One step each, from the rules' own numbers -/

/-- R18: at p = 14 with H = 10 the error is 4, within the tolerance of 4: p becomes 10. -/
theorem test_home_corrects :
    let t := (after (tracked fun t => { t with pos := 14 }) .homePulse).tracker;
    t.pos = 10 ∧ t.corrections = 1 ∧ t.history.map (·.error) = [4] := by decide
/-- R18: at p = 5 the error is −5, beyond the tolerance. -/
theorem test_home_slips :
    let t := (after (tracked fun t => { t with pos := 5 }) .homePulse).tracker;
    t.state = .faulted ∧ t.fault.map (·.detail) = some (.error (-5)) := by decide
/-- R21: at p = 20 with E = 3 and P = 32, r is 17 and the error −15. -/
theorem test_phase_error_sign : plant.phaseError = -15 := by decide
/-- R13: the allowance of 2 absorbs two reverse counts; the third faults. -/
theorem test_reverse_faults :
    (after (tracked fun t => { t with backlash := 1 }) .reverseCount).tracker.state = .tracking
      ∧ (after (tracked fun t => { t with backlash := 2 }) .reverseCount).tracker.state = .faulted := by
  decide
/-- R12: U stops at 2^48 − 1, and p wraps at L = 256. -/
theorem test_forward_stops_and_wraps :
    let t := (after (tracked fun t => { t with travel := 2 ^ 48 - 1, pos := 255 }) .forwardCount).tracker;
    t.travel = 2 ^ 48 - 1 ∧ t.pos = 0 := by decide
/-- R24: from v = 0, 8 counts in the millisecond with k = 3 give v = 256. -/
theorem test_speed_steps :
    (after { tracked fun t => { t with speed := 0, msTravel := 4992 } with time := 1000 } .speedUpdate).tracker.speed
      = 256 := by decide
/-- R183: a strap held low gives 115,200, held high 921,600. -/
theorem test_straps :
    ((after plant (.powerOnReset pins)).staLink .sta).rate = .r115200
      ∧ ((after plant (.powerOnReset pins)).staLink .stb).rate = .r921600 := by decide
/-- R113, R114: carrier 2 for coordinate 200 has target 24, 4 ahead of p = 20; with room for 64 the due point is
a revolution later, U + 260. -/
theorem test_aim : ((after (proving chuteProof) (.trialStart 3)).cueOf 3).map (·.due) = some 5260 := by
  decide
/-- R119: the lead used of 20 against a new lead of 0 moves the due point by floor(P/8) = 4. -/
theorem test_final_aim :
    ((after (cued cue3) (.cueFinalAim 3)).cueOf 3).map (fun q => (q.due, q.lead)) = some (5036, 16) := by
  decide
/-- R149, R150: the departing frame of a discharge marks the carrier SUSPECT, takes it off the list and opens two
windows. -/
theorem test_discharge_departs :
    let fired := after (cued (cueAt 5000 true)) (.cueFire 3);
    let s : State := { fired with ring := { fired.ring with slots := 3 } };
    let t := after s (.scannerFrame (frame 9 slots3));
    t.carrier 2 = .suspect ∧ (t.ctx 3).articles = [] ∧ (t.ctx 3).phase = .observing
      ∧ t.monitor.timeList.map (fun e => (e.role, e.closeAt)) = [(.entry, 100000), (.full, 200000)] := by
  decide +kernel
/-- R164: a block at the U of the start, where the guard starts, is not judged; at a later T it is EARLY (R159). -/
theorem test_edge_with_start :
    [0, 1].map (fun t =>
        ((after { atGuard with time := t } (.nodeFrame blockFrame)).ctx 3).history.map (·.outcome)) =
      [[], [.fail .early]] := by
  decide +kernel
/-- R187, R193: an edge of a watched point sends its station the point, the level, T and U. -/
theorem test_watched_edge :
    let s : State := { awaiting with links := { staB := { watch := [47] } } };
    ((after s (.nodeFrame (frame 9 slots3))).link .stb).queue =
      [{ kind := 0x62, tag := 0, body := [0, 47, 1, 0, 0, 0, 0, 0, 0, 0, 0, 0, 0, 0x13, 0x88] }] := by decide +kernel
/-- R117, R99: refused at the fifth candidate in every trial, the proof ends ABANDONED after eight voids. -/
theorem test_pacing_abandons :
    let t := after (crowded chuteProof) (.trialStart 3);
    (t.ctx 3).state = .free ∧ (t.elem 0).summary.map (fun m => (m.result, m.voids)) = some (.abandoned, 8) := by
  decide
/-- R40: a good frame from the nodes sets the levels of points 0, 1 and 47. -/
theorem test_points_change :
    let t := after awaiting (.nodeFrame (frame 9 slots3));
    [0, 1, 2, 47].map (fun pt => (t.input pt).level) = [true, true, false, true] := by decide +kernel
/-- R37: one more error takes the count from 88 to 96, which is DEGRADED. -/
theorem test_ring_degrades :
    (after (ringed fun g => { g with errors := 88 }) (.nodeFrame (frame 9 slots3))).ring.state = .degraded := by
  decide +kernel
/-- R101: Machine Stop pauses a running drive trial with one void that the limit does not count. -/
theorem test_stop_voids :
    let x := (after (driving .hold record) .machineStopAsserted).ctx 3;
    x.state = .paused ∧ x.reason = .stop ∧ x.voids = 1 ∧ x.limitVoids = 0 := by decide +kernel
/-- R55, step 7: a mask bit past the fields of a chute gives a field that is none of its kind. -/
theorem test_foreign_field :
    plant.candidateFault 0 (amendCandidate (plant.elem 0).definition (2 ^ 11) (blockImage (.chute chute))) =
      some .range := by
  decide

/-- R132, R141: an entry behind another due entry of its list waits for its turn. -/
theorem test_entries_in_list_order :
    let s : State := { watched (entry0 .arrive .edge .guard 4999) with
      monitor := { travelList := [entry0 .arrive .edge .guard 4999, { entry0 .quiet .full .opened 4999 with num := 8 }] } };
    (after s (.expectationClosePassed 8)).monitor = s.monitor
      ∧ (after s (.expectationClosePassed 7)).monitor ≠ s.monitor := by
  decide

/-- R118: a cue that its final aim moves ends the examination where it is not due at its new place; one that
its final aim leaves where it is has been handled, and the next cue has its turn. -/
theorem test_moved_cue_ends_examination :
    let aimed (lead : Nat) : List Bool :=
      let s := cued { cueAt 5020 false with lead := lead };
      let s : State := { s with sched := { s.sched with cues := s.sched.cues ++ [{ cue4 with due := 5030 }] } };
      (after s (.cueFinalAim 3)).sched.cues.map (·.aimed);
    aimed 20 = [true, false] ∧ aimed 0 = [true, true] := by
  decide

/-- R118: a cue whose final aim is due behind an aimed cue that is not is aimed at the next increase of U, not
when an Abort Proof takes that cue off the list, nor as time passes. -/
theorem test_exposed_cue_waits :
    let s : State := (plant.setCtx 3 { chuteProof with state := .running, phase := .aiming }).mapSched fun q =>
      { q with cues := [cueAt 5010 true, { cue4 with due := 5030 }] };
    let left := tick (after s (.abortProof .sta 0 3));
    left.sched.cues = [{ cue4 with due := 5030 }] ∧ after left (.cueFinalAim 4) = left
      ∧ (after (after left .forwardCount) (.cueFinalAim 4)).sched.cues.map (·.aimed) = [true] := by
  decide +kernel

/-- R184: MISO carries 0x00 throughout a write, also where a read went before. -/
theorem test_miso_in_write :
    let read := { plant with links := { plant.links with miso := [0x7E, 0x01] } }
    (after read (.setPacing .line 3 1 16 2)).links.miso = [] := by
  decide

/-- R69, R75 to R79, R81, R72, R106, R90, R92, R29: each order below is refused with the first reason that its rule
gives, the element named with its state and hold count where the rule names one, and has changed nothing. -/
theorem test_refusals :
    let named (s : State) (i : Nat) : Blame := { element := some (i, (s.elem i).state, (s.elem i).holdCount) };
    let held := proving { chuteProof with inFlight := some 7 };
    let cases : List (Instr × State × Port × Nat × List Byte) :=
      [(.lockOut .sta 4 0, plantIn .live .line, .sta, 0x09, refusedBody .live (named (plantIn .live .line) 0)),
        (.unlock .sta 4 0, plantIn .locked .stb, .sta, 0x0A, refusedBody .notHolder (named (plantIn .locked .stb) 0)),
        (.unlock .sta 4 9, plant, .sta, 0x0A, refusedBody .notDefined (named plant 9)),
        (.enlist .line 4 0, plantIn .testing .sta, .line, 0x12, refusedBody .testing (named (plantIn .testing .sta) 0)),
        (.enlist .line 4 0, plant, .line, 0x12, refusedBody .layoutOpen),
        (.enlist .line 4 1, plant, .line, 0x12, refusedBody .attached (named plant 1)),
        (.withdraw .line 4 0, plant, .line, 0x13, refusedBody .notHolder (named plant 0)),
        (.withdrawFaulty .line 4 1024, plant, .line, 0x14, refusedBody .range),
        (.orderProof .stb 4 proof0, plantIn .live .line, .stb, 0x06, refusedBody .live (named (plantIn .live .line) 0)),
        (.orderProof .stb 4 proof0, plant.setCarrier 0 .suspect, .stb, 0x06,
          refusedBody .carrierBusy { carrier := some (0, .suspect) }),
        (.orderProof .stb 4 proof0, plant.mapElem 2 fun e => { e with holdCount := 3 }, .stb, 0x06,
          refusedBody .quieted { element := some (2, .unproven, 3) }),
        (.addArticles .stb 4 3 [1], proving chuteProof, .stb, 0x07, refusedBody .notHolder),
        (.addArticles .sta 4 3 [0, 1, 3, 4, 5, 6, 7, 8], proving chuteProof, .sta, 0x07, refusedBody .range),
        (.abortProof .sta 4 16, plant, .sta, 0x08, refusedBody .range),
        (.clearCarrier .sta 4 7, held, .sta, 0x0B, refusedBody .held),
        (.setRingRole .sta 4 .origin 0 1000, plant, .sta, 0x0E, refusedBody .range),
        (.setRingRole .sta 4 .origin 1 1000, proving chuteProof, .sta, 0x0E, refusedBody .busy),
        (.setLapse .sta 4 61, plant, .sta, 0x0F, refusedBody .range),
        (.fixLayout .sta 4, staged, .sta, 0x04, refusedBody .trackUnset),
        (.releaseLayout .sta 4, plantIn .live .line, .sta, 0x05, refusedBody .live),
        (.setGeometry .sta 4 loop8, plantIn .live .line, .sta, 0x03, refusedBody .layoutFixed),
        (.defineElement .sta 4 0 .none [], plantIn .live .line, .sta, 0x01, refusedBody .live)];
    ∀ c ∈ cases, after c.2.1 c.1 = c.2.1.replied c.2.2.1 c.2.2.2.1 4 c.2.2.2.2 := by
  decide

/-- R102, R162: an ARTICLE sensor's trial carrier moves to the tail, a drive's current channel leaves the scan set
and its rest of 7 ms begins, and its ACTIVE point is asked for INACTIVE while the change awaited on the other is
cancelled. -/
theorem test_trial_end :
    let y := takeOutcome 3 (.fail .missed) none
      (proving { articleProof with state := .running, articles := [2, 5, 6] });
    let s := (driving .hold record).mapElem 5 fun e => { e with definition := .drive { drive with rest := 7 } };
    let t := takeOutcome 3 (.fail .noMotion) none
      { s with
        ring :=
          { plant.ring with
            sources := [(41, .test 3), (42, .test 3)]
            stimuli := [(41, some { value := .active }), (42, some { awaited := some (3, .level .active) })] }
        drives := { scanSet := [2, 7] } };
    (y.ctx 3).articles = [5, 6, 2] ∧ t.drives.scanSet = [7] ∧ (t.ctx 3).restEnd = some 1007000
      ∧ t.stimulus 41 = some { value := .active, awaited := some (3, .level .inactive) } ∧ t.stimulus 42 = some {} := by
  decide

/-- R35 to R38: a departure that finds the last return pending counts one NO_RETURN, and 190 and 8 more lose the ring;
the nominal period with no interval taken is 2,000 µs. -/
theorem test_departure_counts_no_return :
    [10, 190].map (fun e =>
        let t := after (unmet e (ringed id)) (.scannerFrame (frame 9 slots3));
        (t.ring.totalNoReturn, t.ring.errors, t.ring.state, t.ring.silence, t.ring.returnDeadline)) =
      [(1, 18, .good, some 6000, some 2000), (1, 198, .lost, none, some 2000)] := by
  decide +kernel

/-- R63, the worked sequence of chapter 03: at the proof's end the staged amendments of the chute and of its eye are
both applied, and the eye stays attached. -/
theorem test_chute_and_eye_amended :
    let s := (proving { chuteProof with state := .closing, ending := some (.passed, .count) }).mapElem 0 fun e =>
      { e with staged := some (.chute { chute with pulse := 45 }) };
    let s := s.mapElem 1 fun e =>
      { e with staged := some (.sensor { eye 0 with blockedHigh := false, attachedTo := none }) };
    let t := after s (.closingSecondPart 3);
    (t.elem 0).definition = .chute { chute with pulse := 45 }
      ∧ (t.elem 1).definition = .sensor { eye 0 with blockedHigh := false }
      ∧ (t.elem 0).state = .unproven ∧ (t.elem 1).state = .unproven ∧ (t.elem 2).state = .proven := by
  decide

/-- R10, R39, R193: a reverse fault and a Ring Restart are told to each port, behind the outcome of the trial ended. -/
theorem test_state_notices :
    let running :=
      (tracked fun t => { t with backlash := 2 }).setCtx 3 { sensorProof with state := .running, notice := true };
    let sent (c : Instr) : List (List (Nat × List Byte)) := [Port.sta, .stb, .line].map fun p =>
      ((after running c).link p).queue.map fun f => (f.kind.toNat, f.body.take 3);
    sent .reverseCount = [[(0x61, [3, 0, 3]), (0x63, [3, 1, 0])], [(0x63, [3, 1, 0])], [(0x63, [3, 1, 0])]]
      ∧ sent (.ringRestart .stb 4) =
        [[(0x61, [3, 0, 3]), (0x64, [2, 0, 2])], [(0x8D, [0]), (0x64, [2, 0, 2])], [(0x64, [2, 0, 2])]] := by
  decide

/-- R78: Lock Out answers ACCEPTED with KIND 0x89 and the order's TAG. -/
theorem test_lock_out :
    let t := after plant (.lockOut .stb 7 5);
    (t.elem 5).state = .locked ∧ (t.elem 5).holder = .stb
      ∧ (t.link .stb).queue = [{ kind := 0x89, tag := 7, body := [0] }] := by decide
/-- R174: an assisted sample of 3,072 fails WIRING. -/
theorem test_wiring :
    let s : State := { driving .precheck record with drives := { scanSet := [2], current := [(2, { step := .assist })] } };
    let x := (after s (.currentScan (List.replicate 16 3072))).ctx 3;
    x.fails = 1 ∧ x.history.map (·.outcome) = [.fail .wiring] := by decide
/-- R108: the last point of a settle set departs with the next frame and the proof's claim is released. -/
theorem test_closing_ends :
    let s := cued cue3;
    let s : State :=
      { s.setCtx 3 { chuteProof with state := .closing, ending := some (.passed, .count), settle := [40] } with
        ring := { s.ring with slots := 3, stimuli := [(40, some { value := .active, awaited := some (3, .level .inactive) })] } };
    let t := after s (.scannerFrame (frame 9 slots3));
    (t.ctx 3).state = .free ∧ (t.elem 0).state = .proven ∧ t.source 40 = .pass := by decide +kernel

end Sys2Proof.Tests
end

/-! PROOFS. The counting of an outcome and the decision on the proof (R98, R99): one rule for each count and
for the worst deviation, one for the decision after a counted outcome and one for that after a void. -/

namespace Sys2Proof.Machine

open Sys2Proof

/-! ### The worst deviation (R98) -/

@[simp] theorem worseOf_none (worst : Option Int) : worseOf worst none = worst := by
  cases worst <;> rfl

theorem worseOf_some (worst : Option Int) (dev : Int) :
    worseOf worst (some dev) = if ∀ w ∈ worst, w.natAbs < dev.natAbs then some dev else worst := by
  cases worst with
  | none => simp [worseOf]
  | some w => simp [worseOf]

section Outcome

variable (x : Context) (o : TrialOutcome) (d : Option Int)

/-! ### The counts (R98) -/

/-- A void of any cause is no trial: it touches only the two counts of voids. -/
theorem countOutcome_void (cause : VoidCause) :
    countOutcome x (.void cause) d =
      { x with
        voids := min 63 (x.voids + 1)
        limitVoids := if cause = .stop then x.limitVoids else x.limitVoids + 1 } := by
  cases cause <;> rfl

theorem countOutcome_trials :
    (countOutcome x o d).trials = match o with | .void _ => x.trials | _ => x.trials + 1 := by
  cases o with
  | pass | fail => rfl
  | void cause => rw [countOutcome_void]

theorem countOutcome_streak :
    (countOutcome x o d).streak =
      match o with | .pass => x.streak + 1 | .fail _ => 0 | .void _ => x.streak := by
  cases o with
  | pass | fail => rfl
  | void cause => rw [countOutcome_void]

theorem countOutcome_fails :
    (countOutcome x o d).fails = match o with | .fail _ => x.fails + 1 | _ => x.fails := by
  cases o with
  | pass | fail => rfl
  | void cause => rw [countOutcome_void]

theorem countOutcome_voids :
    (countOutcome x o d).voids = match o with | .void _ => min 63 (x.voids + 1) | _ => x.voids := by
  cases o with
  | pass | fail => rfl
  | void cause => rw [countOutcome_void]

/-- The voids that end a proof leave out those of Machine Stop. -/
theorem countOutcome_limitVoids :
    (countOutcome x o d).limitVoids =
      match o with
      | .void .stop => x.limitVoids
      | .void _ => x.limitVoids + 1
      | _ => x.limitVoids := by
  cases o with
  | pass | fail => rfl
  | void cause => cases cause <;> rfl

variable {x o d}

theorem countOutcome_worst_of_counted (counted : ∀ cause, o ≠ .void cause) :
    (countOutcome x o d).worst = worseOf x.worst d := by
  cases o with
  | pass | fail => rfl
  | void cause => exact absurd rfl (counted cause)

/-- A PASS or FAIL without a deviation and a void leave the worst deviation as it was. -/
theorem countOutcome_worst_same (h : d = none ∨ ¬ ∀ cause, o ≠ .void cause) :
    (countOutcome x o d).worst = x.worst := by
  by_cases counted : ∀ cause, o ≠ .void cause
  · obtain rfl : d = none := h.resolve_right (not_not_intro counted)
    rw [countOutcome_worst_of_counted counted, worseOf_none]
  · obtain ⟨cause, rfl⟩ : ∃ cause, o = .void cause := by simpa using counted
    rw [countOutcome_void]

/-! ### The decision (R99) -/

theorem decideProof_of_counted (counted : ∀ cause, o ≠ .void cause) :
    decideProof x o =
      if x.streak = x.k then some (.passed, .count)
      else if x.streak + (x.tLim - x.trials) < x.k then some (.failed, .count)
      else none := by
  cases o with
  | pass | fail => rfl
  | void cause => exact absurd rfl (counted cause)

theorem decideProof_of_void (h : ¬ ∀ cause, o ≠ .void cause) :
    decideProof x o = if 8 ≤ x.limitVoids then some (.abandoned, .voids) else none := by
  obtain ⟨cause, rfl⟩ : ∃ cause, o = .void cause := by simpa using h
  rfl

end Outcome

/-- Settles O48: the counts by the outcome's kind, the worst deviation and the decision by whether the outcome
is counted. -/
theorem outcomesAreCountedAndDecided : Obligations.OutcomesAreCountedAndDecided := by
  intro x o d y counted
  refine ⟨countOutcome_trials x o d, countOutcome_streak x o d, countOutcome_fails x o d,
    countOutcome_voids x o d, countOutcome_limitVoids x o d, ?worse, countOutcome_worst_same,
    ?passed, ?failed, ?goesOn, ?abandoned, ?voidGoesOn⟩
  case worse =>
    rintro dev hc rfl
    exact (countOutcome_worst_of_counted hc).trans (worseOf_some x.worst dev)
  case passed =>
    intro hc hk
    rw [decideProof_of_counted hc, if_pos hk]
  case failed =>
    intro hc hk hlost
    rw [decideProof_of_counted hc, if_neg hk, if_pos hlost]
  case goesOn =>
    intro hc hk hopen
    rw [decideProof_of_counted hc, if_neg hk, if_neg (Nat.not_lt.mpr hopen)]
  case abandoned =>
    intro hv hlimit
    rw [decideProof_of_void hv, if_pos hlimit]
  case voidGoesOn =>
    intro hv hlimit
    rw [decideProof_of_void hv, if_neg (Nat.not_le.mpr hlimit)]

end Sys2Proof.Machine

/-! PROOFS. Aiming and pacing (R113, R114, R116, R117): the target and the travel to the first candidate as
remainders mod L, the window test over every run from the runs that the model tries, and the admission by the two
tests. -/

namespace Sys2Proof.Machine

open Sys2Proof

/-! ### Remainders mod L -/

section Remainder

variable {m : Nat}

theorem posMod_eq_emod (hm : 0 < m) (x : Int) : (posMod x m : Int) = x % m :=
  Int.toNat_of_nonneg (Int.emod_nonneg x (by omega))

theorem posMod_lt (hm : 0 < m) (x : Int) : posMod x m < m := by
  have hlt := Int.emod_lt_of_pos x (b := (m : Int)) (by omega)
  rw [← posMod_eq_emod hm] at hlt
  exact_mod_cast hlt

theorem dvd_posMod_sub (hm : 0 < m) (x : Int) : (m : Int) ∣ posMod x m - x := by
  rw [posMod_eq_emod hm]
  exact Int.dvd_emod_sub_self

end Remainder

/-! ### Aiming (R113, R114) -/

section Aiming

variable {g : Geometry} (hg : 0 < g.length)
include hg

theorem targetOf_eq_emod (coord k : Nat) :
    (targetOf g coord k : Int) =
      ((coord + k * g.pitch.getD 0 + g.pitch.getD 0 / 2 : Nat) : Int) % g.length :=
  posMod_eq_emod hg _

/-- A travel shorter than the setup room takes one revolution more, which is room enough as the room is at most
half a revolution. -/
theorem aimDistance_bounds (p target lead : Nat) :
    g.effSetup ≤ aimDistance g p target lead ∧ aimDistance g p target lead < g.effSetup + g.length := by
  have hroom : g.effSetup ≤ g.length / 2 := Nat.min_le_right _ _
  have hlt := posMod_lt hg ((posMod ((target : Int) - lead) g.length : Int) - p)
  rw [aimDistance]
  split <;> omega

/-- The travel ends at the target less the lead. -/
theorem dvd_aimDistance (p target lead : Nat) :
    (g.length : Int) ∣ (p : Int) + aimDistance g p target lead - (target - lead) := by
  obtain ⟨i, hi⟩ := dvd_posMod_sub hg ((target : Int) - lead)
  obtain ⟨j, hj⟩ := dvd_posMod_sub hg ((posMod ((target : Int) - lead) g.length : Int) - p)
  rw [aimDistance]
  split
  case isTrue =>
    refine ⟨i + j + 1, ?_⟩
    push_cast
    linarith
  case isFalse =>
    refine ⟨i + j, ?_⟩
    linarith

end Aiming

/-! ### Pacing (R116, R117) -/

section Pacing

variable {gap len q : Nat} {pts : List Int} {u : Int}

theorem spacingOk_iff : spacingOk gap pts u = true ↔ ∀ x ∈ pts, gap ≤ (u - x).natAbs := by
  simp [spacingOk]

/-- A run that begins later holds as many, where it begins no later than the first point that the earlier run
holds. -/
theorem runHolds_le_of_first {a b : Int} (hab : a ≤ b)
    (hfirst : ∀ x ∈ u :: pts, a ≤ x → x < a + len → b ≤ x) :
    runHolds len pts u a ≤ runHolds len pts u b := by
  simp only [runHolds, ← List.countP_eq_length_filter]
  refine List.countP_mono_left fun x hx hin => ?_
  obtain ⟨hax, hxa⟩ := of_decide_eq_true hin
  exact decide_eq_true ⟨hfirst x hx hax hxa, by omega⟩

/-- The first of the points that a run around `u` holds, `u` among them. -/
theorem exists_first_of_run {a : Int} (hau : a ≤ u) (hua : u < a + len) :
    ∃ b ∈ u :: pts, a ≤ b ∧ b ≤ u ∧ ∀ x ∈ u :: pts, a ≤ x → x < a + len → b ≤ x := by
  obtain ⟨b, hb, hmin⟩ :=
    ((u :: pts).toFinset.filter fun x => a ≤ x ∧ x < a + len).exists_min_image id ⟨u, by simp [hau, hua]⟩
  simp only [Finset.mem_filter, List.mem_toFinset, id, and_imp] at hb hmin
  obtain ⟨hmem, hab, -⟩ := hb
  exact ⟨b, hmem, hab, hmin u List.mem_cons_self hau hua, hmin⟩

/-- The runs that the model tries begin at `u` or at a pacing point before it. -/
theorem windowOk_iff_tried :
    windowOk len q pts u = true ↔
      runHolds len pts u u ≤ q ∧ ∀ a ∈ pts, u - len < a → a ≤ u → runHolds len pts u a ≤ q := by
  simp only [windowOk, List.all_cons, Bool.and_eq_true, List.all_eq_true, List.mem_filter, decide_eq_true_eq,
    and_imp]

/-- An empty run holds nothing. -/
theorem runHolds_zero (a : Int) : runHolds 0 pts u a = 0 := by
  rw [runHolds, List.length_eq_zero_iff, List.filter_eq_nil_iff]
  intro x _ hin
  obtain ⟨hax, hxa⟩ := of_decide_eq_true hin
  omega

/-- The runs that the model tries are enough: any run that contains `u` holds no more than the one that begins at
its first point. -/
theorem windowOk_iff :
    windowOk len q pts u = true ↔ ∀ a : Int, a ≤ u → u < a + len → runHolds len pts u a ≤ q := by
  rw [windowOk_iff_tried]
  constructor
  case mp =>
    rintro ⟨hself, hpts⟩ a hau hua
    obtain ⟨b, hb, hab, hbu, hfirst⟩ := exists_first_of_run (pts := pts) hau hua
    refine (runHolds_le_of_first hab hfirst).trans ?_
    obtain rfl | hb := List.mem_cons.mp hb
    · exact hself
    · exact hpts b hb (by omega) hbu
  case mpr =>
    intro hall
    refine ⟨?self, fun a _ hlow hau => hall a hau (by omega)⟩
    case self =>
      obtain rfl | hlen := Nat.eq_zero_or_pos len
      · simp [runHolds_zero]
      · exact hall u le_rfl (by omega)

variable {l n r : Nat}

theorem admission_of_fits (hgap : ∀ x ∈ pts, gap ≤ (u - x).natAbs)
    (hruns : ∀ a : Int, a ≤ u → u < a + len → runHolds len pts u a ≤ q) :
    admission gap len q l pts (n + 1) r u = some (u, r) := by
  rw [admission, spacingOk_iff.mpr hgap, windowOk_iff.mpr hruns]
  rfl

theorem admission_of_not_fits
    (hnot : ¬ ((∀ x ∈ pts, gap ≤ (u - x).natAbs)
      ∧ ∀ a : Int, a ≤ u → u < a + len → runHolds len pts u a ≤ q)) :
    admission gap len q l pts (n + 1) r u = admission gap len q l pts n (r + 1) (u + l) := by
  rw [← spacingOk_iff, ← windowOk_iff, ← Bool.and_eq_true] at hnot
  rw [admission, if_neg hnot]

end Pacing

/-- Settles O53: lead and target as defined, the first candidate by its remainders, and the admission by the two
tests, the window test over every run. -/
theorem aimsAreComputedAndAdmitted : Obligations.AimsAreComputedAndAdmitted := by
  refine ⟨fun _ _ _ => rfl, fun g coord k hg => targetOf_eq_emod hg coord k, ?firstCandidate, ?admitted⟩
  case firstCandidate =>
    intro g p target lead hg
    obtain ⟨hlow, hhigh⟩ := aimDistance_bounds hg p target lead
    exact ⟨hlow, hhigh, dvd_aimDistance hg p target lead⟩
  case admitted =>
    intro gap len q l pts n r u fits
    exact ⟨fun ⟨hgap, hruns⟩ => admission_of_fits hgap hruns, admission_of_not_fits⟩

end Sys2Proof.Machine

/-! PROOFS. The orders that set what a station's own port holds (R83, R188): the reply of an order whose effect
writes the port's station part alone, then one equation per outcome of Set Lapse, Watch Point and Unwatch. -/

namespace Sys2Proof.Machine

open Sys2Proof

/-! ### A port's queue and a station's part of it -/

theorem mapSta_mapLink (s : State) (st : Station) (p : Port) (f : StationLink → StationLink) (g : Link → Link) :
    (s.mapSta st f).mapLink p g = (s.mapLink p g).mapSta st f := by cases st <;> cases p <;> rfl

theorem mapLink_mapLink (s : State) (p : Port) (f g : Link → Link) :
    (s.mapLink p f).mapLink p g = s.mapLink p fun l => g (f l) := by cases p <;> rfl

theorem mapSta_same (s : State) (st : Station) : (s.mapSta st fun x => x) = s := by cases st <;> rfl

@[simp] theorem queueReply_queue (p : Port) (k : Nat) (tag : Byte) (body : List Byte) (s : State) :
    ((queueReply p k tag [body] s).link p).queue = (s.link p).queue ++ [replyFrame k tag body] := by
  simp [queueReply, replyFrame]

/-- A reply put into its place is the reply that joined the tail. -/
theorem queueReply_filled (p : Port) (k : Nat) (tag : Byte) (body : List Byte) (s : State) :
    ((queueReply p k tag [[]] s).mapLink p fun l =>
        { l with queue := (s.link p).queue ++ [replyFrame k tag body] }) = queueReply p k tag [body] s := by
  rw [queueReply, mapLink_mapLink]
  cases p <;> rfl

/-! ### Orders whose effect writes a station's part alone -/

section StationOrder

variable {st : Station} {k : Nat} {tag : Byte} {eff : State → State × List Byte} {s : State} {body : List Byte}

/-- The state in which the effect of a station's order is judged: the good frame has come and the reply has its
place (R185). -/
def State.judged (s : State) (st : Station) (k : Nat) (tag : Byte) : State :=
  queueReply (stationPort st) k tag [[]] (goodFrame (stationPort st) s)

@[simp] theorem watchOf_judged : (s.judged st k tag).watchOf (stationPort st) = (s.staLink st).watch := by
  cases st <;> rfl

theorem fromStation_stationPort : fromStation (stationPort st) = true := by cases st <;> rfl

theorem portStation_stationPort : portStation (stationPort st) = some st := by cases st <;> rfl

theorem setWatch_stationPort (l : List Nat) (s : State) :
    setWatch (stationPort st) l s = s.mapSta st fun x => { x with watch := l } := by
  rw [setWatch, portStation_stationPort]

variable (hroom : s.room (stationPort st))
include hroom

/-- The reply stands at the tail, and what the effect writes beside the queue stands with it. -/
theorem takeOrder_mapSta {f : StationLink → StationLink}
    (he : eff (s.judged st k tag) = ((s.judged st k tag).mapSta st f, body)) :
    takeOrder (stationPort st) fromStation k tag eff s = (s.replied (stationPort st) k tag body).mapSta st f := by
  rw [State.judged] at he
  rw [takeOrder_taken k tag eff hroom fromStation_stationPort, replyWith_quiet, he]
  · dsimp only
    rw [mapSta_mapLink, queueReply_filled, State.replied]
  · rw [he, link_mapSta, queueReply_queue]

/-- An effect that writes nothing leaves the reply alone. -/
theorem takeOrder_unchanged (he : eff (s.judged st k tag) = (s.judged st k tag, body)) :
    takeOrder (stationPort st) fromStation k tag eff s = s.replied (stationPort st) k tag body := by
  rw [takeOrder_mapSta hroom (f := fun x => x) (he.trans (by rw [mapSta_same])), mapSta_same]

/-! ### Set Lapse (R83) -/

theorem exec_setLapse_of_gt {seconds : Nat} (h : 60 < seconds) :
    exec (.setLapse (stationPort st) tag seconds) s =
      .next (s.replied (stationPort st) 0x0F tag (refusedBody .range)) :=
  congrArg _ (takeOrder_unchanged hroom (if_pos h))

theorem exec_setLapse_of_le {seconds : Nat} (h : ¬ 60 < seconds) :
    exec (.setLapse (stationPort st) tag seconds) s =
      .next ((s.replied (stationPort st) 0x0F tag (accepted [])).mapSta st fun x => { x with lapse := seconds }) := by
  refine congrArg _ (takeOrder_mapSta hroom ?_)
  rw [setLapseEffect, if_neg h, portStation_stationPort]

/-! ### Watch Point (R188) -/

variable {pt : Nat}

theorem exec_watchPoint_of_gt (h : 1023 < pt) :
    exec (.watchPoint (stationPort st) tag pt) s =
      .next (s.replied (stationPort st) 0x10 tag (refusedBody .range)) :=
  congrArg _ (takeOrder_unchanged hroom (if_pos h))

/-- A point already on the list is accepted and changes nothing. -/
theorem exec_watchPoint_of_mem (h : ¬ 1023 < pt) (hmem : pt ∈ (s.staLink st).watch) :
    exec (.watchPoint (stationPort st) tag pt) s =
      .next (s.replied (stationPort st) 0x10 tag (accepted (encList (be 2) (s.staLink st).watch))) := by
  refine congrArg _ (takeOrder_unchanged hroom ?_)
  simp only [watchEffect, watchOf_judged]
  rw [if_neg h, if_pos hmem, watchReply]

theorem exec_watchPoint_of_full (h : ¬ 1023 < pt) (hmem : pt ∉ (s.staLink st).watch)
    (hfull : 4 ≤ (s.staLink st).watch.length) :
    exec (.watchPoint (stationPort st) tag pt) s =
      .next (s.replied (stationPort st) 0x10 tag (refusedBody .busy)) := by
  refine congrArg _ (takeOrder_unchanged hroom ?_)
  simp only [watchEffect, watchOf_judged]
  rw [if_neg h, if_neg hmem, if_neg (Nat.not_lt.mpr hfull), refuse]

/-- A new point joins the tail of a list that has room. -/
theorem exec_watchPoint_of_new (h : ¬ 1023 < pt) (hmem : pt ∉ (s.staLink st).watch)
    (hshort : ¬ 4 ≤ (s.staLink st).watch.length) :
    exec (.watchPoint (stationPort st) tag pt) s =
      .next ((s.replied (stationPort st) 0x10 tag
          (accepted (encList (be 2) ((s.staLink st).watch ++ [pt])))).mapSta st fun x =>
        { x with watch := (s.staLink st).watch ++ [pt] }) := by
  refine congrArg _ (takeOrder_mapSta hroom ?_)
  simp only [watchEffect, watchOf_judged]
  rw [if_neg h, if_neg hmem, if_pos (Nat.lt_of_not_le hshort), setWatch_stationPort, watchReply]

/-! ### Unwatch (R188) -/

theorem exec_unwatch_of_gt (h : 1023 < pt) :
    exec (.unwatch (stationPort st) tag pt) s =
      .next (s.replied (stationPort st) 0x11 tag (refusedBody .range)) :=
  congrArg _ (takeOrder_unchanged hroom (if_pos h))

theorem exec_unwatch_of_le (h : ¬ 1023 < pt) :
    exec (.unwatch (stationPort st) tag pt) s =
      .next ((s.replied (stationPort st) 0x11 tag
          (accepted (encList (be 2) ((s.staLink st).watch.filter fun q => decide (q ≠ pt))))).mapSta st fun x =>
        { x with watch := (s.staLink st).watch.filter fun q => decide (q ≠ pt) }) := by
  refine congrArg _ (takeOrder_mapSta hroom ?_)
  simp only [unwatchEffect, watchOf_judged]
  rw [if_neg h, setWatch_stationPort, watchReply]

end StationOrder

/-- Settles O22: each order by the outcomes of its checks, in their order. -/
theorem stationSettingsFollowOrders : Obligations.StationSettingsFollowOrders := by
  refine ⟨?setLapse, fun st tag pt s hroom => ⟨?watchPoint, ?unwatch⟩⟩
  case setLapse =>
    intro st tag seconds s hroom
    split
    case isTrue h => exact exec_setLapse_of_gt hroom h
    case isFalse h => exact exec_setLapse_of_le hroom h
  case watchPoint =>
    dsimp only
    split_ifs with h hmem hfull
    · exact exec_watchPoint_of_gt hroom h
    · exact exec_watchPoint_of_mem hroom h hmem
    · exact exec_watchPoint_of_full hroom h hmem hfull
    · exact exec_watchPoint_of_new hroom h hmem hfull
  case unwatch =>
    dsimp only
    split_ifs with h
    · exact exec_unwatch_of_gt hroom h
    · exact exec_unwatch_of_le hroom h

end Sys2Proof.Machine

/-! PROOFS. The invariants of every step: canonical tables, ranges and ascending lists, each from what the
elementary changes of its block keep (`Stable`); and what no command changes beside resets and forward counts. -/

namespace Sys2Proof.Machine

open Sys2Proof

/-! ### Canonical tables -/

/-- `State.canonical` with a name for each table. -/
structure State.Canonical (s : State) : Prop where
  records : Table.wf {} s.table.records = true
  contexts : Table.wf {} s.engine.contexts = true
  carriers : Table.wf .free s.engine.carriers = true
  image : Table.wf {} s.ring.image = true
  applied : Table.wf 0 s.ring.applied = true
  sources : Table.wf .pass s.ring.sources = true
  stimuli : Table.wf none s.ring.stimuli = true
  tach : Table.wf {} s.drives.tach = true
  current : Table.wf {} s.drives.current = true

theorem canonical_iff (s : State) : s.canonical = true ↔ s.Canonical := by
  simp only [State.canonical, Bool.and_eq_true]
  constructor
  · rintro ⟨⟨⟨⟨⟨⟨⟨⟨h1, h2⟩, h3⟩, h4⟩, h5⟩, h6⟩, h7⟩, h8⟩, h9⟩
    exact ⟨h1, h2, h3, h4, h5, h6, h7, h8, h9⟩
  · rintro ⟨h1, h2, h3, h4, h5, h6, h7, h8, h9⟩
    exact ⟨⟨⟨⟨⟨⟨⟨⟨h1, h2⟩, h3⟩, h4⟩, h5⟩, h6⟩, h7⟩, h8⟩, h9⟩

/-- Slots that are sent go into the applied image one by one. -/
theorem wf_applied (l : List (Slot × Nat)) {t : Table Word16} (h : Table.wf 0 t = true) :
    Table.wf 0 (l.foldl (fun t e => Table.set 0 t e.2 e.1.out) t) = true := by
  induction l generalizing t with
  | nil => exact h
  | cons e l ih => exact ih (Table.wf_set _ _ h)

/-- What the changes of the ring leave of its tables. -/
theorem RingMove.tables_wf {g g' : Ring} (m : RingMove g g') (hi : Table.wf {} g.image = true)
    (ha : Table.wf 0 g.applied = true) :
    Table.wf {} g'.image = true ∧ Table.wf 0 g'.applied = true ∧ g'.sources = g.sources
      ∧ g'.stimuli = g.stimuli := by
  cases m with
  | error k => cases k <;> exact ⟨hi, ha, rfl, rfl⟩
  | sent l f => exact ⟨hi, wf_applied l ha, rfl, rfl⟩
  | image pt r => exact ⟨Table.wf_set _ _ hi, ha, rfl, rfl⟩
  | _ => exact ⟨hi, ha, rfl, rfl⟩

theorem canonical_stable : Stable State.Canonical where
  elem _ _ _ h := { h with records := Table.wf_set _ _ h.records }
  ctx _ _ _ h := { h with contexts := Table.wf_set _ _ h.contexts }
  carrier _ _ _ h := { h with carriers := Table.wf_set _ _ h.carriers }
  stim _ _ _ h := { h with stimuli := Table.wf_set _ _ h.stimuli }
  source _ _ _ h := { h with sources := Table.wf_set _ _ h.sources }
  cues _ _ _ h := { h with }
  history _ _ _ h := { h with }
  examining _ _ h := { h with }
  monitor _ _ _ h := { h with }
  scan _ _ h := { h with }
  current _ _ _ h := { h with current := Table.wf_set _ _ h.current }
  notice _ _ _ _ _ h := { h with }
  owed _ _ h := { h with }
  tracker _ _ _ h := { h with }
  ring s g m h := by
    obtain ⟨hi, ha, hs, ht⟩ := m.tables_wf h.image h.applied
    exact { h with image := hi, applied := ha, sources := hs ▸ h.sources, stimuli := ht ▸ h.stimuli }
  engine s e m h := by cases m <;> exact { h with }
  drives s d m h := by
    cases m with
    | tach ch x => exact { h with tach := Table.wf_set _ _ h.tach }
    | next t => exact { h with }
    | limit n => exact { h with }
  pacing _ _ _ _ h := { h with }
  shift _ _ h := { h with }
  told _ _ _ _ h := { h with }
  layout _ _ h := { h with }
  reply _ _ _ _ _ _ h := { h with }
  link _ _ _ _ h := { h with }
  station _ _ _ _ h := { h with }
  miso _ _ h := { h with }
  advance _ h := { h with }
  guards _ h := { h with }
  time _ h := { h with }
  free _ _ h := { h with }
  queue _ _ h := { h with }
  reset _ _ _ := ⟨rfl, rfl, rfl, rfl, rfl, rfl, rfl, rfl, rfl⟩

/-- Settles O8: every elementary change writes tables through `Table.set`. -/
theorem stepsKeepTablesCanonical : Obligations.StepsKeepTablesCanonical := by
  intro s t hs ht
  rw [canonical_iff] at hs ⊢
  exact canonical_stable.step_ s t hs ht

/-! ### Ranges -/

theorem within_iff {lo hi v : Nat} : within lo hi v = true ↔ lo ≤ v ∧ v ≤ hi := by simp [within]

theorem within_clampTo {lo hi : Nat} (h : lo ≤ hi) (v : Nat) : within lo hi (clampTo lo hi v) = true :=
  within_iff.2 ⟨le_max_left _ _, max_le h (min_le_left _ _)⟩

theorem capAdd_le (cap n k : Nat) : capAdd cap n k ≤ cap := min_le_left _ _

/-- `Tracker.sound` with a name for each range. -/
structure Tracker.Sound (t : Tracker) : Prop where
  active : t.active.sound = true
  staged : ∀ g, t.staged = some g → g.sound = true
  backlash : t.backlash ≤ t.active.revAllow
  pos : t.active.length = 0 ∨ t.pos < t.active.length
  travel : t.travel ≤ Config.max48
  speed : t.speed ≤ 65535 * 256
  illegal : t.illegal ≤ 4
  corrections : t.corrections ≤ 65535
  history : t.history.length ≤ 4
  pitchTotal : t.pitchTotal ≤ 65535
  pitchRun : t.pitchRun ≤ 3

theorem tracker_sound_iff (t : Tracker) : t.sound = true ↔ t.Sound := by
  simp only [Tracker.sound, Bool.and_eq_true, Bool.or_eq_true, decide_eq_true_eq, Option.all_eq_true]
  constructor
  · rintro ⟨⟨⟨⟨⟨⟨⟨⟨⟨⟨h1, h2⟩, h3⟩, h4⟩, h5⟩, h6⟩, h7⟩, h8⟩, h9⟩, h10⟩, h11⟩
    exact ⟨h1, h2, h3, h4, h5, h6, h7, h8, h9, h10, h11⟩
  · rintro ⟨h1, h2, h3, h4, h5, h6, h7, h8, h9, h10, h11⟩
    exact ⟨⟨⟨⟨⟨⟨⟨⟨⟨⟨h1, h2⟩, h3⟩, h4⟩, h5⟩, h6⟩, h7⟩, h8⟩, h9⟩, h10⟩, h11⟩

/-- In a sound geometry that is set, H lies below L; an unset one has length 0. -/
theorem Geometry.home_lt {g : Geometry} (h : g.sound = true) : g.length = 0 ∨ g.home.getD 0 < g.length := by
  simp only [Geometry.sound, Bool.and_eq_true] at h
  obtain ⟨⟨⟨⟨⟨⟨hm, -⟩, -⟩, -⟩, -⟩, -⟩, -⟩ := h
  split at hm
  · rename_i hn _ _ _
    exact .inl (by simp [Geometry.length, hn])
  · rename_i n p e i hn hp hh _
    refine .inr ?_
    simp only [Bool.and_eq_true, decide_eq_true_eq] at hm
    obtain ⟨⟨-, hlt⟩, -⟩ := hm
    simpa [Geometry.length, hn, hp, hh] using hlt
  · cases hm

/-- The geometry that an order in range carries is sound (R3). -/
theorem orderGeometry_sound {o : GeometryOrder} (h : orderInRange o = true) : (orderGeometry o).sound = true := by
  simp only [orderInRange, Bool.and_eq_true] at h
  obtain ⟨⟨⟨⟨⟨⟨⟨⟨⟨h1, h2⟩, h3⟩, h4⟩, h5⟩, h6⟩, h7⟩, h8⟩, h9⟩, h10⟩ := h
  simp only [Geometry.sound, orderGeometry, Bool.and_eq_true]
  exact ⟨⟨⟨⟨⟨⟨⟨⟨⟨⟨h1, h2⟩, h3⟩, h4⟩, h5⟩, h6⟩, h7⟩, h8⟩, h9⟩, within_iff.2 ⟨Nat.zero_le _, min_le_right _ _⟩⟩, h10⟩

/-- A smoothing step stays below a bound on both its ends (R24). -/
theorem smoothStep_le {target value k b : Nat} (ht : target ≤ b) (hv : value ≤ b) :
    smoothStep target value k ≤ b := by
  have hk : (1 : Int) ≤ (2 ^ k : Nat) := by exact_mod_cast Nat.one_le_two_pow
  unfold smoothStep
  rcases le_total ((target : Int) - value) 0 with hneg | hpos
  · have : Int.tdiv ((target : Int) - value) (2 ^ k : Nat) ≤ 0 := by
      rw [← neg_neg ((target : Int) - value), Int.neg_tdiv]
      have := Int.tdiv_nonneg (a := -((target : Int) - value)) (b := (2 ^ k : Nat)) (by omega) (by omega)
      omega
    omega
  · have : Int.tdiv ((target : Int) - value) (2 ^ k : Nat) ≤ (target : Int) - value := by
      rw [Int.tdiv_eq_ediv_of_nonneg hpos]
      exact Int.ediv_le_self _ hpos
    omega

theorem TrackerMove.sound {t t' : Tracker} (m : TrackerMove t t') (h : t.Sound) : t'.Sound := by
  cases m with
  | pay => exact { h with backlash := (Nat.sub_le _ _).trans h.backlash }
  | absorb hb => exact { h with backlash := hb }
  | illegal => exact { h with illegal := capAdd_le _ _ _ }
  | clearIllegal => exact { h with illegal := Nat.zero_le _ }
  | pitchGood => exact { h with pitchRun := Nat.zero_le _ }
  | pitchBad => exact { h with pitchTotal := capAdd_le _ _ _, pitchRun := capAdd_le _ _ _ }
  | correct r =>
    exact { h with
      pos := Geometry.home_lt h.active, corrections := capAdd_le _ _ _, history := pushTail_length _ _ _ }
  | applyStaged g hg =>
    have hs := h.staged g hg
    exact { h with
      active := hs, staged := nofun, backlash := min_le_right _ _, pos := Geometry.home_lt hs
      history := Nat.zero_le _ }
  | discard => exact { h with staged := nofun }
  | homeIn => exact { h with pos := Geometry.home_lt h.active, pitchRun := Nat.zero_le _ }
  | speed =>
    exact { h with speed := smoothStep_le (Nat.mul_le_mul_right 256 (min_le_left _ _)) h.speed }
  | applyNow o st ho =>
    have hs := orderGeometry_sound ho
    have hp : 0 < (orderGeometry o).length := (Geometry.home_lt hs).elim (fun h0 => by
      simp only [orderInRange, Bool.and_eq_true, within_iff] at ho
      obtain ⟨⟨⟨⟨⟨⟨⟨⟨⟨h1, h2⟩, -⟩, -⟩, -⟩, -⟩, -⟩, -⟩, -⟩, -⟩ := ho
      have : o.carriers * o.pitch = 0 := h0
      have := Nat.mul_pos (show 0 < o.carriers by omega) (show 0 < o.pitch by omega)
      omega) fun h0 => (Nat.zero_le _).trans_lt h0
    exact { h with active := hs, staged := nofun, backlash := min_le_right _ _, pos := .inr hp }
  | stage o ho => exact { h with staged := fun g hg => Option.some.inj hg ▸ orderGeometry_sound ho }
  | clearFault =>
    exact { h with backlash := Nat.zero_le _, illegal := Nat.zero_le _, pitchRun := Nat.zero_le _ }
  | _ => exact { h with }

theorem Tracker.Sound.advance {t : Tracker} (h : t.Sound) : t.advance.Sound where
  active := h.active
  staged := h.staged
  backlash := h.backlash
  pos := by
    show _ ∨ (if t.state = .tracking then (t.pos + 1) % t.active.length else t.pos) < t.active.length
    rcases h.pos with h0 | hlt
    · exact .inl h0
    · refine .inr ?_
      split
      · exact Nat.mod_lt _ (by omega)
      · exact hlt
  travel := capAdd_le _ _ _
  speed := h.speed
  illegal := h.illegal
  corrections := h.corrections
  history := h.history
  pitchTotal := h.pitchTotal
  pitchRun := h.pitchRun

/-- `Ring.sound` with a name for each range. -/
structure Ring.Sound (g : Ring) : Prop where
  slots : within 1 64 g.slots = true
  originPeriod : within 250 2000 g.originPeriod = true
  intervals : g.intervals.length ≤ 8
  errors : g.errors ≤ 255
  goodRun : g.goodRun ≤ 64
  totalBadCrc : g.totalBadCrc ≤ 65535
  totalSlot : g.totalSlot ≤ 65535
  totalSequence : g.totalSequence ≤ 65535
  totalNoReturn : g.totalNoReturn ≤ 65535
  lastSeq : ∀ n, g.lastSeq = some n → n < 256
  originSeq : g.originSeq < 256

theorem ring_sound_iff (g : Ring) : g.sound = true ↔ g.Sound := by
  simp only [Ring.sound, Bool.and_eq_true, decide_eq_true_eq, Option.all_eq_true]
  constructor
  · rintro ⟨⟨⟨⟨⟨⟨⟨⟨⟨⟨h1, h2⟩, h3⟩, h4⟩, h5⟩, h6⟩, h7⟩, h8⟩, h9⟩, h10⟩, h11⟩
    exact ⟨h1, h2, h3, h4, h5, h6, h7, h8, h9, h10, h11⟩
  · rintro ⟨h1, h2, h3, h4, h5, h6, h7, h8, h9, h10, h11⟩
    exact ⟨⟨⟨⟨⟨⟨⟨⟨⟨⟨h1, h2⟩, h3⟩, h4⟩, h5⟩, h6⟩, h7⟩, h8⟩, h9⟩, h10⟩, h11⟩

theorem RingMove.sound {g g' : Ring} (m : RingMove g g') (h : g.Sound) : g'.Sound := by
  cases m with
  | lose => exact { h with goodRun := Nat.zero_le _ }
  | error k =>
    have he := capAdd_le 255 g.errors 8
    cases k with
    | badCrc => exact { h with errors := he, goodRun := Nat.zero_le _, totalBadCrc := capAdd_le _ _ _ }
    | slotMismatch => exact { h with errors := he, goodRun := Nat.zero_le _, totalSlot := capAdd_le _ _ _ }
    | sequence => exact { h with errors := he, goodRun := Nat.zero_le _, totalSequence := capAdd_le _ _ _ }
    | noReturn => exact { h with errors := he, goodRun := Nat.zero_le _, totalNoReturn := capAdd_le _ _ _ }
  | good => exact { h with errors := (Nat.sub_le _ _).trans h.errors, goodRun := capAdd_le _ _ _ }
  | recover => exact { h with errors := Nat.zero_le _ }
  | restart => exact { h with errors := Nat.zero_le _, goodRun := Nat.zero_le _ }
  | interval l t hl => exact { h with intervals := hl.elim id fun he => he ▸ h.intervals }
  | lastSeq n hn => exact { h with lastSeq := fun k hk => Option.some.inj hk ▸ hn }
  | origin t => exact { h with originSeq := Nat.mod_lt _ (by decide) }
  | role r slots period hs hp =>
    exact { h with slots := hs, originPeriod := hp, intervals := Nat.zero_le _, originSeq := Nat.zero_lt_succ _ }
  | _ => exact { h with }

/-- `Link.sound` with a name for each range. -/
structure Link.Sound (cap : Nat) (l : Link) : Prop where
  queue : l.queue.length ≤ cap
  rxErrors : l.rxErrors ≤ 65535
  overflow : l.overflow ≤ 65535
  dropped : l.dropped ≤ 65535
  seq : l.seq < 256

theorem link_sound_iff (l : Link) (cap : Nat) : l.sound cap = true ↔ l.Sound cap := by
  simp only [Link.sound, Bool.and_eq_true, decide_eq_true_eq]
  exact ⟨fun ⟨⟨⟨⟨h1, h2⟩, h3⟩, h4⟩, h5⟩ => ⟨h1, h2, h3, h4, h5⟩,
    fun ⟨h1, h2, h3, h4, h5⟩ => ⟨⟨⟨⟨h1, h2⟩, h3⟩, h4⟩, h5⟩⟩

variable {cap : Nat}

theorem Link.Sound.noticed {l : Link} (h : l.Sound cap) (n : Nat × List Byte) : (l.noticed cap n).Sound cap := by
  unfold Link.noticed
  split
  case isTrue hroom =>
    exact { h with queue := by simpa using hroom, seq := Nat.mod_lt _ (by decide) }
  case isFalse => exact { h with dropped := min_le_left _ _, seq := Nat.mod_lt _ (by decide) }

theorem LinkMove.sound {l l' : Link} (m : LinkMove l l') (h : l.Sound cap) : l'.Sound cap := by
  cases m with
  | overflow => exact { h with overflow := capAdd_le _ _ _ }
  | error => exact { h with rxErrors := capAdd_le _ _ _ }
  | pop => exact { h with queue := (by simp : l.queue.tail.length ≤ l.queue.length).trans h.queue }
  | patch n f => exact { h with queue := (List.length_set).trans_le h.queue }

/-- The watch list and the lapse time of a Station Port lie in their ranges. -/
structure StationLink.Sound (x : StationLink) : Prop where
  watch : x.watch.length ≤ 4
  lapse : x.lapse ≤ 60

theorem station_sound_iff (x : StationLink) : x.sound = true ↔ x.Sound := by
  simp only [StationLink.sound, Bool.and_eq_true, decide_eq_true_eq]
  exact ⟨fun ⟨h1, h2⟩ => ⟨h1, h2⟩, fun ⟨h1, h2⟩ => ⟨h1, h2⟩⟩

theorem StationMove.sound {x x' : StationLink} (m : StationMove x x') (h : x.Sound) : x'.Sound := by
  cases m with
  | lapse n hn => exact { h with lapse := hn }
  | watch l hl => exact { h with watch := hl.elim id fun hle => hle.trans h.watch }
  | _ => exact { h with }

/-- `State.inRange` with a name for each block. -/
structure State.InRange (s : State) : Prop where
  time : s.time ≤ Config.max48
  tracker : s.tracker.Sound
  ring : s.ring.Sound
  sched : s.sched.sound = true
  limit : within 1 4 s.engine.limit = true
  drives : within 1 4 s.drives.limit = true
  link : ∀ p, (s.link p).Sound (queueCap p)
  station : ∀ st, (s.staLink st).Sound

theorem inRange_iff (s : State) : s.inRange = true ↔ s.InRange := by
  simp only [State.inRange, Bool.and_eq_true, decide_eq_true_eq, tracker_sound_iff, ring_sound_iff, link_sound_iff,
    station_sound_iff]
  constructor
  · rintro ⟨⟨⟨⟨⟨⟨⟨⟨⟨⟨h1, h2⟩, h3⟩, h4⟩, h5⟩, h6⟩, h7⟩, h8⟩, h9⟩, h10⟩, h11⟩
    exact ⟨h1, h2, h3, h4, h5, h6, fun p => by cases p <;> assumption, fun st => by cases st <;> assumption⟩
  · rintro ⟨h1, h2, h3, h4, h5, h6, hl, hs⟩
    exact ⟨⟨⟨⟨⟨⟨⟨⟨⟨⟨h1, h2⟩, h3⟩, h4⟩, h5⟩, h6⟩, hl .sta⟩, hl .stb⟩, hl .line⟩, hs .sta⟩, hs .stb⟩

/-- The settings of the Cue Scheduler stand, and its history keeps its bound. -/
theorem Scheduler.sound_history {q : Scheduler} (h : q.sound = true) {l : List Int}
    (hl : l.length ≤ 8 ∨ l.length ≤ q.history.length) : Scheduler.sound { q with history := l } = true := by
  simp only [Scheduler.sound, Bool.and_eq_true, decide_eq_true_eq] at h ⊢
  obtain ⟨hset, hlen⟩ := h
  exact ⟨hset, hl.elim id fun hle => hle.trans hlen⟩

/-- A change of one port keeps the ranges where that port's counts keep theirs. -/
theorem State.InRange.mapLink {s : State} (h : s.InRange) {p : Port} {f : Link → Link}
    (hf : (f (s.link p)).Sound (queueCap p)) : (s.mapLink p f).InRange :=
  { h with
    link := fun q => by
      by_cases hq : q = p
      · subst hq; rw [link_mapLink_self]; exact hf
      · rw [link_mapLink_ne _ _ hq]; exact h.link q
    station := fun st => by rw [staLink_mapLink]; exact h.station st }

theorem State.InRange.mapSta {s : State} (h : s.InRange) {st : Station} {f : StationLink → StationLink}
    (hf : (f (s.staLink st)).Sound) : (s.mapSta st f).InRange :=
  { h with
    link := fun p => by rw [link_mapSta]; exact h.link p
    station := fun tt => by
      by_cases ht : tt = st
      · subst ht; rw [staLink_mapSta_self]; exact hf
      · rw [staLink_mapSta_ne _ _ ht]; exact h.station tt }

theorem inRange_stable : Stable State.InRange where
  elem _ _ _ h := { h with }
  ctx _ _ _ h := { h with }
  carrier _ _ _ h := { h with }
  stim _ _ _ h := { h with ring := { h.ring with } }
  source _ _ _ h := { h with ring := { h.ring with } }
  cues _ _ _ h := { h with }
  history _ _ hl h := { h with sched := Scheduler.sound_history h.sched hl }
  examining _ _ h := { h with }
  monitor _ _ _ h := { h with }
  scan _ _ h := { h with }
  current _ _ _ h := { h with }
  notice _ st k b _ h := h.mapLink ((h.link (stationPort st)).noticed (k, b))
  owed _ _ h := { h with }
  tracker _ _ m h := { h with tracker := m.sound h.tracker }
  ring _ _ m h := { h with ring := m.sound h.ring }
  engine s e m h := by
    cases m with
    | limit n => exact { h with limit := within_clampTo (by decide) n }
    | _ => exact { h with }
  drives s d m h := by
    cases m with
    | limit n => exact { h with drives := within_clampTo (by decide) n }
    | _ => exact { h with }
  pacing s g w q h :=
    { h with
      sched := by
        have hs := h.sched
        simp only [Scheduler.sound, Bool.and_eq_true, decide_eq_true_eq] at hs ⊢
        obtain ⟨-, hlen⟩ := hs
        exact ⟨⟨⟨max_le (Nat.zero_le _) (min_le_left _ _), within_clampTo (by decide) w⟩,
          within_clampTo (by decide) q⟩, hlen⟩ }
  shift _ _ h := { h with }
  told _ p k b h := h.mapLink ((h.link p).noticed (k, b))
  layout _ _ h := { h with }
  reply s p _ _ bs hroom h := h.mapLink { h.link p with queue := by simpa using hroom }
  link _ _ _ m h := h.mapLink (m.sound (h.link _))
  station _ _ _ m h := h.mapSta (m.sound (h.station _))
  miso _ _ h :=
    { h with
      link := fun p => by
        cases p with
        | sta => exact h.link .sta
        | stb => exact h.link .stb
        | line => exact h.link .line
      station := fun st => by
        cases st with
        | sta => exact h.station .sta
        | stb => exact h.station .stb }
  advance _ h := { h with tracker := h.tracker.advance }
  guards _ h := { h with }
  time _ h := { h with time := capAdd_le _ _ _ }
  free _ _ h := { h with }
  queue _ _ h := { h with }
  reset pins s _ := by
    rw [← inRange_iff]
    rfl

/-- Settles O9: every elementary change keeps its block in range. -/
theorem stepsKeepRanges : Obligations.StepsKeepRanges := by
  intro s t hs ht
  rw [inRange_iff] at hs ⊢
  exact inRange_stable.step_ s t hs ht

/-! ### Ascending lists -/

theorem mem_insertByClose {e x : Entry} {l : List Entry} : x ∈ insertByClose e l ↔ x = e ∨ x ∈ l := by
  induction l with
  | nil => simp [insertByClose]
  | cons y l ih =>
    unfold insertByClose
    split
    · simp only [List.mem_cons, ih]; tauto
    · simp only [List.mem_cons]

theorem pairwise_insertByClose (e : Entry) {l : List Entry} (h : l.Pairwise fun a b => a.closeAt ≤ b.closeAt) :
    (insertByClose e l).Pairwise fun a b => a.closeAt ≤ b.closeAt := by
  induction l with
  | nil => exact List.pairwise_singleton _ _
  | cons y l ih =>
    obtain ⟨hy, hl⟩ := List.pairwise_cons.1 h
    unfold insertByClose
    split
    case isTrue hle =>
      refine List.pairwise_cons.2 ⟨fun x hx => ?_, ih hl⟩
      exact (mem_insertByClose.1 hx).elim (fun hxe => hxe ▸ hle) (hy x)
    case isFalse hgt =>
      refine List.pairwise_cons.2 ⟨fun x hx => ?_, h⟩
      rcases List.mem_cons.1 hx with rfl | hx
      · omega
      · have := hy x hx
        omega

theorem mem_insertByDue {q x : Cue} {l : List Cue} : x ∈ insertByDue q l ↔ x = q ∨ x ∈ l := by
  induction l with
  | nil => simp [insertByDue]
  | cons y l ih =>
    unfold insertByDue
    split
    · simp only [List.mem_cons, ih]; tauto
    · simp only [List.mem_cons]

theorem cuesAscend_insertByDue (q : Cue) {l : List Cue} (h : cuesAscend l) : cuesAscend (insertByDue q l) := by
  induction l with
  | nil => exact List.pairwise_singleton _ _
  | cons y l ih =>
    obtain ⟨hy, hl⟩ := List.pairwise_cons.1 h
    unfold insertByDue
    split
    case isTrue hle =>
      refine List.pairwise_cons.2 ⟨fun x hx => ?_, ih hl⟩
      exact (mem_insertByDue.1 hx).elim (fun hxq => hxq ▸ hle) (hy x)
    case isFalse hgt =>
      refine List.pairwise_cons.2 ⟨fun x hx => ?_, h⟩
      rcases List.mem_cons.1 hx with rfl | hx
      · omega
      · have := hy x hx
        omega

/-- A list keeps its order where every entry keeps its close. -/
theorem Monitor.ascending.map {m : Monitor} (h : m.ascending) {f g : Entry → Entry}
    (hf : ∀ a b, a.closeAt ≤ b.closeAt → (f a).closeAt ≤ (f b).closeAt)
    (hg : ∀ a b, a.closeAt ≤ b.closeAt → (g a).closeAt ≤ (g b).closeAt) :
    Monitor.ascending { travelList := m.travelList.map f, timeList := m.timeList.map g } :=
  ⟨List.pairwise_map.2 (h.1.imp (hf _ _)), List.pairwise_map.2 (h.2.imp (hg _ _))⟩

theorem MonitorMove.ascending {m m' : Monitor} (mv : MonitorMove m m') (h : m.ascending) : m'.ascending := by
  cases mv with
  | phase n ph =>
    have key : ∀ a b : Entry, a.closeAt ≤ b.closeAt →
        (if a.num = n then { a with phase := ph } else a).closeAt
          ≤ (if b.num = n then { b with phase := ph } else b).closeAt := by
      intro a b hab
      split <;> split <;> exact hab
    exact h.map key key
  | drop n => exact ⟨h.1.filter _, h.2.filter _⟩
  | join e =>
    unfold Monitor.join
    split
    · exact ⟨pairwise_insertByClose e h.1, h.2⟩
    · exact ⟨h.1, pairwise_insertByClose e h.2⟩
  | endCtx c => exact ⟨h.1.filter _, h.2.filter _⟩

theorem Entry.refresh_closeAt (p : Int) (e : Entry) : (e.refresh p).closeAt = e.closeAt := by
  unfold Entry.refresh
  split <;> rfl

theorem ascending_stable : Stable fun s => s.monitor.ascending where
  elem _ _ _ h := h
  ctx _ _ _ h := h
  carrier _ _ _ h := h
  stim _ _ _ h := h
  source _ _ _ h := h
  cues _ _ _ h := h
  history _ _ _ h := h
  examining _ _ h := h
  monitor _ _ m h := m.ascending h
  scan _ _ h := h
  current _ _ _ h := h
  notice _ _ _ _ _ h := h
  owed _ _ h := h
  tracker _ _ _ h := h
  ring _ _ _ h := h
  engine _ _ _ h := h
  drives _ _ _ h := h
  pacing _ _ _ _ h := h
  shift _ d h := ⟨List.pairwise_map.2 (h.1.imp fun {a b} hab => by simpa [Entry.shift] using hab), h.2⟩
  told _ _ _ _ h := h
  layout _ _ h := h
  reply _ _ _ _ _ _ h := h
  link _ _ _ _ h := h
  station _ _ _ _ h := h
  miso _ _ h := h
  advance _ h := h
  guards _ h := h.map (fun _ _ => by simp only [Entry.refresh_closeAt]; exact id)
    fun _ _ => by simp only [Entry.refresh_closeAt]; exact id
  time _ h := h
  free _ _ h := h
  queue _ _ h := h
  reset _ _ _ := ⟨List.Pairwise.nil, List.Pairwise.nil⟩

theorem CuesMove.cuesAscend {l l' : List Cue} (m : CuesMove l l') (h : cuesAscend l) : cuesAscend l' := by
  cases m with
  | leave f => exact h.filter _
  | join q => exact cuesAscend_insertByDue q h
  | replace f q => exact cuesAscend_insertByDue q (h.filter _)
  | aimed q new hd =>
    have key : ∀ a : Cue, (if a = q then new else a).due = a.due := by
      intro a
      split
      case isTrue ha => rw [hd, ha]
      case isFalse => rfl
    exact List.pairwise_map.2 (h.imp fun {a b} hab => by simpa only [key] using hab)
  | shift e => exact List.pairwise_map.2 (h.imp fun {a b} hab => by simpa using hab)

theorem cuesAscend_stable : Stable fun s => cuesAscend s.sched.cues where
  elem _ _ _ h := h
  ctx _ _ _ h := h
  carrier _ _ _ h := h
  stim _ _ _ h := h
  source _ _ _ h := h
  cues _ _ m h := m.cuesAscend h
  history _ _ _ h := h
  examining _ _ h := h
  monitor _ _ _ h := h
  scan _ _ h := h
  current _ _ _ h := h
  notice _ _ _ _ _ h := h
  owed _ _ h := h
  tracker _ _ _ h := h
  ring _ _ _ h := h
  engine _ _ _ h := h
  drives _ _ _ h := h
  pacing _ _ _ _ h := h
  shift _ _ h := h
  told _ _ _ _ h := h
  layout _ _ h := h
  reply _ _ _ _ _ _ h := h
  link _ _ _ _ h := h
  station _ _ _ _ h := h
  miso _ _ h := h
  advance _ h := h
  guards _ h := h
  time _ h := h
  free _ _ h := h
  queue _ _ h := h
  reset _ _ _ := List.Pairwise.nil

/-- Settles O10: an entry or cue joins its list in its place, and every other change keeps closes and due points in
order. -/
theorem stepsKeepListsAscending : Obligations.StepsKeepListsAscending :=
  ⟨fun s t hs ht => ascending_stable.step_ s t hs ht, fun s t hs ht => cuesAscend_stable.step_ s t hs ht⟩

/-- Settles O7: at reset every table and list is empty and every count at its least. -/
theorem resetMeetsInvariants : Obligations.ResetMeetsInvariants :=
  ⟨rfl, rfl, ⟨List.Pairwise.nil, List.Pairwise.nil⟩, List.Pairwise.nil, rfl⟩

end Sys2Proof.Machine

/-! PROOFS. The step, T and U: what an idle step passes, and what no command changes but a reset or a forward
count. -/

namespace Sys2Proof.Machine

open Sys2Proof

/-- Settles O1: the first command of a queue is the one that `step` matches. -/
theorem stepRunsTheFrontCommand : Obligations.StepRunsTheFrontCommand := by
  intro s c rest h
  rw [step, h]

/-! ### Time, the queue and the free values -/

/-- A lasting property that the advance of travel keeps is kept by every command but a reset. -/
structure Commanded (P : State → Prop) : Prop extends Lasting P where
  advance : ∀ s, P s → P (s.mapTracker Tracker.advance)
  guards : ∀ s, P s → P (refreshGuards s)

namespace Commanded

variable {P : State → Prop} (h : Commanded P)
include h

theorem advanceTravel (s : State) (hs : P s) : P (advanceTravel s) := by
  refine h.guards _ ?_
  split
  · exact h.beginExam _ (h.pruneHistory _ (h.advance s hs))
  · exact h.advance s hs

theorem forward (s : State) (hs : P s) : P (forward s) := by
  unfold Machine.forward
  dsimp only
  split
  · exact h.trk s _ .pay hs
  · have ha := h.advanceTravel _ (h.settleTravel s hs)
    split
    · exact h.countMissing _ ha
    · exact ha

theorem exec_ (c : Instr) (s t : State) (hc : isReset c = false) (hs : P s) (he : exec c s = .next t) : P t := by
  by_cases hf : c = .forwardCount
  · subst hf
    cases he
    exact h.forward _ (h.moveLevels _ s hs)
  · exact h.toLasting.exec_ c s t hc hf hs he

end Commanded

/-- What is due at the present T is settled under a lasting property, where the count of free values is none of its
business. -/
theorem Lasting.settleTime {P : State → Prop} (h : Lasting P) (hfree : ∀ s n, P s → P { s with freeSeq := n })
    (s : State) (hs : P s) : P (settleTime s) := by
  have scanned : ∀ s, P s → P (freeScan s) := by
    intro s hs
    unfold Machine.freeScan
    split
    · exact h.scanTick _ _ (hfree s _ hs)
    · exact h.scanTick _ _ hs
  have hring := h.originTick _ (h.returnTick _ (h.silenceTick _ (scanned _ (h.speedTick s hs))))
  have hdrives := foldl_keeps (f := Machine.driveTick) (fun s c => h.driveTick s c) ctxNumbers _ (h.runTimeList _ hring)
  have hrest := foldl_keeps (f := fun s c => Machine.restTick c s) (fun s c => h.restTick c s) ctxNumbers _ hdrives
  exact h.lapseTick _ _ (h.lapseTick _ _ hrest)

/-- No command but a reset touches T, the queue of commands or the count of free values. -/
theorem clock_commanded {α : Type} (f : Nat → List Instr → Nat → α) (v : α) :
    Commanded fun s => f s.time s.pending s.freeSeq = v where
  elem _ _ _ h := h
  ctx _ _ _ h := h
  carrier _ _ _ h := h
  stim _ _ _ h := h
  source _ _ _ h := h
  cues _ _ _ h := h
  history _ _ _ h := h
  examining _ _ h := h
  monitor _ _ _ h := h
  scan _ _ h := h
  current _ _ _ h := h
  notice _ _ _ _ _ h := h
  owed _ _ h := h
  tracker _ _ _ h := h
  ring _ _ _ h := h
  engine _ _ _ h := h
  drives _ _ _ h := h
  pacing _ _ _ _ h := h
  shift _ _ h := h
  told _ _ _ _ h := h
  layout _ _ h := h
  reply _ _ _ _ _ _ h := h
  link _ _ _ _ h := h
  station _ _ _ _ h := h
  miso _ _ h := h
  advance _ h := h
  guards _ h := h

/-- The changes of the tracker leave U where it is, beside its advance. -/
theorem travel_lasting (u : Nat) : Lasting fun s => s.tracker.travel = u where
  elem _ _ _ h := h
  ctx _ _ _ h := h
  carrier _ _ _ h := h
  stim _ _ _ h := h
  source _ _ _ h := h
  cues _ _ _ h := h
  history _ _ _ h := h
  examining _ _ h := h
  monitor _ _ _ h := h
  scan _ _ h := h
  current _ _ _ h := h
  notice _ _ _ _ _ h := h
  owed _ _ h := h
  tracker _ _ m h := by cases m <;> exact h
  ring _ _ _ h := h
  engine _ _ _ h := h
  drives _ _ _ h := h
  pacing _ _ _ _ h := h
  shift _ _ h := h
  told _ _ _ _ h := h
  layout _ _ h := h
  reply _ _ _ _ _ _ h := h
  link _ _ _ _ h := h
  station _ _ _ _ h := h
  miso _ _ h := h

@[simp] theorem refreshGuards_time (s : State) : (refreshGuards s).time = s.time := rfl
@[simp] theorem refreshGuards_tracker (s : State) : (refreshGuards s).tracker = s.tracker := rfl
@[simp] theorem refreshGuards_pending (s : State) : (refreshGuards s).pending = s.pending := rfl

/-- Settles O2: an idle step settles what is due, which touches neither T nor U, and then advances T. -/
theorem timePassesOnIdleStepsAlone : Obligations.TimePassesOnIdleStepsAlone := by
  constructor
  case left =>
    intro s hs
    have hclock := (clock_commanded (fun t l _ => (t, l)) (s.time, s.pending)).toLasting
    have hkept := hclock.settleTime (fun _ _ h => h) _ (hclock.settleTravel s rfl)
    have hu := travel_lasting s.tracker.travel
    have htravel := hu.settleTime (fun _ _ h => h) _ (hu.settleTravel s rfl)
    obtain ⟨htime, hqueue⟩ := Prod.mk.inj hkept
    refine ⟨tick s, by rw [step, hs], ?_, ?_, ?_⟩ <;> unfold tick <;> dsimp only
    · rw [refreshGuards_time, htime, capAdd]
    · rw [refreshGuards_tracker, htravel]
    · rw [refreshGuards_pending, hqueue, hs]
  case right =>
    intro c s t hc he
    have hkept := (clock_commanded (fun t l n => (t, l, n)) (s.time, s.pending, s.freeSeq)).exec_ c s t hc rfl he
    simpa using hkept

/-! ### Travel -/

/-- An advance of travel raises U by 1, up to its stop (R12). -/
theorem advanceTravel_travel (s : State) :
    (advanceTravel s).tracker.travel = min Config.max48 (s.tracker.travel + 1) := by
  unfold advanceTravel
  dsimp only
  split <;> rfl

/-- A forward count with b at 0 raises U by 1; what it settles before and reports behind leaves U (R12). -/
theorem forward_travel (s : State) :
    (forward s).tracker.travel
      = if s.tracker.backlash = 0 then min Config.max48 (s.tracker.travel + 1) else s.tracker.travel := by
  unfold forward
  by_cases hb : s.tracker.backlash = 0
  · have hu : (advanceTravel (settleTravel s)).tracker.travel = min Config.max48 (s.tracker.travel + 1) := by
      rw [advanceTravel_travel, (travel_lasting s.tracker.travel).settleTravel s rfl]
    rw [if_neg (by omega), if_pos hb]
    dsimp only
    split
    · exact (travel_lasting _).countMissing _ hu
    · exact hu
  · rw [if_pos (by omega), if_neg hb]
    rfl

/-- Settles O3: U is moved by the advance of a forward count alone. -/
theorem travelMovesByForwardCounts : Obligations.TravelMovesByForwardCounts := by
  constructor
  case left =>
    intro c s t hc hf he
    exact (travel_lasting s.tracker.travel).exec_ c s t hc hf rfl he
  case right => exact fun s => ⟨_, rfl, forward_travel (moveLevels encForward s)⟩

end Sys2Proof.Machine

/-! PROOFS. Full resets, and the Order Desk's side of a command: replies and notices in their queues, reads, frames
that are no orders, receive errors and sent frames. -/

namespace Sys2Proof.Machine

open Sys2Proof

/-- Two completed commands leave the same where they leave the same state. -/
theorem next_congr {s t : State} (h : s = t) : (Host.Outcome.next s : Result) = .next t := congrArg _ h

/-! ### Full resets -/

theorem exec_of_reset {pins : ResetPins} {c : Instr} (h : c = .powerOnReset pins ∨ c = .resetLineReset pins)
    (s : State) : exec c s = .next (fullReset pins s) := by
  obtain rfl | rfl := h <;> rfl

/-- Settles O4: the reset writes the tracker's defaults beside the levels of the pins. -/
theorem resetLeavesTracker : Obligations.ResetLeavesTracker :=
  fun pins s _ h => ⟨fullReset pins s, exec_of_reset h s, rfl, rfl⟩

/-- Settles O5: the reset writes the ring's defaults, whose tables are empty. -/
theorem resetLeavesRing : Obligations.ResetLeavesRing := by
  intro pins s c h
  refine ⟨fullReset pins s, exec_of_reset h s, rfl, rfl, rfl, rfl, rfl, rfl, rfl, rfl, rfl, rfl, rfl, rfl, rfl, rfl, rfl,
    fun _ => rfl, fun pt => ?_, fun _ => rfl, fun _ => rfl, fun p => ?_⟩
  · exact BitVec.getLsbD_zero
  · cases p <;> rfl

/-- Settles O6: the reset writes every block's defaults beside what the pins give. -/
theorem resetLeavesTheRest : Obligations.ResetLeavesTheRest := by
  intro pins s c h
  refine ⟨fullReset pins s, exec_of_reset h s, fun _ => rfl, rfl, fun _ => rfl, fun _ => rfl, rfl, rfl, rfl, rfl, rfl, rfl,
    rfl, fun _ => rfl, fun _ => rfl, rfl, rfl, rfl, fun p => ?_, fun st => ?_, rfl, rfl⟩
  · cases p <;> rfl
  · cases st <;> exact ⟨rfl, rfl, rfl, rfl⟩

/-! ### Replies and notices (R185, R186) -/

theorem link_goodFrame (p q : Port) (s : State) : (goodFrame p s).link q = s.link q := by
  cases p <;> cases q <;> rfl

theorem link_queueReply (p q : Port) (k : Nat) (tag : Byte) (bodies : List (List Byte)) (s : State) :
    (queueReply p k tag bodies s).link q
      = if q = p then { s.link p with queue := (s.link p).queue ++ bodies.map (replyFrame k tag) } else s.link q := by
  unfold queueReply
  by_cases h : q = p
  · subst h; rw [link_mapLink_self, if_pos rfl]; rfl
  · rw [link_mapLink_ne _ _ h, if_neg h]

theorem link_replied (s : State) (p q : Port) (k : Nat) (tag : Byte) (body : List Byte) :
    (s.replied p k tag body).link q
      = if q = p then { s.link p with queue := (s.link p).queue ++ [replyFrame k tag body] } else s.link q := by
  rw [State.replied, link_queueReply, link_goodFrame, link_goodFrame]
  rfl

theorem staLink_replied (s : State) (p : Port) (k : Nat) (tag : Byte) (body : List Byte) (st : Station) :
    (s.replied p k tag body).staLink st
      = if stationPort st = p then { s.staLink st with rx := .hunting, lastFrame := s.time, lapseJudged := false }
        else s.staLink st := by
  rw [State.replied, queueReply, staLink_mapLink]
  cases p <;> cases st <;> rfl

/-- Settles O13: what a reply and a notice do to the ports. -/
theorem repliesAndNoticesJoinQueues : Obligations.RepliesAndNoticesJoinQueues := by
  refine ⟨fun s p kind tag body =>
    ⟨fun q => link_replied s p q kind tag body, fun st => staLink_replied s p kind tag body st, ?miso,
      queueReply_goodFrame p kind tag [body] s⟩, fun s p q kind body => ?notice⟩
  case miso => cases p <;> rfl
  case notice =>
    rw [link_pushNotice]
    by_cases h : q = p
    · rw [if_pos h, if_neg (not_not_intro h)]
      rfl
    · rw [if_neg h, if_pos h]

/-! ### Reads (R26, R48, R49, R70, R93, R109, R189) -/

/-- A read whose reply is one frame, where there is room for it. -/
theorem takeRead_replied {s : State} {p : Port} (k : Nat) (tag : Byte) {read : State → List (List Byte)}
    {body : List Byte} (hroom : s.room p) (hread : read (goodFrame p s) = [body]) :
    takeRead p k 1 tag read s = s.replied p k tag body := by
  rw [takeRead_taken k 1 tag read hroom, hread, State.replied]

/-- A good frame touches the ports alone. -/
theorem goodFrame_eq (p : Port) (s : State) : goodFrame p s = { s with links := (goodFrame p s).links } := by
  cases p <;> rfl

section Reads

variable {s : State} {p : Port} (tag : Byte)

theorem exec_readElement (hroom : s.room p) (i : Nat) :
    exec (.readElement p tag i) s =
      .next (s.replied p 0x17 tag
        (if i ≤ 1023 then accepted (recordImage s i ++ enc48 s.time) else refusedBody .range)) := by
  refine next_congr (takeRead_replied 0x17 tag hroom ?_)
  rw [elementReply, goodFrame_eq]
  by_cases hi : i ≤ 1023
  · rw [if_neg (Nat.not_lt.mpr hi), if_pos hi]; rfl
  · rw [if_pos (Nat.lt_of_not_le hi), if_neg hi]

theorem exec_readPoints (hroom : s.room p) (space : Space) (first number : Nat) :
    exec (.readPoints p tag space first number) s =
      .next (s.replied p 0x1B tag
        (if first ≤ 1023 ∧ 1 ≤ number ∧ number ≤ 16 ∧ first + number ≤ 1024 then
          accepted (pointsImage s space first number)
        else refusedBody .range)) := by
  refine next_congr (takeRead_replied 0x1B tag hroom ?_)
  rw [pointsReply, goodFrame_eq]
  simp only [within_iff, and_assoc]
  split <;> rfl

theorem exec_readReservations (hroom : s.room p) {n : Nat} (hn : s.tracker.active.carriers = some n)
    (first number : Nat) :
    exec (.readReservations p tag first number) s =
      .next (s.replied p 0x1C tag
        (if first < n ∧ 1 ≤ number ∧ number ≤ 128 ∧ first + number ≤ n then
          accepted (reservationsImage s n first number)
        else refusedBody .range)) := by
  refine next_congr (takeRead_replied 0x1C tag hroom ?_)
  rw [reservationsReply, goodFrame_eq]
  simp only [hn, within_iff, and_assoc]
  split <;> rfl

theorem exec_readReservations_unset (hroom : s.room p) (hn : s.tracker.active.carriers = none) (first number : Nat) :
    exec (.readReservations p tag first number) s = .next (s.replied p 0x1C tag (refusedBody .range)) := by
  refine next_congr (takeRead_replied 0x1C tag hroom ?_)
  rw [reservationsReply, goodFrame_eq]
  simp only [hn]

theorem exec_readContext {c : Nat} (hc : c ≤ 15)
    (hroom : (s.link p).queue.length + (if (s.ctx c).state = .free then 2 else 3) ≤ queueCap p) :
    exec (.readContext p tag c) s = .next (queueReply p 0x18 tag (contextBodies s c) (goodFrame p s)) := by
  have hneed : s.contextRoom c = if (s.ctx c).state = .free then 2 else 3 := by simp [State.contextRoom, hc]
  refine next_congr ?_
  rw [takeRead_taken 0x18 _ tag _ (hneed ▸ hroom), contextReply, if_neg (Nat.not_lt.mpr hc), goodFrame_eq]
  rfl

theorem exec_readContext_of_gt {c : Nat} (hc : 15 < c) (hroom : (s.link p).queue.length + 3 ≤ queueCap p) :
    exec (.readContext p tag c) s = .next (s.replied p 0x18 tag (refusedBody .range)) := by
  have hneed : s.contextRoom c = 3 := by simp [State.contextRoom, Nat.not_le.mpr hc]
  refine next_congr ?_
  rw [takeRead_taken 0x18 _ tag _ (hneed ▸ hroom), contextReply, if_pos hc, State.replied]

end Reads

/-- Settles O23: each read by the image that its reply is formed from. -/
theorem readsAnswerImagesAlone : Obligations.ReadsAnswerImagesAlone := by
  refine ⟨fun p tag s hroom => ⟨exec_readElement tag hroom, ?track, ?ring, exec_readPoints tag hroom,
    fun n first number hn => exec_readReservations tag hroom hn first number,
    exec_readReservations_unset tag hroom, fun named => next_congr (takeRead_replied 0x1D tag hroom rfl)⟩,
    fun p tag c s hc hroom => exec_readContext tag hc hroom,
    fun p tag c s hc hroom => exec_readContext_of_gt tag hc hroom⟩
  case track =>
    refine next_congr (takeRead_replied 0x19 tag hroom ?_)
    rw [goodFrame_eq]; rfl
  case ring =>
    refine next_congr (takeRead_replied 0x1A tag hroom ?_)
    rw [goodFrame_eq]; rfl

/-! ### Frames that are no orders (R182 to R185) -/

/-- No frame needs more room than Read Context's own. -/
theorem frameRoom_le (s : State) (f : LinkFrame) : s.frameRoom f ≤ 3 := by
  unfold State.frameRoom
  split
  · split <;> decide
  · decide

/-- Settles O24: with room for any reply the frame is answered with its reason. -/
theorem badOrdersAreAnswered : Obligations.BadOrdersAreAnswered := by
  intro p f r s hr hroom
  have hneed := frameRoom_le (goodFrame p s) f
  have hfits : hasRoom p ((goodFrame p s).frameRoom f) (goodFrame p s) = true := by
    rw [hasRoom_goodFrame, decide_eq_true_eq]
    omega
  refine next_congr ?_
  simp only [badFrame, hr, hfits, State.replied]
  rfl

theorem receiveBad_of_error {st : Station} {bytes : List Byte} {lineError : Bool} {s : State}
    (hbegun : rxFrame (s.staLink st).rx bytes ≠ [])
    (herr : lineError = true ∨ badLength (rxFrame (s.staLink st).rx bytes) = true
      ∨ (frameWhole (rxFrame (s.staLink st).rx bytes) = true
        ∧ crcChecks ((rxFrame (s.staLink st).rx bytes).take
            (lengthOf (rxFrame (s.staLink st).rx bytes) + 4)) = false)) :
    receiveBad st bytes lineError s = dropFrame st s := by
  refine if_pos ?_
  simp only [Bool.and_eq_true, Bool.not_eq_true', Bool.or_eq_true, or_assoc]
  exact ⟨List.isEmpty_eq_false_iff.2 hbegun, herr⟩

theorem receiveStall_of_gap {st : Station} {bytes : List Byte} {s : State}
    (hbegun : rxFrame (s.staLink st).rx bytes ≠ [])
    (hpart : frameWhole (rxFrame (s.staLink st).rx bytes) = false) : receiveStall st bytes s = dropFrame st s := by
  refine if_pos ?_
  simp only [Bool.and_eq_true, Bool.not_eq_true']
  exact ⟨List.isEmpty_eq_false_iff.2 hbegun, hpart⟩

/-- Only a transfer that begins with SYNC is a write, in which MISO carries 0x00 throughout. -/
theorem exec_lineTransferDropped {b : Byte} (bytes : List Byte) (s : State) (hb : b ≠ 0)
    (hbad : parseEnvelope (b :: bytes) = none) :
    exec (.lineTransferDropped (b :: bytes)) s =
      .next { s with
        links :=
          { s.links with
            miso := if b = 0xC3 then [] else s.links.miso
            linkL := { s.links.linkL with rxErrors := min 65535 (s.links.linkL.rxErrors + 1) } } } := by
  have hdrop : transferBad (b :: bytes) = true := by
    exact (if_neg hb).trans (by rw [hbad, Option.isNone_none])
  refine next_congr ((if_pos hdrop).trans ?_)
  unfold dropTransfer
  by_cases hsync : b = 0xC3
  · rw [if_pos hsync, if_pos (show (b :: bytes).head? = some syncByte from congrArg some hsync)]
    rfl
  · rw [if_neg hsync, if_neg (show (b :: bytes).head? ≠ some syncByte from fun h => hsync (Option.some.inj h))]
    rfl

/-- Settles O25: each event by what it drops, counts or takes off a queue. -/
theorem linkEventsAreTaken : Obligations.LinkEventsAreTaken := by
  refine ⟨fun s => ⟨fun st bytes lineError hbegun herr => next_congr (receiveBad_of_error hbegun herr),
      fun st bytes hbegun hpart => next_congr (receiveStall_of_gap hbegun hpart),
      fun b bytes hb hbad => exec_lineTransferDropped bytes s hb hbad⟩,
    fun s => ⟨fun f l n hq => ?readOut, fun n hq => ?readNothing, fun st f l hq => ?sent⟩⟩
  case readOut =>
    have hq : s.links.linkL.queue = f :: l := hq
    refine next_congr ?_
    simp only [readOut, hq, headBytes, padTo, State.mapLinks, State.mapLink, decide_eq_true_eq]
    split
    · rfl
    · rw [← hq]; rfl
  case readNothing =>
    have hq : s.links.linkL.queue = [] := hq
    refine next_congr ?_
    simp only [readOut, hq, headBytes, padTo, State.mapLinks, State.mapLink, List.length_nil, Nat.zero_le, decide_true,
      if_true, List.take_nil, List.nil_append, Nat.sub_zero, List.tail_nil]
    rw [← hq]
    rfl
  case sent =>
    refine next_congr ?_
    simp only [sendHead, hq]

end Sys2Proof.Machine

/-! PROOFS. The envelope of a frame, read back whole. -/

namespace Sys2Proof.Machine

open Sys2Proof

/-! ### Envelopes (R182, R192) -/

theorem be_one (v : Nat) : be 1 v = [BitVec.ofNat 8 v] := by simp [be]

theorem be_two (v : Nat) : be 2 v = [BitVec.ofNat 8 (v / 256), BitVec.ofNat 8 v] := by
  simp [be, List.range_succ]

/-- Two bytes spell the CRC that they were cut from. -/
theorem ofNat_unbe_be_two (c : Word16) : BitVec.ofNat 16 (unbe (be 2 c.toNat)) = c := by
  refine BitVec.eq_of_toNat_eq ?_
  have := c.isLt
  simp only [be_two, unbe, List.foldl_cons, List.foldl_nil, BitVec.toNat_ofNat]
  omega

section Envelope

variable {f : LinkFrame}

theorem length_covered : f.covered.length = f.length + 1 := rfl

theorem length_bytes : f.bytes.length = f.length + 4 := by
  rw [LinkFrame.bytes, List.length_append, List.length_cons, length_covered, be_two]
  rfl

/-- LENGTH fits its byte. -/
theorem lengthOf_bytes (h : f.body.length ≤ 248) : lengthOf f.bytes = f.length := by
  have hfit : f.length < 256 := by unfold LinkFrame.length; omega
  show (0 * 256 + (BitVec.ofNat 8 f.length).toNat) = f.length
  rw [BitVec.toNat_ofNat]
  omega

theorem crcChecks_bytes (h : f.body.length ≤ 248) : crcChecks f.bytes = true := by
  have hcov : (f.bytes.drop 1).take (f.length + 1) = f.covered := by
    rw [← length_covered]
    exact List.take_left' rfl
  have hcrc : (f.bytes.drop (f.length + 2)).take 2 = be 2 (crc16 f.covered).toNat := by
    have hlen : (syncByte :: f.covered).length = f.length + 2 := rfl
    rw [LinkFrame.bytes, ← hlen, List.drop_left, be_two]
    rfl
  rw [crcChecks, lengthOf_bytes h, hcov, fieldAt, hcrc, ofNat_unbe_be_two]
  exact decide_eq_true rfl

end Envelope

/-- Settles O12: SYNC, LENGTH, the number of bytes and the CRC all check, and the fields stand in their places. -/
theorem envelopeRoundTrip : Obligations.EnvelopeRoundTrip := by
  intro f h
  have hok : lengthOk (lengthOf f.bytes) = true := by
    rw [lengthOf_bytes h]
    rw [lengthOk, LinkFrame.length, Bool.and_eq_true]
    exact ⟨decide_eq_true (by omega), decide_eq_true (by omega)⟩
  have hbody : (f.bytes.drop 4).take (f.length - 2) = f.body := List.take_left' rfl
  rw [parseEnvelope, if_pos ⟨rfl, hok, by rw [lengthOf_bytes h, length_bytes], crcChecks_bytes h⟩, lengthOf_bytes h, hbody]
  rfl

end Sys2Proof.Machine

/-! PROOFS. What is owed and what is answered: an order by its room, its permission and its effect, answered ahead of
its notices, and no check left owed by any step. -/

namespace Sys2Proof.Machine

open Sys2Proof

/-! ### Changes that reach no port but by notices

A property that every change of tracker, ring and engine keeps, and every notice, is kept by the operations that
orders share. -/

/-- A property that the inner operations keep, and any change of tracker, ring and engine, and any notice. -/
structure Effecting (P : State → Prop) : Prop extends Closed P where
  tracker : ∀ s (f : Tracker → Tracker), P s → P (s.mapTracker f)
  ring : ∀ s (f : Ring → Ring), P s → P (s.mapRing f)
  engine : ∀ s (f : Engine → Engine), P s → P (s.mapEngine f)
  drives : ∀ s (f : Drives → Drives), P s → P (s.mapDrives f)
  told : ∀ s p k b, P s → P (pushNotice p k b s)

namespace Effecting

variable {P : State → Prop} (h : Effecting P)
include h

theorem noticeAll (k : Nat) (b : List Byte) (s : State) (hs : P s) : P (noticeAll k b s) :=
  h.told _ _ _ _ (h.told _ _ _ _ (h.told _ _ _ _ hs))

theorem voidAll (sel : Context → Bool) (cause : VoidCause) (s : State) (hs : P s) : P (voidAll sel cause s) :=
  foldl_keeps (fun s c => h.takeOutcome c _ _ s) _ s hs

theorem reportGeometry (s : State) (hs : P s) : P (reportGeometry s) :=
  h.settle _ (h.voidAll _ _ _ (h.history s _ (.inl (Nat.zero_le _)) hs))

theorem updateMoving (s : State) (hs : P s) : P (updateMoving s) := by
  unfold Machine.updateMoving
  dsimp only
  split
  · exact hs
  · exact h.check _ (h.engine _ _ (h.tracker _ _ hs))

theorem enterTrack (st : TrackState) (s : State) (hs : P s) : P (enterTrack st s) :=
  h.noticeAll _ _ _ (h.reportTrack _ (h.engine _ _ (h.tracker _ _ hs)))

theorem applyNow (g : Geometry) (s : State) (hs : P s) : P (applyNow g s) := by
  unfold Machine.applyNow
  dsimp only
  refine h.noticeAll _ _ _ (h.reportGeometry _ ?_)
  split
  · exact h.reportTrack _ (h.engine _ _ (h.updateMoving _ (h.tracker s _ hs)))
  · exact h.updateMoving _ (h.tracker s _ hs)

theorem changeRing (new : RingState) (cause : RingCause) (s : State) (hs : P s) : P (changeRing new cause s) := by
  unfold Machine.changeRing
  dsimp only
  refine h.noticeAll _ _ _ (h.reportRing _ (h.engine _ _ ?_))
  split
  · exact h.cancelAllAwaited _ (h.ring _ _ hs)
  · exact h.ring _ _ hs

theorem followErrors (s : State) (hs : P s) : P (followErrors s) := by
  unfold Machine.followErrors
  dsimp only
  split
  · exact hs
  · split
    · exact h.changeRing _ _ _ (h.ring _ _ hs)
    · exact h.changeRing _ _ _ hs

theorem restartRing (cause : RingCause) (s : State) (hs : P s) : P (restartRing cause s) := by
  unfold Machine.restartRing
  dsimp only
  split
  · exact h.ring _ _ hs
  · exact h.changeRing _ _ _ (h.ring _ _ hs)

theorem renewReturn (s : State) (hs : P s) : P (renewReturn s) := by
  unfold Machine.renewReturn
  dsimp only
  refine h.ring _ _ ?_
  split
  · exact h.followErrors _ (h.ring _ _ hs)
  · exact hs

theorem departStimuli (s : State) (hs : P s) : P (departStimuli s) := by
  refine foldl_keeps (fun s pt hs => ?_) _ s hs
  split
  · exact h.stim _ _ _ hs
  · exact hs

theorem driveDeparture (c : Nat) (v : StimValue) (s : State) (hs : P s) : P (driveDeparture c v s) := by
  unfold Machine.driveDeparture
  dsimp only
  split
  · split
    · exact h.ctx _ _ _ hs
    · exact h.ctx _ _ _ hs
    · exact hs
  · exact hs

theorem reportDeparture (pt c : Nat) (ch : StimChange) (s : State) (hs : P s) : P (reportDeparture pt c ch s) := by
  unfold Machine.reportDeparture
  dsimp only
  split
  · exact h.settlePoint _ _ _ hs
  · exact h.chuteDeparture _ _ hs
  · split
    · exact h.driveDeparture _ _ _ hs
    · exact hs
  · exact hs

theorem openDeparture (relay : Bool) (seq : Byte) (s : State) (hs : P s) : P (openDeparture relay seq s) := by
  unfold Machine.openDeparture
  dsimp only
  split
  · exact h.ring _ _ (h.ring _ _ hs)
  · exact h.ring _ _ hs

theorem putFrame (count seq : Byte) (sent : List Slot) (s : State) (hs : P s) : P (putFrame count seq sent s) := by
  unfold Machine.putFrame
  exact h.ring s _ hs

theorem departFrame (relay : Bool) (count seq : Byte) (slots : List Slot) (s : State) (hs : P s) :
    P (departFrame relay count seq slots s) := by
  unfold Machine.departFrame
  dsimp only
  refine foldl_keeps (fun s d hs => h.settle _ (h.reportDeparture _ _ _ _ hs)) _ _ ?_
  have hgone := h.departStimuli _ (h.renewReturn _ (h.openDeparture relay seq s hs))
  split
  · exact foldl_keeps (fun _ _ hs => h.elem _ _ _ hs) _ _ (h.putFrame _ _ _ _ hgone)
  · exact h.putFrame _ _ _ _ hgone

theorem makeOrigin (s : State) (hs : P s) : P (makeOrigin s) := h.departFrame _ _ _ _ _ (h.ring _ _ hs)

theorem takeProof (c : Nat) (st : Station) (o : ProofOrder) (s : State) (hs : P s) : P (takeProof c st o s) :=
  h.check _ (h.setCarriers _ _ _ (h.deriveSources _ _
    (foldl_keeps (fun _ _ hs => h.elem _ _ _ hs) _ _
      (foldl_keeps (fun _ _ hs => h.elem _ _ _ hs) _ _ (h.ctx _ _ _ hs)))))

end Effecting

/-- Every such change only adds frames at the tail of a port's queue. -/
theorem tail_effecting (p : Port) (l : List LinkFrame) : Effecting fun s => l <+: (s.link p).queue where
  toClosed := tail_closed p l
  tracker _ _ h := by cases p <;> exact h
  ring _ _ h := by cases p <;> exact h
  engine _ _ h := by cases p <;> exact h
  drives _ _ h := by cases p <;> exact h
  told s q k b h := by
    rw [link_pushNotice]
    split
    case isTrue hpq =>
      subst hpq
      unfold Link.noticed
      split
      · exact h.trans (List.prefix_append _ _)
      · exact h
    case isFalse => exact h

/-! ### Checks that are owed -/

/-- No check is owed. -/
def State.paid (s : State) : Prop := s.engine.checkOwed = false

theorem paid_check (s : State) : (check s).paid := check_owed s

theorem paid_settle (s : State) : (settle s).paid := settle_owed s

theorem paid_of_engine {s t : State} (hs : s.paid) (h : t.engine = s.engine) : t.paid := by
  unfold State.paid
  rw [h]
  exact hs

theorem noticeAll_engine (k : Nat) (b : List Byte) (s : State) : (noticeAll k b s).engine = s.engine := rfl

theorem paid_noticeAll {s : State} (hs : s.paid) (k : Nat) (b : List Byte) : (noticeAll k b s).paid := hs

theorem paid_reportTrack (s : State) : (reportTrack s).paid := paid_check _

theorem paid_reportGeometry (s : State) : (reportGeometry s).paid := paid_settle _

theorem paid_enterTrack (st : TrackState) (s : State) : (enterTrack st s).paid :=
  paid_noticeAll (paid_reportTrack _) _ _

theorem paid_enterFault (cause : FaultCause) (d : FaultDetail) (s : State) : (enterFault cause d s).paid :=
  paid_enterTrack _ _

theorem paid_updateMoving {s : State} (hs : s.paid) : (updateMoving s).paid := by
  unfold updateMoving
  dsimp only
  split
  · exact hs
  · exact paid_check _

theorem paid_reportRing (s : State) : (reportRing s).paid := by
  unfold reportRing
  dsimp only
  split <;> exact paid_check _

theorem paid_changeRing (new : RingState) (cause : RingCause) (s : State) : (changeRing new cause s).paid :=
  paid_noticeAll (paid_reportRing _) _ _

theorem paid_followErrors {s : State} (hs : s.paid) : (followErrors s).paid := by
  unfold followErrors
  dsimp only
  split
  · exact hs
  · split <;> exact paid_changeRing _ _ _

theorem paid_restartRing (cause : RingCause) {s : State} (hs : s.paid) : (restartRing cause s).paid := by
  unfold restartRing
  dsimp only
  split
  · exact hs
  · exact paid_changeRing _ _ _

theorem paid_ringError (k : RingError) {s : State} (hs : s.paid) : (ringError k s).paid := paid_followErrors hs

theorem paid_ringGood {s : State} (hs : s.paid) : (ringGood s).paid := by
  unfold ringGood
  dsimp only
  split
  · split
    · exact paid_changeRing _ _ _
    · exact hs
  · exact paid_followErrors hs

/-! ### Frames of the ring -/

theorem departStimuli_engine (s : State) : (departStimuli s).engine = s.engine := by
  refine foldl_keeps (P := fun t => t.engine = s.engine) (fun t pt ht => ?_) _ s rfl
  split <;> exact ht

theorem countSuppressed_engine (slots : List Slot) (s : State) : (countSuppressed slots s).engine = s.engine := by
  refine foldl_keeps (P := fun t => t.engine = s.engine) (fun t i ht => ?_) _ s rfl
  exact ht

theorem paid_renewReturn {s : State} (hs : s.paid) : (renewReturn s).paid := by
  unfold renewReturn
  dsimp only
  split
  · exact paid_of_engine (paid_ringError .noReturn hs) rfl
  · exact hs

theorem openDeparture_engine (relay : Bool) (seq : Byte) (s : State) : (openDeparture relay seq s).engine = s.engine := by
  unfold openDeparture
  dsimp only
  split <;> rfl

theorem paid_departFrame (relay : Bool) (count seq : Byte) (slots : List Slot) {s : State} (hs : s.paid) :
    (departFrame relay count seq slots s).paid := by
  unfold departFrame
  dsimp only
  refine foldl_keeps (P := State.paid) (fun _ _ _ => paid_settle _) _ _ ?_
  have hopen := paid_renewReturn (paid_of_engine hs (openDeparture_engine relay seq s))
  have hput := paid_of_engine hopen (departStimuli_engine _)
  split
  · exact paid_of_engine hput (countSuppressed_engine _ _)
  · exact hput

theorem paid_makeOrigin {s : State} (hs : s.paid) : (makeOrigin s).paid := paid_departFrame _ _ _ _ hs

theorem paid_scannerArrival (f : RingFrame) {s : State} (hs : s.paid) : (scannerArrival f s).paid := by
  unfold scannerArrival
  split
  · exact hs
  · dsimp only
    split
    · exact paid_ringError _ hs
    · exact paid_departFrame _ _ _ _ hs

theorem paid_judgeEdge (pt : Nat) (level : Bool) (t u : Nat) {s : State} (hs : s.paid) :
    (judgeEdge settle pt level t u s).paid := by
  refine foldl_keeps (P := State.paid) (fun s e hs => ?_) _ s hs
  split
  · exact paid_settle _
  · exact hs

theorem noticeEdge_engine (pt : Nat) (level : Bool) (s : State) : (noticeEdge pt level s).engine = s.engine := by
  unfold noticeEdge
  dsimp only
  split <;> split <;> rfl

theorem paid_takeEdge (s : State) (e : Nat × Bool) (hs : s.paid) : (takeEdge s e).paid := by
  unfold takeEdge
  extract_lets new t
  have ht : t.paid := hs
  exact paid_of_engine (paid_judgeEdge _ _ _ _ ht) (noticeEdge_engine _ _ _)

theorem paid_nodeArrival (f : RingFrame) {s : State} (hs : s.paid) : (nodeArrival f s).paid := by
  unfold nodeArrival
  dsimp only
  split
  · exact paid_ringError _ hs
  · exact foldl_keeps paid_takeEdge _ _ (paid_ringGood hs)

/-! ### Cues, windows and drive trials -/

theorem paid_examineCuesLoop (n : Nat) (done : List Nat) {s : State} (hs : s.paid) :
    (examineCuesLoop settle n done s).paid := by
  induction n generalizing done s with
  | zero => exact hs
  | succ n ih =>
    unfold examineCuesLoop
    split
    · exact hs
    · split
      · exact ih _ hs
      · exact ih _ (paid_settle _)

theorem paid_runCues {s : State} (hs : s.paid) : (runCues s).paid := paid_examineCuesLoop _ _ hs

theorem paid_examineEach (es : List Entry) {s : State} (hs : s.paid) : (examineEach settle es s).paid := by
  refine foldl_keeps (P := State.paid) (fun s e hs => ?_) es s hs
  split
  · exact paid_settle _
  · exact hs

theorem paid_runTravelList {s : State} (hs : s.paid) : (runTravelList s).paid := paid_examineEach _ hs

theorem paid_runTimeList {s : State} (hs : s.paid) : (runTimeList s).paid := paid_examineEach _ hs

theorem paid_failDrive (c : Nat) (code : FailCode) (dev : Option Int) (s : State) : (failDrive c code dev s).paid :=
  paid_settle _

theorem requestStimulus_engine (c pt : Nat) (ch : StimChange) (s : State) :
    (requestStimulus c pt ch s).1.engine = s.engine := by
  obtain h | ⟨r, -, -, -, h⟩ := requestStimulus_cases c pt ch s
  · rw [h]
  · rw [h]; rfl

theorem paid_enterRamp (c : Nat) (r : DriveTrial) (d : DriveDef) {s : State} (hs : s.paid) :
    (enterRamp c r d s).paid := by
  have hasked := paid_of_engine hs (requestStimulus_engine c (d.point (s.ctx c).reverse) (.level .active) s)
  exact hasked

theorem paid_tryRamp (c : Nat) {s : State} (hs : s.paid) : (tryRamp c s).paid := by
  unfold tryRamp
  split
  · split
    · exact paid_enterRamp _ _ _ hs
    · exact hs
  · exact hs

theorem paid_capture (c period : Nat) {s : State} (hs : s.paid) : (capture c period s).paid := by
  unfold capture
  dsimp only
  split
  · split
    · exact hs
    · exact hs
    · split
      · exact paid_failDrive _ _ _ _
      · split
        · exact paid_failDrive _ _ _ _
        · exact hs
    · exact hs
  · exact hs

theorem paid_tachRise (ch : Nat) {s : State} (hs : s.paid) : (tachRise ch s).paid := by
  unfold tachRise
  dsimp only
  split
  · split
    · exact paid_capture _ _ hs
    · exact hs
  · exact hs

theorem paid_precheckSample (c x : Nat) (step : Assist) (r : DriveTrial) (d : DriveDef) {s : State} (hs : s.paid) :
    (precheckSample c x step r d s).paid := by
  unfold precheckSample
  split
  · dsimp only
    split
    · exact paid_failDrive _ _ _ _
    · exact hs
  · dsimp only
    split
    · exact paid_failDrive _ _ _ _
    · exact paid_tryRamp _ hs
  · exact hs

theorem paid_filterSample (c ch x : Nat) (r : DriveTrial) (d : DriveDef) {s : State} (hs : s.paid) :
    (filterSample c ch x r d s).paid := by
  unfold filterSample
  dsimp only
  split
  · exact hs
  · split
    · exact paid_failDrive _ _ _ _
    · exact hs

theorem paid_convert (ch x : Nat) {s : State} (hs : s.paid) : (convert ch x s).paid := by
  unfold convert
  extract_lets q next t
  have ht : t.paid := hs
  clear_value t
  split
  · exact ht
  · split
    · split
      · exact paid_precheckSample _ _ _ _ _ ht
      · exact paid_filterSample _ _ _ _ _ ht
    · exact ht

theorem paid_scanTick (f : Nat → Nat) {s : State} (hs : s.paid) : (scanTick f s).paid := by
  unfold scanTick
  split
  · exact foldl_keeps (P := State.paid) (fun s ch hs => paid_convert ch _ hs) _ _ hs
  · exact hs

/-- A deadline of a drive trial either acts, which ends in a check, or leaves the state. -/
theorem paid_precheckOver (c : Nat) {s : State} (hs : s.paid) : (precheckOver c s).paid := by
  unfold precheckOver
  split
  · split
    · exact paid_failDrive _ _ _ _
    · exact hs
  · exact hs

theorem paid_rampOver (c : Nat) {s : State} (hs : s.paid) : (rampOver c s).paid := by
  unfold rampOver
  split
  · split <;> exact hs
  · exact hs

theorem paid_motionOver (c : Nat) {s : State} (hs : s.paid) : (motionOver c s).paid := by
  unfold motionOver
  split
  · split
    · exact paid_failDrive _ _ _ _
    · exact hs
  · exact hs

theorem paid_holdOver (c : Nat) {s : State} (hs : s.paid) : (holdOver c s).paid := by
  unfold holdOver
  split
  · split
    · split
      · exact paid_failDrive _ _ _ _
      · exact paid_check _
    · exact hs
  · exact hs

theorem paid_stopQuiet (c : Nat) {s : State} (hs : s.paid) : (stopQuiet c s).paid := by
  unfold stopQuiet
  split
  · split
    · exact paid_settle _
    · exact hs
  · exact hs

theorem paid_stopOver (c : Nat) {s : State} (hs : s.paid) : (stopOver c s).paid := by
  unfold stopOver
  split
  · split
    · exact paid_failDrive _ _ _ _
    · exact hs
  · exact hs

theorem paid_driveTick (s : State) (c : Nat) (hs : s.paid) : (driveTick s c).paid := by
  refine paid_stopOver _ (paid_stopQuiet _ (paid_holdOver _ (paid_motionOver _ (paid_rampOver _ ?_))))
  have hramp := paid_tryRamp c hs
  unfold precheckLate
  split
  · split
    · exact hramp
    · exact paid_precheckOver _ hramp
  · exact hramp

/-! ### What falls due -/

theorem paid_settleTravel {s : State} (hs : s.paid) : (settleTravel s).paid := by
  unfold settleTravel
  refine paid_runTravelList ?_
  split
  · exact paid_runCues hs
  · exact hs

theorem paid_speedTick {s : State} (hs : s.paid) : (speedTick s).paid := by
  unfold speedTick
  split
  · exact paid_updateMoving hs
  · exact hs

theorem paid_freeScan {s : State} (hs : s.paid) : (freeScan s).paid := by
  unfold freeScan
  split <;> exact paid_scanTick _ hs

theorem paid_silenceTick {s : State} (hs : s.paid) : (silenceTick s).paid := by
  unfold silenceTick
  split
  · split
    · exact hs
    · exact paid_changeRing _ _ _
  · exact hs

theorem paid_returnTick {s : State} (hs : s.paid) : (returnTick s).paid := by
  unfold returnTick
  split
  · exact paid_ringError _ hs
  · exact hs

theorem paid_originTick {s : State} (hs : s.paid) : (originTick s).paid := by
  unfold originTick
  split
  · exact paid_makeOrigin hs
  · exact hs

theorem paid_restTick (c : Nat) {s : State} (hs : s.paid) : (restTick c s).paid := by
  unfold restTick
  dsimp only
  split
  · exact paid_check _
  · exact hs

theorem paid_lapse (st : Station) {s : State} (hs : s.paid) : (lapse st s).paid := by
  unfold lapse
  dsimp only
  refine foldl_keeps (P := State.paid) (fun s p hs => by exact hs) _ _ ?_
  refine foldl_keeps_fst (P := State.paid) (fun r c hr => ?_) _ (s, 0) hs
  obtain ⟨h, -⟩ | ⟨h, -⟩ := lapseOne_cases st r c <;> rw [h]
  · exact hr
  · exact paid_settle _

theorem paid_lapseTick (st : Station) {s : State} (hs : s.paid) : (lapseTick st s).paid := by
  unfold lapseTick
  dsimp only
  split
  · split
    · exact hs
    · exact paid_lapse st hs
  · exact hs

theorem paid_settleTime {s : State} (hs : s.paid) : (settleTime s).paid := by
  have hring := paid_originTick (paid_returnTick (paid_silenceTick (paid_freeScan (paid_speedTick hs))))
  have hdrives := foldl_keeps paid_driveTick ctxNumbers _ (paid_runTimeList hring)
  exact paid_lapseTick _ (paid_lapseTick _
    (foldl_keeps (f := fun s c => restTick c s) (fun s c => paid_restTick c) ctxNumbers _ hdrives))

theorem refreshGuards_engine (s : State) : (refreshGuards s).engine = s.engine := rfl

theorem paid_time {s : State} (hs : s.paid) (n : Nat) : State.paid { s with time := n } := hs

theorem paid_tick {s : State} (hs : s.paid) : (tick s).paid := by
  have hdue := paid_settleTime (paid_settleTravel hs)
  unfold tick
  dsimp only
  exact paid_of_engine (paid_time hdue _) (refreshGuards_engine _)

/-! ### Travel and home -/

theorem paid_countMissing {s : State} (hs : s.paid) : (countMissing s).paid := by
  unfold countMissing
  dsimp only
  split
  · exact paid_enterFault _ _ _
  · exact hs

theorem advanceTravel_engine (s : State) : (advanceTravel s).engine = s.engine := by
  unfold advanceTravel
  dsimp only
  split <;> rfl

theorem paid_forward {s : State} (hs : s.paid) : (forward s).paid := by
  unfold forward
  dsimp only
  split
  · exact hs
  · have ha := paid_of_engine (paid_settleTravel hs) (advanceTravel_engine _)
    split
    · exact paid_countMissing ha
    · exact ha

theorem paid_backward {s : State} (hs : s.paid) : (backward s).paid := by
  unfold backward
  split
  · exact hs
  · split
    · exact paid_enterFault _ _ _
    · exact hs

theorem paid_illegal {s : State} (hs : s.paid) : (illegal s).paid := by
  unfold illegal
  dsimp only
  split
  · exact paid_enterFault _ _ _
  · exact hs

theorem paid_homeCheck {s : State} (hs : s.paid) : (homeCheck s).paid := by
  unfold homeCheck
  dsimp only
  split
  · split
    · exact hs
    · exact paid_runTravelList (paid_runCues hs)
  · exact paid_enterFault _ _ _

theorem paid_discardStaged {s : State} (hs : s.paid) : (discardStaged s).paid := paid_of_engine hs rfl

theorem paid_takeHome {s : State} (hs : s.paid) : (takeHome s).paid := by
  unfold takeHome
  dsimp only
  split
  · exact paid_enterTrack _ _
  · exact paid_enterTrack _ _
  · exact paid_homeCheck hs
  · split
    · exact paid_noticeAll (paid_reportGeometry _) _ _
    · exact paid_homeCheck (paid_discardStaged hs)
  · exact hs

theorem paid_pitchCheck {s : State} (hs : s.paid) : (pitchCheck s).paid := by
  unfold pitchCheck
  dsimp only
  split
  · exact hs
  · split
    · exact paid_enterFault _ _ _
    · exact hs

/-! ### Effects of orders -/

/-- An order's effect refuses, or accepts; what it asks of the ports joins their tails; and it leaves no check owed. -/
structure Answering (eff : State → State × List Byte) : Prop where
  answered : ∀ s, (∃ r b, eff s = refuse s r b)
    ∨ ((eff s).2.head? = some 0 ∧ ∀ p l, l <+: (s.link p).queue → l <+: ((eff s).1.link p).queue)
  paid : ∀ s : State, s.paid → (eff s).1.paid

/-- The result of an effect at one state: a refusal, or an acceptance that only adds frames at the tails of the ports'
queues and owes no check. -/
def AnswersAt (s : State) (r : State × List Byte) : Prop :=
  (∃ e b, r = refuse s e b) ∨ ∃ t l, r = (t, accepted l)
    ∧ (∀ p q, q <+: (s.link p).queue → q <+: (t.link p).queue) ∧ (s.paid → t.paid)

theorem Answering.of_cases {eff : State → State × List Byte} (h : ∀ s, AnswersAt s (eff s)) : Answering eff where
  answered s := by
    obtain hr | ⟨t, l, he, ht, -⟩ := h s
    · exact .inl hr
    · rw [he]; exact .inr ⟨rfl, ht⟩
  paid s hs := by
    obtain ⟨r, b, he⟩ | ⟨t, l, he, -, ht⟩ := h s
    · rw [he]; exact hs
    · rw [he]; exact ht hs

section Effects

variable {s t : State} {l : List Byte} {eff : State → State × List Byte}

theorem answersAt_refuse (s : State) (r : Reason) (b : Blame) : AnswersAt s (refuse s r b) := .inl ⟨r, b, rfl⟩

theorem answersAt_naming (s : State) (r : Reason) (i : Nat) : AnswersAt s (refuseNaming s r i) := .inl ⟨r, _, rfl⟩

/-- A taken effect that leaves the queues and what is owed. -/
theorem answersAt_quiet (hq : ∀ p, (t.link p).queue = (s.link p).queue) (hp : t.engine.checkOwed = s.engine.checkOwed) :
    AnswersAt s (t, accepted l) :=
  .inr ⟨t, l, rfl, fun p q h => by rw [hq p]; exact h, fun hs => hp.trans hs⟩

/-- A taken effect made of operations that reach the ports by notices alone. -/
theorem answersAt_effecting (h : ∀ P : State → Prop, Effecting P → P s → P t) (hp : s.paid → t.paid) :
    AnswersAt s (t, accepted l) :=
  .inr ⟨t, l, rfl, fun p q hq => h _ (tail_effecting p q) hq, hp⟩

theorem answersAt_records (h : sameButRecords s t) : AnswersAt s (t, accepted l) :=
  answersAt_quiet (fun p => by rw [h]; cases p <;> rfl) (by rw [h])

/-- A change of records and points, where its record writes are. -/
theorem sameButRecords.takeChange (i : Nat) (new : Definition) (s : State) : sameButRecords s (takeChange i new s) := by
  have hs := sameButRecords.refl s
  unfold Machine.takeChange
  split
  · split
    · exact hs
    · exact ((hs.installDefinition _ _).setElem _ _).deriveSources _
  · exact ((hs.setElem _ _).installDefinition _ _).deriveSources _
  · refine (((?_ : sameButRecords s (amendChuteOf i s)).setElem _ _).installDefinition _ _).deriveSources _
    unfold amendChuteOf
    split
    · exact hs.setElem _ _
    · exact hs
  · exact hs.setElem _ _

theorem sameButRecords.holdAll (st : ElState) (ho : Holder) (is : List Nat) (s : State) :
    sameButRecords s (holdAll st ho is s) := ((sameButRecords.refl s).holdEach st ho is).deriveSources _

theorem answersAt_changeElement (i : Nat) (c : Candidate) (s : State) : AnswersAt s (changeElement i c s) := by
  unfold changeElement
  split
  · exact answersAt_refuse _ _ _
  · exact answersAt_records (sameButRecords.takeChange _ _ _)

theorem answering_define (i : Nat) (kind : Kind) (block : List Byte) : Answering (defineEffect i kind block) := by
  refine .of_cases fun s => ?_
  unfold defineEffect
  split
  · exact answersAt_refuse _ _ _
  · split
    · exact answersAt_refuse _ _ _
    · exact answersAt_changeElement _ _ _

theorem answering_amend (i mask : Nat) (block : List Byte) : Answering (amendEffect i mask block) := by
  refine .of_cases fun s => ?_
  unfold amendEffect
  split
  · exact answersAt_refuse _ _ _
  · split
    · exact answersAt_refuse _ _ _
    · split
      · exact answersAt_refuse _ _ _
      · exact answersAt_changeElement _ _ _

theorem answering_geometry (g : GeometryOrder) : Answering (geometryEffect g) := by
  refine .of_cases fun s => ?_
  unfold geometryEffect
  split
  · exact answersAt_refuse _ _ _
  split
  · exact answersAt_refuse _ _ _
  split
  · exact answersAt_refuse _ _ _
  split
  · exact answersAt_refuse _ _ _
  split
  · exact answersAt_quiet (fun p => by cases p <;> rfl) rfl
  · exact answersAt_effecting (fun _ h => h.applyNow _ _) fun _ => paid_noticeAll (paid_reportGeometry _) _ _

theorem answering_fix : Answering fixEffect := by
  refine .of_cases fun s => ?_
  unfold fixEffect
  split
  · exact answersAt_refuse _ _ _
  split
  · exact answersAt_refuse _ _ _
  · exact answersAt_quiet (fun p => by cases p <;> rfl) rfl

theorem answering_release : Answering releaseEffect := by
  refine .of_cases fun s => ?_
  unfold releaseEffect
  split
  · exact answersAt_refuse _ _ _
  · exact answersAt_quiet (fun p => by cases p <;> rfl) rfl

theorem answering_proof (p : Port) (o : ProofOrder) : Answering (proofEffect p o) := by
  refine .of_cases fun s => ?_
  unfold proofEffect
  split
  · exact answersAt_refuse _ _ _
  · exact answersAt_refuse _ _ _
  · exact answersAt_refuse _ _ _
  · split
    · exact answersAt_refuse _ _ _
    · split
      · exact answersAt_refuse _ _ _
      · exact answersAt_effecting (fun _ h => h.takeProof _ _ _ _) fun _ => paid_check _

theorem setCarriers_owed (ks : List Nat) (r : Reservation) (s : State) :
    (s.setCarriers ks r).engine.checkOwed = s.engine.checkOwed := by
  refine foldl_keeps (P := fun t => t.engine.checkOwed = s.engine.checkOwed) (fun t k h => ?_) ks s rfl
  exact h

theorem answering_articles (p : Port) (c : Nat) (ks : List Nat) : Answering (articlesEffect p c ks) := by
  refine .of_cases fun s => ?_
  unfold articlesEffect
  split
  · exact answersAt_refuse _ _ _
  · dsimp only
    refine answersAt_effecting (fun P h hs => ?_) fun hs => ?_
    · have hset := h.setCarriers ks (.article c) _ (h.ctx s c { s.ctx c with articles := (s.ctx c).articles ++ ks } hs)
      split
      · exact h.check _ hset
      · exact hset
    · split
      · exact paid_check _
      · exact (setCarriers_owed _ _ _).trans hs

theorem answering_abort (p : Port) (c : Nat) : Answering (abortEffect p c) := by
  refine .of_cases fun s => ?_
  unfold abortEffect
  split
  · exact answersAt_refuse _ _ _
  split
  · exact answersAt_refuse _ _ _
  split
  · exact answersAt_quiet (fun _ => rfl) rfl
  · exact answersAt_effecting (fun _ h hs => h.settle _ (h.enterClosing _ _ _ _ hs)) fun _ => paid_settle _

theorem answering_lock (ho : Holder) (i : Nat) : Answering (lockEffect ho i) := by
  refine .of_cases fun s => ?_
  unfold lockEffect
  split
  · exact answersAt_refuse _ _ _
  · split
    case h_5 => exact answersAt_records (sameButRecords.holdAll _ _ _ _)
    all_goals exact answersAt_naming _ _ _

theorem answering_unlock (ho : Holder) (i : Nat) : Answering (unlockEffect ho i) := by
  refine .of_cases fun s => ?_
  unfold unlockEffect
  split
  · exact answersAt_refuse _ _ _
  · split
    case h_4 =>
      split
      · exact answersAt_records (sameButRecords.holdAll _ _ _ _)
      · exact answersAt_naming _ _ _
    all_goals exact answersAt_naming _ _ _

theorem answering_enlist (i : Nat) : Answering (enlistEffect i) := by
  refine .of_cases fun s => ?_
  unfold enlistEffect
  split
  · exact answersAt_refuse _ _ _
  split
  · exact answersAt_naming _ _ _
  split
  · exact answersAt_naming _ _ _
  split
  · exact answersAt_refuse _ _ _
  split
  · exact answersAt_naming _ _ _
  · exact answersAt_records (sameButRecords.holdAll _ _ _ _)

theorem answering_withdraw (i : Nat) : Answering (withdrawEffect i) := by
  refine .of_cases fun s => ?_
  unfold withdrawEffect
  split
  · exact answersAt_refuse _ _ _
  split
  · exact answersAt_naming _ _ _
  · exact answersAt_records (sameButRecords.holdAll _ _ _ _)

theorem answering_faulty (i : Nat) : Answering (faultyEffect i) := by
  refine .of_cases fun s => ?_
  unfold faultyEffect
  split
  · exact answersAt_refuse _ _ _
  split
  · exact answersAt_naming _ _ _
  · exact answersAt_records ((((sameButRecords.refl s).holdEach _ _ _).setElem _ _).deriveSources _)

theorem answering_clear (k : Nat) : Answering (clearEffect k) := by
  refine .of_cases fun s => ?_
  unfold clearEffect
  split_ifs
  · exact answersAt_refuse _ _ _
  · exact answersAt_refuse _ _ _
  · exact answersAt_quiet (fun p => by cases p <;> rfl) rfl

theorem answering_clearFault : Answering clearFaultEffect := by
  refine .of_cases fun s => ?_
  unfold clearFaultEffect
  split
  · exact answersAt_effecting (fun _ h hs => h.enterTrack _ _ (h.tracker _ _ hs)) fun _ => paid_enterTrack _ _
  · exact answersAt_refuse _ _ _

theorem answering_restart : Answering restartEffect :=
  .of_cases fun _ => answersAt_effecting (fun _ h => h.restartRing _ _) (paid_restartRing _)

theorem answering_role (role : RingRole) (slots period : Nat) : Answering (roleEffect role slots period) := by
  refine .of_cases fun s => ?_
  unfold roleEffect
  split
  · exact answersAt_refuse _ _ _
  split
  · exact answersAt_refuse _ _ _
  split
  · exact answersAt_refuse _ _ _
  · refine answersAt_effecting (fun P h hs => ?_) fun hs => ?_ <;> unfold takeRole <;> dsimp only
    · split
      · exact h.makeOrigin _ (h.restartRing _ _ (h.ring s _ hs))
      · exact h.restartRing _ _ (h.ring s _ hs)
    · split
      · exact paid_makeOrigin (paid_restartRing _ hs)
      · exact paid_restartRing _ hs

theorem answering_setLapse (p : Port) (seconds : Nat) : Answering (setLapseEffect p seconds) := by
  refine .of_cases fun s => ?_
  unfold setLapseEffect
  split
  · exact answersAt_refuse _ _ _
  split
  · exact answersAt_quiet (fun q => by rw [link_mapSta]) rfl
  · exact answersAt_quiet (fun _ => rfl) rfl

theorem setWatch_quiet (p : Port) (ws : List Nat) (s : State) :
    (∀ q, (setWatch p ws s).link q = s.link q) ∧ (setWatch p ws s).engine = s.engine := by
  unfold setWatch
  split
  · exact ⟨fun q => link_mapSta _ _ _ _, rfl⟩
  · exact ⟨fun _ => rfl, rfl⟩

theorem answersAt_setWatch (p : Port) (ws : List Nat) (s : State) : AnswersAt s (setWatch p ws s, watchReply ws) := by
  obtain ⟨hl, he⟩ := setWatch_quiet p ws s
  exact answersAt_quiet (fun q => by rw [hl]) (by rw [he])

theorem answering_watch (p : Port) (pt : Nat) : Answering (watchEffect p pt) := by
  refine .of_cases fun s => ?_
  unfold watchEffect
  dsimp only
  split
  · exact answersAt_refuse _ _ _
  split
  · exact answersAt_quiet (fun _ => rfl) rfl
  split
  · exact answersAt_setWatch _ _ _
  · exact answersAt_refuse _ _ _

theorem answering_unwatch (p : Port) (pt : Nat) : Answering (unwatchEffect p pt) := by
  refine .of_cases fun s => ?_
  unfold unwatchEffect
  split
  · exact answersAt_refuse _ _ _
  · exact answersAt_setWatch _ _ _

theorem answering_pacing (g w q : Nat) : Answering (pacingEffect g w q) :=
  .of_cases fun _ => answersAt_quiet (fun p => by cases p <;> rfl) rfl

theorem answering_limit (d : Nat) : Answering (limitEffect d) :=
  .of_cases fun s => answersAt_effecting
    (fun _ h hs => h.check _ (h.engine _ _ (h.drives s _ hs))) fun _ => paid_check _

end Effects

/-! ### What an order comes to (R185) -/

/-- The reply of a read begins ACCEPTED, or is one refusal. -/
def ReadAnswers (bodies : List (List Byte)) : Prop :=
  (∃ l rest, bodies = accepted l :: rest) ∨ ∃ r, bodies = [refusedBody r]

/-- An order is taken as one that changes state, under the permission of its KIND, or as a read, which every port is
permitted and which finds room in three places. -/
inductive TakenAs (c : Instr) (s : State) (p : Port) (k : Nat) : Prop
  | order (permitted : Port → Bool) (eff : State → State × List Byte) (hp : permitted p = permittedFrom k p)
      (ha : Answering eff) (he : exec c s = .next (takeOrder p permitted k (orderTag c) eff s))
  | read (n : Nat) (read : State → List (List Byte)) (hn : 1 ≤ n) (hn3 : n ≤ 3) (hp : permittedFrom k p = true)
      (hr : ∀ u, ReadAnswers (read u)) (he : exec c s = .next (takeRead p k n (orderTag c) read s))

theorem contextRoom_bounds (s : State) (c : Nat) : 1 ≤ s.contextRoom c ∧ s.contextRoom c ≤ 3 := by
  unfold State.contextRoom
  split <;> decide

theorem readAnswers_context (c : Nat) (u : State) : ReadAnswers (contextReply c u) := by
  unfold contextReply contextBodies
  split
  · exact .inr ⟨_, rfl⟩
  · split
    · exact .inl ⟨_, _, rfl⟩
    · exact .inl ⟨_, _, rfl⟩

theorem readAnswers_element (i : Nat) (u : State) : ReadAnswers (elementReply i u) := by
  unfold elementReply
  split
  · exact .inr ⟨_, rfl⟩
  · exact .inl ⟨_, _, rfl⟩

theorem readAnswers_points (space : Space) (first number : Nat) (u : State) :
    ReadAnswers (pointsReply space first number u) := by
  unfold pointsReply
  split
  · exact .inl ⟨_, _, rfl⟩
  · exact .inr ⟨_, rfl⟩

theorem readAnswers_reservations (first number : Nat) (u : State) : ReadAnswers (reservationsReply first number u) := by
  unfold reservationsReply
  split
  · exact .inr ⟨_, rfl⟩
  · split
    · exact .inl ⟨_, _, rfl⟩
    · exact .inr ⟨_, rfl⟩

theorem takenAs {c : Instr} {s : State} {p : Port} {k : Nat} (h : arrivesAs c = some (p, k)) : TakenAs c s p k := by
  have order : ∀ {c : Instr} {p' : Port} {k' : Nat} {permitted : Port → Bool} {eff : State → State × List Byte},
      some (p', k') = some (p, k) → permitted p' = permittedFrom k' p' → Answering eff →
      exec c s = .next (takeOrder p' permitted k' (orderTag c) eff s) → TakenAs c s p k := by
    rintro c p' k' permitted eff ⟨⟩ hp ha he
    exact .order permitted eff hp ha he
  have read : ∀ {c : Instr} {p' : Port} {k' n : Nat} {read : State → List (List Byte)},
      some (p', k') = some (p, k) → 1 ≤ n ∧ n ≤ 3 → permittedFrom k' p' = true → (∀ u, ReadAnswers (read u)) →
      exec c s = .next (takeRead p' k' n (orderTag c) read s) → TakenAs c s p k := by
    rintro c p' k' n read ⟨⟩ ⟨hn, hn3⟩ hp hr he
    exact .read n read hn hn3 hp hr he
  have one : 1 ≤ 1 ∧ 1 ≤ 3 := by decide
  have image : ∀ {l : State → List Byte} (u : State), ReadAnswers [accepted (l u)] := fun _ => .inl ⟨_, _, rfl⟩
  cases c with
  | defineElement => exact order h rfl (answering_define _ _ _) rfl
  | amendElement => exact order h rfl (answering_amend _ _ _) rfl
  | setGeometry => exact order h rfl (answering_geometry _) rfl
  | fixLayout => exact order h rfl answering_fix rfl
  | releaseLayout => exact order h rfl answering_release rfl
  | orderProof => exact order h rfl (answering_proof _ _) rfl
  | addArticles => exact order h rfl (answering_articles _ _ _) rfl
  | abortProof => exact order h rfl (answering_abort _ _) rfl
  | lockOut => exact order h rfl (answering_lock _ _) rfl
  | unlock => exact order h rfl (answering_unlock _ _) rfl
  | clearCarrier => exact order h rfl (answering_clear _) rfl
  | clearTrackFault => exact order h rfl answering_clearFault rfl
  | ringRestart => exact order h rfl answering_restart rfl
  | setRingRole => exact order h rfl (answering_role _ _ _) rfl
  | setLapse => exact order h rfl (answering_setLapse _ _) rfl
  | watchPoint => exact order h rfl (answering_watch _ _) rfl
  | unwatch => exact order h rfl (answering_unwatch _ _) rfl
  | enlist => exact order h rfl (answering_enlist _) rfl
  | withdraw => exact order h rfl (answering_withdraw _) rfl
  | withdrawFaulty => exact order h rfl (answering_faulty _) rfl
  | setPacing => exact order h rfl (answering_pacing _ _ _) rfl
  | setDriveLimit => exact order h rfl (answering_limit _) rfl
  | readElement => exact read h one rfl (readAnswers_element _) rfl
  | readContext => exact read h (contextRoom_bounds _ _) rfl (readAnswers_context _) rfl
  | readTrack => exact read h one rfl image rfl
  | readRing => exact read h one rfl image rfl
  | readPoints => exact read h one rfl (readAnswers_points _ _ _) rfl
  | readReservations => exact read h one rfl (readAnswers_reservations _ _) rfl
  | readPort => exact read h one rfl image rfl
  | _ => cases h

theorem takeOrder_dropped {s : State} {p : Port} (permitted : Port → Bool) (k : Nat) (tag : Byte)
    (eff : State → State × List Byte) (h : (s.link p).queue.length = queueCap p) :
    takeOrder p permitted k tag eff s = dropOrder p (goodFrame p s) := by
  rw [takeOrder_cases, if_pos (by omega)]

theorem takeOrder_notPermitted {s : State} {p : Port} {permitted : Port → Bool} (k : Nat) (tag : Byte)
    (eff : State → State × List Byte) (h : s.room p) (hp : permitted p = false) :
    takeOrder p permitted k tag eff s = s.replied p k tag (refusedBody .notPermitted) := by
  rw [takeOrder_cases, if_neg (Nat.not_lt.mpr h), if_pos hp]

theorem takeRead_dropped {s : State} {p : Port} {n : Nat} (k : Nat) (tag : Byte) (read : State → List (List Byte))
    (h : queueCap p < (s.link p).queue.length + n) :
    takeRead p k n tag read s = dropOrder p (goodFrame p s) := by
  rw [takeRead, hasRoom_goodFrame, decide_eq_false (Nat.not_le.mpr h)]
  rfl

/-- Settles O14: room is asked first and permission next, whatever the order. -/
theorem ordersNeedRoomAndPermission : Obligations.OrdersNeedRoomAndPermission := by
  refine ⟨fun c s p k hc hfull => ?dropped, fun p tag c s hfull => ?contextDropped,
    fun c s p k hc hroom hperm => ?refused⟩
  case dropped =>
    obtain ⟨permitted, eff, -, -, he⟩ | ⟨n, read, hn, -, -, -, he⟩ := takenAs (s := s) hc
    · rw [he, takeOrder_dropped permitted k _ eff hfull]; rfl
    · rw [he, takeRead_dropped k _ read (by omega)]; rfl
  case contextDropped => exact next_congr (takeRead_dropped 0x18 tag _ hfull)
  case refused =>
    obtain ⟨permitted, eff, hp, -, he⟩ | ⟨n, read, -, -, hp, -, -⟩ := takenAs (s := s) hc
    · rw [he, takeOrder_notPermitted k _ eff hroom (hp.trans hperm)]
    · rw [hp] at hperm; cases hperm

/-! ### The reply of an order (R185) -/

/-- Where an order is replied to, its reply stands right behind the frames that waited, and a refusal is all there
is. -/
theorem takeOrder_answers {s : State} {p : Port} {permitted : Port → Bool} {eff : State → State × List Byte} (k : Nat)
    (tag : Byte) (hroom : s.room p) (hp : permitted p = true) (ha : Answering eff) :
    ∃ body, answers s (takeOrder p permitted k tag eff s) p k tag body
      ∧ (body.head? = some 0
        ∨ (body.head? = some 1 ∧ takeOrder p permitted k tag eff s = s.replied p k tag body)) := by
  obtain ⟨r, b, he⟩ | ⟨hhead, hkept⟩ := ha.answered (queueReply p k tag [[]] (goodFrame p s))
  · refine ⟨refusedBody r b, ?_, .inr ⟨rfl, takeOrder_refused k tag hroom hp he⟩⟩
    rw [takeOrder_refused k tag hroom hp he, answers, link_replied, if_pos rfl]
  · refine ⟨_, ?_, .inl hhead⟩
    rw [takeOrder_taken k tag eff hroom hp, answers, ← goodFrame_queue p p s]
    refine replyWith_tail p k tag eff _ (hkept p _ ?_)
    rw [queueReply_queue]

theorem takeRead_answers {s : State} {p : Port} {read : State → List (List Byte)} {n : Nat} (k : Nat) (tag : Byte)
    (hroom : (s.link p).queue.length + n ≤ queueCap p) (hr : ∀ u, ReadAnswers (read u)) :
    ∃ body, answers s (takeRead p k n tag read s) p k tag body
      ∧ (body.head? = some 0 ∨ (body.head? = some 1 ∧ takeRead p k n tag read s = s.replied p k tag body)) := by
  rw [takeRead_taken k n tag read hroom]
  obtain ⟨l, rest, he⟩ | ⟨r, he⟩ := hr (goodFrame p s)
  · refine ⟨accepted l, ?_, .inl rfl⟩
    rw [he, answers, link_queueReply, if_pos rfl, link_goodFrame, List.map_cons]
    exact ⟨_, by rw [List.append_assoc]; rfl⟩
  · refine ⟨refusedBody r, ?_, .inr ⟨rfl, by rw [he, State.replied]⟩⟩
    rw [he, answers, link_queueReply, if_pos rfl, link_goodFrame]
    exact List.prefix_rfl

/-- Settles O15: an order by its effect, a read by its image. -/
theorem ordersAreAnsweredFirst : Obligations.OrdersAreAnsweredFirst := by
  intro c s p k hc hroom hperm
  obtain ⟨permitted, eff, hp, ha, he⟩ | ⟨n, read, -, hn3, -, hr, he⟩ := takenAs (s := s) hc
  · have hone : s.room p := by unfold State.room; omega
    obtain ⟨body, hbody⟩ := takeOrder_answers k (orderTag c) hone (hp.trans hperm) ha
    exact ⟨_, body, he, hbody⟩
  · have hn : (s.link p).queue.length + n ≤ queueCap p := by omega
    obtain ⟨body, hbody⟩ := takeRead_answers k (orderTag c) hn hr
    exact ⟨_, body, he, hbody⟩

/-! ### No check is left owed -/

theorem goodFrame_engine (p : Port) (s : State) : (goodFrame p s).engine = s.engine := by cases p <;> rfl

theorem paid_takeOrder {p : Port} {permitted : Port → Bool} {eff : State → State × List Byte} (k : Nat) (tag : Byte)
    (ha : Answering eff) {s : State} (hs : s.paid) : (takeOrder p permitted k tag eff s).paid := by
  have hgood : (goodFrame p s).paid := paid_of_engine hs (goodFrame_engine p s)
  rw [takeOrder_cases]
  split
  · exact hgood
  · split
    · exact hgood
    · exact ha.paid (queueReply p k tag [[]] (goodFrame p s)) hgood

theorem paid_takeRead (p : Port) (k n : Nat) (tag : Byte) (read : State → List (List Byte)) {s : State} (hs : s.paid) :
    (takeRead p k n tag read s).paid := by
  have hgood : (goodFrame p s).paid := paid_of_engine hs (goodFrame_engine p s)
  unfold takeRead
  dsimp only
  split <;> exact hgood

theorem paid_assertStop (s : State) : (assertStop s).paid := rfl

theorem paid_badFrame (p : Port) (f : LinkFrame) {s : State} (hs : s.paid) : (badFrame p f s).paid := by
  have hgood : (goodFrame p s).paid := paid_of_engine hs (goodFrame_engine p s)
  unfold badFrame
  split
  · exact hs
  · dsimp only
    split <;> exact hgood

theorem paid_receiveBad (st : Station) (bytes : List Byte) (e : Bool) {s : State} (hs : s.paid) :
    (receiveBad st bytes e s).paid := by
  unfold receiveBad
  dsimp only
  split <;> exact hs

theorem paid_receiveStall (st : Station) (bytes : List Byte) {s : State} (hs : s.paid) :
    (receiveStall st bytes s).paid := by
  unfold receiveStall
  dsimp only
  split <;> exact hs

theorem dropTransfer_engine (bytes : List Byte) (s : State) : (dropTransfer bytes s).engine = s.engine := by
  unfold dropTransfer
  split <;> rfl

theorem readOut_engine (n : Nat) (s : State) : (readOut n s).engine = s.engine := by
  unfold readOut
  dsimp only
  split <;> rfl

theorem sendHead_engine (st : Station) (s : State) : (sendHead st s).engine = s.engine := by
  unfold sendHead
  split <;> rfl

/-- Every event leaves no check owed where none was. -/
theorem paid_event {c : Instr} {s t : State} (hc : arrivesAs c = none) (hs : s.paid) (he : exec c s = .next t) :
    t.paid := by
  cases c with
  | powerOnReset =>
    cases he
    rfl
  | resetLineReset =>
    cases he
    rfl
  | badOrder p f =>
    cases he
    exact paid_badFrame p f hs
  | receiveError =>
    cases he
    exact paid_receiveBad _ _ _ hs
  | receiveGap =>
    cases he
    exact paid_receiveStall _ _ hs
  | lineTransferDropped =>
    cases he
    split
    · exact paid_of_engine hs (dropTransfer_engine _ _)
    · exact hs
  | readTransfer n =>
    cases he
    exact paid_of_engine hs (readOut_engine _ _)
  | frameSent st =>
    cases he
    exact paid_of_engine hs (sendHead_engine _ _)
  | forwardCount =>
    cases he
    exact paid_forward hs
  | reverseCount =>
    cases he
    exact paid_backward hs
  | illegalTransition =>
    cases he
    exact paid_illegal hs
  | homePulse =>
    cases he
    split
    · exact hs
    · exact paid_takeHome hs
  | pitchEyeEdge =>
    cases he
    split
    · exact paid_pitchCheck hs
    · exact hs
  | missingCarrier =>
    cases he
    split
    · exact paid_countMissing hs
    · exact hs
  | speedUpdate =>
    cases he
    exact paid_speedTick hs
  | scannerFrame f =>
    cases he
    exact paid_scannerArrival f hs
  | nodeFrame f =>
    cases he
    exact paid_nodeArrival f hs
  | originFrame =>
    cases he
    exact paid_originTick hs
  | returnExpiry =>
    cases he
    exact paid_returnTick hs
  | silenceDeadline =>
    cases he
    exact paid_silenceTick hs
  | machineStopAsserted =>
    cases he
    split
    · exact hs
    · exact paid_assertStop _
  | machineStopReleased =>
    cases he
    split
    · exact paid_check _
    · exact hs
  | trialStart =>
    cases he
    split
    · exact paid_settle _
    · exact hs
  | cueFinalAim =>
    cases he
    split
    · split
      · exact paid_runCues hs
      · exact hs
    · exact hs
  | cueFire =>
    cases he
    split
    · split
      · exact paid_of_engine (paid_settle _) rfl
      · exact hs
    · exact hs
  | expectationOpens =>
    cases he
    split
    · split
      · exact paid_settle _
      · exact hs
    · exact hs
  | expectationClosePassed =>
    cases he
    split
    · split
      · exact paid_settle _
      · exact hs
    · exact hs
  | closingSecondPart =>
    cases he
    split
    · exact paid_settle _
    · exact hs
  | lapseDeadline st =>
    cases he
    exact paid_lapseTick st hs
  | restEnd c =>
    cases he
    exact paid_restTick _ hs
  | tachEdge ch =>
    cases he
    exact paid_tachRise _ hs
  | currentScan l =>
    cases he
    exact paid_scanTick _ hs
  | quietSpanComplete c =>
    cases he
    exact paid_tryRamp _ hs
  | precheckDeadline c =>
    cases he
    exact paid_precheckOver _ hs
  | rampDeadline c =>
    cases he
    exact paid_rampOver _ hs
  | motionDeadline c =>
    cases he
    exact paid_motionOver _ hs
  | holdDeadline c =>
    cases he
    exact paid_holdOver _ hs
  | stopQuietReached c =>
    cases he
    exact paid_stopQuiet _ hs
  | stopDeadline c =>
    cases he
    exact paid_stopOver _ hs
  | _ => cases hc

/-- Every command leaves no check owed where none was. -/
theorem paid_exec {c : Instr} {s t : State} (hs : s.paid) (he : exec c s = .next t) : t.paid := by
  cases hc : arrivesAs c with
  | some pk =>
    obtain ⟨permitted, eff, -, ha, he'⟩ | ⟨n, read, -, -, -, -, he'⟩ := takenAs (s := s) hc
    · rw [he'] at he; cases he; exact paid_takeOrder _ _ ha hs
    · rw [he'] at he; cases he; exact paid_takeRead _ _ _ _ _ hs
  | none => exact paid_event hc hs he

/-- Settles O11: an idle step and every command pay each check that they come to owe. -/
theorem stepsOweNoCheck : Obligations.StepsOweNoCheck := by
  intro s t hs ht
  unfold step at ht
  split at ht
  · obtain rfl : tick s = t := by injection ht
    exact paid_tick hs
  · next i rest _ =>
    have hq : State.paid { s with pending := rest } := hs
    exact paid_exec hq ht

end Sys2Proof.Machine

/-! PROOFS. Orders that change element records and output points alone (R55 to R62, R68, R69, R75 to R81): the state
in which their effect is judged, what a refusal and a taken effect leave, and each order from its effect. -/

namespace Sys2Proof.Machine

open Sys2Proof

/-! ### The state in which an effect is judged -/

/-- The good frame has come and the reply has its place; all else is the order's state (R185). -/
def State.entered (s : State) (p : Port) (k : Nat) (tag : Byte) : State := queueReply p k tag [[]] (goodFrame p s)

section Entered

variable (s : State) (p : Port) (k : Nat) (tag : Byte)

theorem entered_eq : s.entered p k tag = { s with links := (s.entered p k tag).links } :=
  queueReply_goodFrame p k tag [[]] s

@[simp] theorem entered_time : (s.entered p k tag).time = s.time := by rw [entered_eq]
@[simp] theorem entered_tracker : (s.entered p k tag).tracker = s.tracker := by rw [entered_eq]
@[simp] theorem entered_ring : (s.entered p k tag).ring = s.ring := by rw [entered_eq]
@[simp] theorem entered_table : (s.entered p k tag).table = s.table := by rw [entered_eq]
@[simp] theorem entered_engine : (s.entered p k tag).engine = s.engine := by rw [entered_eq]
@[simp] theorem entered_elem (i : Nat) : (s.entered p k tag).elem i = s.elem i := by rw [entered_eq]; rfl
@[simp] theorem entered_ctx (c : Nat) : (s.entered p k tag).ctx c = s.ctx c := by rw [entered_eq]; rfl
@[simp] theorem entered_source (pt : Nat) : (s.entered p k tag).source pt = s.source pt := by rw [entered_eq]; rfl
@[simp] theorem entered_stimulus (pt : Nat) : (s.entered p k tag).stimulus pt = s.stimulus pt := by rw [entered_eq]; rfl
@[simp] theorem entered_stimulusUnder (pt : Nat) (v : Source) :
    (s.entered p k tag).stimulusUnder pt v = s.stimulusUnder pt v := by rw [entered_eq]; rfl
@[simp] theorem entered_sensorDef (i : Nat) : (s.entered p k tag).sensorDef i = s.sensorDef i := by rw [entered_eq]; rfl
@[simp] theorem entered_withEyes (i : Nat) : (s.entered p k tag).withEyes i = s.withEyes i := by rw [entered_eq]; rfl
@[simp] theorem entered_enlistFault (i : Nat) : (s.entered p k tag).enlistFault i = s.enlistFault i := by
  rw [entered_eq]; rfl
@[simp] theorem entered_outputsOf (is : List Nat) : outputsOf (s.entered p k tag) is = outputsOf s is := by
  rw [entered_eq]; rfl
@[simp] theorem entered_candidateFault (i : Nat) (c : Candidate) :
    (s.entered p k tag).candidateFault i c = s.candidateFault i c := by rw [entered_eq]; rfl
@[simp] theorem entered_amendBase (i : Nat) : (s.entered p k tag).amendBase i = s.amendBase i := by
  rw [entered_eq]; rfl
@[simp] theorem entered_positionalStaged : (s.entered p k tag).positionalStaged = s.positionalStaged := by
  rw [entered_eq]; rfl
@[simp] theorem entered_anyLive : (s.entered p k tag).anyLive = s.anyLive := by rw [entered_eq]; rfl

end Entered

section Orders

variable {s : State} {p : Port} {k : Nat} {tag : Byte} {permitted : Port → Bool} {eff : State → State × List Byte}

/-- How an order refuses in the state in which its effect is judged. -/
def RefusesWith (s : State) (p : Port) (k : Nat) (tag : Byte) (eff : State → State × List Byte) (body : List Byte) :
    Prop :=
  ∃ r b, body = refusedBody r b ∧ eff (s.entered p k tag) = refuse (s.entered p k tag) r b

theorem refusesWith {r : Reason} (h : eff (s.entered p k tag) = refuse (s.entered p k tag) r) :
    RefusesWith s p k tag eff (refusedBody r) := ⟨r, {}, rfl, h⟩

theorem refusesWith_naming {r : Reason} {i : Nat}
    (h : eff (s.entered p k tag) = refuseNaming (s.entered p k tag) r i) :
    RefusesWith s p k tag eff (s.naming r i) :=
  ⟨r, _, by rw [State.naming, blameElem, entered_elem], h⟩

/-- A refusal leaves the order's reply and nothing else. -/
theorem takeOrder_of_refusesWith {body : List Byte} (hroom : s.room p) (hp : permitted p = true)
    (h : RefusesWith s p k tag eff body) : takeOrder p permitted k tag eff s = s.replied p k tag body := by
  obtain ⟨r, b, rfl, he⟩ := h
  exact takeOrder_refused k tag hroom hp he

/-- The checks of an effect decide its order. -/
theorem exec_decided (c : Instr) {l : List (Prop × List Byte)} {taken : Prop}
    (hc : exec c s = .next (takeOrder p permitted k tag eff s)) (hroom : s.room p) (hp : permitted p = true)
    (h : decidedBy l (RefusesWith s p k tag eff) taken) :
    decidedBy l (fun body => exec c s = .next (s.replied p k tag body)) taken :=
  decidedBy_mono (fun _ hb => hc.trans (next_congr (takeOrder_of_refusesWith hroom hp hb))) id h

/-- A taken effect on records and points: its records and its points stand in the end, beside the reply. -/
theorem exec_of_records (c : Instr) {u : State} {l : List Byte} {pts : List Nat}
    (hc : exec c s = .next (takeOrder p permitted k tag eff s)) (hroom : s.room p) (hp : permitted p = true)
    (he : eff (s.entered p k tag) = (u, accepted l)) (hu : sameButRecords (s.entered p k tag) u)
    (hpts : pointsDerived pts (s.entered p k tag) u) :
    ∃ t, exec c s = .next t ∧ (∀ j, t.elem j = u.elem j) ∧ pointsDerived pts s t
      ∧ sameButRecords (s.replied p k tag (accepted l)) t := by
  obtain ⟨ht, hsame⟩ := takeOrder_records hroom hp he hu
  refine ⟨_, hc.trans (next_congr ht), fun _ => rfl, fun pt => ?_, hsame⟩
  have h := hpts pt
  rw [entered_source, entered_stimulus, entered_stimulusUnder] at h
  exact h

end Orders

/-! ### Fix Layout and Release Layout (R68, R69) -/

section Layout

variable {s : State} (hcan : s.canonical = true)
include hcan

theorem positionalStaged_iff :
    s.positionalStaged = true ↔
      ∃ j d, (s.elem j).staged = some d ∧ (s.elem j).definition.positional ≠ d.positional := by
  refine (any_record hcan (fun _ e => match e.staged with
    | some d => positionalChange e.definition d | none => false) fun _ => rfl).trans (exists_congr fun j => ?_)
  cases hs : (s.elem j).staged with
  | none => simp
  | some d => simp [positionalChange]

theorem anyLive_iff : s.anyLive = true ↔ ∃ j, (s.elem j).state = .live := by
  unfold State.anyLive
  rw [any_record hcan (fun _ e => decide (e.state = .live)) fun _ => rfl]
  simp only [decide_eq_true_eq]

end Layout

/-- An effect that writes the table beside the records. -/
theorem takeOrder_mapTable {s : State} {p : Port} {k : Nat} {tag : Byte} {permitted : Port → Bool}
    {eff : State → State × List Byte} {f : ElementTable → ElementTable} {l : List Byte} (hroom : s.room p)
    (hp : permitted p = true) (he : eff (s.entered p k tag) = ((s.entered p k tag).mapTable f, accepted l)) :
    takeOrder p permitted k tag eff s = (s.replied p k tag (accepted l)).mapTable f := by
  rw [State.entered] at he
  rw [takeOrder_taken k tag eff hroom hp, replyWith_quiet p k tag eff (goodFrame p s), he, State.replied,
    ← queueReply_filled]
  · cases p <;> rfl
  · rw [he, ← queueReply_queue]
    cases p <;> rfl

/-- Settles O19: each order by its checks, which search the whole table. -/
theorem layoutIsFixedAndReleased : Obligations.LayoutIsFixedAndReleased := by
  intro p tag s hp hroom hcan
  refine ⟨exec_decided (.fixLayout p tag) rfl hroom hp ⟨fun h => refusesWith ?unset, fun h => ⟨fun h2 => refusesWith ?staged,
    fun h2 => ?fixed⟩⟩, exec_decided (.releaseLayout p tag) rfl hroom hp ⟨fun h => refusesWith ?live, fun h => ?released⟩⟩
  case unset => exact if_pos (by simpa [Option.isSome_iff_ne_none] using h)
  case staged =>
    rw [fixEffect, if_neg (by simpa [Option.isSome_iff_ne_none] using h), entered_positionalStaged,
      if_pos ((positionalStaged_iff hcan).2 h2)]
  case fixed =>
    refine next_congr ((takeOrder_mapTable hroom hp (f := fun t => { t with layoutFixed := true }) (l := []) ?_).trans ?_)
    · rw [fixEffect, if_neg (by simpa [Option.isSome_iff_ne_none] using h), entered_positionalStaged,
        if_neg fun hs => h2 ((positionalStaged_iff hcan).1 hs)]
    · cases p <;> rfl
  case live =>
    rw [releaseEffect, entered_anyLive, if_pos ((anyLive_iff hcan).2 h)]
  case released =>
    refine next_congr ((takeOrder_mapTable hroom hp (f := fun t => { t with layoutFixed := false }) (l := []) ?_).trans ?_)
    · rw [releaseEffect, entered_anyLive, if_neg fun hs => h ((anyLive_iff hcan).1 hs)]
    · cases p <;> rfl

/-! ### Holdings (R75 to R79) -/

section Holdings

variable (st : ElState) (ho : Holder) (is : List Nat) (u : State)

theorem elem_deriveSources (pts : List Nat) (s : State) (j : Nat) : (deriveSources pts s).elem j = s.elem j := by
  unfold State.elem
  rw [deriveSources_table]

theorem elem_holdAll (j : Nat) :
    (holdAll st ho is u).elem j = if j ∈ is then { u.elem j with state := st, holder := ho } else u.elem j := by
  rw [holdAll, elem_deriveSources, elem_holdEach]

theorem pointsDerived_holdAll : pointsDerived (outputsOf u is) u (holdAll st ho is u) :=
  pointsDerived_deriveSources _ (holdEach_ring st ho is u)

end Holdings

section HoldingOrders

variable {s : State} {p : Port} {k : Nat} {tag : Byte} {permitted : Port → Bool} {eff : State → State × List Byte}

/-- An order that takes a holding of several elements. -/
theorem exec_of_holdAll (c : Instr) {st : ElState} {ho : Holder} (is : List Nat)
    (hc : exec c s = .next (takeOrder p permitted k tag eff s)) (hroom : s.room p) (hp : permitted p = true)
    (he : eff (s.entered p k tag) = (holdAll st ho is (s.entered p k tag), accepted [])) :
    ∃ t, exec c s = .next t
      ∧ (∀ j, t.elem j = if j ∈ is then { s.elem j with state := st, holder := ho } else s.elem j)
      ∧ pointsDerived (outputsOf s is) s t ∧ sameButRecords (s.replied p k tag (accepted [])) t := by
  have hpts := pointsDerived_holdAll st ho is (s.entered p k tag)
  rw [entered_outputsOf] at hpts
  obtain ⟨t, ht, helem, hpts, hsame⟩ := exec_of_records c hc hroom hp he (sameButRecords.holdAll _ _ _ _) hpts
  refine ⟨t, ht, fun j => ?_, hpts, hsame⟩
  rw [helem, elem_holdAll, entered_elem]

/-- The order of one element's holding. -/
theorem exec_of_holdOne (c : Instr) {st : ElState} {ho : Holder} (i : Nat)
    (hc : exec c s = .next (takeOrder p permitted k tag eff s)) (hroom : s.room p) (hp : permitted p = true)
    (he : eff (s.entered p k tag) = (holdAll st ho [i] (s.entered p k tag), accepted [])) :
    ∃ t, exec c s = .next t
      ∧ (∀ j, t.elem j = if j = i then { s.elem i with state := st, holder := ho } else s.elem j)
      ∧ pointsDerived (s.elem i).definition.outputs s t ∧ sameButRecords (s.replied p k tag (accepted [])) t := by
  obtain ⟨t, ht, helem, hpts, hsame⟩ := exec_of_holdAll c [i] hc hroom hp he
  refine ⟨t, ht, fun j => ?_, by simpa [outputsOf] using hpts, hsame⟩
  rw [helem]
  by_cases hj : j = i
  · simp [hj]
  · simp [hj]

end HoldingOrders

/-! ### Lock Out and Unlock (R78, R79) -/

section Locks

variable {i : Nat} {ho : Holder} {u : State}

theorem lockEffect_of_gt (h : 1023 < i) : lockEffect ho i u = refuse u .range := if_pos h

theorem unlockEffect_of_gt (h : 1023 < i) : unlockEffect ho i u = refuse u .range := if_pos h

variable (h : ¬ 1023 < i)
include h

theorem lockEffect_of_le :
    lockEffect ho i u =
      match (u.elem i).state with
      | .empty => refuseNaming u .notDefined i
      | .testing => refuseNaming u .testing i
      | .live => refuseNaming u .live i
      | .locked => refuseNaming u .lockedOut i
      | _ => (holdAll .locked ho [i] u, accepted []) := by
  rw [lockEffect, if_neg h] <;> rfl

theorem unlockEffect_of_le :
    unlockEffect ho i u =
      match (u.elem i).state with
      | .empty => refuseNaming u .notDefined i
      | .testing => refuseNaming u .testing i
      | .live => refuseNaming u .live i
      | .locked =>
        if (u.elem i).holder = ho then (holdAll .unproven .none [i] u, accepted [])
        else refuseNaming u .notHolder i
      | _ => refuseNaming u .notHolder i := by
  rw [unlockEffect, if_neg h] <;> rfl

end Locks

/-- Settles O20: each state of the element has its own outcome, and one of them takes the order. -/
theorem lockOutAndUnlock : Obligations.LockOutAndUnlock := by
  intro p tag i s hp hroom
  dsimp only [List.cons_append, List.nil_append]
  constructor
  case left =>
    refine exec_decided (.lockOut p tag i) rfl hroom hp ⟨fun h => refusesWith (lockEffect_of_gt h), fun hi =>
      ⟨fun h => refusesWith_naming ?_, fun h1 => ⟨fun h => refusesWith_naming ?_, fun h2 =>
        ⟨fun h => refusesWith_naming ?_, fun h3 => ⟨fun h => refusesWith_naming ?_, fun h4 => ?taken⟩⟩⟩⟩⟩
    case taken =>
      refine exec_of_holdOne _ i rfl hroom hp ?_
      rw [lockEffect_of_le hi, entered_elem]
      cases hs : (s.elem i).state <;> first | rfl | contradiction
    all_goals rw [lockEffect_of_le hi, entered_elem, h]
  case right =>
    refine exec_decided (.unlock p tag i) rfl hroom hp ⟨fun h => refusesWith (unlockEffect_of_gt h), fun hi =>
      ⟨fun h => refusesWith_naming ?_, fun h1 => ⟨fun h => refusesWith_naming ?_, fun h2 =>
        ⟨fun h => refusesWith_naming ?_, fun h3 => ⟨fun h => refusesWith_naming ?unlocked, fun h4 =>
          ⟨fun h => refusesWith_naming ?foreign, fun h5 => ?taken⟩⟩⟩⟩⟩⟩
    case unlocked =>
      rw [unlockEffect_of_le hi, entered_elem]
      cases hs : (s.elem i).state <;> first | rfl | contradiction
    case foreign =>
      rw [unlockEffect_of_le hi, entered_elem, not_not.1 h4]
      exact if_neg h
    case taken =>
      refine exec_of_holdOne _ i rfl hroom hp ?_
      rw [unlockEffect_of_le hi, entered_elem, not_not.1 h4]
      exact if_pos (not_not.1 h5)
    all_goals rw [unlockEffect_of_le hi, entered_elem, h]

end Sys2Proof.Machine

/-! PROOFS. Enlist and the two Withdraw orders by their checks (R75 to R77), and the change of an element record by
its disposition: DEFINED, REMOVED, AMENDED and STAGED (R55 to R62). -/

namespace Sys2Proof.Machine

open Sys2Proof

/-! ### Enlist and Withdraw (R75 to R77) -/

section Withdrawals

variable {s : State} {p : Port} {k : Nat} {tag : Byte} {i : Nat}

/-- With its own checks passed, Enlist is decided by the first member that fails (R75). -/
theorem enlistEffect_of_fit (h1 : ¬ 1023 < i) (h2 : (s.elem i).state ≠ .empty)
    (h3 : (s.elem i).definition.mode ≠ some .attached) (h4 : s.table.layoutFixed ≠ false) :
    enlistEffect i (s.entered p k tag) =
      match (s.withEyes i).find? fun j => (s.enlistFault j).isSome with
      | some j => refuseNaming (s.entered p k tag) ((s.enlistFault j).getD .notDefined) j
      | none => (holdAll .live .line (s.withEyes i) (s.entered p k tag), accepted []) := by
  rw [enlistEffect, if_neg h1, entered_elem, if_neg h2, if_neg h3, entered_table, if_neg h4, entered_withEyes]
  simp only [entered_enlistFault] <;> rfl

theorem withdrawFault_entered : withdrawFault i (s.entered p k tag) = withdrawFault i s := by
  simp only [withdrawFault, entered_elem]

/-- The two orders that withdraw an element have one sequence of checks (R76, R77). -/
theorem withdraw_decided {eff : State → State × List Byte} {taken : Prop}
    (hgt : 1023 < i → eff (s.entered p k tag) = refuse (s.entered p k tag) .range)
    (hfault : ¬ 1023 < i → ∀ r, withdrawFault i s = some r →
      eff (s.entered p k tag) = refuseNaming (s.entered p k tag) r i)
    (htaken : ¬ 1023 < i → withdrawFault i s = none → taken) :
    decidedBy
      [(1023 < i, refusedBody .range), ((s.elem i).state = .empty, s.naming .notDefined i),
        ((s.elem i).definition.mode = some .attached, s.naming .attached i),
        ((s.elem i).state ≠ .live, s.naming .notHolder i)]
      (RefusesWith s p k tag eff) taken := by
  refine ⟨fun h => refusesWith (hgt h), fun h1 => ⟨fun h => refusesWith_naming (hfault h1 _ (if_pos h)), fun h2 =>
    ⟨fun h => refusesWith_naming (hfault h1 _ ?_), fun h3 => ⟨fun h => refusesWith_naming (hfault h1 _ ?_),
      fun h4 => htaken h1 ?_⟩⟩⟩⟩ <;> rw [withdrawFault, if_neg h2]
  · rw [if_pos h]
  · rw [if_neg h3, if_pos h]
  · rw [if_neg h3, if_neg h4]

theorem withdrawEffect_of_fault (h1 : ¬ 1023 < i) {r : Reason} (h : withdrawFault i s = some r) :
    withdrawEffect i (s.entered p k tag) = refuseNaming (s.entered p k tag) r i := by
  rw [withdrawEffect, if_neg h1, withdrawFault_entered, h]

theorem withdrawEffect_of_fit (h1 : ¬ 1023 < i) (h : withdrawFault i s = none) :
    withdrawEffect i (s.entered p k tag)
      = (holdAll .proven .none (s.withEyes i) (s.entered p k tag), accepted []) := by
  rw [withdrawEffect, if_neg h1, withdrawFault_entered, h, entered_withEyes]

theorem faultyEffect_of_fault (h1 : ¬ 1023 < i) {r : Reason} (h : withdrawFault i s = some r) :
    faultyEffect i (s.entered p k tag) = refuseNaming (s.entered p k tag) r i := by
  rw [faultyEffect, if_neg h1, withdrawFault_entered, h]

/-- A taken Withdraw Faulty writes the element's failure before its points are derived (R77). -/
theorem faultyEffect_of_fit (h1 : ¬ 1023 < i) (h : withdrawFault i s = none) :
    faultyEffect i (s.entered p k tag)
      = (deriveSources (outputsOf s (s.withEyes i))
          ((holdEach .proven .none (s.withEyes i) (s.entered p k tag)).mapElem i fun e =>
            { e with state := .failed, summary := some (lineReport s.time) }), accepted []) := by
  rw [faultyEffect, if_neg h1, withdrawFault_entered, h]
  dsimp only
  rw [entered_withEyes, entered_outputsOf, entered_time]

end Withdrawals

theorem mem_withEyes_self (s : State) (i : Nat) : i ∈ s.withEyes i := List.mem_cons_self

/-- Settles O21: Enlist by the first member that fails, the two withdrawals by their one sequence of checks. -/
theorem enlistAndWithdraw : Obligations.EnlistAndWithdraw := by
  intro tag i s hroom
  refine ⟨exec_decided (.enlist .line tag i) rfl hroom rfl ?enlist, exec_decided (.withdraw .line tag i) rfl hroom rfl
    (withdraw_decided (fun h => if_pos h) (fun h1 r => withdrawEffect_of_fault h1) fun h1 h => ?withdrawn),
    exec_decided (.withdrawFaulty .line tag i) rfl hroom rfl
      (withdraw_decided (fun h => if_pos h) (fun h1 r => faultyEffect_of_fault h1) fun h1 h => ?failed)⟩
  case enlist =>
    refine (decidedBy_append _ _ _ _).2 ⟨fun h => refusesWith (if_pos h), fun h1 => ⟨fun h => refusesWith_naming ?_, fun h2 =>
      ⟨fun h => refusesWith_naming ?_, fun h3 => ⟨fun h => refusesWith ?_, fun h4 =>
        enlistFault_decided s i _ _ (fun j hj => refusesWith_naming ?_) fun hnone => ?_⟩⟩⟩⟩
    · rw [enlistEffect, if_neg h1, entered_elem, if_pos h]
    · rw [enlistEffect, if_neg h1, entered_elem, if_neg h2, if_pos h]
    · rw [enlistEffect, if_neg h1, entered_elem, if_neg h2, if_neg h3, entered_table, if_pos h]
    · rw [enlistEffect_of_fit h1 h2 h3 h4, hj]
    · exact exec_of_holdAll _ (s.withEyes i) rfl hroom rfl (by rw [enlistEffect_of_fit h1 h2 h3 h4, hnone])
  case withdrawn => exact exec_of_holdAll _ (s.withEyes i) rfl hroom rfl (withdrawEffect_of_fit h1 h)
  case failed =>
    obtain ⟨t, ht, helem, hpts, hsame⟩ := exec_of_records (.withdrawFaulty .line tag i) rfl hroom rfl
      (faultyEffect_of_fit h1 h)
      ((((sameButRecords.refl _).holdEach _ _ _).setElem _ _).deriveSources _)
      (pointsDerived_deriveSources _ (holdEach_ring _ _ _ _))
    refine ⟨t, ht, fun j => ?_, hpts, hsame⟩
    rw [helem, elem_deriveSources, elem_mapElem, elem_holdEach, elem_holdEach, if_pos (mem_withEyes_self s i),
      entered_elem, entered_elem]
    rfl

/-! ### Definitions that take effect (R57) -/

section Definitions

theorem eyes_keepAttached (old new : Definition) : (keepAttached old new).eyes = new.eyes := by
  unfold keepAttached
  split <;> rfl

theorem outputs_keepAttached (old new : Definition) : (keepAttached old new).outputs = new.outputs := by
  unfold keepAttached
  split <;> rfl

/-- The taking or release of an eye touches its attached-to field alone. -/
theorem Element.attach_eq (v : Option Nat) (e : Element) :
    e.attach v = { e with definition := (e.attach v).definition } := by
  unfold Element.attach
  split
  · split <;> rfl
  · rfl

/-- An element whose definition names eyes is no sensor, so that nothing is attached for it. -/
theorem Element.attach_of_eyes {e : Element} {j : Nat} (h : j ∈ e.definition.eyes) (v : Option Nat) : e.attach v = e := by
  unfold Element.attach
  split
  · rename_i hd; rw [hd] at h; cases h
  · rfl

/-- An ATTACHED sensor that is taken as eye has the chute for its attached-to. -/
theorem Element.attach_attached {e : Element} (h : e.definition.mode = some .attached) (i : Nat) :
    ∃ d, (e.attach (some i)).definition = .sensor d ∧ d.attachedTo = some i := by
  cases hd : e.definition with
  | sensor d =>
    have hm : d.mode = .attached := by rw [hd] at h; exact Option.some.inj h
    exact ⟨{ d with attachedTo := some i }, by simp only [Element.attach, hd, hm, if_true], rfl⟩
  | none | chute _ | drive _ => rw [hd] at h; cases h

/-- A definition that takes effect for element `i`: its own record. -/
theorem elem_installDefinition_self (i : Nat) (d : Definition) (u : State) :
    (installDefinition i d u).elem i
      = { u.elem i with definition := keepAttached (u.elem i).definition d } := by
  rw [elem_installDefinition]
  dsimp only
  rw [if_pos rfl]
  have hown : ∀ e : Element, e = u.elem i ∨ e = (u.elem i).attach none →
      { e with definition := keepAttached (u.elem i).definition d }
        = { u.elem i with definition := keepAttached (u.elem i).definition d } := by
    rintro e (rfl | rfl)
    · rfl
    · rw [Element.attach_eq]
  have hbase := hown (if i ∈ (u.elem i).definition.eyes then (u.elem i).attach none else u.elem i)
    (by split <;> simp)
  rw [hbase]
  split
  · rename_i hi
    rw [← eyes_keepAttached (u.elem i).definition d] at hi
    exact Element.attach_of_eyes hi _
  · rfl

/-- A definition that takes effect for element `i`: the eyes it names and those it leaves. -/
theorem elem_installDefinition_ne {i j : Nat} (h : j ≠ i) (d : Definition) (u : State) :
    (installDefinition i d u).elem j
      = if j ∈ d.eyes then (u.elem j).attach (some i)
        else if j ∈ (u.elem i).definition.eyes then (u.elem j).attach none
        else u.elem j := by
  rw [elem_installDefinition]
  dsimp only
  rw [if_neg h]
  by_cases hd : j ∈ d.eyes
  · rw [if_pos hd, if_pos hd]
    split
    · rw [Element.attach_attach]
    · rfl
  · rw [if_neg hd, if_neg hd]

theorem redefine_records (i : Nat) (new : Definition) (u : State) (j : Nat) :
    (redefine i new u).elem j = (installDefinition i new u).elem j := elem_deriveSources _ _ _

end Definitions

/-! ### The taking of a change (R55) -/

section Changes

variable {s : State} {p : Port} {k : Nat} {tag : Byte} {i : Nat} {c : Candidate}

theorem changeElement_of_none (h : s.candidateFault i c = none) :
    changeElement i c (s.entered p k tag)
      = (takeChange i c.definition (s.entered p k tag),
        accepted [dispositionByte (dispositionOf (s.elem i) c.definition)]) := by
  rw [changeElement, entered_candidateFault, h, entered_elem]

/-- The checks of R55 decide a change. -/
theorem change_decided {eff : State → State × List Byte} {taken : Prop} (hcan : s.canonical = true)
    (he : eff (s.entered p k tag) = changeElement i c (s.entered p k tag))
    (ht : s.candidateFault i c = none → taken) :
    decidedBy (s.changeChecks i c) (RefusesWith s p k tag eff) taken := by
  refine decidedBy_mono ?_ ht (candidateFault_decided hcan i c)
  rintro body ⟨r, hr, rfl⟩
  refine refusesWith (he.trans ?_)
  rw [changeElement, entered_candidateFault, hr]

/-- No candidate that passes names its own element as eye, where that is not an ATTACHED sensor. -/
theorem eyes_attached_of_fit (hcan : s.canonical = true) (h : s.candidateFault i c = none) :
    ∀ j ∈ c.definition.eyes, (s.elem j).definition.mode = some .attached := by
  intro j hj
  have hx := (candidateFault_none_iff hcan i c).1 h
    (∃ e ∈ c.definition.eyes, (s.elem e).definition.mode ≠ some .attached, refusedBody .notDefined)
    (by simp [State.changeChecks])
  by_contra hm
  exact hx ⟨j, hj, hm⟩

/-! ### DEFINED and REMOVED (R56, R59) -/

theorem kind_defineCandidate (old : Definition) (kind : Kind) (b : List Byte) :
    (defineCandidate old kind b).definition.kind = kind := by cases kind <;> rfl

theorem takeChange_defined {new : Definition} (hk : new.kind ≠ .none) {u : State} (he : (u.elem i).state = .empty) :
    takeChange i new u = redefine i new (u.mapElem i fun e =>
      { e with state := .unproven, suppressed := 0, proofCount := 0, staged := none, summary := none }) := by
  rw [takeChange, show dispositionOf (u.elem i) new = .defined by rw [dispositionOf, if_neg hk, he]]

theorem keepAttached_defineCandidate (kind : Kind) (b : List Byte) :
    keepAttached .none (defineCandidate .none kind b).definition = (defineCandidate .none kind b).definition := by
  cases kind <;> rfl

/-- The records that a defining order leaves. -/
theorem elem_takeChange_defined {kind : Kind} {b : List Byte} (hk : kind ≠ .none)
    (he : (s.elem i).state = .empty) (hold : (s.elem i).definition = .none)
    (j : Nat) :
    (takeChange i (defineCandidate .none kind b).definition (s.entered p k tag)).elem j
      = if j = i then
          { definition := (defineCandidate .none kind b).definition, state := .unproven, holder := (s.elem i).holder
            holdCount := (s.elem i).holdCount, suppressed := 0, proofCount := 0, staged := none, summary := none }
        else if j ∈ (defineCandidate .none kind b).definition.eyes then (s.elem j).attach (some i)
        else s.elem j := by
  have hkind : (defineCandidate .none kind b).definition.kind ≠ .none := by rw [kind_defineCandidate]; exact hk
  rw [takeChange_defined hkind (by rw [entered_elem, he]), redefine_records]
  by_cases hj : j = i
  · subst hj
    rw [if_pos rfl, elem_installDefinition_self, elem_mapElem, if_pos rfl, entered_elem, hold,
      keepAttached_defineCandidate]
  · rw [if_neg hj, elem_installDefinition_ne hj, elem_mapElem, elem_mapElem, if_neg hj, if_pos rfl, entered_elem,
      entered_elem, hold]
    rfl

theorem pointsDerived_redefine {new : Definition} {u v : State} (hring : v.ring = u.ring) :
    pointsDerived ((v.elem i).definition.outputs ++ new.outputs) u (redefine i new v) :=
  pointsDerived_deriveSources _ ((installDefinition_ring _ _ _).trans hring)

/-- A DEFINED order: the record, the eyes, the points and the frame. -/
theorem exec_defined (hroom : s.room p) (hp : fromStation p = true) (hcan : s.canonical = true) {kind : Kind}
    {b : List Byte} (he : defineEffect i kind b (s.entered p 0x01 tag)
      = changeElement i (defineCandidate .none kind b) (s.entered p 0x01 tag))
    (hk : kind ≠ .none) (hempty : (s.elem i).state = .empty) (hold : (s.elem i).definition = .none)
    (hfit : s.candidateFault i (defineCandidate .none kind b) = none) :
    ∃ t, exec (.defineElement p tag i kind b) s = .next t
      ∧ (∀ j, t.elem j
          = if j = i then
              { definition := (defineCandidate .none kind b).definition, state := .unproven
                holder := (s.elem i).holder, holdCount := (s.elem i).holdCount, suppressed := 0, proofCount := 0
                staged := none, summary := none }
            else if j ∈ (defineCandidate .none kind b).definition.eyes then (s.elem j).attach (some i)
            else s.elem j)
      ∧ (∀ j ∈ (defineCandidate .none kind b).definition.eyes, (t.sensorDef j).bind (·.attachedTo) = some i)
      ∧ pointsDerived (defineCandidate .none kind b).definition.outputs s t
      ∧ sameButRecords (s.replied p 0x01 tag (accepted [0])) t := by
  have hkind : (defineCandidate .none kind b).definition.kind ≠ .none := by rw [kind_defineCandidate]; exact hk
  have hdisp : dispositionOf (s.elem i) (defineCandidate .none kind b).definition = .defined := by
    rw [dispositionOf, if_neg hkind, hempty]
  have hpts : pointsDerived (defineCandidate .none kind b).definition.outputs (s.entered p 0x01 tag)
      (takeChange i (defineCandidate .none kind b).definition (s.entered p 0x01 tag)) := by
    rw [takeChange_defined hkind (by rw [entered_elem, hempty])]
    have h := pointsDerived_redefine (i := i) (new := (defineCandidate .none kind b).definition)
      (u := s.entered p 0x01 tag) (v := (s.entered p 0x01 tag).mapElem i fun e =>
        { e with state := .unproven, suppressed := 0, proofCount := 0, staged := none, summary := none }) rfl
    rw [elem_mapElem, if_pos rfl, entered_elem, hold] at h
    exact h
  obtain ⟨t, ht, helem, hpts, hsame⟩ := exec_of_records (.defineElement p tag i kind b) rfl hroom hp
    (he.trans (changeElement_of_none hfit)) (sameButRecords.takeChange _ _ _) hpts
  rw [hdisp] at hsame
  have hrec : ∀ j, t.elem j = _ := fun j => (helem j).trans
    (elem_takeChange_defined hk hempty hold j)
  refine ⟨t, ht, hrec, fun j hj => ?_, hpts, hsame⟩
  have hmode := eyes_attached_of_fit hcan hfit j hj
  have hji : j ≠ i := by rintro rfl; rw [hold] at hmode; cases hmode
  obtain ⟨d, hd, hto⟩ := Element.attach_attached hmode i
  rw [State.sensorDef, hrec, if_neg hji, if_pos hj, hd]
  exact hto

/-- A REMOVED order of a defined element. -/
theorem exec_removed (hroom : s.room p) (hp : fromStation p = true) {b : List Byte}
    (he : defineEffect i .none b (s.entered p 0x01 tag)
      = changeElement i ⟨.none, false⟩ (s.entered p 0x01 tag))
    (hstate : (s.elem i).state ≠ .empty) (hfit : s.candidateFault i ⟨.none, false⟩ = none) :
    ∃ t, exec (.defineElement p tag i .none b) s = .next t
      ∧ (∀ j, t.elem j
          = if j = i then { holdCount := (s.elem i).holdCount }
            else if j ∈ (s.elem i).definition.eyes then (s.elem j).attach none
            else s.elem j)
      ∧ pointsDerived (s.elem i).definition.outputs s t
      ∧ sameButRecords (s.replied p 0x01 tag (accepted [3])) t := by
  have htake : takeChange i .none (s.entered p 0x01 tag)
      = deriveSources (s.elem i).definition.outputs
        ((installDefinition i .none (s.entered p 0x01 tag)).mapElem i fun e => { holdCount := e.holdCount }) := by
    rw [takeChange, show dispositionOf ((s.entered p 0x01 tag).elem i) .none = .removed from rfl]
    dsimp only
    rw [entered_elem, if_neg hstate]
  have hpts : pointsDerived (s.elem i).definition.outputs (s.entered p 0x01 tag)
      (takeChange i .none (s.entered p 0x01 tag)) := by
    rw [htake]
    exact pointsDerived_deriveSources _ (installDefinition_ring _ _ _)
  obtain ⟨t, ht, helem, hpts, hsame⟩ := exec_of_records (.defineElement p tag i .none b) rfl hroom hp
    (he.trans (changeElement_of_none hfit)) (sameButRecords.takeChange _ _ _) hpts
  refine ⟨t, ht, fun j => ?_, hpts, hsame⟩
  rw [helem, htake, elem_deriveSources, elem_mapElem, elem_installDefinition_self]
  by_cases hj : j = i
  · rw [if_pos hj, if_pos hj, entered_elem]
  · rw [if_neg hj, if_neg hj, elem_installDefinition_ne hj, entered_elem, entered_elem]
    exact if_neg List.not_mem_nil

theorem exec_removed_empty (hroom : s.room p) (hp : fromStation p = true) {b : List Byte}
    (he : defineEffect i .none b (s.entered p 0x01 tag)
      = changeElement i ⟨.none, false⟩ (s.entered p 0x01 tag))
    (hstate : (s.elem i).state = .empty) (hfit : s.candidateFault i ⟨.none, false⟩ = none) :
    exec (.defineElement p tag i .none b) s = .next (s.replied p 0x01 tag (accepted [3])) := by
  refine next_congr ((takeOrder_mapTable hroom hp (f := fun t => t) (l := [3]) ?_).trans ?_)
  · rw [he, changeElement_of_none hfit, takeChange, show dispositionOf ((s.entered p 0x01 tag).elem i) .none = .removed from rfl]
    dsimp only
    rw [entered_elem, if_pos hstate]
    rfl
  · cases p <;> rfl

end Changes

theorem defineEffect_of_fit {s : State} {p : Port} {tag : Byte} {i : Nat} {kind : Kind} {b : List Byte}
    (hmode : ¬ (kind = .sensor ∧ blockMode b = none)) (hi : ¬ 1023 < i) :
    defineEffect i kind b (s.entered p 0x01 tag)
      = changeElement i (defineCandidate (s.elem i).definition kind b) (s.entered p 0x01 tag) := by
  rw [defineEffect, if_neg hmode, if_neg hi, entered_elem]

/-- Settles O16: the checks of R55, and with none the disposition that the kind and the record give. -/
theorem defineElementDefinesOrRemoves : Obligations.DefineElementDefinesOrRemoves := by
  intro p tag i kind b s hp hroom hcan
  dsimp only
  refine exec_decided (.defineElement p tag i kind b) rfl hroom hp ((decidedBy_append _ _ _ _).2
    ⟨fun h => refusesWith (if_pos h), fun hmode => ⟨fun h => refusesWith ?range, fun hi =>
      change_decided hcan (defineEffect_of_fit hmode hi) fun hfit => ⟨fun hk hempty hold => ?defined,
        fun hk hstate => ?removed, fun hk hstate => ?nothing⟩⟩⟩)
  case range => rw [defineEffect, if_neg hmode, if_pos h]
  case defined =>
    have he := defineEffect_of_fit (s := s) (p := p) (tag := tag) hmode hi
    rw [hold] at he hfit ⊢
    exact exec_defined hroom hp hcan he hk hempty hold hfit
  case removed =>
    subst hk
    exact exec_removed hroom hp (defineEffect_of_fit hmode hi) hstate hfit
  case nothing =>
    subst hk
    exact exec_removed_empty hroom hp (defineEffect_of_fit hmode hi) hstate hfit

end Sys2Proof.Machine

/-! PROOFS. Changes of a defined element (R57, R58, R60, R61): AMENDED outside TESTING, and STAGED in it. -/

namespace Sys2Proof.Machine

open Sys2Proof

section Amendments

variable {s : State} {p : Port} {k : Nat} {tag : Byte} {i : Nat} {c : Candidate}

/-- The record that an amendment leaves, but for its definition (R60). -/
def Element.amended (e : Element) : Element := { e with state := amendedState e.state }

theorem Element.amended_amended (e : Element) : e.amended.amended = e.amended := by
  have h : amendedState (amendedState e.state) = amendedState e.state := by cases e.state <;> rfl
  rw [Element.amended, Element.amended, h]

@[simp] theorem Element.amended_definition (e : Element) : e.amended.definition = e.definition := rfl

/-- The chute that a sensor is attached to is amended with it (R61). -/
theorem elem_amendChuteOf (u : State) (i j : Nat) :
    (amendChuteOf i u).elem j
      = if (u.sensorDef i).bind (·.attachedTo) = some j then (u.elem j).amended else u.elem j := by
  unfold amendChuteOf
  cases h : (u.sensorDef i).bind (·.attachedTo) with
  | none => rw [if_neg (by simp)]
  | some a =>
    dsimp only
    rw [elem_mapElem]
    by_cases hj : j = a
    · rw [if_pos hj, if_pos (by rw [hj]), hj]; rfl
    · rw [if_neg hj, if_neg (by simpa using fun h => hj h.symm)]

theorem amendChuteOf_ring (i : Nat) (u : State) : (amendChuteOf i u).ring = u.ring := by
  unfold amendChuteOf
  split <;> rfl

theorem elem_amendChuteOf_definition (u : State) (i j : Nat) :
    ((amendChuteOf i u).elem j).definition = (u.elem j).definition := by
  rw [elem_amendChuteOf]
  split <;> rfl

/-- The records as an amendment has unproven them, before the new definition takes effect. -/
theorem elem_unproven_self (u : State) (i : Nat) :
    ((amendChuteOf i u).mapElem i Element.amended).elem i = (u.elem i).amended := by
  rw [elem_mapElem, if_pos rfl, elem_amendChuteOf]
  split
  · rw [Element.amended_amended]
  · rfl

theorem elem_unproven_ne {j : Nat} (h : j ≠ i) (u : State) :
    ((amendChuteOf i u).mapElem i Element.amended).elem j
      = if (u.sensorDef i).bind (·.attachedTo) = some j then (u.elem j).amended else u.elem j := by
  rw [elem_mapElem, if_neg h, elem_amendChuteOf]

theorem dispositionOf_amended {e : Element} {new : Definition} (hk : new.kind ≠ .none) (h1 : e.state ≠ .empty)
    (h2 : e.state ≠ .testing) : dispositionOf e new = .amended := by
  rw [dispositionOf, if_neg hk]
  split
  · contradiction
  · contradiction
  · rfl

theorem dispositionOf_staged {e : Element} {new : Definition} (hk : new.kind ≠ .none) (h : e.state = .testing) :
    dispositionOf e new = .staged := by rw [dispositionOf, if_neg hk, h]

theorem takeChange_amended {u : State} {new : Definition} (h : dispositionOf (u.elem i) new = .amended) :
    takeChange i new u = redefine i new ((amendChuteOf i u).mapElem i Element.amended) := by
  rw [takeChange, h]
  rfl

theorem takeChange_staged {u : State} {new : Definition} (h : dispositionOf (u.elem i) new = .staged) :
    takeChange i new u = u.mapElem i fun e => { e with staged := some new } := by rw [takeChange, h]

/-- An order whose effect is the taking of a change. -/
structure Changes (s : State) (p : Port) (k : Nat) (tag : Byte) (i : Nat) (c : Candidate) (cmd : Instr)
    (eff : State → State × List Byte) : Prop where
  order : exec cmd s = .next (takeOrder p fromStation k tag eff s)
  effect : eff (s.entered p k tag) = changeElement i c (s.entered p k tag)
  fits : s.candidateFault i c = none
  known : c.definition.kind ≠ .none

variable {cmd : Instr} {eff : State → State × List Byte}

/-- An AMENDED order, whichever of the two brings it (R57, R60 to R62). -/
theorem exec_amended (h : Changes s p k tag i c cmd eff) (hroom : s.room p) (hp : fromStation p = true)
    (h1 : (s.elem i).state ≠ .empty) (h2 : (s.elem i).state ≠ .testing) :
    ∃ t, exec cmd s = .next t
      ∧ t.elem i = { (s.elem i).amended with definition := keepAttached (s.elem i).definition c.definition }
      ∧ (∀ j, j ≠ i →
          let e := if (s.sensorDef i).bind (·.attachedTo) = some j then (s.elem j).amended else s.elem j
          t.elem j =
            if j ∈ (keepAttached (s.elem i).definition c.definition).eyes then e.attach (some i)
            else if j ∈ (s.elem i).definition.eyes then e.attach none else e)
      ∧ pointsDerived ((s.elem i).definition.outputs
          ++ (keepAttached (s.elem i).definition c.definition).outputs) s t
      ∧ sameButRecords (s.replied p k tag (accepted [1])) t := by
  have hdisp : dispositionOf (s.elem i) c.definition = .amended := dispositionOf_amended h.known h1 h2
  have htake := takeChange_amended (i := i) (u := s.entered p k tag) (by rw [entered_elem]; exact hdisp)
  have hpts : pointsDerived ((s.elem i).definition.outputs ++ c.definition.outputs) (s.entered p k tag)
      (takeChange i c.definition (s.entered p k tag)) := by
    have hp := pointsDerived_redefine (i := i) (new := c.definition) (u := s.entered p k tag)
      (v := (amendChuteOf i (s.entered p k tag)).mapElem i Element.amended) (amendChuteOf_ring _ _)
    rw [elem_unproven_self, Element.amended_definition, entered_elem] at hp
    rwa [htake]
  obtain ⟨t, ht, helem, hpts, hsame⟩ := exec_of_records cmd h.order hroom hp
    (h.effect.trans (changeElement_of_none h.fits)) (sameButRecords.takeChange _ _ _) hpts
  rw [hdisp] at hsame
  refine ⟨t, ht, ?self, fun j hj => ?others, by rwa [outputs_keepAttached], hsame⟩
  case self =>
    rw [helem, htake, redefine_records, elem_installDefinition_self, elem_unproven_self, Element.amended_definition,
      entered_elem]
  case others =>
    rw [helem, htake, redefine_records, elem_installDefinition_ne hj, elem_unproven_ne hj, elem_unproven_self,
      Element.amended_definition, eyes_keepAttached, entered_sensorDef, entered_elem, entered_elem]

/-- A STAGED order, whichever of the two brings it (R58). -/
theorem exec_staged (h : Changes s p k tag i c cmd eff) (hroom : s.room p) (hp : fromStation p = true)
    (htesting : (s.elem i).state = .testing) :
    exec cmd s = .next ((s.replied p k tag (accepted [2])).mapElem i fun e =>
      { e with staged := some c.definition }) := by
  have hdisp := dispositionOf_staged h.known htesting
  refine h.order.trans (next_congr ?_)
  refine (takeOrder_mapTable (l := [2]) (f := fun t => { t with
    records := t.records.set {} i { s.elem i with staged := some c.definition } }) hroom hp ?_).trans ?_
  · rw [h.effect, changeElement_of_none h.fits, hdisp, takeChange_staged (by rw [entered_elem]; exact hdisp),
      State.mapElem, entered_elem]
    rfl
  · cases p <;> rfl

theorem kind_amendCandidate (base : Definition) (mask : Nat) (b : List Byte) :
    (amendCandidate base mask b).definition.kind = base.kind := by cases base <;> rfl

theorem kind_ne_none {d : Definition} (h : d ≠ .none) : d.kind ≠ .none := by
  cases d with
  | none => exact absurd rfl h
  | chute _ | sensor _ | drive _ => intro hk; cases hk

theorem changes_amend {mask : Nat} {b : List Byte} (hi : ¬ 1023 < i)
    (hmode : ¬ amendBadMode (s.amendBase i) mask b = true) (hstate : (s.elem i).state ≠ .empty)
    (hbase : s.amendBase i ≠ .none) (hfit : s.candidateFault i (amendCandidate (s.amendBase i) mask b) = none) :
    Changes s p 0x02 tag i (amendCandidate (s.amendBase i) mask b) (.amendElement p tag i mask b)
      (amendEffect i mask b) where
  order := rfl
  effect := by
    rw [amendEffect, if_neg hi, entered_amendBase, if_neg hmode, entered_elem, if_neg hstate]
  fits := hfit
  known := by rw [kind_amendCandidate]; exact kind_ne_none hbase

theorem changes_define {kind : Kind} {b : List Byte} (hi : i ≤ 1023) (hk : kind ≠ .none)
    (hmode : kind = .sensor → (blockMode b).isSome = true)
    (hfit : s.candidateFault i (defineCandidate (s.elem i).definition kind b) = none) :
    Changes s p 0x01 tag i (defineCandidate (s.elem i).definition kind b) (.defineElement p tag i kind b)
      (defineEffect i kind b) where
  order := rfl
  effect := defineEffect_of_fit (fun ⟨hs, hb⟩ => by simpa [hb] using hmode hs) (by omega)
  fits := hfit
  known := by rw [kind_defineCandidate]; exact hk

end Amendments

/-- Settles O17: the checks of R55, and with none the record, its eyes and its chute as `takeChange` leaves them. -/
theorem amendElementAmends : Obligations.AmendElementAmends := by
  intro p tag i s hp hroom hcan
  dsimp only
  refine ⟨fun mask block => ?amend, fun kind block hi h1 h2 hk hmode hfit => ?define⟩
  case define =>
    exact exec_amended (changes_define hi hk hmode ((candidateFault_none_iff hcan i _).2 hfit)) hroom hp h1 h2
  case amend =>
    refine exec_decided (.amendElement p tag i mask block) rfl hroom hp ((decidedBy_append _ _ _ _).2
      ⟨fun h => refusesWith (if_pos h), fun hi => ⟨fun h => refusesWith ?_, fun hmode => ⟨fun h => refusesWith ?_,
        fun hstate => change_decided hcan (c := amendCandidate (s.amendBase i) mask block) ?_
          fun hfit htest hold => ?_⟩⟩⟩)
    · rw [amendEffect, if_neg hi, entered_amendBase]
      exact if_pos h
    · rw [amendEffect, if_neg hi, entered_amendBase, entered_elem]
      exact (if_neg hmode).trans (if_pos h)
    · rw [amendEffect, if_neg hi, entered_amendBase, entered_elem]
      exact (if_neg hmode).trans (if_neg hstate)
    · have hbase : s.amendBase i = (s.elem i).definition := if_neg htest
      have hmode' : ¬ amendBadMode (s.amendBase i) mask block = true := hmode
      have h := changes_amend (p := p) (tag := tag) hi hmode' hstate (by rwa [hbase]) hfit
      rw [hbase] at h
      exact exec_amended h hroom hp hstate htest

/-- Settles O18: of a TESTING element the candidate is staged, by either order. -/
theorem changeOfTestingElementIsStaged : Obligations.ChangeOfTestingElementIsStaged := by
  intro p tag i s hp hroom hcan hi htest
  dsimp only
  refine ⟨fun kind block hk hmode hfit => ?define, fun mask block hbase hmode hfit => ?amend⟩
  case define =>
    exact exec_staged (changes_define hi hk hmode ((candidateFault_none_iff hcan i _).2 hfit)) hroom hp htest
  case amend =>
    have hb : s.amendBase i = (s.elem i).staged.getD (s.elem i).definition := if_pos htest
    rw [← hb] at hbase hmode hfit ⊢
    exact exec_staged (changes_amend (by omega) (by rw [hmode]; exact Bool.false_ne_true) (by rw [htest]; exact nofun)
      hbase ((candidateFault_none_iff hcan i _).2 hfit)) hroom hp htest

end Sys2Proof.Machine

/-! PROOFS. The check of the paused contexts where none of them can start: each of them records its first failing
condition, and nothing else changes (R94, R96). -/

namespace Sys2Proof.Machine

open Sys2Proof

section Checks

variable {s t : State}

/-- `t` is `s` but for the pause reasons of contexts and the owed check. -/
structure SameButReasons (s t : State) : Prop where
  frame : t = { s with engine := { s.engine with contexts := t.engine.contexts, checkOwed := t.engine.checkOwed } }
  reasons : ∀ c, ∃ r, t.ctx c = { s.ctx c with reason := r }

theorem SameButReasons.payCheck (s : State) : SameButReasons s s.payCheck := ⟨rfl, fun c => ⟨(s.ctx c).reason, rfl⟩⟩

theorem SameButReasons.setReason (h : SameButReasons s t) (c : Nat) (r : PauseReason) :
    SameButReasons s (t.setCtx c { t.ctx c with reason := r }) where
  frame := by
    conv_lhs => rw [h.frame]
    rfl
  reasons d := by
    by_cases hd : d = c
    · obtain ⟨r', hr⟩ := h.reasons c
      subst hd
      exact ⟨r, by rw [ctx_setCtx_self, hr]⟩
    · rw [ctx_setCtx_ne t _ hd]
      exact h.reasons d

/-- No condition of R94 looks at a pause reason. -/
theorem SameButReasons.firstFail (h : SameButReasons s t) (x : Context) (r : PauseReason) :
    t.firstFail { x with reason := r } = s.firstFail x := by
  have hphase : ∀ c, (t.ctx c).phase = (s.ctx c).phase := fun c => by obtain ⟨_, hr⟩ := h.reasons c; rw [hr]
  have hallow : ∀ c, (t.ctx c).allowance = (s.ctx c).allowance := fun c => by obtain ⟨_, hr⟩ := h.reasons c; rw [hr]
  have hdrives : t.countedDrives = s.countedDrives := by simp only [State.countedDrives, hphase]
  have hpool : t.available = s.available := by simp only [State.available, hallow]
  have htime : t.time = s.time := by rw [h.frame]
  have hstop : t.engine.stop = s.engine.stop := by rw [h.frame]
  have hring : t.engine.ring = s.engine.ring := by rw [h.frame]
  have htrack : t.engine.track = s.engine.track := by rw [h.frame]
  have hmoving : t.engine.moving = s.engine.moving := by rw [h.frame]
  have hlimit : t.engine.limit = s.engine.limit := by rw [h.frame]
  have hk : ∀ k, t.holds { x with reason := r } k = s.holds x k := fun k => by
    cases k <;> simp only [State.holds, hdrives, hpool, htime, hstop, hring, htrack, hmoving, hlimit]
  simp only [State.firstFail, hk]

/-- What a check records for context `c` where it cannot start it. -/
def State.failOf (s : State) (c : Nat) : PauseReason := (s.firstFail (s.ctx c)).getD .none

/-- No context that is PAUSED can start. -/
def State.stuck (s : State) : Prop := ∀ c < 16, (s.ctx c).state = .paused → s.firstFail (s.ctx c) ≠ none

/-- The examination of one context of a stuck state, after those of others. -/
theorem examineCtx_stuck (h : SameButReasons s t) (hs : s.stuck) {c : Nat} (hc : c < 16) (hself : t.ctx c = s.ctx c) :
    SameButReasons s (examineCtx c t) ∧ (examineCtx c t).engine.checkOwed = t.engine.checkOwed
      ∧ ∀ d, (examineCtx c t).ctx d = if d = c then (s.ctx c).halt (s.failOf c) else t.ctx d := by
  by_cases hp : (s.ctx c).state = .paused
  · obtain ⟨r, hr⟩ := Option.ne_none_iff_exists'.1 (hs c hc hp)
    have hf : t.firstFail (t.ctx c) = some r := by
      obtain ⟨r', hr'⟩ := h.reasons c
      rw [hr', h.firstFail, hr]
    have he : examineCtx c t = t.setCtx c { t.ctx c with reason := r } := by
      rw [examineCtx, hself, if_pos hp, ← hself, hf]
    rw [he]
    refine ⟨h.setReason c r, rfl, fun d => ?_⟩
    rw [ctx_setCtx, hself, Context.halt, if_pos hp, State.failOf, hr]
    rfl
  · have he : examineCtx c t = t := by rw [examineCtx, hself, if_neg hp]
    rw [he]
    refine ⟨h, rfl, fun d => ?_⟩
    by_cases hd : d = c
    · rw [if_pos hd, hd, hself, Context.halt, if_neg hp]
    · rw [if_neg hd]

/-- A pass over a stuck state records each reason and starts nothing. -/
theorem checkPass_stuck (hs : s.stuck) :
    SameButReasons s (checkPass s) ∧ (checkPass s).engine.checkOwed = false
      ∧ ∀ c, (checkPass s).ctx c = if c < 16 then (s.ctx c).halt (s.failOf c) else s.ctx c := by
  have key : ∀ (l : List Nat), l.Nodup → (∀ c ∈ l, c < 16) → ∀ t, SameButReasons s t → t.engine.checkOwed = false →
      (∀ c ∈ l, t.ctx c = s.ctx c) →
      let u := l.foldl (fun s c => if s.engine.checkOwed then s else examineCtx c s) t
      SameButReasons s u ∧ u.engine.checkOwed = false
        ∧ ∀ c, u.ctx c = if c ∈ l then (s.ctx c).halt (s.failOf c) else t.ctx c := by
    intro l
    induction l with
    | nil => exact fun _ _ t h ho _ => ⟨h, ho, fun c => (if_neg List.not_mem_nil).symm⟩
    | cons a l ih =>
      intro hn hl t h ho ht
      obtain ⟨hal, hn⟩ := List.nodup_cons.1 hn
      obtain ⟨h1, ho1, hc1⟩ := examineCtx_stuck h hs (hl a (by simp)) (ht a (by simp))
      have hne : ∀ c ∈ l, c ≠ a := fun c hc he => hal (he ▸ hc)
      obtain ⟨h2, ho2, hc2⟩ := ih hn (fun c hc => hl c (by simp [hc])) _ h1 (ho1.trans ho)
        (fun c hc => by rw [hc1, if_neg (hne c hc)]; exact ht c (by simp [hc]))
      dsimp only
      rw [List.foldl_cons, ho]
      refine ⟨h2, ho2, fun c => (hc2 c).trans ?_⟩
      rw [hc1]
      by_cases hc : c = a
      · subst hc; simp [hal]
      · simp [hc]
  obtain ⟨h, ho, hc⟩ := key ctxNumbers List.nodup_range (fun c hc => by simpa [ctxNumbers] using hc) s.payCheck
    (SameButReasons.payCheck s) rfl fun _ _ => rfl
  refine ⟨h, ho, fun c => (hc c).trans ?_⟩
  simp only [ctxNumbers, List.mem_range]
  rfl

/-- A check of a stuck state is one pass. -/
theorem check_stuck (hs : s.stuck) : check s = checkPass s := by
  rw [check, checkLoop, (checkPass_stuck hs).2.1]
  rfl

theorem ctx_check_stuck (hs : s.stuck) (c : Nat) :
    (check s).ctx c = if c < 16 then (s.ctx c).halt (s.failOf c) else s.ctx c := by
  rw [check_stuck hs, (checkPass_stuck hs).2.2]

theorem check_stuck_eq (hs : s.stuck) :
    check s = { s with engine := { s.engine with contexts := (check s).engine.contexts, checkOwed := false } } := by
  have h := (checkPass_stuck hs).1.frame
  rw [(checkPass_stuck hs).2.1] at h
  rw [check_stuck hs]
  exact h

/-! ### Halted states (R94) -/

/-- Machine Stop is asserted, or the ring is not GOOD: nothing can start. -/
def State.barred (s : State) : Prop := s.engine.stop = true ∨ s.engine.ring ≠ .good

theorem firstFail_of_barred (h : s.barred) (x : Context) : s.firstFail x = some s.haltReason := by
  unfold State.firstFail State.haltReason startOrder
  cases hs : s.engine.stop with
  | true => simp [State.holds, hs]
  | false =>
    have hr : s.engine.ring ≠ .good := h.resolve_left (by simp [hs])
    simp [State.holds, hs, hr]

theorem stuck_of_barred (h : s.barred) : s.stuck := fun c _ _ => by
  rw [firstFail_of_barred h]; exact Option.some_ne_none _

theorem failOf_of_barred (h : s.barred) (c : Nat) : s.failOf c = s.haltReason := by
  rw [State.failOf, firstFail_of_barred h]; rfl

theorem ctx_check_barred (h : s.barred) (c : Nat) :
    (check s).ctx c = if c < 16 then (s.ctx c).halt s.haltReason else s.ctx c := by
  rw [ctx_check_stuck (stuck_of_barred h), failOf_of_barred h]

@[simp] theorem Context.halt_halt (r : PauseReason) (x : Context) : (x.halt r).halt r = x.halt r := by
  unfold Context.halt
  split
  · rename_i h; simp [h]
  · rename_i h; simp

theorem Context.halt_state (r : PauseReason) (x : Context) : (x.halt r).state = x.state := by
  unfold Context.halt
  split <;> rfl

theorem Context.halt_of_paused {r : PauseReason} {x : Context} (h : x.state = .paused) :
    x.halt r = { x with reason := r } := if_pos h

theorem Context.halt_of_not_paused {r : PauseReason} {x : Context} (h : x.state ≠ .paused) : x.halt r = x := if_neg h

end Checks

/-- Settles O47: a check of a halted state is one pass that records the one reason. -/
theorem haltedChecksRecordReasons : Obligations.HaltedChecksRecordReasons := by
  intro s ⟨ho, h⟩
  refine ⟨fun c hc => by rw [ctx_check_barred h, if_pos hc], ?_⟩
  have he := check_stuck_eq (stuck_of_barred h)
  rw [← ho] at he
  exact he

end Sys2Proof.Machine

/-! PROOFS. Stimulus requests and their cancellation point by point (R45, R47), the end of a trial block by block
(R102), and the outcome that brings it (R97 to R99). -/

namespace Sys2Proof.Machine

open Sys2Proof

/-! ### Stimulus records (R45, R47) -/

/-- `t` is `s` but for the stimulus records of output points. -/
def sameButStimuli (s t : State) : Prop := t = { s with ring := { s.ring with stimuli := t.ring.stimuli } }

section Stimuli

variable {s t : State} (c pt : Nat)

theorem sameButStimuli.refl (s : State) : sameButStimuli s s := rfl

theorem sameButStimuli.trans {u : State} (h1 : sameButStimuli s t) (h2 : sameButStimuli t u) : sameButStimuli s u := by
  unfold sameButStimuli at h1 h2 ⊢
  rw [h1] at h2
  exact h2

theorem sameButStimuli.set (s : State) (pt : Nat) (r : Option Stimulus) : sameButStimuli s (s.setStimulus pt r) := rfl

theorem sameButStimuli.source (h : sameButStimuli s t) (pt : Nat) : t.source pt = s.source pt := by
  rw [show t = _ from h]; rfl

theorem sameButStimuli.lost (h : sameButStimuli s t) : t.ring.state = s.ring.state := by rw [show t = _ from h]

theorem sameButStimuli.testPoints (h : sameButStimuli s t) (c : Nat) : t.testPoints c = s.testPoints c := by
  rw [show t = _ from h]; rfl

theorem sameButStimuli_request (ch : StimChange) (s : State) : sameButStimuli s (requestStimulus c pt ch s).1 := by
  rcases requestStimulus_cases c pt ch s with h | ⟨r, -, -, -, h⟩
  · rw [h]; exact .refl s
  · rw [h]; exact .set s pt _

theorem sameButStimuli_askInactive (pts : List Nat) (s : State) : sameButStimuli s (askInactive c pts s).1 :=
  foldl_keeps_fst (β := List Nat) (P := sameButStimuli s)
    (fun a pt ha => ha.trans (sameButStimuli_request c pt _ a.1)) pts (s, []) (.refl s)

theorem sameButStimuli_clearAwaited (s : State) : sameButStimuli s (clearAwaited s pt) := by
  unfold clearAwaited
  split
  · exact .set s pt _
  · exact .refl s

theorem sameButStimuli_cancelAwaited (s : State) : sameButStimuli s (cancelAwaited c s) :=
  foldl_keeps (P := sameButStimuli s) (fun u pt hu => hu.trans (sameButStimuli_clearAwaited pt u)) _ s (.refl s)

/-- A record with its awaited change replaced. -/
def Stimulus.await (a : Option (Nat × StimChange)) (r : Stimulus) : Stimulus := { r with awaited := a }

theorem stimulus_setStimulus (s : State) (pt q : Nat) (r : Option Stimulus) :
    (s.setStimulus pt r).stimulus q = if q = pt then r else s.stimulus q := by
  by_cases h : q = pt
  · subst h; rw [stimulus_setStimulus_self, if_pos rfl]
  · rw [stimulus_setStimulus_ne s _ h, if_neg h]

theorem stimulus_clearAwaited (s : State) (q : Nat) :
    (clearAwaited s pt).stimulus q = if q = pt then (s.stimulus q).map (·.await none) else s.stimulus q := by
  unfold clearAwaited
  split
  · rename_i r hr
    rw [stimulus_setStimulus]
    by_cases h : q = pt
    · rw [if_pos h, if_pos h, h, hr]; rfl
    · rw [if_neg h, if_neg h]
  · rename_i hn
    by_cases h : q = pt
    · rw [if_pos h, h, hn]; rfl
    · rw [if_neg h]

/-- The records after the clearing of several points. -/
theorem stimulus_clearEach (pts : List Nat) (s : State) (q : Nat) :
    (pts.foldl clearAwaited s).stimulus q = if q ∈ pts then (s.stimulus q).map (·.await none) else s.stimulus q := by
  induction pts generalizing s with
  | nil => rfl
  | cons pt l ih =>
    rw [List.foldl_cons, ih, stimulus_clearAwaited]
    by_cases hq : q = pt
    · subst hq
      cases s.stimulus q <;> simp [Stimulus.await]
    · simp [hq]

/-- What a request for a level or pulse makes of the points' records. -/
theorem stimulus_request (ch : StimChange) (s : State) (q : Nat) :
    (requestStimulus c pt ch s).1.stimulus q
      = if q = pt ∧ s.ring.state ≠ .lost ∧ s.source q = .test c then (s.stimulus q).map (·.await (some (c, ch)))
        else s.stimulus q := by
  rcases requestStimulus_cases c pt ch s with h | ⟨r, hr, hl, hs, h⟩
  · rw [h]
    split
    · rename_i hq
      obtain ⟨rfl, hl, hs⟩ := hq
      cases hr : s.stimulus q with
      | none => rfl
      | some r =>
        rw [requestStimulus_taken ch hl hs hr] at h
        cases congrArg Prod.snd h
    · rfl
  · rw [h]
    dsimp only
    rw [stimulus_setStimulus]
    by_cases hq : q = pt
    · subst hq
      rw [if_pos rfl, if_pos ⟨rfl, hl, hs⟩, hr]; rfl
    · rw [if_neg hq, if_neg fun h => hq h.1]

/-- The records after INACTIVE has been asked for on several points. -/
theorem stimulus_askInactive (pts : List Nat) (s : State) (q : Nat) :
    (askInactive c pts s).1.stimulus q
      = if q ∈ pts ∧ s.ring.state ≠ .lost ∧ s.source q = .test c then
          (s.stimulus q).map (·.await (some (c, .level .inactive)))
        else s.stimulus q := by
  have key : ∀ (l : List Nat) (u : State × List Nat), u.1.ring.state = s.ring.state → u.1.source q = s.source q →
      (l.foldl (fun acc pt =>
          let r := requestStimulus c pt (.level .inactive) acc.1
          (r.1, if r.2 then acc.2 ++ [pt] else acc.2)) u).1.stimulus q
        = if q ∈ l ∧ s.ring.state ≠ .lost ∧ s.source q = .test c then
            (u.1.stimulus q).map (·.await (some (c, .level .inactive)))
          else u.1.stimulus q := by
    intro l
    induction l with
    | nil => intro u _ _; simp
    | cons pt l ih =>
      intro u hl hs
      have hsame := sameButStimuli_request c pt (.level .inactive) u.1
      rw [List.foldl_cons, ih _ (hsame.lost.trans hl) ((hsame.source q).trans hs)]
      dsimp only
      rw [stimulus_request, hl, hs]
      by_cases hq : q = pt <;> by_cases hc : s.ring.state ≠ .lost ∧ s.source q = .test c
      · subst hq
        cases u.1.stimulus q <;> simp [hc, Stimulus.await]
      · simp [hc]
      · simp [hq, hc]
      · simp [hc]
  exact key pts (s, []) rfl rfl

/-- The TEST points of a context of a canonical state are those with that source (R42). -/
theorem mem_testPoints (h : s.canonical = true) : pt ∈ s.testPoints c ↔ s.source pt = .test c := by
  have hany := Table.any_iff ((canonical_iff s).1 h).sources (fun i v => decide (i = pt) && decide (v = .test c))
    (fun i => by simp)
  unfold State.testPoints
  rw [List.mem_map]
  constructor
  · rintro ⟨e, he, rfl⟩
    obtain ⟨hm, hv⟩ := List.mem_filter.1 he
    obtain ⟨i, hi⟩ := hany.1 (List.any_eq_true.2 ⟨e, hm, by simpa using hv⟩)
    simp only [Bool.and_eq_true, decide_eq_true_eq] at hi
    rw [← hi.1]
    exact hi.2
  · intro hs
    obtain ⟨e, he, hv⟩ := List.any_eq_true.1 (hany.2 ⟨pt, by simpa [State.source] using hs⟩)
    simp only [Bool.and_eq_true, decide_eq_true_eq] at hv
    exact ⟨e, List.mem_filter.2 ⟨he, by simp [hv.2]⟩, hv.1⟩

end Stimuli

/-! ### The end of a trial, block by block (R102) -/

section TrialEnd

variable (c : Nat) (o : Option TrialOutcome) (s : State)

/-- The map after the end of a trial: a carrier in flight is FREE after a PASS (R102 step 7). -/
def State.mapAfter (s : State) (x : Context) (o : Option TrialOutcome) : Table Reservation :=
  (settleCarrier x o s).engine.carriers

theorem settleCarrier_eq (x : Context) :
    settleCarrier x o s = { s with engine := { s.engine with carriers := s.mapAfter x o } } := by
  unfold State.mapAfter settleCarrier
  split
  · split <;> rfl
  · rfl

theorem mapAfter_congr {s t : State} (h : t.engine.carriers = s.engine.carriers) (x : Context) :
    t.mapAfter x o = s.mapAfter x o := by
  unfold State.mapAfter settleCarrier
  cases x.inFlight with
  | none => exact h
  | some k =>
    dsimp only
    split
    · exact congrArg (fun l => Table.set .free l k .free) h
    · exact h

theorem carrier_mapAfter (x : Context) (k : Nat) :
    Table.get .free (s.mapAfter x o) k = if x.inFlight = some k ∧ o = some .pass then .free else s.carrier k := by
  unfold State.mapAfter settleCarrier
  cases hf : x.inFlight with
  | none => simp; rfl
  | some j =>
    dsimp only
    by_cases ho : o = some .pass
    · rw [if_pos ho]
      by_cases hk : k = j
      · subst hk; simp [ho]; exact carrier_setCarrier_self s k .free
      · rw [if_neg (by simpa using fun h => absurd h.symm hk)]
        exact carrier_setCarrier_ne s .free hk
    · rw [if_neg ho, if_neg fun h => ho h.2]
      rfl

/-- The end of a trial, block by block. -/
theorem endTrial_eq :
    endTrial c o s =
      { s with
        sched := { s.sched with cues := s.sched.cues.filter fun u => decide (u.ctx ≠ c) }
        monitor := s.monitor.endCtx c
        ring := { s.ring with stimuli := (endTrial c o s).ring.stimuli }
        drives :=
          { s.drives with
            scanSet := s.drives.scanSet.filter fun ch => decide (s.ctxCurrent (s.ctx c) ≠ some ch) }
        engine :=
          { s.engine with
            contexts := Table.set {} s.engine.contexts c (endedContext (s.ctx c) o (s.restAfter (s.ctx c)))
            carriers := s.mapAfter (s.ctx c) o, checkOwed := true } } := by
  have h := (sameButStimuli_cancelAwaited c ((s.mapSched fun q =>
      { q with cues := q.cues.filter fun u => decide (u.ctx ≠ c) }).mapMonitor fun m => m.endCtx c)).trans
    (sameButStimuli_askInactive c ((cancelAwaited c ((s.mapSched fun q =>
      { q with cues := q.cues.filter fun u => decide (u.ctx ≠ c) }).mapMonitor fun m => m.endCtx c)).activePoints c) _)
  unfold endTrial
  extract_lets x s1 s2 s3 s4 s5 s6
  have h4 : s4 = { s2 with ring := { s2.ring with stimuli := s4.ring.stimuli } } := h
  clear_value s4
  generalize s4.ring.stimuli = g at h4
  have h5 : s5 = { s4 with drives := { s4.drives with
      scanSet := s4.drives.scanSet.filter fun ch => decide (s.ctxCurrent x ≠ some ch) } } := by
    have hcur : s4.ctxCurrent x = s.ctxCurrent x := by rw [h4]; rfl
    show (match s4.ctxCurrent x with | some ch => _ | none => _) = _
    rw [hcur]
    cases s.ctxCurrent x with
    | none => simp
    | some ch => simp only [ne_eq, Option.some.injEq, eq_comm]; rfl
  clear_value s5
  have h6 : s6 = { s5 with engine := { s5.engine with carriers := s.mapAfter x o } } := by
    show settleCarrier x o s5 = _
    rw [settleCarrier_eq, mapAfter_congr o (t := s5) (s := s) (by rw [h5, h4]; rfl)]
  clear_value s6
  have hrest : s6.restAfter x = s.restAfter x := by rw [h6, h5, h4]; rfl
  rw [hrest, h6, h5, h4]
  rfl

theorem ctx_endTrial (d : Nat) :
    (endTrial c o s).ctx d = if d = c then endedContext (s.ctx c) o (s.restAfter (s.ctx c)) else s.ctx d := by
  rw [endTrial_eq]
  exact ctx_setCtx s c d _

/-- The records that the end of a trial leaves: no change is awaited on a TEST point of the context, and INACTIVE is
asked of each that is ACTIVE (R102 steps 3 and 4). -/
theorem stimulus_endTrial (h : s.canonical = true) (pt : Nat) :
    (endTrial c o s).stimulus pt
      = if s.source pt = .test c then
          (s.stimulus pt).map fun r =>
            r.await (if r.value = .active ∧ s.ring.state ≠ .lost then some (c, .level .inactive) else none)
        else s.stimulus pt := by
  have hcancel := sameButStimuli_cancelAwaited c ((s.mapSched fun q =>
      { q with cues := q.cues.filter fun u => decide (u.ctx ≠ c) }).mapMonitor fun m => m.endCtx c)
  unfold endTrial
  extract_lets x s1 s2 s3 s4 s5 s6
  have h3 : sameButStimuli s2 s3 := hcancel
  have hring : (((s6.setCtx c (endedContext x o (s6.restAfter x))).oweCheck).stimulus pt) = s4.stimulus pt := by
    have h6 : s6 = _ := settleCarrier_eq o s5 x
    have h5 : s5.ring = s4.ring := by
      show (match s4.ctxCurrent x with | some ch => _ | none => _ : State).ring = _
      split <;> rfl
    show Table.get none s6.ring.stimuli pt = _
    rw [h6]
    show Table.get none s5.ring.stimuli pt = _
    rw [h5]
    rfl
  have htest : ∀ q, q ∈ s2.testPoints c ↔ s.source q = .test c := fun q => mem_testPoints (s := s) c q h
  have hcleared : ∀ q, s3.stimulus q = if s.source q = .test c then (s.stimulus q).map (·.await none) else s.stimulus q :=
    fun q => by
      show (cancelAwaited c s2).stimulus q = _
      rw [cancelAwaited, stimulus_clearEach]
      simp only [htest]
      rfl
  rw [hring]
  show (askInactive c (s3.activePoints c) s3).1.stimulus pt = _
  rw [stimulus_askInactive, h3.lost, h3.source]
  have hact : pt ∈ s3.activePoints c ↔ s.source pt = .test c ∧ ∃ r, s.stimulus pt = some r ∧ r.value = .active := by
    rw [State.activePoints, List.mem_filter, h3.testPoints, htest]
    refine and_congr_right fun hs => ?_
    rw [State.stimActive, hcleared, if_pos hs]
    cases s.stimulus pt <;> simp [Stimulus.await]
  rw [hcleared]
  by_cases hs : s.source pt = .test c
  · rw [if_pos hs, if_pos hs]
    cases hr : s.stimulus pt with
    | none => simp
    | some r =>
      have hs2 : s2.source pt = .test c := hs
      by_cases hv : r.value = .active ∧ s.ring.state ≠ .lost
      · rw [if_pos ⟨hact.2 ⟨hs, r, hr, hv.1⟩, hv.2, hs2⟩]
        simp [hv, Stimulus.await]
      · rw [if_neg]
        · simp [hv]
        · rintro ⟨hm, hl, -⟩
          obtain ⟨-, r', hr', hv'⟩ := hact.1 hm
          rw [hr] at hr'
          cases hr'
          exact hv ⟨hv', hl⟩
  · rw [if_neg hs, if_neg hs, if_neg fun hm => hs (hact.1 hm.1).1]

end TrialEnd

/-! ### Outcomes (R97 to R99) -/

section Outcomes

theorem pushNotice_eq (p : Port) (k : Nat) (b : List Byte) (s : State) :
    pushNotice p k b s = { s with links := (pushNotice p k b s).links } := rfl

theorem pushNotice_links {s t : State} (h : t.links = s.links) (p : Port) (k : Nat) (b : List Byte) :
    (pushNotice p k b t).links = (pushNotice p k b s).links := by
  cases p <;> simp only [pushNotice, State.mapLink, mapLinks_links, h]

variable (c : Nat) (o : TrialOutcome) (d : Option Int) (s : State)

/-- The record of an outcome that is taken now. -/
def State.outcomeRecord (s : State) (o : TrialOutcome) (d : Option Int) : OutcomeRecord :=
  { outcome := o, deviation := d, time := s.time }

/-- The context after an outcome is counted, before the decision on its proof (R97, R98, R102). -/
def State.counted (s : State) (c : Nat) (o : TrialOutcome) (d : Option Int) : Context :=
  countOutcome
    { endedContext (s.ctx c) (some o) (s.restAfter (s.ctx c)) with
      history := pushTail 8 (s.ctx c).history (s.outcomeRecord o d) } o d

/-- The state after an outcome is counted and noticed, before the decision on the proof. -/
def State.outcomeTaken (s : State) (c : Nat) (o : TrialOutcome) (d : Option Int) : State :=
  let t := (endTrial c (some o) s).setCtx c (s.counted c o d)
  if (s.counted c o d).notice then
    pushNotice (stationPort (s.counted c o d).owner) 0x61
      (outcomeNotice c (s.counted c o d) (s.outcomeRecord o d) (noticeDwell (s.ctx c) o)) t
  else t

theorem takeOutcome_eq (h : (s.ctx c).state = .running) :
    takeOutcome c o d s =
      match decideProof (s.counted c o d) o with
      | some (r, cause) => enterClosing c r cause (s.outcomeTaken c o d)
      | none => ((s.outcomeTaken c o d).mapCtx c fun z => { z with state := .paused, reason := .none }).oweCheck := by
  have htime : (endTrial c (some o) s).time = s.time := by rw [endTrial_eq]
  have hctx := ctx_endTrial c (some o) s c
  rw [if_pos rfl] at hctx
  unfold takeOutcome
  extract_lets x s1 rec1 s2 y s3
  rw [if_neg (not_not.2 h)]
  have hrec : rec1 = s.outcomeRecord o d := by rw [State.outcomeRecord, ← htime]
  have h2 : s2 = s1.setCtx c (s.counted c o d) := by
    show s1.setCtx c (countOutcome { s1.ctx c with history := pushTail 8 (s1.ctx c).history rec1 } o d) = _
    rw [show s1.ctx c = _ from hctx, hrec]
    rfl
  have hy : y = s.counted c o d := by
    show s2.ctx c = _
    rw [h2, ctx_setCtx_self]
  have h3 : s3 = s.outcomeTaken c o d := by
    show (if y.notice then pushNotice (stationPort y.owner) 0x61 (outcomeNotice c y rec1 (noticeDwell x o)) s2 else s2) = _
    rw [hy, h2, hrec]
    rfl
  rw [h3, hy] <;> rfl

end Outcomes

end Sys2Proof.Machine

/-! PROOFS. What an outcome leaves, block by block (R97 to R102). -/

namespace Sys2Proof.Machine

open Sys2Proof

section Counting

variable (x : Context) (o : TrialOutcome) (d : Option Int)

/-- Counting touches the counts alone. -/
theorem countOutcome_eq :
    countOutcome x o d =
      { x with
        trials := (countOutcome x o d).trials, streak := (countOutcome x o d).streak
        fails := (countOutcome x o d).fails, voids := (countOutcome x o d).voids
        limitVoids := (countOutcome x o d).limitVoids, worst := (countOutcome x o d).worst } := by
  cases o with
  | pass => rfl
  | fail _ => rfl
  | void cause => cases cause <;> rfl

/-- The context after an outcome: the counts of R98, and the end of the trial (R102). -/
theorem counted_eq (c : Nat) (s : State) :
    s.counted c o d =
      { countOutcome (s.ctx c) o d with
        cueHeld := false, allowance := 0, phase := .none, trial := .none, inFlight := none
        restEnd := (endedContext (s.ctx c) (some o) (s.restAfter (s.ctx c))).restEnd
        lastSuspect := (endedContext (s.ctx c) (some o) (s.restAfter (s.ctx c))).lastSuspect
        articles := (endedContext (s.ctx c) (some o) (s.restAfter (s.ctx c))).articles
        history := pushTail 8 (s.ctx c).history (s.outcomeRecord o d) } := by
  unfold State.counted
  cases o with
  | pass => rfl
  | fail _ => rfl
  | void cause => cases cause <;> rfl

theorem decideProof_counted (c : Nat) (s : State) :
    decideProof (s.counted c o d) o = decideProof (countOutcome (s.ctx c) o d) o := by
  rw [counted_eq]
  cases o <;> rfl

theorem rotate_eq (l : List Nat) : rotate l = l.drop 1 ++ l.take 1 := by
  cases l <;> simp [rotate]

end Counting

section OutcomeTaken

variable (c : Nat) (o : TrialOutcome) (d : Option Int) (s : State)

/-- The state with the Trial Outcome notice of context `c`, where its flag is set (R97 step 4). -/
def State.outcomeTold (s : State) (c : Nat) (o : TrialOutcome) (d : Option Int) : State :=
  if (s.ctx c).notice then
    pushNotice (stationPort (s.ctx c).owner) 0x61
      (outcomeNotice c (s.counted c o d) (s.outcomeRecord o d) (noticeDwell (s.ctx c) o)) s
  else s

/-- The state after an outcome is counted and noticed, block by block. -/
theorem outcomeTaken_eq :
    s.outcomeTaken c o d =
      { endTrial c (some o) s with
        engine :=
          { (endTrial c (some o) s).engine with
            contexts := Table.set {} (endTrial c (some o) s).engine.contexts c (s.counted c o d) }
        links := (s.outcomeTold c o d).links } := by
  have hlinks : ((endTrial c (some o) s).setCtx c (s.counted c o d)).links = s.links := by rw [endTrial_eq]; rfl
  have hnotice : (s.counted c o d).notice = (s.ctx c).notice := by rw [counted_eq, countOutcome_eq]
  have howner : (s.counted c o d).owner = (s.ctx c).owner := by rw [counted_eq, countOutcome_eq]
  unfold State.outcomeTaken State.outcomeTold
  rw [hnotice, howner]
  dsimp only
  split
  · rw [pushNotice_eq, pushNotice_links (s := s) hlinks]
    rfl
  · rw [← hlinks]
    rfl

theorem ctx_outcomeTaken (e : Nat) : (s.outcomeTaken c o d).ctx e = if e = c then s.counted c o d else s.ctx e := by
  rw [outcomeTaken_eq]
  show ((endTrial c (some o) s).setCtx c (s.counted c o d)).ctx e = _
  rw [ctx_setCtx, ctx_endTrial]
  split <;> rfl

theorem outcomeTaken_sched :
    (s.outcomeTaken c o d).sched = { s.sched with cues := s.sched.cues.filter fun u => decide (u.ctx ≠ c) } := by
  rw [outcomeTaken_eq, endTrial_eq]

theorem outcomeTaken_monitor : (s.outcomeTaken c o d).monitor = s.monitor.endCtx c := by
  rw [outcomeTaken_eq, endTrial_eq]

theorem outcomeTaken_table : (s.outcomeTaken c o d).table = s.table := by rw [outcomeTaken_eq, endTrial_eq]

theorem outcomeTaken_links : (s.outcomeTaken c o d).links = (s.outcomeTold c o d).links := by rw [outcomeTaken_eq]

theorem outcomeTaken_drives :
    (s.outcomeTaken c o d).drives =
      { s.drives with scanSet := s.drives.scanSet.filter fun ch => decide (s.ctxCurrent (s.ctx c) ≠ some ch) } := by
  rw [outcomeTaken_eq, endTrial_eq]

theorem outcomeTaken_carriers : (s.outcomeTaken c o d).engine.carriers = s.mapAfter (s.ctx c) (some o) := by
  rw [outcomeTaken_eq, endTrial_eq]

theorem outcomeTaken_ring : (s.outcomeTaken c o d).ring = (endTrial c (some o) s).ring := by rw [outcomeTaken_eq]

theorem outcomeTaken_sources : (s.outcomeTaken c o d).ring.sources = s.ring.sources := by
  rw [outcomeTaken_ring, endTrial_eq]

theorem outcomeTaken_steadyPart : (s.outcomeTaken c o d).steadyPart = s.steadyPart := by
  unfold State.outcomeTaken
  have hend := (steady_closed s.steadyPart).endTrial c (some o) s rfl
  dsimp only
  split
  · refine (steady_closed s.steadyPart).notice _ _ _ _ (.inr rfl) hend
  · exact hend

theorem ctx_mapCtx (f : Context → Context) (e : Nat) :
    (s.mapCtx c f).ctx e = if e = c then f (s.ctx c) else s.ctx e := ctx_setCtx s c e (f (s.ctx c))

/-- The proof of context `c` goes on: it is PAUSED, and a check is owed (R99). -/
def State.goesOn (s : State) (c : Nat) : State :=
  (s.mapCtx c fun z => { z with state := .paused, reason := .none }).oweCheck

theorem ctx_goesOn (e : Nat) :
    (s.goesOn c).ctx e = if e = c then { s.ctx c with state := .paused, reason := .none } else s.ctx e :=
  ctx_mapCtx c s (fun z => { z with state := .paused, reason := .none }) e

theorem takeOutcome_of_ends {r : ProofResult} {cause : EndCause} (h : (s.ctx c).state = .running)
    (hd : decideProof (countOutcome (s.ctx c) o d) o = some (r, cause)) :
    takeOutcome c o d s = enterClosing c r cause (s.outcomeTaken c o d) := by
  rw [takeOutcome_eq c o d s h, decideProof_counted, hd]

theorem takeOutcome_of_goesOn (h : (s.ctx c).state = .running)
    (hd : decideProof (countOutcome (s.ctx c) o d) o = none) :
    takeOutcome c o d s = (s.outcomeTaken c o d).goesOn c := by
  rw [takeOutcome_eq c o d s h, decideProof_counted, hd]
  rfl

theorem entriesOf_endCtx (m : Monitor) (e : Nat) :
    (m.endCtx c).entriesOf e = if e = c then [] else m.entriesOf e := by
  unfold Monitor.endCtx Monitor.entriesOf
  rw [← List.filter_append, List.filter_filter]
  split
  · rename_i h
    rw [List.filter_eq_nil_iff]
    rintro a - ha
    simp [h] at ha
  · rename_i h
    refine List.filter_congr fun a _ => ?_
    by_cases ha : a.ctx = e
    · simp [ha, h]
    · simp [ha]

theorem find?_cue_filter_ne (l : List Cue) :
    (l.filter fun u => decide (u.ctx ≠ c)).find? (fun q => decide (q.ctx = c)) = none := by
  rw [List.find?_eq_none]
  intro a ha
  simpa using (List.mem_filter.1 ha).2

end OutcomeTaken

/-- Settles O49: the context from `counted_eq`, every other block from `endTrial_eq`; the decision from
`decideProof_counted`. -/
theorem outcomesEndTrials : Obligations.OutcomesEndTrials := by
  intro c o d s x y noticed drive ended
  have hcur : s.ctxCurrent x = drive.bind (·.current) := by
    show _ = (if x.kind = .drive then s.driveDef x.element else none).bind _
    unfold State.ctxCurrent
    split <;> rfl
  have htold : (s.outcomeTold c o d).links = noticed.links := by
    show (s.outcomeTold c o d).links = (if x.notice then _ else _ : State).links
    unfold State.outcomeTold
    rw [show s.ctx c = x from rfl]
    split
    · congr 2
      rw [counted_eq, countOutcome_eq]
      unfold outcomeNotice outcomeCode noticeDwell State.outcomeRecord
      cases o <;> rfl
    · rfl
  have key : ∀ (u : State) (st : CtxState) (re : PauseReason),
      u = { s.outcomeTaken c o d with
        engine :=
          { (s.outcomeTaken c o d).engine with
            contexts := u.engine.contexts, checkOwed := u.engine.checkOwed } } →
      u.ctx c = { s.counted c o d with state := st, reason := re } → (∀ e, e ≠ c → u.ctx e = s.ctx e) → ended u := by
    intro u st re hu hself hother
    rw [counted_eq] at hself
    have hsched : u.sched = _ := (congrArg State.sched hu).trans (outcomeTaken_sched c o d s)
    have hmonitor : u.monitor = _ := (congrArg State.monitor hu).trans (outcomeTaken_monitor c o d s)
    have hring : u.ring = (s.outcomeTaken c o d).ring := by rw [hu]
    have hcarriers : u.engine.carriers = _ :=
      (congrArg (fun v => v.engine.carriers) hu).trans (outcomeTaken_carriers c o d s)
    refine ⟨by rw [hself], by rw [hself], by rw [hself], by rw [hself], by rw [hself], by rw [hself], by rw [hself],
      by rw [hself], by rw [hself], by rw [hself], by rw [hself], ?history, ?rest, ?articles, hother, ?carrier, ?cue,
      hsched, ?entries, ?others, ?stimuli, ?sources, ?drives,
      (congrArg State.links hu).trans ((outcomeTaken_links c o d s).trans htold),
      (congrArg State.table hu).trans (outcomeTaken_table c o d s),
      (congrArg State.steadyPart hu).trans (outcomeTaken_steadyPart c o d s)⟩
    case history => rw [hself]; rfl
    case rest =>
      rw [hself]
      show (if x.kind = .drive && (some o).isSome then s.restAfter x else x.restEnd)
        = if x.kind = .drive then
            (if x.kind = .drive then s.driveDef x.element else none).bind fun e =>
              if e.rest = 0 then none else some (s.time + e.rest * 1000)
          else x.restEnd
      by_cases hk : x.kind = .drive
      · simp only [hk, if_true, decide_true, Option.isSome_some, Bool.and_self]
        unfold State.restAfter
        cases s.driveDef x.element <;> rfl
      · simp [hk]
    case articles =>
      rw [hself]
      show (endedContext x (some o) (s.restAfter x)).articles = _
      simp [endedContext, rotate_eq]
    case carrier =>
      intro k
      rw [State.carrier, hcarriers, carrier_mapAfter]
      simp only [Option.some.injEq]
      rfl
    case cue =>
      rw [State.cueOf, hsched]
      exact find?_cue_filter_ne c _
    case entries => rw [hmonitor, entriesOf_endCtx, if_pos rfl]
    case others =>
      intro e he
      rw [hmonitor, entriesOf_endCtx, if_neg he]
    case stimuli =>
      intro hcan pt
      rw [State.stimulus, hring, outcomeTaken_ring]
      exact stimulus_endTrial c (some o) s hcan pt
    case sources =>
      intro pt
      rw [State.source, hring, outcomeTaken_sources]
      rfl
    case drives =>
      refine (congrArg State.drives hu).trans ((outcomeTaken_drives c o d s).trans ?_)
      rw [← hcur]
  refine ⟨fun h => if_pos h, fun r cause h hd => ?ends, fun h hd => ?onward⟩
  case ends =>
    have hself := ctx_outcomeTaken c o d s c
    rw [if_pos rfl] at hself
    exact ⟨s.outcomeTaken c o d, takeOutcome_of_ends c o d s h hd,
      key _ (s.counted c o d).state (s.counted c o d).reason rfl hself fun e he =>
        (ctx_outcomeTaken c o d s e).trans (if_neg he)⟩
  case onward =>
    intro t
    have ht : t = (s.outcomeTaken c o d).goesOn c := takeOutcome_of_goesOn c o d s h hd
    have hctx : ∀ e, t.ctx e = if e = c then { s.counted c o d with state := .paused, reason := .none } else s.ctx e :=
      fun e => by
        rw [ht, ctx_goesOn, ctx_outcomeTaken, ctx_outcomeTaken, if_pos rfl]
        split <;> rfl
    have hself := hctx c
    rw [if_pos rfl] at hself
    exact ⟨key t .paused .none (by rw [ht]; rfl) hself fun e he => (hctx e).trans (if_neg he), by rw [hself],
      by rw [ht]; rfl⟩

end Sys2Proof.Machine

/-! PROOFS. Orders whose effect reaches beyond records and points: the reply stands in the place kept for it, and what
the effect does elsewhere stands (R185). The tracker's reports as orders and events make them (R7, R10). -/

namespace Sys2Proof.Machine

open Sys2Proof

/-! ### The reply in its place (R185) -/

section Replies

variable {s u t : State} {p : Port} {k : Nat} {tag : Byte}

/-- `u` with the frame at place `n` of port `p` replaced. -/
def State.patched (u : State) (p : Port) (n : Nat) (f : LinkFrame) : State :=
  u.mapLink p fun l => { l with queue := l.queue.set n f }

@[simp] theorem patched_time (u : State) (p : Port) (n : Nat) (f : LinkFrame) : (u.patched p n f).time = u.time := rfl
@[simp] theorem patched_table (u : State) (p : Port) (n : Nat) (f : LinkFrame) : (u.patched p n f).table = u.table := rfl
@[simp] theorem patched_ring (u : State) (p : Port) (n : Nat) (f : LinkFrame) : (u.patched p n f).ring = u.ring := rfl
@[simp] theorem patched_engine (u : State) (p : Port) (n : Nat) (f : LinkFrame) : (u.patched p n f).engine = u.engine := rfl
@[simp] theorem patched_sched (u : State) (p : Port) (n : Nat) (f : LinkFrame) : (u.patched p n f).sched = u.sched := rfl
@[simp] theorem patched_monitor (u : State) (p : Port) (n : Nat) (f : LinkFrame) : (u.patched p n f).monitor = u.monitor := rfl
@[simp] theorem patched_drives (u : State) (p : Port) (n : Nat) (f : LinkFrame) : (u.patched p n f).drives = u.drives := rfl
@[simp] theorem patched_ctx (u : State) (p : Port) (n : Nat) (f : LinkFrame) (c : Nat) : (u.patched p n f).ctx c = u.ctx c := rfl
@[simp] theorem patched_elem (u : State) (p : Port) (n : Nat) (f : LinkFrame) (i : Nat) : (u.patched p n f).elem i = u.elem i := rfl

theorem patched_steadyPart (u : State) (p : Port) (n : Nat) (f : LinkFrame) :
    (u.patched p n f).steadyPart = u.steadyPart := by cases p <;> rfl

/-- An order that is taken: its effect's state with the reply in its place. -/
theorem takeOrder_effect {permitted : Port → Bool} {eff : State → State × List Byte} {l : List Byte}
    (hroom : s.room p) (hp : permitted p = true) (he : eff (s.entered p k tag) = (u, accepted l)) :
    takeOrder p permitted k tag eff s = u.patched p (s.link p).queue.length (replyFrame k tag (accepted l)) := by
  rw [State.entered] at he
  rw [takeOrder_taken k tag eff hroom hp, replyWith, he, goodFrame_queue]
  rfl

/-- The reply that an effect gives stands right behind the frames that waited. -/
theorem takeOrder_effect_answers {permitted : Port → Bool} {eff : State → State × List Byte} {l : List Byte}
    (hroom : s.room p) (hp : permitted p = true) (ha : Answering eff) (he : eff (s.entered p k tag) = (u, accepted l)) :
    answers s (takeOrder p permitted k tag eff s) p k tag (accepted l) := by
  rw [State.entered] at he
  obtain ⟨r, b, hr⟩ | ⟨-, hkept⟩ := ha.answered (queueReply p k tag [[]] (goodFrame p s))
  · rw [he] at hr
    cases congrArg (fun x => x.2.head?) hr
  · rw [takeOrder_taken k tag eff hroom hp, answers, ← goodFrame_queue p p s]
    have h := replyWith_tail p k tag eff (goodFrame p s) (hkept p _ (by rw [queueReply_queue]))
    rwa [he] at h

theorem entered_eq_replied (s : State) (p : Port) (k : Nat) (tag : Byte) : s.entered p k tag = s.replied p k tag [] := rfl

theorem steadyPart_replied (s : State) (p : Port) (k : Nat) (tag : Byte) (b : List Byte) :
    (s.replied p k tag b).steadyPart = (s.entered p k tag).steadyPart := by cases p <;> rfl

/-- Notices fall behind the place of the reply. -/
theorem foldl_noticed_set (cap n : Nat) (f : LinkFrame) (l : List (Nat × List Byte)) (x : Link)
    (hn : n < x.queue.length) :
    l.foldl (Link.noticed cap) { x with queue := x.queue.set n f }
      = { l.foldl (Link.noticed cap) x with queue := (l.foldl (Link.noticed cap) x).queue.set n f } := by
  induction l generalizing x with
  | nil => rfl
  | cons m l ih =>
    rw [List.foldl_cons, List.foldl_cons]
    have hstep : Link.noticed cap { x with queue := x.queue.set n f } m
        = { x.noticed cap m with queue := (x.noticed cap m).queue.set n f } := by
      unfold Link.noticed
      rw [List.length_set]
      split
      · dsimp only
        rw [List.set_append_left _ _ hn]
      · rfl
    have hlen : n < (x.noticed cap m).queue.length := by
      unfold Link.noticed
      split
      · rw [List.length_append]; omega
      · exact hn
    rw [hstep, ih _ hlen]

/-- What an effect tells the ports stands behind the reply. -/
theorem notified_patched {kind : Nat} {b body : List Byte} (h : (s.entered p k tag).notified u kind body) :
    (s.replied p k tag b).notified (u.patched p (s.link p).queue.length (replyFrame k tag b)) kind body := by
  intro q
  obtain ⟨before, hb, hnone, hq⟩ := h q
  refine ⟨before, hb, fun hc => hnone (hc.imp id fun hn => ?_), ?_⟩
  · cases p <;> exact hn
  · by_cases hqp : q = p
    · subst hqp
      have hr : (s.replied q k tag b).link q = { (s.entered q k tag).link q with
          queue := ((s.entered q k tag).link q).queue.set (s.link q).queue.length (replyFrame k tag b) } := by
        rw [State.entered, State.replied, link_queueReply, link_queueReply, if_pos rfl, if_pos rfl, link_goodFrame]
        simp
      have hlen : (s.link q).queue.length < ((s.entered q k tag).link q).queue.length := by
        rw [State.entered, queueReply_queue, goodFrame_queue, List.length_append]
        simp
      rw [State.patched, link_mapLink_self, hq, hr, foldl_noticed_set _ _ _ _ _ hlen]
    · rw [State.patched, link_mapLink_ne _ _ hqp, hq]
      have hr : (s.replied p k tag b).link q = (s.entered p k tag).link q := by
        rw [State.entered, State.replied, link_queueReply, link_queueReply, if_neg hqp, if_neg hqp]
      rw [hr]

end Replies

/-! ### Notices in a row (R186) -/

section Notices

variable {u s t : State} {k : Nat} {b : List Byte}

/-- A notice behind outcomes and proof ends is told from the state before them. -/
theorem notified_of_toldOutcomes (h : u.toldOutcomes s) (hq : u.noProof → s.links = u.links ∧ s.noProof)
    (hn : s.notified t k b) : u.notified t k b := by
  intro p
  obtain ⟨l1, hl1, hline1, h1⟩ := h p
  obtain ⟨l2, hl2, hline2, h2⟩ := hn p
  by_cases hu : u.noProof
  · obtain ⟨hlinks, hs⟩ := hq hu
    refine ⟨[], nofun, fun _ => rfl, ?_⟩
    rw [h2, hline2 (.inr hs)]
    unfold State.link
    rw [hlinks]
  · refine ⟨l1 ++ l2, fun n hn => (List.mem_append.1 hn).elim (hl1 n) (hl2 n), ?_, ?_⟩
    · rintro (hp | hp)
      · rw [hline1 hp, hline2 (.inl hp)]; rfl
      · exact absurd hp hu
    · rw [h2, h1, ← List.foldl_append, List.append_assoc]

theorem steadyPart_pushNotice (p : Port) (k : Nat) (b : List Byte) (s : State) :
    (pushNotice p k b s).steadyPart = s.steadyPart := by
  cases p <;> simp only [pushNotice, State.mapLink] <;> simp only [State.steadyPart, State.mapLinks] <;> split <;> rfl

theorem steadyPart_noticeAll (k : Nat) (b : List Byte) (s : State) : (noticeAll k b s).steadyPart = s.steadyPart := by
  rw [noticeAll, steadyPart_pushNotice, steadyPart_pushNotice, steadyPart_pushNotice]

end Notices

/-! ### The tracker enters a state (R7, R10) -/

section Tracks

variable {u s : State}

/-- What the report of the tracker state leaves of the steady part. -/
theorem steadyPart_reportTrack (s : State) :
    (reportTrack s).steadyPart = State.steadyPart { s with engine := { s.engine with track := s.tracker.state } } :=
  (steady_closed _).reportTrack s rfl

theorem steadyPart_enterTrack (st : TrackState) (s : State) :
    (enterTrack st s).steadyPart
      = State.steadyPart
        { s with tracker := { s.tracker with state := st }, engine := { s.engine with track := st } } := by
  unfold enterTrack noticeTrack
  rw [steadyPart_noticeAll, steadyPart_reportTrack]
  rfl

theorem steadyPart_enterFault (cause : FaultCause) (d : FaultDetail) (s : State) :
    (enterFault cause d s).steadyPart
      = State.steadyPart
        { s with
          tracker :=
            { s.tracker with state := .faulted, fault := some { cause := cause, time := s.time, detail := d } }
          engine := { s.engine with track := .faulted } } := by
  unfold enterFault
  rw [steadyPart_enterTrack]
  rfl

/-- An entry to FAULTED is told to each port with its cause. -/
theorem enterFault_notified (cause : FaultCause) (d : FaultDetail) (hl : s.links = u.links)
    (hq : u.noProof → s.unproving) :
    u.notified (enterFault cause d s) 0x63 (trackBody .faulted (some cause) 0 s.time) := by
  unfold enterFault
  exact enterTrack_notified .faulted (s := s.mapTracker fun t =>
    { t with fault := some { cause := cause, time := s.time, detail := d } }) hl hq

theorem unproving_of_noProof (h : u.noProof) : u.unproving := ⟨h.1, h.2.1⟩

end Tracks

/-- Settles O27: the effect's state with the reply in its place. -/
theorem clearTrackFaultUnhomes : Obligations.ClearTrackFaultUnhomes := by
  intro p tag s hp hroom
  refine ⟨fun h => ?_, fun h => next_congr (takeOrder_refused 0x0C tag hroom hp ?_)⟩
  · have he : clearFaultEffect (s.entered p 0x0C tag)
        = (enterTrack .unhomed ((s.entered p 0x0C tag).mapTracker fun t =>
          { t with fault := none, backlash := 0, illegal := 0, pitchRun := 0, missing := 0 }), accepted []) := by
      rw [clearFaultEffect, if_pos (by rw [entered_tracker]; exact h)]
    refine ⟨_, rfl, takeOrder_effect_answers hroom hp answering_clearFault he, ?_, ?_⟩
    · rw [takeOrder_effect hroom hp he]
      refine notified_patched ?_
      have hn := enterTrack_notified .unhomed (u := s.entered p 0x0C tag)
        (s := (s.entered p 0x0C tag).mapTracker fun t =>
          { t with fault := none, backlash := 0, illegal := 0, pitchRun := 0, missing := 0 }) rfl unproving_of_noProof
      rw [mapTracker_time, entered_time] at hn
      exact hn
    · rw [takeOrder_effect hroom hp he, patched_steadyPart, steadyPart_enterTrack]
      cases p <;> rfl
  · rw [clearFaultEffect]
    refine if_neg ?_
    rw [show queueReply p 0x0C tag [[]] (goodFrame p s) = s.entered p 0x0C tag from rfl, entered_tracker]
    exact h

end Sys2Proof.Machine

/-! PROOFS. The tracker's counts and checks whose reports bring no void that their statements speak of: forward and
reverse counts, pitch errors, and the speed update (R12, R13, R21 to R25). -/

namespace Sys2Proof.Machine

open Sys2Proof

/-! ### Reverse counts (R13) -/

/-- Settles O29: the allowance absorbs the count, or is used up. -/
theorem reverseCountIsAbsorbed : Obligations.ReverseCountIsAbsorbed := by
  intro s
  dsimp only
  refine ⟨fun hb => next_congr (if_pos hb), fun hb hstate => ?fault, fun hb hstate => next_congr ?stands⟩
  case fault =>
    have he : backward (moveLevels encReverse s) = enterFault .reverse .none (moveLevels encReverse s) :=
      (if_neg (Nat.not_lt.2 hb)).trans (if_pos hstate)
    refine ⟨enterFault .reverse .none (moveLevels encReverse s), next_congr he,
      enterFault_notified .reverse .none rfl unproving_of_noProof, ?_⟩
    rw [steadyPart_enterFault]
    rfl
  case stands =>
    refine (if_neg (Nat.not_lt.2 hb)).trans (if_neg ?_)
    show ¬ (s.tracker.state = .unhomed ∨ s.tracker.state = .tracking)
    rcases hstate with h | h <;> rw [h] <;> decide

/-! ### Pitch errors (R21 to R23) -/

/-- The tracker with one pitch error more and a new missing-carrier run (R22). -/
def Tracker.pitchError (t : Tracker) : Tracker :=
  { t with pitchTotal := min 65535 (t.pitchTotal + 1), pitchRun := min 3 (t.pitchRun + 1), missing := 0 }

section PitchErrors

variable {s : State}

theorem countMissing_of_lt (h : s.tracker.pitchRun < 2) : countMissing s = s.mapTracker Tracker.pitchError := by
  refine if_neg ?_
  show min 3 (s.tracker.pitchRun + 1) ≠ 3
  omega

theorem countMissing_of_le (h : 2 ≤ s.tracker.pitchRun) :
    countMissing s = enterFault .pitch .missing (s.mapTracker Tracker.pitchError) := by
  refine if_pos ?_
  show min 3 (s.tracker.pitchRun + 1) = 3
  omega

theorem missingDue_iff : s.missingDue = true ↔ s.tracker.state = .tracking ∧ 2 * s.pitch ≤ s.tracker.missing := by
  simp [State.missingDue]

theorem pitchCheck_of_near (h : s.phaseError.natAbs ≤ s.tracker.active.effPitchTol) :
    pitchCheck s = s.mapTracker fun t => { t with pitchRun := 0, missing := 0 } := if_pos h

theorem pitchCheck_of_far (h : s.tracker.active.effPitchTol < s.phaseError.natAbs) :
    pitchCheck s =
      if 2 ≤ s.tracker.pitchRun then
        enterFault .pitch (.error s.phaseError) (s.mapTracker Tracker.pitchError)
      else s.mapTracker Tracker.pitchError := by
  refine (if_neg (Nat.not_le.2 h)).trans ?_
  have hrun : min 3 (s.tracker.pitchRun + 1) = 3 ↔ 2 ≤ s.tracker.pitchRun := by omega
  by_cases hr : 2 ≤ s.tracker.pitchRun
  · rw [if_pos hr]
    exact if_pos (hrun.2 hr)
  · rw [if_neg hr]
    exact if_neg fun h => hr (hrun.1 h)

end PitchErrors

/-- Settles O33: the pitch-eye check by its tolerance and its run, the missing carrier by its run. -/
theorem pitchErrorsAreCounted : Obligations.PitchErrorsAreCounted := by
  constructor
  case left =>
    intro s
    refine ⟨fun h => next_congr (if_neg ?_), fun hstate hb => ?_⟩
    · rintro ⟨h1, h2⟩
      rcases h with h | h
      · exact h h1
      · omega
    · intro r e counted
      have hexec : exec .pitchEyeEdge s = .next (pitchCheck s) := next_congr (if_pos ⟨hstate, hb⟩)
      refine ⟨fun hnear => hexec.trans (next_congr (pitchCheck_of_near hnear)), fun hfar hrun =>
        hexec.trans (next_congr ((pitchCheck_of_far hfar).trans (if_neg (Nat.not_le.2 hrun)))), fun hfar hrun => ?_⟩
      refine ⟨_, hexec.trans (next_congr ((pitchCheck_of_far hfar).trans (if_pos hrun))),
        enterFault_notified _ _ rfl unproving_of_noProof, ?_⟩
      rw [steadyPart_enterFault]
      rfl
  case right =>
    intro s
    dsimp only
    refine ⟨fun h => next_congr (if_neg fun hd => ?_), fun hstate hm hrun =>
      next_congr ((if_pos (missingDue_iff.2 ⟨hstate, hm⟩)).trans (countMissing_of_lt hrun)), fun hstate hm hrun => ?_⟩
    · obtain ⟨h1, h2⟩ := missingDue_iff.1 hd
      rcases h with h | h
      · exact h h1
      · omega
    · refine ⟨_, next_congr ((if_pos (missingDue_iff.2 ⟨hstate, hm⟩)).trans (countMissing_of_le hrun)),
        enterFault_notified _ _ rfl unproving_of_noProof, ?_⟩
      rw [steadyPart_enterFault]
      rfl

/-! ### Forward counts (R12) -/

section Forward

variable {s t : State}

theorem time_of_steadyPart (h : t.steadyPart = s.steadyPart) : t.time = s.time := by
  have h := congrArg State.time h
  exact h

theorem tracker_of_steadyPart (h : t.steadyPart = s.steadyPart) : t.tracker = s.tracker := by
  have h := congrArg State.tracker h
  exact h

/-- A change of the tracker alone goes the same way over states with one steady part. -/
theorem steadyPart_mapTracker (h : t.steadyPart = s.steadyPart) (f : Tracker → Tracker) :
    (t.mapTracker f).steadyPart = (s.mapTracker f).steadyPart := congrArg (State.mapTracker · f) h

theorem steadyPart_enterFault_congr (h : t.steadyPart = s.steadyPart) (cause : FaultCause) (d : FaultDetail) :
    (enterFault cause d t).steadyPart = (enterFault cause d s).steadyPart := by
  rw [steadyPart_enterFault, steadyPart_enterFault]
  have hf := congrArg (fun v : State => State.steadyPart { v with
    tracker := { v.tracker with state := .faulted, fault := some { cause := cause, time := v.time, detail := d } }
    engine := { v.engine with track := .faulted } }) h
  exact hf

theorem steadyPart_settleTravel (s : State) : (settleTravel s).steadyPart = s.steadyPart := by
  have h := steady_closed s.steadyPart
  unfold settleTravel
  split
  · exact h.runTravelList _ (h.runCues _ rfl)
  · exact h.runTravelList _ rfl

theorem steadyPart_advanceTravel (s : State) : (advanceTravel s).steadyPart = (s.mapTracker Tracker.advance).steadyPart := by
  unfold advanceTravel
  dsimp only
  split <;> rfl

theorem toldOutcomes_settleTravel (u : State) (h : u.toldOutcomes s) : u.toldOutcomes (settleTravel s) := by
  have hc := toldOutcomes_closed u
  unfold settleTravel
  split
  · exact hc.runTravelList _ (hc.runCues _ h)
  · exact hc.runTravelList _ h

theorem runCues_nil (h : s.sched.cues = []) : runCues s = endExam s := by
  unfold runCues examineCues
  have : examineCuesLoop settle 64 [] s = s := by
    rw [examineCuesLoop, h]
    rfl
  rw [this]

/-- With no proof in progress nothing is due at any travel. -/
theorem settleTravel_noProof (h : s.noProof) : (settleTravel s).links = s.links ∧ (settleTravel s).noProof := by
  obtain ⟨ho, hfree, hcues, hmon⟩ := h
  have hlist : ∀ u : State, u.monitor = {} → runTravelList u = u := fun u hu => by
    unfold runTravelList
    rw [hu]
    rfl
  unfold settleTravel
  split
  · rw [runCues_nil hcues, hlist (endExam s) hmon]
    exact ⟨rfl, ho, hfree, hcues, hmon⟩
  · rw [hlist s hmon]
    exact ⟨rfl, ho, hfree, hcues, hmon⟩

theorem advanceTravel_links (s : State) : (advanceTravel s).links = s.links := by
  unfold advanceTravel
  dsimp only
  split <;> rfl

theorem advanceTravel_time (s : State) : (advanceTravel s).time = s.time := by
  unfold advanceTravel
  dsimp only
  split <;> rfl

theorem advanceTravel_noProof (h : s.noProof) : (advanceTravel s).noProof := by
  obtain ⟨ho, hfree, hcues, hmon⟩ := h
  have hm : (advanceTravel s).monitor = { travelList := [], timeList := [] } := by
    unfold advanceTravel
    dsimp only
    split <;> simp only [refreshGuards, mapMonitor_monitor] <;> simp [beginExam, pruneHistory, hmon]
  have he : (advanceTravel s).engine = s.engine := advanceTravel_engine s
  refine ⟨by rw [he]; exact ho, fun c => ?_, ?_, hm⟩
  · rw [State.ctx, he]; exact hfree c
  · unfold advanceTravel
    dsimp only
    split <;> exact hcues

/-- The travel that a forward count with b at 0 leaves, before a missing carrier is counted. -/
def State.travelled (s : State) : State := advanceTravel (settleTravel s)

theorem forward_of_zero (h : s.tracker.backlash = 0) :
    forward s = if s.travelled.missingDue then countMissing s.travelled else s.travelled :=
  if_neg (by omega)

theorem steadyPart_travelled (s : State) : s.travelled.steadyPart = (s.mapTracker Tracker.advance).steadyPart := by
  rw [State.travelled, steadyPart_advanceTravel, steadyPart_mapTracker (steadyPart_settleTravel s)]

theorem travelled_told (hu : t.links = s.links) (hq : t.noProof → s.noProof) :
    t.toldOutcomes s.travelled ∧ (t.noProof → s.travelled.links = t.links ∧ s.travelled.noProof) := by
  refine ⟨?_, fun h => ?_⟩
  · have h := toldOutcomes_settleTravel (s := s) t (toldOutcomes_of_links hu.symm)
    intro p
    obtain ⟨l, hl⟩ := h p
    refine ⟨l, ?_⟩
    unfold State.travelled State.link
    rw [advanceTravel_links]
    exact hl
  · obtain ⟨h1, h2⟩ := settleTravel_noProof (hq h)
    exact ⟨(advanceTravel_links _).trans (h1.trans hu.symm), advanceTravel_noProof h2⟩

end Forward

/-- Settles O28: what is due at the travel so far touches no steady part; then the advance, and the run it may
complete. -/
theorem forwardCountAdvances : Obligations.ForwardCountAdvances := by
  intro s
  refine ⟨fun hb => next_congr (if_pos hb), fun hb => ?_⟩
  intro moved counted
  have hsteady : (moveLevels encForward s).travelled.steadyPart = State.steadyPart { s with tracker := moved } :=
    steadyPart_travelled _
  have htracker : (moveLevels encForward s).travelled.tracker = moved := tracker_of_steadyPart (s := { s with tracker := moved }) hsteady
  have htime : (moveLevels encForward s).travelled.time = s.time := time_of_steadyPart (s := { s with tracker := moved }) hsteady
  have hdue : (moveLevels encForward s).travelled.missingDue = true
      ↔ s.tracker.state = .tracking ∧ 2 * s.pitch ≤ s.tracker.missing + 1 := by
    rw [missingDue_iff, State.pitch, htracker]
    show s.tracker.state = .tracking ∧ 2 * s.pitch ≤ (if s.tracker.state = .tracking then _ else _) ↔ _
    refine and_congr_right fun h => ?_
    rw [if_pos h]
  have hrun : (moveLevels encForward s).travelled.tracker.pitchRun = s.tracker.pitchRun := by rw [htracker]
  refine ⟨forward (moveLevels encForward s), rfl, ?_, fun h1 h2 h3 => ?_⟩
  · rw [forward_of_zero (s := moveLevels encForward s) hb]
    by_cases hd : s.tracker.state = .tracking ∧ 2 * s.pitch ≤ s.tracker.missing + 1
    · rw [if_pos hd, if_pos (hdue.2 hd)]
      by_cases hr : 2 ≤ s.tracker.pitchRun
      · rw [if_pos hr, countMissing_of_le (by rw [hrun]; exact hr),
          steadyPart_enterFault_congr (steadyPart_mapTracker hsteady Tracker.pitchError), steadyPart_enterFault]
        rfl
      · rw [if_neg hr, countMissing_of_lt (by rw [hrun]; omega)]
        exact steadyPart_mapTracker hsteady Tracker.pitchError
    · rw [if_neg hd, if_neg fun h => hd (hdue.1 h)]
      exact hsteady
  · rw [forward_of_zero (s := moveLevels encForward s) hb, if_pos (hdue.2 ⟨h1, h2⟩), countMissing_of_le (by rw [hrun]; exact h3)]
    obtain ⟨htold, hquiet⟩ := travelled_told (s := moveLevels encForward s) (t := s) rfl id
    have hn := enterFault_notified (u := (moveLevels encForward s).travelled)
      (s := (moveLevels encForward s).travelled.mapTracker Tracker.pitchError) .pitch .missing rfl
      unproving_of_noProof
    rw [mapTracker_time, htime] at hn
    exact notified_of_toldOutcomes htold hquiet hn

/-! ### The speed update (R24, R25) -/

/-- A smoothing step from one value above 0 towards another does not leave them. -/
theorem smoothStep_cast (target value k : Nat) :
    (smoothStep target value k : Int) = value + Int.tdiv ((target : Int) - value) (2 ^ k) := by
  have hk : (1 : Int) ≤ 2 ^ k := by exact_mod_cast Nat.one_le_two_pow
  have hpos : 0 ≤ (value : Int) + Int.tdiv ((target : Int) - value) (2 ^ k) := by
    rcases le_total 0 ((target : Int) - value) with h | h
    · have := Int.tdiv_nonneg h (show (0 : Int) ≤ 2 ^ k by omega)
      omega
    · have hle : Int.tdiv (-((target : Int) - value)) (2 ^ k) ≤ -((target : Int) - value) := by
        rw [Int.tdiv_eq_ediv_of_nonneg (by omega)]
        exact Int.ediv_le_self _ (by omega)
      rw [Int.neg_tdiv] at hle
      omega
  unfold smoothStep
  rw [Int.toNat_of_nonneg (by push_cast; exact hpos)]
  push_cast
  rfl

/-- A change of the moving flag is reported, and touches nothing else of the steady part. -/
theorem steadyPart_updateMoving (s : State) :
    (updateMoving s).steadyPart =
      State.steadyPart
        { s with
          tracker := { s.tracker with moving := movingOf s.tracker.speed s.tracker.active.vMin }
          engine :=
            { s.engine with
              moving :=
                if movingOf s.tracker.speed s.tracker.active.vMin = s.tracker.moving then s.engine.moving
                else movingOf s.tracker.speed s.tracker.active.vMin } } := by
  unfold updateMoving
  dsimp only
  by_cases h : movingOf s.tracker.speed s.tracker.active.vMin = s.tracker.moving
  · rw [if_pos h, if_pos h, h]
  · rw [if_neg h, if_neg h]
    exact (steady_closed _).check _ rfl

/-- Settles O34: the step of the estimate, and the flag judged by it. -/
theorem speedUpdateSmooths : Obligations.SpeedUpdateSmooths := by
  intro s
  refine ⟨fun h => next_congr (if_neg (Nat.not_le.2 h)), fun h => ?_⟩
  refine ⟨_, smoothStep (min 65535 (s.tracker.travel - s.tracker.msTravel) * 256) s.tracker.speed
    s.tracker.active.smooth, next_congr (if_pos h), smoothStep_cast _ _ _, ?_⟩
  rw [steadyPart_updateMoving]
  rfl

end Sys2Proof.Machine

/-! PROOFS. What the end of a proof, an outcome and the voids of a report leave of the contexts: each writes its own
context alone (R97, R102, R104, R107, R108). -/

namespace Sys2Proof.Machine

open Sys2Proof

section Frames

variable (s : State) (c : Nat)

@[simp] theorem ctx_oweCheck (e : Nat) : s.oweCheck.ctx e = s.ctx e := rfl

theorem sameButStimuli.engine {s t : State} (h : sameButStimuli s t) : t.engine = s.engine := by rw [show t = _ from h]

theorem sameButStimuli.sched {s t : State} (h : sameButStimuli s t) : t.sched = s.sched := by rw [show t = _ from h]

theorem sameButStimuli.ctx {s t : State} (h : sameButStimuli s t) (e : Nat) : t.ctx e = s.ctx e := by
  rw [State.ctx, h.engine]; rfl

theorem sameButRecords.engine {s t : State} (h : sameButRecords s t) : t.engine = s.engine := by rw [show t = _ from h]

theorem sameButRecords.sched {s t : State} (h : sameButRecords s t) : t.sched = s.sched := by rw [show t = _ from h]

theorem setCarriers_contexts (ks : List Nat) (r : Reservation) :
    (s.setCarriers ks r).engine.contexts = s.engine.contexts := by
  refine foldl_keeps (P := fun u => u.engine.contexts = s.engine.contexts) ?_ ks s rfl
  exact fun _ _ h => h

theorem setCarriers_sched (ks : List Nat) (r : Reservation) : (s.setCarriers ks r).sched = s.sched := by
  refine foldl_keeps (P := fun u => u.sched = s.sched) ?_ ks s rfl
  exact fun _ _ h => h

/-! ### The second part of the closing sequence (R108) -/

/-- The records and points after steps 1 to 3 of the second part, with the amendments of R63. -/
def State.freedRecords (s : State) (c : Nat) : State :=
  let x := s.ctx c
  let r := (x.ending.map (·.1)).getD .aborted
  let u := s.mapElem x.element fun e =>
    { e with summary := some (contextSummary x r s.time), proofCount := capAdd 65535 e.proofCount 1 }
  let members := x.claim.map (·.1)
  let v := applyStaged members u
  let w := x.claim.foldl (releaseMember x r (members.filter fun i => (u.elem i).staged.isSome)) v
  let z := x.companions.foldl lowerHold w
  deriveSources (outputsOf u (members ++ x.companions) ++ outputsOf z (members ++ x.companions)) z

/-- The Proof Ended notice of a context. -/
def State.endedBody (s : State) (c : Nat) : List Byte :=
  let x := s.ctx c
  let r := (x.ending.map (·.1)).getD .aborted
  endedNotice c x.element r ((x.ending.map (·.2)).getD .order) (some (contextSummary x r s.time)) x.articles.length
    x.lastSuspect

theorem secondPart_eq :
    secondPart c s =
      ((pushNotice (stationPort (s.ctx c).owner) 0x60 (s.endedBody c)
        ((s.freedRecords c).setCarriers (s.ctx c).articles .free)).setCtx c {}).oweCheck := rfl

theorem sameButRecords.foldl {α : Type} {f : State → α → State} (hf : ∀ s t a, sameButRecords s t → sameButRecords s (f t a))
    (l : List α) {s t : State} (h : sameButRecords s t) : sameButRecords s (l.foldl f t) :=
  foldl_keeps (P := sameButRecords s) (fun t a => hf s t a) l t h

theorem sameButRecords.applyStaged {s t : State} (h : sameButRecords s t) (l : List Nat) :
    sameButRecords s (applyStaged l t) := by
  refine sameButRecords.foldl (fun s t i ht => ?_) l h
  split
  · exact (ht.installDefinition _ _).setElem _ _
  · exact ht

theorem sameButRecords_freedRecords : sameButRecords s (s.freedRecords c) := by
  refine sameButRecords.deriveSources ?_ _
  refine sameButRecords.foldl (fun s t i ht => ht.setElem _ _) _ ?_
  refine sameButRecords.foldl (fun s t m ht => ht.setElem _ _) _ ?_
  exact sameButRecords.applyStaged ((sameButRecords.refl s).setElem _ _) _

theorem ctx_secondPart (e : Nat) : (secondPart c s).ctx e = if e = c then {} else s.ctx e := by
  rw [secondPart_eq, ctx_oweCheck, ctx_setCtx]
  split
  · rfl
  · show Table.get {} ((s.freedRecords c).setCarriers (s.ctx c).articles .free).engine.contexts e = _
    rw [setCarriers_contexts, (sameButRecords_freedRecords s c).engine]
    rfl

theorem secondPart_sched : (secondPart c s).sched = s.sched := by
  rw [secondPart_eq]
  show ((s.freedRecords c).setCarriers (s.ctx c).articles .free).sched = _
  rw [setCarriers_sched, (sameButRecords_freedRecords s c).sched]

theorem secondPart_owes : (secondPart c s).engine.checkOwed = true := by rw [secondPart_eq]; rfl

/-! ### CLOSING (R107) -/

variable (r : ProofResult) (cause : EndCause)

/-- The state once no trial of the context runs any more. -/
def State.trialOver (s : State) (c : Nat) : State :=
  if (s.ctx c).phase = .none then cancelAwaited c s else endTrial c none s

/-- The state with the context in CLOSING, its points asked for INACTIVE. -/
def State.closingAt (s : State) (c : Nat) (r : ProofResult) (cause : EndCause) : State :=
  let asked := askInactive c ((s.trialOver c).activePoints c) (s.trialOver c)
  asked.1.mapCtx c fun x => { x with state := .closing, reason := .none, ending := some (r, cause), settle := asked.2 }

/-- The points that have been asked for INACTIVE on entering CLOSING. -/
def State.settleSet (s : State) (c : Nat) : List Nat :=
  (askInactive c ((s.trialOver c).activePoints c) (s.trialOver c)).2

theorem enterClosing_eq :
    enterClosing c r cause s =
      if (s.settleSet c).isEmpty then secondPart c (s.closingAt c r cause) else s.closingAt c r cause := rfl

theorem ctx_trialOver_ne {e : Nat} (h : e ≠ c) : (s.trialOver c).ctx e = s.ctx e := by
  unfold State.trialOver
  split
  · exact (sameButStimuli_cancelAwaited c s).ctx e
  · rw [ctx_endTrial, if_neg h]

theorem trialOver_owes (h : s.engine.checkOwed = true) : (s.trialOver c).engine.checkOwed = true := by
  unfold State.trialOver
  split
  · rw [(sameButStimuli_cancelAwaited c s).engine]; exact h
  · rfl

theorem ctx_closingAt_self :
    (s.closingAt c r cause).ctx c =
      { (s.trialOver c).ctx c with
        state := .closing, reason := .none, ending := some (r, cause), settle := s.settleSet c } := by
  unfold State.closingAt State.settleSet
  dsimp only
  rw [ctx_mapCtx, if_pos rfl, (sameButStimuli_askInactive c _ _).ctx]

theorem ctx_closingAt_ne {e : Nat} (h : e ≠ c) : (s.closingAt c r cause).ctx e = s.ctx e := by
  unfold State.closingAt
  dsimp only
  rw [ctx_mapCtx, if_neg h, (sameButStimuli_askInactive c _ _).ctx, ctx_trialOver_ne s c h]

theorem ctx_enterClosing_ne {e : Nat} (h : e ≠ c) : (enterClosing c r cause s).ctx e = s.ctx e := by
  rw [enterClosing_eq]
  split
  · rw [ctx_secondPart, if_neg h, ctx_closingAt_ne s c r cause h]
  · exact ctx_closingAt_ne s c r cause h

/-- A proof that ends is over at once, or in CLOSING until its points have settled. -/
theorem ctx_enterClosing_self :
    (enterClosing c r cause s).ctx c = {}
      ∨ (((enterClosing c r cause s).ctx c).state = .closing
        ∧ ((enterClosing c r cause s).ctx c).ending = some (r, cause) ∧ ((enterClosing c r cause s).ctx c).settle ≠ []) := by
  rw [enterClosing_eq]
  split
  · exact .inl (by rw [ctx_secondPart, if_pos rfl])
  · rename_i h
    rw [ctx_closingAt_self]
    exact .inr ⟨rfl, rfl, by simpa using h⟩

theorem enterClosing_history : (enterClosing c r cause s).sched.history = s.sched.history := by
  have hover : (s.trialOver c).sched.history = s.sched.history := by
    unfold State.trialOver
    split
    · rw [(sameButStimuli_cancelAwaited c s).sched]
    · rw [endTrial_eq]
  have hclosing : (s.closingAt c r cause).sched.history = s.sched.history := by
    unfold State.closingAt
    dsimp only
    show (askInactive c _ (s.trialOver c)).1.sched.history = _
    rw [(sameButStimuli_askInactive c _ _).sched, hover]
  rw [enterClosing_eq]
  split
  · rw [secondPart_sched, hclosing]
  · exact hclosing

theorem enterClosing_owes (h : s.engine.checkOwed = true) : (enterClosing c r cause s).engine.checkOwed = true := by
  rw [enterClosing_eq]
  split
  · exact secondPart_owes _ c
  · unfold State.closingAt
    dsimp only
    show (askInactive c _ (s.trialOver c)).1.engine.checkOwed = true
    rw [(sameButStimuli_askInactive c _ _).engine]
    exact trialOver_owes s c h

end Frames

/-! ### Outcomes (R97 to R99) -/

section Outcomes

variable (s : State) (c : Nat) (o : TrialOutcome) (d : Option Int)

theorem outcomeTaken_owes : (s.outcomeTaken c o d).engine.checkOwed = true := by rw [outcomeTaken_eq, endTrial_eq]

theorem ctx_takeOutcome_ne {e : Nat} (h : e ≠ c) : (takeOutcome c o d s).ctx e = s.ctx e := by
  by_cases hr : (s.ctx c).state = .running
  · cases hd : decideProof (countOutcome (s.ctx c) o d) o with
    | none => rw [takeOutcome_of_goesOn c o d s hr hd, ctx_goesOn, if_neg h, ctx_outcomeTaken, if_neg h]
    | some rc =>
      rw [takeOutcome_of_ends c o d s (r := rc.1) (cause := rc.2) hr hd, ctx_enterClosing_ne _ _ _ _ h, ctx_outcomeTaken,
        if_neg h]
  · rw [show takeOutcome c o d s = s from if_pos hr]

theorem ctx_takeOutcome_goesOn (hr : (s.ctx c).state = .running)
    (hd : decideProof (countOutcome (s.ctx c) o d) o = none) :
    (takeOutcome c o d s).ctx c = { s.counted c o d with state := .paused, reason := .none } := by
  rw [takeOutcome_of_goesOn c o d s hr hd, ctx_goesOn, if_pos rfl, ctx_outcomeTaken, if_pos rfl]

/-- An outcome leaves no trial running. -/
theorem takeOutcome_state : ((takeOutcome c o d s).ctx c).state ≠ .running := by
  by_cases hr : (s.ctx c).state = .running
  · cases hd : decideProof (countOutcome (s.ctx c) o d) o with
    | none => rw [ctx_takeOutcome_goesOn s c o d hr hd]; exact nofun
    | some rc =>
      rw [takeOutcome_of_ends c o d s (r := rc.1) (cause := rc.2) hr hd]
      rcases ctx_enterClosing_self (s.outcomeTaken c o d) c rc.1 rc.2 with h | ⟨h, -⟩ <;> rw [h] <;> exact nofun
  · rw [show takeOutcome c o d s = s from if_pos hr]
    exact hr

theorem takeOutcome_history : (takeOutcome c o d s).sched.history = s.sched.history := by
  have htaken : (s.outcomeTaken c o d).sched.history = s.sched.history := by rw [outcomeTaken_sched]
  by_cases hr : (s.ctx c).state = .running
  · cases hd : decideProof (countOutcome (s.ctx c) o d) o with
    | none => rw [takeOutcome_of_goesOn c o d s hr hd]; exact htaken
    | some rc => rw [takeOutcome_of_ends c o d s (r := rc.1) (cause := rc.2) hr hd, enterClosing_history, htaken]
  · rw [show takeOutcome c o d s = s from if_pos hr]

theorem takeOutcome_owes (h : (s.ctx c).state = .running ∨ s.engine.checkOwed = true) :
    (takeOutcome c o d s).engine.checkOwed = true := by
  by_cases hr : (s.ctx c).state = .running
  · cases hd : decideProof (countOutcome (s.ctx c) o d) o with
    | none => rw [takeOutcome_of_goesOn c o d s hr hd]; rfl
    | some rc =>
      rw [takeOutcome_of_ends c o d s (r := rc.1) (cause := rc.2) hr hd]
      exact enterClosing_owes _ _ _ _ (outcomeTaken_owes s c o d)
  · rw [show takeOutcome c o d s = s from if_pos hr]
    exact h.resolve_left hr

/-! ### Voids (R97 to R99, R104) -/

/-- The proof goes on after a void while fewer than eight count against the limit. -/
theorem decideProof_void_none {x : Context} {cause : VoidCause}
    (h : x.limitVoids < 7 ∨ (cause = .stop ∧ x.limitVoids < 8)) :
    decideProof (countOutcome x (.void cause) none) (.void cause) = none := by
  refine if_neg ?_
  cases cause with
  | stop =>
    show ¬ 8 ≤ x.limitVoids
    omega
  | _ =>
    show ¬ 8 ≤ x.limitVoids + 1
    rcases h with h | ⟨h, -⟩
    · omega
    · cases h

/-- A void that leaves the proof going on, and the reason that a check then records. -/
theorem voided_halt {x y : Context} {cause : VoidCause} {u : State} {e : Nat} {re : PauseReason} {now : Nat}
    (hc : cause ≠ .stop) (hx : u.ctx e = x) (ht : u.time = now)
    (hy : y = { u.counted e (.void cause) none with state := .paused, reason := re }) :
    voided cause re now x y := by
  subst hx ht hy
  rw [counted_eq]
  cases cause with
  | stop => exact absurd rfl hc
  | _ => exact ⟨rfl, rfl, rfl, rfl, rfl, rfl, rfl, rfl, rfl, rfl, rfl, rfl, rfl, rfl⟩

/-- A fold each of whose steps writes its own context alone: every context is written once, at itself. -/
theorem ctx_foldl_own {f : State → Nat → State} {P : State → Prop} (hP : ∀ u c, P u → P (f u c))
    (hne : ∀ u c e, P u → e ≠ c → (f u c).ctx e = u.ctx e) (l : List Nat) (hn : l.Nodup) (s : State) (hs : P s) (e : Nat) :
    (e ∉ l → (l.foldl f s).ctx e = s.ctx e)
      ∧ (e ∈ l → ∃ u, P u ∧ u.ctx e = s.ctx e ∧ (l.foldl f s).ctx e = (f u e).ctx e) := by
  induction l generalizing s with
  | nil => exact ⟨fun _ => rfl, nofun⟩
  | cons a l ih =>
    obtain ⟨hal, hn⟩ := List.nodup_cons.1 hn
    obtain ⟨hout, hin⟩ := ih hn (f s a) (hP s a hs)
    rw [List.foldl_cons]
    refine ⟨fun he => ?_, fun he => ?_⟩
    · rw [hout fun h => he (by simp [h]), hne s a e hs fun h => he (by simp [h])]
    · by_cases hea : e = a
      · subst hea
        exact ⟨s, hs, rfl, hout hal⟩
      · obtain ⟨u, hu, hc, hv⟩ := hin (by simpa [hea] using he)
        exact ⟨u, hu, by rw [hc, hne s a e hs hea], hv⟩

/-- The contexts that a report voids. -/
def State.struck (s : State) (sel : Context → Bool) (e : Nat) : Prop :=
  e < 16 ∧ (s.ctx e).state = .running ∧ sel (s.ctx e) = true

variable (sel : Context → Bool) (cause : VoidCause)

theorem ctx_voidAll (e : Nat) :
    (¬ s.struck sel e → (voidAll sel cause s).ctx e = s.ctx e)
      ∧ (s.struck sel e → ∃ u, u.ctx e = s.ctx e ∧ u.steadyPart = s.steadyPart
        ∧ (voidAll sel cause s).ctx e = (takeOutcome e (.void cause) none u).ctx e) := by
  have hmem : e ∈ ctxNumbers.filter (fun c => decide ((s.ctx c).state = .running) && sel (s.ctx c)) ↔ s.struck sel e := by
    simp [State.struck, ctxNumbers]
  have h := ctx_foldl_own (P := fun u => u.steadyPart = s.steadyPart)
    (fun u c => (steady_closed s.steadyPart).takeOutcome c (.void cause) none u)
    (fun u c e _ he => ctx_takeOutcome_ne u c (.void cause) none he)
    (ctxNumbers.filter fun c => decide ((s.ctx c).state = .running) && sel (s.ctx c))
    ((show ctxNumbers.Nodup from List.nodup_range).filter _) s rfl e
  rw [hmem] at h
  refine ⟨h.1, fun hs => ?_⟩
  obtain ⟨u, h1, h2, h3⟩ := h.2 hs
  exact ⟨u, h2, h1, h3⟩

theorem voidAll_steadyPart : (voidAll sel cause s).steadyPart = s.steadyPart :=
  foldl_keeps (P := fun u => u.steadyPart = s.steadyPart)
    (fun u c => (steady_closed s.steadyPart).takeOutcome c _ _ u) _ s rfl

theorem voidAll_history : (voidAll sel cause s).sched.history = s.sched.history :=
  foldl_keeps (P := fun u => u.sched.history = s.sched.history)
    (fun u c hu => (takeOutcome_history u c _ _).trans hu) _ s rfl

theorem voidAll_not_running {e : Nat} (he : e < 16) (hsel : ∀ x, sel x = true) :
    ((voidAll sel cause s).ctx e).state ≠ .running := by
  by_cases h : s.struck sel e
  · obtain ⟨u, -, -, hu⟩ := (ctx_voidAll s sel cause e).2 h
    rw [hu]
    exact takeOutcome_state _ _ _ _
  · rw [(ctx_voidAll s sel cause e).1 h]
    exact fun hr => h ⟨he, hr, hsel _⟩

theorem voidAll_owes {e : Nat} (h : s.struck sel e) : (voidAll sel cause s).engine.checkOwed = true := by
  have key : ∀ (l : List Nat) (t : State),
      (t.engine.checkOwed = true ∨ (l.Nodup ∧ e ∈ l ∧ (t.ctx e).state = .running)) →
      (l.foldl (fun s c => takeOutcome c (.void cause) none s) t).engine.checkOwed = true := by
    intro l
    induction l with
    | nil => exact fun t ht => ht.resolve_right fun h => by simp at h
    | cons a l ih =>
      intro t ht
      refine ih _ ?_
      rcases ht with ht | ⟨hn, he, hr⟩
      · exact .inl (takeOutcome_owes t a _ _ (.inr ht))
      · by_cases hea : e = a
        · subst hea
          exact .inl (takeOutcome_owes t e _ _ (.inl hr))
        · obtain ⟨-, hn⟩ := List.nodup_cons.1 hn
          exact .inr ⟨hn, by simpa [hea] using he, by rw [ctx_takeOutcome_ne _ _ _ _ hea]; exact hr⟩
  refine key _ s (.inr ⟨List.nodup_range.filter _, ?_, h.2.1⟩)
  simp [h.1, h.2.1, h.2.2, ctxNumbers]

theorem travelDependent_iff (x : Context) : travelDependent x = true ↔ onLoop x := by
  simp only [travelDependent, onLoop, Bool.or_eq_true, Bool.and_eq_true, decide_eq_true_eq]
  tauto

end Outcomes

end Sys2Proof.Machine

/-! PROOFS. Voids and checks together: in states where nothing can start, and where the tracker is out of TRACKING, so
that drives alone can (R94, R96, R101, R103, R104). -/

namespace Sys2Proof.Machine

open Sys2Proof

/-! ### Where nothing can start -/

section Barred

variable {s t : State}

theorem barred_of_steadyPart (h : t.steadyPart = s.steadyPart) (hs : s.barred) : t.barred := by
  have hstop : t.engine.stop = s.engine.stop := by have h := congrArg (fun v => v.engine.stop) h; exact h
  have hring : t.engine.ring = s.engine.ring := by have h := congrArg (fun v => v.engine.ring) h; exact h
  unfold State.barred
  rw [hstop, hring]
  exact hs

theorem haltReason_of_steadyPart (h : t.steadyPart = s.steadyPart) : t.haltReason = s.haltReason := by
  have hstop : t.engine.stop = s.engine.stop := by have h := congrArg (fun v => v.engine.stop) h; exact h
  unfold State.haltReason
  rw [hstop]

variable {sel : Context → Bool} {cause : VoidCause} {e : Nat}

/-- The voids of a barred state and the check that they call for: a struck context of which the proof goes on. -/
theorem check_voidAll_voided (hs : s.barred) (hc : cause ≠ .stop) (h : s.struck sel e) (hl : (s.ctx e).limitVoids < 7) :
    voided cause s.haltReason s.time (s.ctx e) ((check (voidAll sel cause s)).ctx e) := by
  obtain ⟨u, hu, hsteady, hv⟩ := (ctx_voidAll s sel cause e).2 h
  have hrun : (u.ctx e).state = .running := by rw [hu]; exact h.2.1
  have hd := decideProof_void_none (x := u.ctx e) (cause := cause) (.inl (by rw [hu]; exact hl))
  rw [ctx_takeOutcome_goesOn u e _ _ hrun hd] at hv
  rw [ctx_check_barred (barred_of_steadyPart (voidAll_steadyPart s sel cause) hs), if_pos h.1,
    haltReason_of_steadyPart (voidAll_steadyPart s sel cause), hv]
  exact voided_halt hc hu (time_of_steadyPart hsteady) (Context.halt_of_paused rfl)

/-- A running context that is not struck goes on untouched. -/
theorem ctx_check_voidAll_running (hs : s.barred) (hr : (s.ctx e).state = .running) (h : ¬ s.struck sel e) :
    (check (voidAll sel cause s)).ctx e = s.ctx e := by
  rw [ctx_check_barred (barred_of_steadyPart (voidAll_steadyPart s sel cause) hs), (ctx_voidAll s sel cause e).1 h,
    Context.halt_of_not_paused (by rw [hr]; exact nofun), ite_self]

theorem settle_of_owed (h : s.engine.checkOwed = true) : settle s = check s := if_pos h

theorem settle_voidAll_voided (hs : s.barred) (hc : cause ≠ .stop) (h : s.struck sel e)
    (hl : (s.ctx e).limitVoids < 7) :
    voided cause s.haltReason s.time (s.ctx e) ((settle (voidAll sel cause s)).ctx e) := by
  rw [settle_of_owed (voidAll_owes s sel cause h)]
  exact check_voidAll_voided hs hc h hl

theorem ctx_settle_voidAll_running (hs : s.barred) (hr : (s.ctx e).state = .running) (h : ¬ s.struck sel e) :
    (settle (voidAll sel cause s)).ctx e = s.ctx e := by
  unfold settle
  split
  · exact ctx_check_voidAll_running hs hr h
  · exact (ctx_voidAll s sel cause e).1 h

end Barred

/-! ### Machine Stop (R101, R103) -/

section Stops

variable (s : State)

theorem ctx_payCheck (c : Nat) : s.payCheck.ctx c = s.ctx c := rfl

theorem steadyPart_payCheck : s.payCheck.steadyPart = s.steadyPart := rfl

theorem recordStop_eq (c : Nat) :
    SameButReasons s (recordStop s c) ∧ ∀ e, (recordStop s c).ctx e = if e = c then (s.ctx c).halt .stop else s.ctx e := by
  unfold recordStop
  by_cases h : (s.ctx c).state = .paused
  · rw [if_pos h]
    refine ⟨⟨rfl, fun e => ?_⟩, fun e => ?_⟩
    · rw [ctx_mapCtx]
      split
      · rename_i he; subst he; exact ⟨.stop, rfl⟩
      · exact ⟨(s.ctx e).reason, rfl⟩
    · rw [ctx_mapCtx, Context.halt_of_paused h]
  · rw [if_neg h]
    refine ⟨⟨rfl, fun e => ⟨(s.ctx e).reason, rfl⟩⟩, fun e => ?_⟩
    split
    · rename_i he; subst he; exact (if_neg h).symm
    · rfl

theorem sameButStimuli_quiet (c : Nat) : sameButStimuli s (quiet s c) := by
  unfold quiet
  split
  · exact sameButStimuli_askInactive c _ s
  · exact .refl s

/-- The assertion of Machine Stop leaves of each context what the voids leave, with reason STOP where it is PAUSED. -/
theorem ctx_assertStop {c : Nat} (hc : c < 16) :
    (assertStop s).ctx c
      = ((voidAll (fun _ => true) .stop (s.mapEngine fun e => { e with stop := true })).ctx c).halt .stop := by
  unfold assertStop
  extract_lets s1 s2 s3
  have hq : sameButStimuli s3 (ctxNumbers.foldl quiet s3) :=
    foldl_keeps (P := sameButStimuli s3) (fun u c hu => hu.trans (sameButStimuli_quiet u c)) _ s3 (.refl s3)
  have h3 := ctx_foldl_own (P := fun _ => True) (fun _ _ _ => trivial)
    (fun u c e _ he => ((recordStop_eq u c).2 e).trans (if_neg he)) ctxNumbers List.nodup_range s2 trivial c
  obtain ⟨u, -, hu, hv⟩ := h3.2 (by simpa [ctxNumbers] using hc)
  rw [ctx_payCheck, hq.ctx, show s3 = ctxNumbers.foldl recordStop s2 from rfl, hv, (recordStop_eq u c).2, if_pos rfl, hu]

theorem steadyPart_assertStop :
    (assertStop s).steadyPart = State.steadyPart { s with engine := { s.engine with stop := true } } := by
  unfold assertStop
  extract_lets s1 s2 s3
  have h := steady_closed s1.steadyPart
  have h2 : s2.steadyPart = s1.steadyPart := voidAll_steadyPart s1 _ _
  have h3 : s3.steadyPart = s1.steadyPart := by
    refine foldl_keeps (P := fun u => u.steadyPart = s1.steadyPart) (fun u c hu => ?_) ctxNumbers s2 h2
    unfold recordStop
    split
    · exact h.ctx _ _ _ hu
    · exact hu
  have h4 : (ctxNumbers.foldl quiet s3).steadyPart = s1.steadyPart := by
    refine foldl_keeps (P := fun u => u.steadyPart = s1.steadyPart) (fun u c hu => ?_) ctxNumbers s3 h3
    unfold quiet
    split
    · exact h.askInactive _ _ _ hu
    · exact hu
  rw [steadyPart_payCheck, h4]
  rfl

end Stops

/-- Settles O46: the voids of an assertion with its reason, and the one pass of a release. -/
theorem machineStopVoidsTrials : Obligations.MachineStopVoidsTrials := by
  intro s
  refine ⟨fun h => next_congr (if_pos h), fun h => next_congr (if_neg (by rw [h]; exact Bool.false_ne_true)),
    fun h => ?asserted, fun h => ?released⟩
  case asserted =>
    refine ⟨assertStop s, next_congr (if_neg (by rw [h]; exact Bool.false_ne_true)), steadyPart_assertStop s,
      fun c hc => ?_, fun c hc hr hl => ?_⟩
    · rw [ctx_assertStop s hc, Context.halt_state]
      exact ⟨voidAll_not_running _ _ _ hc fun _ => rfl, fun hp => by rw [Context.halt_of_paused hp]⟩
    · obtain ⟨u, hu, -, hv⟩ := (ctx_voidAll (s.mapEngine fun e => { e with stop := true }) (fun _ => true) .stop c).2
        ⟨hc, hr, rfl⟩
      have hu : u.ctx c = s.ctx c := hu
      rw [ctx_takeOutcome_goesOn u c _ _ (by rw [hu]; exact hr)
        (decideProof_void_none (.inr ⟨rfl, by rw [hu]; exact hl⟩)), counted_eq, hu] at hv
      rw [ctx_assertStop s hc, hv, Context.halt_of_paused rfl]
      exact ⟨rfl, rfl, rfl, rfl, rfl, rfl⟩
  case released =>
    intro freed
    refine ⟨check freed, next_congr (if_pos h), (steady_closed freed.steadyPart).check _ rfl, fun hfail c hc => ?_⟩
    rw [ctx_check_stuck (s := freed) hfail, if_pos hc]
    rfl

/-! ### Where drives alone can start (R94) -/

section Untracked

variable {s : State}

/-- Out of TRACKING the conditions STOP, RING and TRACK keep every context but a drive's from a start. -/
theorem firstFail_of_untracked (h : s.engine.track ≠ .tracking) {x : Context} (hk : x.kind ≠ .drive) :
    s.firstFail x =
      some (if s.engine.stop then .stop else if s.engine.ring = .good then .track else .ring) := by
  unfold State.firstFail startOrder
  cases hs : s.engine.stop with
  | true => simp [State.holds, hs]
  | false =>
    by_cases hr : s.engine.ring = .good
    · simp [State.holds, hs, hr, hk, h]
    · simp [State.holds, hs, hr]

theorem joinScan_engine (ch : Option Nat) (s : State) : (joinScan ch s).engine = s.engine := by cases ch <;> rfl

theorem joinScan_sched (ch : Option Nat) (s : State) : (joinScan ch s).sched = s.sched := by cases ch <;> rfl

/-- The start of a drive trial touches its own context alone of the Proof Engine. -/
theorem startDrive_engine (c : Nat) (s : State) :
    (startDrive c s).engine = { s.engine with contexts := (startDrive c s).engine.contexts } := by
  unfold startDrive
  dsimp only
  split
  · rfl
  · rw [(sameButStimuli_askInactive c _ _).engine, joinScan_engine]
    rfl

theorem ctx_startDrive_ne {c e : Nat} (h : e ≠ c) (s : State) : (startDrive c s).ctx e = s.ctx e := by
  unfold startDrive
  dsimp only
  split
  · rfl
  · rw [(sameButStimuli_askInactive c _ _).ctx, State.ctx, joinScan_engine]
    exact ctx_setCtx_ne s _ h

/-- The Proof Engine is as in `s` but for its contexts. -/
def SameButContexts (s u : State) : Prop := u.engine = { s.engine with contexts := u.engine.contexts }

theorem SameButContexts.trans {u v : State} (h1 : SameButContexts s u) (h2 : SameButContexts u v) : SameButContexts s v := by
  unfold SameButContexts at *
  rw [h1] at h2
  exact h2

/-- Out of TRACKING the examination of a context records a reason, or starts a drive trial. -/
theorem examineCtx_untracked (h : s.engine.track ≠ .tracking) (c : Nat) :
    SameButContexts s (examineCtx c s) ∧ (∀ e, e ≠ c → (examineCtx c s).ctx e = s.ctx e)
      ∧ ((s.ctx c).state ≠ .paused → (examineCtx c s).ctx c = s.ctx c)
      ∧ ((s.ctx c).state = .paused → (s.ctx c).kind ≠ .drive →
        (examineCtx c s).ctx c = { s.ctx c with
          reason := if s.engine.stop then .stop else if s.engine.ring = .good then .track else .ring }) := by
  by_cases hp : (s.ctx c).state = .paused
  · cases hf : s.firstFail (s.ctx c) with
    | some r =>
      have he : examineCtx c s = s.setCtx c { s.ctx c with reason := r } := by rw [examineCtx, if_pos hp, hf]
      rw [he]
      refine ⟨rfl, fun e hne => ctx_setCtx_ne s _ hne, fun hn => absurd hp hn, fun _ hk => ?_⟩
      rw [ctx_setCtx_self]
      rw [firstFail_of_untracked h hk] at hf
      rw [Option.some.inj hf]
    | none =>
      have hk : (s.ctx c).kind = .drive := by
        by_contra hk
        rw [firstFail_of_untracked h hk] at hf
        cases hf
      have he : examineCtx c s = startDrive c s := by
        rw [examineCtx, if_pos hp, hf]
        show startTrial c s = _
        rw [startTrial, hk]
      rw [he]
      exact ⟨startDrive_engine c s, fun e hne => ctx_startDrive_ne hne s, fun hn => absurd hp hn,
        fun _ hn => absurd hk hn⟩
  · have he : examineCtx c s = s := by rw [examineCtx, if_neg hp]
    rw [he]
    exact ⟨rfl, fun _ _ => rfl, fun _ => rfl, fun hn => absurd hn hp⟩

/-- Out of TRACKING every step of a pass examines its context. -/
theorem passStep_untracked (h : s.engine.track ≠ .tracking) {u : State} (hu : SameButContexts s.payCheck u) (a : Nat) :
    (if u.engine.checkOwed then u else examineCtx a u) = examineCtx a u ∧ u.engine.track ≠ .tracking
      ∧ SameButContexts s.payCheck (examineCtx a u) := by
  have ho : u.engine.checkOwed = false := by rw [show u.engine = _ from hu]; rfl
  have ht : u.engine.track ≠ .tracking := by rw [show u.engine = _ from hu]; exact h
  exact ⟨by rw [ho]; rfl, ht, hu.trans (examineCtx_untracked ht a).1⟩

/-- A check out of TRACKING is one pass, and keeps what every examination keeps. -/
theorem check_untracked (h : s.engine.track ≠ .tracking) {P : State → Prop}
    (hP : ∀ u c, u.engine.track ≠ .tracking → P u → P (examineCtx c u)) (hs : P s.payCheck) :
    check s = checkPass s ∧ P (check s) := by
  have hpass := foldl_keeps (P := fun u => SameButContexts s.payCheck u ∧ P u)
    (f := fun u a => if u.engine.checkOwed then u else examineCtx a u) (fun u a ⟨hu, hp⟩ => by
      obtain ⟨he, ht, hsame⟩ := passStep_untracked h hu a
      rw [he]
      exact ⟨hsame, hP u a ht hp⟩) ctxNumbers s.payCheck ⟨rfl, hs⟩
  have hcheck : check s = checkPass s := by
    have ho : (checkPass s).engine.checkOwed = false := by
      rw [show (checkPass s).engine = _ from hpass.1]; rfl
    rw [check, checkLoop, ho]
    rfl
  rw [hcheck]
  exact ⟨rfl, hpass.2⟩

/-- After a check out of TRACKING running contexts stand, and a PAUSED one that is no drive's has its reason. -/
theorem ctx_check_untracked (h : s.engine.track ≠ .tracking) {c : Nat} (hc : c < 16) :
    ((s.ctx c).state ≠ .paused → (check s).ctx c = s.ctx c)
      ∧ ((s.ctx c).state = .paused → (s.ctx c).kind ≠ .drive →
        (check s).ctx c = { s.ctx c with
          reason := if s.engine.stop then .stop else if s.engine.ring = .good then .track else .ring }) := by
  have hown := ctx_foldl_own (P := SameButContexts s.payCheck)
    (f := fun u a => if u.engine.checkOwed then u else examineCtx a u)
    (fun u a hu => by
      rw [(passStep_untracked h hu a).1]
      exact (passStep_untracked h hu a).2.2)
    (fun u a e hu he => by
      obtain ⟨hstep, ht, -⟩ := passStep_untracked h hu a
      rw [hstep]
      exact (examineCtx_untracked ht a).2.1 e he)
    ctxNumbers List.nodup_range s.payCheck rfl c
  obtain ⟨u, hu, hctx, hv⟩ := hown.2 (by simpa [ctxNumbers] using hc)
  have hctx : u.ctx c = s.ctx c := hctx
  obtain ⟨hstep, ht, -⟩ := passStep_untracked h hu c
  obtain ⟨-, -, hstands, hreason⟩ := examineCtx_untracked ht c
  rw [hstep] at hv
  rw [(check_untracked h (P := fun _ => True) (fun _ _ _ _ => trivial) trivial).1]
  refine ⟨fun hn => ?_, fun hp hk => ?_⟩
  · exact hv.trans ((hstands (by rw [hctx]; exact hn)).trans hctx)
  · refine hv.trans ((hreason (by rw [hctx]; exact hp) (by rw [hctx]; exact hk)).trans ?_)
    rw [hctx, show u.engine = _ from hu]
    rfl

theorem startDrive_sched (c : Nat) (s : State) : (startDrive c s).sched = s.sched := by
  unfold startDrive
  dsimp only
  split
  · rfl
  · rw [(sameButStimuli_askInactive c _ _).sched, joinScan_sched]
    rfl

/-- A check out of TRACKING takes no aim. -/
theorem check_untracked_sched (h : s.engine.track ≠ .tracking) : (check s).sched = s.sched := by
  refine (check_untracked h (P := fun u => u.sched = s.sched) (fun u c ht hu => ?_) rfl).2
  unfold examineCtx
  dsimp only
  split
  · cases hf : u.firstFail (u.ctx c) with
    | some r => exact hu
    | none =>
      have hk : (u.ctx c).kind = .drive := by
        by_contra hk
        rw [firstFail_of_untracked ht hk] at hf
        cases hf
      rw [show startTrial c u = startDrive c u by rw [startTrial, hk]]
      exact (startDrive_sched c u).trans hu
  · exact hu

end Untracked

end Sys2Proof.Machine

/-! PROOFS. Illegal transitions, and the geometry that an order applies: the reports with the voids that they bring
(R3 to R5, R10, R14, R104, R111). -/

namespace Sys2Proof.Machine

open Sys2Proof

section Reports

variable {s t u : State}

theorem ctx_noticeAll (k : Nat) (b : List Byte) (s : State) (c : Nat) : (noticeAll k b s).ctx c = s.ctx c := by
  rw [State.ctx, noticeAll_engine]; rfl

theorem noticeAll_sched (k : Nat) (b : List Byte) (s : State) : (noticeAll k b s).sched = s.sched := rfl

theorem reportTrack_of_left (h : s.engine.track = .tracking) (hl : s.tracker.state ≠ .tracking) :
    reportTrack s =
      check (voidAll travelDependent .track (s.mapEngine fun e => { e with track := s.tracker.state })) := by
  unfold reportTrack
  simp only [h, hl, ne_eq, not_false_eq_true, decide_true, Bool.and_self, if_true]

theorem reportTrack_of_out (h : s.engine.track ≠ .tracking) :
    reportTrack s = check (s.mapEngine fun e => { e with track := s.tracker.state }) := by
  unfold reportTrack
  simp only [h, decide_false, Bool.false_and, Bool.false_eq_true, if_false]

/-- The tracker leaves TRACKING: a struck context of which the proof goes on has the first of STOP, RING and TRACK
for its reason. -/
theorem reportTrack_voided (h : s.engine.track = .tracking) (hl : s.tracker.state ≠ .tracking) {c : Nat} (hc : c < 16)
    (hr : (s.ctx c).state = .running) (hx : onLoop (s.ctx c)) (hv : (s.ctx c).limitVoids < 7) :
    voided .track (if s.engine.stop then .stop else if s.engine.ring = .good then .track else .ring) s.time (s.ctx c)
      ((reportTrack s).ctx c) := by
  let v := s.mapEngine fun e => { e with track := s.tracker.state }
  obtain ⟨u, hu, hsteady, hw⟩ := (ctx_voidAll v travelDependent .track c).2 ⟨hc, hr, (travelDependent_iff _).2 hx⟩
  have hu : u.ctx c = s.ctx c := hu
  rw [ctx_takeOutcome_goesOn u c _ _ (by rw [hu]; exact hr)
    (decideProof_void_none (.inl (by rw [hu]; exact hv)))] at hw
  have hall := voidAll_steadyPart v travelDependent .track
  have hengine : ∀ {α : Type} (f : Engine → α), (∀ e : Engine, f { e with contexts := [], carriers := [], checkOwed := false } = f e) →
      f (voidAll travelDependent .track v).engine = f v.engine := fun f hf => by
    have h := congrArg (fun w : State => f w.engine) hall
    rw [← hf (voidAll travelDependent .track v).engine, ← hf v.engine]
    exact h
  have htrack : (voidAll travelDependent .track v).engine.track ≠ .tracking := by
    rw [hengine (·.track) fun _ => rfl]; exact hl
  have hkind : (s.ctx c).kind ≠ .drive := by
    rcases hx with hk | ⟨hk, -⟩ <;> rw [hk] <;> exact nofun
  have hcheck := (ctx_check_untracked htrack hc).2 (by rw [hw]) (by rw [hw, counted_eq, countOutcome_eq, hu]; exact hkind)
  rw [hengine (·.stop) fun _ => rfl, hengine (·.ring) fun _ => rfl, hw] at hcheck
  rw [reportTrack_of_left h hl, hcheck]
  exact voided_halt nofun hu (time_of_steadyPart (s := v) hsteady) rfl

/-- A running trial that does not depend on the loop position goes on untouched. -/
theorem ctx_reportTrack_running (h : s.engine.track = .tracking) (hl : s.tracker.state ≠ .tracking) {c : Nat} (hc : c < 16)
    (hr : (s.ctx c).state = .running) (hx : ¬ onLoop (s.ctx c)) : (reportTrack s).ctx c = s.ctx c := by
  let v := s.mapEngine fun e => { e with track := s.tracker.state }
  have hw : (voidAll travelDependent .track v).ctx c = s.ctx c :=
    (ctx_voidAll v travelDependent .track c).1 fun hs => hx ((travelDependent_iff _).1 hs.2.2)
  have htrack : (voidAll travelDependent .track v).engine.track ≠ .tracking := by
    have h := congrArg (fun w : State => w.engine.track) (voidAll_steadyPart v travelDependent .track)
    have h : (voidAll travelDependent .track v).engine.track = s.tracker.state := h
    rw [h]; exact hl
  rw [reportTrack_of_left h hl, (ctx_check_untracked htrack hc).1 (by rw [hw, hr]; exact nofun), hw]

end Reports

/-- Settles O30: the fourth in the count enters FAULTED, of which the report brings the voids. -/
theorem illegalTransitionCounts : Obligations.IllegalTransitionCounts := by
  intro s
  dsimp only
  refine ⟨fun h => next_congr (if_neg ?_), fun h3 hstate => ?_⟩
  · show ¬ (min 4 (s.tracker.illegal + 1) = 4 ∧ (s.tracker.state = .unhomed ∨ s.tracker.state = .tracking))
    rintro ⟨h4, hs⟩
    rcases h with h | h | h
    · omega
    · rw [h] at hs; rcases hs with hs | hs <;> cases hs
    · rw [h] at hs; rcases hs with hs | hs <;> cases hs
  · let u := (moveLevels (fun l => (!l.1, !l.2)) s).mapTracker fun t => { t with illegal := capAdd 4 t.illegal 1 }
    have he : illegal (moveLevels (fun l => (!l.1, !l.2)) s) = enterFault .encoder .none u := by
      refine if_pos ⟨?_, hstate⟩
      show min 4 (s.tracker.illegal + 1) = 4
      omega
    let v := (u.mapTracker fun t =>
      { t with fault := some { cause := .encoder, time := u.time, detail := .none } }).mapTracker fun t =>
      { t with state := .faulted }
    have hctx : ∀ c, (enterFault .encoder .none u).ctx c = (reportTrack v).ctx c := fun c => ctx_noticeAll _ _ _ c
    refine ⟨enterFault .encoder .none u, next_congr he, enterFault_notified (s := u) .encoder .none rfl unproving_of_noProof,
      ?_, fun htrack c hc hr => ⟨fun hx hl => ?_, fun hx => ?_⟩⟩
    · rw [steadyPart_enterFault]
      rfl
    · rw [hctx]
      exact reportTrack_voided (s := v) htrack nofun hc hr hx hl
    · rw [hctx]
      exact ctx_reportTrack_running (s := v) htrack nofun hc hr hx

/-! ### A geometry that is applied (R5, R10) -/

section Applied

variable {s t u : State}

theorem steadyPart_reportGeometry (s : State) : (reportGeometry s).steadyPart = s.steadyPart := by
  refine (steady_closed s.steadyPart).settle _ ?_
  exact voidAll_steadyPart (s.mapSched fun q => { q with history := [] }) _ _

theorem toldOutcomes_updateMoving (h : u.toldOutcomes s) : u.toldOutcomes (updateMoving s) := by
  unfold updateMoving
  dsimp only
  split
  · exact h
  · exact (toldOutcomes_closed u).check _ h

theorem toldOutcomes_reportGeometry (h : u.toldOutcomes s) : u.toldOutcomes (reportGeometry s) := by
  have hc := toldOutcomes_closed u
  refine hc.settle _ (foldl_keeps (fun v c hv => hc.takeOutcome _ _ _ v hv) _ _ ?_)
  exact h

/-- With no proof in progress the moving flag is recorded and nothing else happens. -/
theorem updateMoving_unproving (h : s.unproving) : (updateMoving s).unproving ∧ (updateMoving s).links = s.links := by
  unfold updateMoving
  dsimp only
  split
  · exact ⟨h, rfl⟩
  · rw [check_unproving (by exact h)]
    exact ⟨h, rfl⟩

theorem reportGeometry_unproving (h : s.unproving) : (reportGeometry s).unproving ∧ (reportGeometry s).links = s.links := by
  unfold reportGeometry
  rw [voidAll_unproving (by exact h), settle_eq _ (by exact h.1)]
  exact ⟨h, rfl⟩

theorem sched_history_settle (hs : s.engine.track ≠ .tracking) : (settle s).sched.history = s.sched.history := by
  unfold settle
  split
  · rw [check_untracked_sched hs]
  · rfl

/-- Out of TRACKING the report of a geometry leaves the pacing history empty. -/
theorem reportGeometry_history (hs : s.engine.track ≠ .tracking) : (reportGeometry s).sched.history = [] := by
  let v := s.mapSched fun q => { q with history := [] }
  have htrack : (voidAll travelDependent .geometry v).engine.track = s.engine.track := by
    have h := congrArg (fun w : State => w.engine.track) (voidAll_steadyPart v travelDependent .geometry)
    exact h
  unfold reportGeometry
  rw [sched_history_settle (s := voidAll travelDependent .geometry v) (by rw [htrack]; exact hs), voidAll_history]
  rfl

/-- The voids of a geometry where nothing can start. -/
theorem reportGeometry_contexts (hb : s.barred) {c : Nat} (hc : c < 16) (hr : (s.ctx c).state = .running) :
    (onLoop (s.ctx c) → (s.ctx c).limitVoids < 7 →
      voided .geometry s.haltReason s.time (s.ctx c) ((reportGeometry s).ctx c))
      ∧ (¬ onLoop (s.ctx c) → (reportGeometry s).ctx c = s.ctx c) := by
  let v := s.mapSched fun q => { q with history := [] }
  have hstruck : v.struck travelDependent c ↔ onLoop (s.ctx c) :=
    ⟨fun h => (travelDependent_iff _).1 h.2.2, fun h => ⟨hc, hr, (travelDependent_iff _).2 h⟩⟩
  refine ⟨fun hx hl => settle_voidAll_voided (s := v) hb nofun (hstruck.2 hx) hl, fun hx => ?_⟩
  exact ctx_settle_voidAll_running (s := v) hb hr fun h => hx (hstruck.1 h)

theorem updateMoving_barred (hb : s.barred) : (updateMoving s).barred ∧ (updateMoving s).haltReason = s.haltReason
    ∧ ∀ c, (s.ctx c).state = .running → (updateMoving s).ctx c = s.ctx c := by
  have hstop : (updateMoving s).engine.stop = s.engine.stop := by
    have h := congrArg (fun v => v.engine.stop) (steadyPart_updateMoving s); exact h
  have hring : (updateMoving s).engine.ring = s.engine.ring := by
    have h := congrArg (fun v => v.engine.ring) (steadyPart_updateMoving s); exact h
  refine ⟨by rw [State.barred, hstop, hring]; exact hb, by rw [State.haltReason, hstop]; rfl, fun c hr => ?_⟩
  unfold updateMoving
  dsimp only
  split
  · rfl
  · refine (ctx_check_barred ?_ c).trans ?_
    · exact hb
    · have hsame : ((s.mapTracker fun t => { t with moving := movingOf s.tracker.speed s.tracker.active.vMin }).mapEngine
          fun e => { e with moving := movingOf s.tracker.speed s.tracker.active.vMin }).ctx c = s.ctx c := rfl
      rw [hsame, Context.halt_of_not_paused (by rw [hr]; exact nofun), ite_self]

theorem steadyPart_noticeApplied (s : State) : (noticeTrack .applied (reportGeometry s)).steadyPart = s.steadyPart := by
  rw [noticeTrack, steadyPart_noticeAll, steadyPart_reportGeometry]

/-- The notice of an applied geometry stands behind the outcomes that it brings. -/
theorem noticeApplied_notified (told : u.toldOutcomes s) (quiet : u.noProof → s.links = u.links ∧ s.unproving) :
    u.notified (noticeTrack .applied (reportGeometry s)) 0x63
      (trackBody s.tracker.state (s.tracker.fault.map (·.cause)) 1 s.time) := by
  have body : trackNotice (reportGeometry s) .applied
      = trackBody s.tracker.state (s.tracker.fault.map (·.cause)) 1 s.time := by
    rw [trackNotice, tracker_of_steadyPart (s := s) (steadyPart_reportGeometry s),
      time_of_steadyPart (s := s) (steadyPart_reportGeometry s)]
    cases s.tracker.fault <;> rfl
  unfold noticeTrack
  rw [body]
  refine notified_noticeAll _ _ (toldOutcomes_reportGeometry told) fun hu => ?_
  rw [(reportGeometry_unproving (quiet hu).2).2, (quiet hu).1]

end Applied

/-! ### Set Geometry (R3 to R5) -/

section SetGeometry

variable {s : State} {g : Geometry}

/-- The tracker with the set active; UNSET becomes UNHOMED (R5). -/
def Tracker.place (g : Geometry) (t : Tracker) : Tracker :=
  { t with
    active := g, staged := none, pos := 0, backlash := min t.backlash g.revAllow
    state := if decide (t.state = .unset) then .unhomed else t.state }

/-- The set stands and the moving flag and the tracker state are reported, ahead of the geometry event (R5, R10). -/
def State.geometryReported (s : State) (g : Geometry) : State :=
  if decide (s.tracker.state = .unset) then reportTrack (updateMoving (s.mapTracker (·.place g)))
  else updateMoving (s.mapTracker (·.place g))

theorem applyNow_eq (s : State) (g : Geometry) :
    applyNow g s = noticeTrack .applied (reportGeometry (s.geometryReported g)) := rfl

/-- What the report of the tracker state leaves, by the steady part of the state it is made in. -/
theorem steadyPart_reportTrack_congr (h : t.steadyPart = s.steadyPart) :
    (reportTrack t).steadyPart
      = State.steadyPart { s with engine := { s.engine with track := s.tracker.state } } := by
  rw [steadyPart_reportTrack]
  have h := congrArg (fun v : State => { v with engine := { v.engine with track := v.tracker.state } }) h
  exact h

theorem steadyPart_geometryReported :
    (s.geometryReported g).steadyPart = State.steadyPart
      { s with
        tracker :=
          { s.tracker with
            active := g, staged := none, pos := 0, backlash := min s.tracker.backlash g.revAllow
            moving := movingOf s.tracker.speed g.vMin
            state := if s.tracker.state = .unset then .unhomed else s.tracker.state }
        engine :=
          { s.engine with
            track := if s.tracker.state = .unset then .unhomed else s.engine.track
            moving :=
              if movingOf s.tracker.speed g.vMin = s.tracker.moving then s.engine.moving
              else movingOf s.tracker.speed g.vMin } } := by
  have hmoved := steadyPart_updateMoving (s.mapTracker (·.place g))
  unfold State.geometryReported
  by_cases h : s.tracker.state = .unset
  · rw [if_pos (by simpa using h), steadyPart_reportTrack_congr hmoved]
    simp only [Tracker.place, State.mapTracker, State.steadyPart, h, decide_true, if_true]
  · rw [if_neg (by simpa using h), hmoved]
    simp only [Tracker.place, State.mapTracker, State.steadyPart, h, decide_false, if_false, Bool.false_eq_true]

theorem toldOutcomes_geometryReported : s.toldOutcomes (s.geometryReported g) := by
  have hplaced : s.toldOutcomes (updateMoving (s.mapTracker (·.place g))) := toldOutcomes_updateMoving (toldOutcomes_of_links rfl)
  unfold State.geometryReported
  split
  · exact (toldOutcomes_closed s).reportTrack _ hplaced
  · exact hplaced

theorem geometryReported_unproving (h : s.unproving) :
    (s.geometryReported g).links = s.links ∧ (s.geometryReported g).unproving := by
  obtain ⟨hun, hlinks⟩ := updateMoving_unproving (s := s.mapTracker (·.place g)) h
  unfold State.geometryReported
  split
  · rw [reportTrack_unproving hun]
    exact ⟨hlinks, hun⟩
  · exact ⟨hlinks, hun⟩

/-- Out of TRACKING the reports before the geometry event touch no running context where nothing can start. -/
theorem geometryReported_barred (hb : s.barred) (ht : s.engine.track ≠ .tracking) :
    (s.geometryReported g).barred ∧ (s.geometryReported g).haltReason = s.haltReason
      ∧ ∀ c, (s.ctx c).state = .running → (s.geometryReported g).ctx c = s.ctx c := by
  obtain ⟨hbar, hreason, hctx⟩ := updateMoving_barred (s := s.mapTracker (·.place g)) hb
  unfold State.geometryReported
  split
  · have htrack : (updateMoving (s.mapTracker (·.place g))).engine.track ≠ .tracking := by
      have h := congrArg (fun v : State => v.engine.track) (steadyPart_updateMoving (s.mapTracker (·.place g)))
      have h : (updateMoving (s.mapTracker (·.place g))).engine.track = s.engine.track := h
      rw [h]; exact ht
    have hsteady := steadyPart_reportTrack (updateMoving (s.mapTracker (·.place g)))
    have hstop : (reportTrack (updateMoving (s.mapTracker (·.place g)))).engine.stop
        = (updateMoving (s.mapTracker (·.place g))).engine.stop := by
      have h := congrArg (fun v => v.engine.stop) hsteady; exact h
    have hring : (reportTrack (updateMoving (s.mapTracker (·.place g)))).engine.ring
        = (updateMoving (s.mapTracker (·.place g))).engine.ring := by
      have h := congrArg (fun v => v.engine.ring) hsteady; exact h
    refine ⟨by rw [State.barred, hstop, hring]; exact hbar, by rw [State.haltReason, hstop]; exact hreason, fun c hr => ?_⟩
    have hsame := hctx c hr
    rw [reportTrack_of_out htrack]
    refine (ctx_check_barred (s := (updateMoving (s.mapTracker (·.place g))).mapEngine fun e =>
      { e with track := (updateMoving (s.mapTracker (·.place g))).tracker.state }) hbar c).trans ?_
    have hrun : ((updateMoving (s.mapTracker (·.place g))).ctx c).state = .running := by rw [hsame]; exact hr
    have h : ((updateMoving (s.mapTracker (·.place g))).mapEngine fun e =>
      { e with track := (updateMoving (s.mapTracker (·.place g))).tracker.state }).ctx c = s.ctx c := hsame
    rw [h, Context.halt_of_not_paused (by rw [hr]; exact nofun), ite_self]
  · exact ⟨hbar, hreason, hctx⟩

/-- A set that is applied out of TRACKING: the pacing history is empty, and where nothing can start the trials on the
loop are voided and no other is touched (R104, R111). -/
theorem applyNow_untracked (ht : s.engine.track ≠ .tracking) :
    (applyNow g s).sched.history = []
      ∧ (s.barred → ∀ c < 16, (s.ctx c).state = .running →
        (onLoop (s.ctx c) → (s.ctx c).limitVoids < 7 →
          voided .geometry s.haltReason s.time (s.ctx c) ((applyNow g s).ctx c))
          ∧ (¬ onLoop (s.ctx c) → (applyNow g s).ctx c = s.ctx c)) := by
  have hsteady := steadyPart_geometryReported (s := s) (g := g)
  rw [applyNow_eq]
  refine ⟨?_, fun hb c hc hr => ?_⟩
  · refine reportGeometry_history (s := s.geometryReported g) ?_
    have h := congrArg (fun v : State => v.engine.track) hsteady
    have h : (s.geometryReported g).engine.track = if s.tracker.state = .unset then .unhomed else s.engine.track := h
    rw [h]
    split
    · exact nofun
    · exact ht
  · obtain ⟨hbar, hreason, hctx⟩ := geometryReported_barred (g := g) hb ht
    have hsame := hctx c hr
    have h := reportGeometry_contexts hbar hc (by rw [hsame]; exact hr)
    rw [hsame, hreason, time_of_steadyPart (s := { s with tracker := _, engine := _ }) hsteady] at h
    rw [noticeTrack, ctx_noticeAll]
    exact h

/-- The coordinates of a record that count against a geometry. -/
theorem mem_element_coords (e : Element) (x : Nat) :
    x ∈ e.definition.coord?.toList ++ (e.staged.bind Definition.coord?).toList ↔
      ∃ d, (d = e.definition ∨ e.staged = some d) ∧ d.coord? = some x := by
  simp only [List.mem_append, Option.mem_toList, Option.bind_eq_some_iff, or_and_right, exists_or, exists_eq_left]

/-- The checks of R3 steps 4 and 5 search the table and the map. -/
theorem not_geometryFits_iff (hcan : s.canonical = true) :
    s.geometryFits g = false ↔
      (∃ j d x, (d = (s.elem j).definition ∨ (s.elem j).staged = some d) ∧ d.coord? = some x ∧ g.length ≤ x)
        ∨ ∃ c, g.carriers.getD 0 ≤ c ∧ s.carrier c ≠ .free := by
  have hcarriers := Table.any_iff ((canonical_iff s).1 hcan).carriers
    (fun c r => decide (g.carriers.getD 0 ≤ c) && decide (r ≠ .free)) fun i => by simp
  have hrecords := any_record hcan (fun _ e =>
    (e.definition.coord?.toList ++ (e.staged.bind Definition.coord?).toList).any fun x => decide (g.length ≤ x))
    fun i => by simp [Definition.coord?]
  have hcoords : s.coords.all (fun c => decide (c < g.length)) = false ↔
      (s.table.records.any fun e => (e.2.definition.coord?.toList
        ++ (e.2.staged.bind Definition.coord?).toList).any fun x => decide (g.length ≤ x)) = true := by
    simp only [State.coords, List.all_eq_false, List.any_eq_true, List.mem_flatMap, decide_eq_true_eq, not_lt]
    exact ⟨fun ⟨x, ⟨e, he, hx⟩, hl⟩ => ⟨e, he, x, hx, hl⟩, fun ⟨e, he, x, hx, hl⟩ => ⟨x, ⟨e, he, hx⟩, hl⟩⟩
  have hmap : (s.engine.carriers.all fun e => decide (e.1 < g.carriers.getD 0) || decide (e.2 = .free)) = false ↔
      (s.engine.carriers.any fun e => decide (g.carriers.getD 0 ≤ e.1) && decide (e.2 ≠ .free)) = true := by
    rw [List.all_eq_false, List.any_eq_true]
    simp
  rw [State.geometryFits, Bool.and_eq_false_iff, hcoords, hrecords, hmap, hcarriers]
  simp only [List.any_eq_true, mem_element_coords, decide_eq_true_eq, Bool.and_eq_true]
  refine or_congr (exists_congr fun j => ?_) Iff.rfl
  exact ⟨fun ⟨x, ⟨d, hd, hx⟩, hl⟩ => ⟨d, x, hd, hx, hl⟩, fun ⟨d, x, hd, hx, hl⟩ => ⟨x, ⟨d, hd, hx⟩, hl⟩⟩

theorem orderInRange_iff (o : GeometryOrder) :
    orderInRange o = true ↔ 8 ≤ o.carriers ∧ o.carriers ≤ 512 ∧ 32 ≤ o.pitch ∧ o.pitch ≤ 4096
      ∧ o.carriers * o.pitch ≤ 2097152 ∧ o.home < o.carriers * o.pitch ∧ o.eye < o.carriers * o.pitch
      ∧ o.revAllow ≤ 255 ∧ o.homeTol ≤ 1023 ∧ 1 ≤ o.pitchTol ∧ o.pitchTol ≤ 1023 ∧ o.vMin ≤ 65535 ∧ 16 ≤ o.setup
      ∧ o.setup ≤ 65535 := by
  simp only [orderInRange, Bool.and_eq_true, within_iff, decide_eq_true_eq, and_assoc, Nat.zero_le, true_and]

end SetGeometry

section GeometryOrders

variable {s u : State} {p : Port} {k : Nat} {tag : Byte} {permitted : Port → Bool} {eff : State → State × List Byte}

/-- An effect that leaves the ports alone: its state stands in the end, beside the reply. -/
theorem takeOrder_of_links {l : List Byte} (hroom : s.room p) (hp : permitted p = true)
    (he : eff (s.entered p k tag) = (u, accepted l)) (hu : u.links = (s.entered p k tag).links) :
    takeOrder p permitted k tag eff s = { u with links := (s.replied p k tag (accepted l)).links } := by
  rw [State.entered] at he hu
  rw [takeOrder_taken k tag eff hroom hp, State.replied, replyWith, he]
  cases u
  dsimp only at hu ⊢
  subst hu
  cases p <;> simp [queueReply, State.mapLink, State.mapLinks, State.link]

theorem geometryEffect_of_fit {g : GeometryOrder} (hl : ¬ u.table.layoutFixed = true) (hr : orderInRange g = true)
    (hk : ¬ 7 < g.smooth) (hf : u.geometryFits (orderGeometry g) = true) :
    geometryEffect g u =
      if u.tracker.state = .tracking then
        (u.mapTracker fun t => { t with staged := some (orderGeometry g) }, accepted (be 1 1 ++ be 1 (min g.smooth 6)))
      else (applyNow (orderGeometry g) u, accepted (be 1 0 ++ be 1 (min g.smooth 6))) := by
  simp only [geometryEffect, hl, hr, hk, hf, Bool.not_true, Bool.false_eq_true, if_false]

theorem entered_geometryFits (s : State) (p : Port) (k : Nat) (tag : Byte) (g : Geometry) :
    (s.entered p k tag).geometryFits g = s.geometryFits g := by rw [entered_eq]; rfl

end GeometryOrders

/-- Settles O26: a set that passes the checks of R3 is written alone in TRACKING, and elsewhere reported with its
voids and told. -/
theorem setGeometryStagesOrApplies : Obligations.SetGeometryStagesOrApplies := by
  intro p tag g s hp hroom hcan
  dsimp only
  refine exec_decided (.setGeometry p tag g) rfl hroom hp ⟨fun h => refusesWith ?fixed, fun hl => ⟨fun h => refusesWith ?range,
    fun hr => ⟨fun h => refusesWith ?smooth, fun hk => ⟨fun h => refusesWith ?coord, fun hc => ⟨fun h => refusesWith ?map,
      fun hm => ?taken⟩⟩⟩⟩⟩
  case fixed => exact if_pos (by rw [entered_table]; exact h)
  case range =>
    have hr : orderInRange g = false := Bool.eq_false_iff.2 fun hr => h ((orderInRange_iff g).1 hr)
    simp only [geometryEffect, entered_table, hl, hr, Bool.not_false, Bool.false_eq_true, if_true, if_false]
  case smooth =>
    have hr := (orderInRange_iff g).2 (not_not.1 hr)
    simp only [geometryEffect, entered_table, hl, hr, h, Bool.not_true, Bool.false_eq_true, if_true, if_false]
  case coord =>
    have hr := (orderInRange_iff g).2 (not_not.1 hr)
    have hf := (not_geometryFits_iff (g := orderGeometry g) hcan).2 (.inl h)
    simp only [geometryEffect, entered_table, entered_geometryFits, hl, hr, hk, hf, Bool.not_true, Bool.not_false,
      Bool.false_eq_true, if_true, if_false]
  case map =>
    have hr := (orderInRange_iff g).2 (not_not.1 hr)
    have hf := (not_geometryFits_iff (g := orderGeometry g) hcan).2 (.inr h)
    simp only [geometryEffect, entered_table, entered_geometryFits, hl, hr, hk, hf, Bool.not_true, Bool.not_false,
      Bool.false_eq_true, if_true, if_false]
  case taken =>
    have hfit : s.geometryFits (orderGeometry g) = true := by
      by_contra hf
      rcases (not_geometryFits_iff hcan).1 (Bool.eq_false_iff.2 hf) with h | h
      · exact hc h
      · exact hm h
    have he := geometryEffect_of_fit (u := s.entered p 0x03 tag) (g := g) (by rw [entered_table]; exact hl)
      ((orderInRange_iff g).2 (not_not.1 hr)) hk (by rw [entered_geometryFits]; exact hfit)
    rw [entered_tracker] at he
    refine ⟨fun htr => ?staged, fun htr => ?applied⟩
    case staged =>
      rw [if_pos htr] at he
      refine next_congr ((takeOrder_of_links hroom hp he rfl).trans ?_)
      cases p <;> rfl
    case applied =>
      rw [if_neg htr] at he
      refine ⟨_, rfl, takeOrder_effect_answers hroom hp (answering_geometry g) he, ?told, ?steady, fun htrack => ⟨?history,
        fun hhalt c hc hrun => ?contexts⟩⟩
      all_goals rw [takeOrder_effect hroom hp he]
      case told =>
        have hsteady := steadyPart_geometryReported (s := s.entered p 0x03 tag) (g := orderGeometry g)
        have htime := time_of_steadyPart (s := { s.entered p 0x03 tag with tracker := _, engine := _ }) hsteady
        have htracker := tracker_of_steadyPart (s := { s.entered p 0x03 tag with tracker := _, engine := _ }) hsteady
        have hn := noticeApplied_notified (u := s.entered p 0x03 tag) toldOutcomes_geometryReported
          fun hu => geometryReported_unproving (g := orderGeometry g) (unproving_of_noProof hu)
        rw [htime, htracker] at hn
        dsimp only at hn
        rw [entered_tracker, entered_time] at hn
        exact notified_patched hn
      case steady =>
        rw [patched_steadyPart, applyNow_eq, steadyPart_noticeApplied, steadyPart_geometryReported]
        cases p <;> rfl
      case history =>
        rw [patched_sched]
        exact (applyNow_untracked (s := s.entered p 0x03 tag) (by rw [entered_engine]; exact htrack)).1
      case contexts =>
        have h := (applyNow_untracked (s := s.entered p 0x03 tag) (g := orderGeometry g)
          (by rw [entered_engine]; exact htrack)).2 (by rw [State.barred, entered_engine]; exact hhalt.2) c hc
          (by rw [entered_ctx]; exact hrun)
        rw [entered_ctx, entered_time] at h
        have hreason : (s.entered p 0x03 tag).haltReason = s.haltReason := by rw [State.haltReason, entered_engine]; rfl
        rw [hreason] at h
        rw [patched_ctx]
        exact h

end Sys2Proof.Machine

/-! PROOFS. The home pulse (R15 to R19). The home check with a window of time base on the travel list: the examination
that follows the shift moves that window by its own base (R131, R132). -/

namespace Sys2Proof.Machine

open Sys2Proof

/-- A tracker in TRACKING one count past H, which the home check corrects by 1, with a window of time base on the
travel list. No command puts one there, and the statement does not say that none stands there. -/
def misplacedWindow : State :=
  { time := 5004
    tracker :=
      { active := { carriers := some 8, pitch := some 32, home := some 5, eye := some 0, homeTol := 3 }
        state := .tracking, pos := 6, travel := 4990 }
    monitor :=
      { travelList :=
          [{ num := 0, ctx := 0, point := 0, kind := .arrive, level := true, base := .time, guardAt := 5000
             openAt := 5010, closeAt := 5020, nominal := 5015, role := .edge }] } }

/-- The phases on the travel list that a command leaves. -/
def travelPhases : Result → List WinPhase
  | .next t => t.monitor.travelList.map fun x : Entry => x.phase
  | _ => []

/-- T has reached the guard of the window, and the examination of the travel list takes it there. -/
theorem travelPhases_misplacedWindow : travelPhases (exec .homePulse misplacedWindow) = [.guard] := by decide

/-- Refutes O32: U has not reached the guard of the window, yet the examination that a correction brings takes the
window's phase by T. -/
theorem not_homeCheckCorrectsOrFaults : ¬ Obligations.HomeCheckCorrectsOrFaults := by
  intro h
  obtain ⟨-, -, -, hquiet⟩ := h misplacedWindow 1 (by decide) (by decide) (by decide) (by decide) (by decide) (by decide)
    (by decide)
  have hstands := congrArg travelPhases (hquiet (by decide) (by decide) (by decide) (by decide) (by decide) (by decide))
  rw [travelPhases_misplacedWindow] at hstands
  exact absurd hstands (by decide)

end Sys2Proof.Machine

/-! PROOFS. Captures, scans and the phases of a drive trial (R168, R169, R174 to R177). -/

namespace Sys2Proof.Machine

open Sys2Proof

/-! ### Captures (R168, R174, R176, R177) -/

section Captures

variable {s : State} {c period : Nat} {r : DriveTrial} {d : DriveDef}

theorem capture_of_quiet (ht : (s.ctx c).trial = .drive r) (hd : s.driveDef (s.ctx c).element = some d)
    (hp : (s.ctx c).phase = .precheck ∨ (s.ctx c).phase = .stop) :
    capture c period s = putDrive c { r with quietStart := some s.time } s := by
  unfold capture
  dsimp only
  rcases hp with hp | hp <;> rw [ht, hd, hp]

theorem capture_of_ramp (hp : (s.ctx c).phase = .ramp) : capture c period s = s := by
  unfold capture
  dsimp only
  rw [hp]
  split <;> rfl

theorem capture_of_hold (ht : (s.ctx c).trial = .drive r) (hd : s.driveDef (s.ctx c).element = some d)
    (hp : (s.ctx c).phase = .hold) :
    capture c period s =
      if period < d.bandMin then failDrive c .overspeed (some ((period : Int) - d.centre)) s
      else if d.bandMax < period then failDrive c .underspeed (some ((period : Int) - d.centre)) s
      else putDrive c (holdCapture r d period s.time) s := by
  unfold capture
  dsimp only
  rw [ht, hd, hp]

/-- The farthest period is the one that lies farther from the band's centre, the earlier of two alike (R176). -/
theorem holdCapture_farthest :
    (holdCapture r d period s.time).farthest =
      if ∀ f ∈ r.farthest, ((f : Int) - d.centre).natAbs < ((period : Int) - d.centre).natAbs then some period
      else r.farthest := by
  unfold holdCapture
  cases hf : r.farthest with
  | none => simp
  | some f =>
    simp only [Option.mem_def, Option.some.injEq, forall_eq']
    rw [apply_ite some]

/-- The channel's record of an edge (R168). -/
def State.captured (s : State) (ch : Nat) : State :=
  { s with
    drives := { s.drives with
      tach := Table.set {} s.drives.tach ch
        { seen := true, lastEdge := s.time, period := min 16777215 (s.time - (s.tachChan ch).lastEdge) } } }

theorem tachRise_of_seen {ch : Nat} (h : (s.tachChan ch).seen = true) :
    tachRise ch s =
      match s.trialOfChannel fun d => decide (d.tach = ch) with
      | some c => capture c (min 16777215 (s.time - (s.tachChan ch).lastEdge)) (s.captured ch)
      | none => s.captured ch := by
  unfold tachRise
  simp only [h, if_true]
  rfl

theorem putDrive_eq (c : Nat) (r : DriveTrial) (s : State) :
    putDrive c r s = s.setCtx c { s.ctx c with trial := .drive r } := rfl

end Captures

/-- Settles O58: an edge that is a capture goes to the trial that owns the channel, which judges it by its phase. -/
theorem tachEdgesAreCaptured : Obligations.TachEdgesAreCaptured := by
  intro ch s
  dsimp only
  refine ⟨fun hs => next_congr ?first, fun hs ho => next_congr ?unowned, fun c r d hs ho ht hd => ?owned⟩
  case first =>
    unfold tachRise
    simp only [hs, Bool.false_eq_true, if_false]
    rfl
  case unowned =>
    rw [tachRise_of_seen hs, ho]
    rfl
  case owned =>
    have hrise : exec (.tachEdge ch) s
        = .next (capture c (min 16777215 (s.time - (s.tachChan ch).lastEdge)) (s.captured ch)) := by
      refine next_congr ?_
      rw [tachRise_of_seen hs, ho]
    rw [hrise]
    refine ⟨fun hp => next_congr (capture_of_quiet (s := s.captured ch) ht hd hp), fun hp =>
      next_congr (capture_of_ramp (s := s.captured ch) hp), fun hp => ?hold⟩
    rw [capture_of_hold (s := s.captured ch) ht hd hp]
    refine ⟨fun hlo hhi => next_congr ?good, fun hout => next_congr ?fails⟩
    case good =>
      rw [if_neg (by omega), if_neg (by omega), putDrive_eq]
      have hcap : holdCapture r d (min 16777215 (s.time - (s.tachChan ch).lastEdge)) s.time =
          { r with
            captures := min 65535 (r.captures + 1), motionDeadline := some (s.time + 2 * d.bandMax)
            farthest := (holdCapture r d (min 16777215 (s.time - (s.tachChan ch).lastEdge)) s.time).farthest } := rfl
      rw [show (s.captured ch).time = s.time from rfl, hcap, holdCapture_farthest]
      rfl
    case fails =>
      by_cases h : min 16777215 (s.time - (s.tachChan ch).lastEdge) < d.bandMin
      · rw [if_pos h, if_pos h]; rfl
      · rw [if_neg h, if_pos (hout.resolve_left h), if_neg h]; rfl

/-! ### Scans (R169, R174 to R177) -/

section Scans

variable {s : State} {ch c x : Nat} {r : DriveTrial} {d : DriveDef} {samples : List (BitVec 12)}

/-- The time of the next scan moves on (R169). -/
def State.scanned (s : State) : State :=
  { s with drives := { s.drives with scanNext := s.drives.scanNext + 1000 } }

/-- The assist step that follows a conversion (R169). -/
def Assist.next : Assist → Assist
  | .assist => .plain
  | _ => .none

/-- The channel's record takes a sample (R169). -/
def State.sampled (s : State) (ch x : Nat) : State :=
  s.setCurrent ch
    { s.currentChan ch with sample := x, sampleTime := s.time, step := (s.currentChan ch).step.next }

/-- The scan of one channel. -/
theorem exec_currentScan_single (h : s.drives.scanNext ≤ s.time) (hset : s.drives.scanSet = [ch]) :
    exec (.currentScan samples) s = .next (convert ch (samples.getD ch 0).toNat s.scanned) := by
  have hset : s.scanned.drives.scanSet = [ch] := hset
  refine next_congr ((if_pos h).trans ?_)
  change scan _ s.scanned = _
  rw [scan, hset, List.foldl_cons, List.foldl_nil]

variable (ho : s.trialOfChannel (fun d => decide (d.current = some ch)) = some c)
  (ht : (s.ctx c).trial = .drive r) (hd : s.driveDef (s.ctx c).element = some d)
include ho ht hd

/-- A sample reaches the trial that owns the channel. -/
theorem convert_owned :
    convert ch x s =
      if (s.ctx c).phase = .precheck then precheckSample c x (s.currentChan ch).step r d (s.sampled ch x)
      else filterSample c ch x r d (s.sampled ch x) := by
  unfold convert State.sampled Assist.next
  dsimp only
  split
  next h => exact absurd (ho.symm.trans h) nofun
  next c' h =>
    obtain rfl : c = c' := Option.some.inj (ho.symm.trans h)
    split
    next r' d' hr hd' =>
      obtain rfl : r = r' := TrialRecord.drive.inj (ht.symm.trans hr)
      obtain rfl : d = d' := Option.some.inj (hd.symm.trans hd')
      generalize s.currentChan ch = q
      cases q.step <;> rfl
    next hno => exact absurd hd (hno r d ht)

end Scans

/-- Settles O59: the one conversion goes to the trial that owns the channel, which takes it by its phase and step. -/
theorem scansAreFiltered : Obligations.ScansAreFiltered := by
  intro samples s
  dsimp only
  refine ⟨fun h => next_congr (if_neg (by omega)), fun h hset => next_congr ?empty, fun ch c r d h hset ho ht hd => ?single⟩
  case empty =>
    have hset : s.scanned.drives.scanSet = [] := hset
    refine (if_pos h).trans ?_
    change scan _ s.scanned = _
    rw [scan, hset, List.foldl_nil]
    rfl
  case single =>
    have hscan := (exec_currentScan_single (samples := samples) h hset).trans
      (next_congr (convert_owned (s := s.scanned) (x := (samples.getD ch 0).toNat) ho ht hd))
    have hphase : (s.scanned.ctx c).phase = (s.ctx c).phase := rfl
    have hchan : s.scanned.currentChan ch = s.currentChan ch := rfl
    rw [hphase, hchan] at hscan
    rw [hscan]
    refine ⟨fun hp hstep => ⟨_, smoothStep_cast _ _ _, next_congr ?filter⟩, fun hp => ?precheck⟩
    case filter =>
      have hne : (s.ctx c).phase ≠ .precheck := by rcases hp with h | h | h <;> rw [h] <;> exact nofun
      rw [if_neg hne, State.sampled, hchan, hstep]
      unfold filterSample
      rw [currentChan_setCurrent_self]
      rfl
    case precheck =>
      rw [if_pos hp, State.sampled, hchan]
      refine ⟨fun hstep => next_congr ?_, fun q hq hstep => ?_, fun hstep => next_congr ?_⟩
      · rw [hstep]; rfl
      · subst hq
        rw [hstep]
        unfold precheckSample
        dsimp only
        split
        · rfl
        · rfl
      · rw [hstep]; rfl

/-! ### The ends of the phases (R174 to R177) -/

section Phases

variable {s : State} {c : Nat} {ph : Phase} {r : DriveTrial} {d : DriveDef}

theorem driveIn_eq (hr : (s.ctx c).state = .running) (ht : (s.ctx c).trial = .drive r)
    (hd : s.driveDef (s.ctx c).element = some d) (hp : (s.ctx c).phase = ph) : s.driveIn c ph = some (r, d) := by
  unfold State.driveIn
  dsimp only
  rw [if_pos ⟨hr, hp⟩, ht, hd]

theorem phaseOver_iff : s.phaseOver r = true ↔ ∃ t, r.phaseDeadline = some t ∧ t ≤ s.time := by
  simp [State.phaseOver, Option.any_eq_true]

theorem quietDone_iff :
    s.quietDone r d = true ↔ ∃ q, r.quietStart = some q ∧ q + 2 * d.bandMax ≤ s.time := by
  simp only [State.quietDone, Option.any_eq_true, decide_eq_true_eq]
  rfl

/-- A quiet span that is not complete before T is not complete at T's deadline either (R179). -/
theorem quietLate_of_lt (h : ∃ q, r.quietStart = some q ∧ s.time < q + 2 * d.bandMax) :
    r.quietStart.any (fun q => decide (s.time ≤ q + d.quietSpan)) = true := by
  obtain ⟨q, hq, hlt⟩ := h
  rw [hq, Option.any_some]
  refine decide_eq_true ?_
  rw [DriveDef.quietSpan]
  omega

/-- A running context whose record is written leaves a calm state calm. -/
theorem calm_setCtx {x : Context} {u : State} (h : s.calm) (hu : u.engine = s.engine) (hx : x.state ≠ .paused) :
    (u.setCtx c x).calm := by
  refine ⟨?_, fun c' hc' => ?_⟩
  · have : (u.setCtx c x).engine.checkOwed = u.engine.checkOwed := rfl
    rw [this, hu]; exact h.1
  · rw [ctx_setCtx]
    split
    · exact hx
    · have : u.ctx c' = s.ctx c' := by unfold State.ctx; rw [hu]
      rw [this]; exact h.2 c' hc'

end Phases

/-- Settles O60: each row finds the running drive trial in its phase and acts where its time has come. -/
theorem drivePhasesEnd : Obligations.DrivePhasesEnd := by
  intro c r d s hcalm hr ht hd
  dsimp only
  refine ⟨fun hp => ⟨fun hq hchecks x hl hsrc hx => next_congr ?ramp, fun hq => next_congr ?unquiet, fun ho hq => next_congr ?late⟩,
    fun hp ho => next_congr ?hold, fun hp => ⟨fun ho => next_congr ?motion, fun ho hcap => next_congr ?idle, fun ho hcap x hl hsrc hx =>
      next_congr ?stop⟩, fun hp hstim => ⟨fun e hq he hle => next_congr ?pass, fun ho hq => next_congr ?fail⟩⟩
  all_goals have hin := driveIn_eq hr ht hd hp
  case ramp =>
    have hdone : checksDone r d = true := by
      rcases hchecks with h | h <;> simp [checksDone, h]
    unfold tryRamp
    rw [hin]
    dsimp only
    rw [quietDone_iff.2 hq, hdone, Bool.and_self, if_pos rfl, enterRamp, requestStimulus_taken _ hl hsrc hx]
    rfl
  case unquiet =>
    unfold tryRamp
    rw [hin]
    dsimp only
    rw [Bool.eq_false_iff.2 fun h => hq (quietDone_iff.1 h), Bool.false_and, if_neg nofun]
  case late =>
    unfold precheckOver
    rw [hin]
    dsimp only
    rw [phaseOver_iff.2 ho, quietLate_of_lt hq, Bool.and_self, if_pos rfl]
    rfl
  case hold =>
    unfold rampOver
    rw [hin]
    dsimp only
    rw [phaseOver_iff.2 ho, if_pos rfl]
    rfl
  case motion =>
    obtain ⟨t, hm, hle⟩ := ho
    unfold motionOver
    rw [hin]
    dsimp only
    rw [hm, Option.any_some, decide_eq_true hle, if_pos rfl]
    rfl
  case idle =>
    unfold holdOver
    rw [hin]
    dsimp only
    rw [phaseOver_iff.2 ho, if_pos rfl, if_pos hcap]
    rfl
  case stop =>
    unfold holdOver
    rw [hin]
    dsimp only
    rw [phaseOver_iff.2 ho, if_pos rfl, if_neg (by omega), enterStop, requestStimulus_taken _ hl hsrc hx]
    exact check_calm _ (calm_setCtx hcalm rfl fun h => nomatch hr.symm.trans h)
  case pass =>
    unfold stopQuiet
    rw [hin]
    dsimp only
    rw [if_pos ⟨hstim, quietDone_iff.2 hq, by rw [he, Option.any_some, decide_eq_true hle]⟩]
    rfl
  case fail =>
    unfold stopOver
    rw [hin]
    dsimp only
    rw [if_pos ⟨hstim, phaseOver_iff.2 ho, quietLate_of_lt hq⟩]
    rfl

end Sys2Proof.Machine

/-! PROOFS. The ring's states: what a counted error and an expired deadline leave, and the voids that the entry to
LOST brings (R36 to R39, R105). -/

namespace Sys2Proof.Machine

open Sys2Proof

/-! ### The steady part of a change of ring state (R39) -/

section Steady

variable {s t : State}

theorem steadyPart_cancelAllAwaited (s : State) : (cancelAllAwaited s).steadyPart = s.steadyPart :=
  (steady_closed s.steadyPart).cancelAllAwaited s rfl

theorem steadyPart_reportRing (s : State) :
    (reportRing s).steadyPart = State.steadyPart { s with engine := { s.engine with ring := s.ring.state } } :=
  (steady_closed _).reportRing s rfl

theorem steadyPart_reportRing_congr (h : t.steadyPart = s.steadyPart) :
    (reportRing t).steadyPart = State.steadyPart { s with engine := { s.engine with ring := s.ring.state } } := by
  rw [steadyPart_reportRing]
  have h := congrArg (fun v : State => { v with engine := { v.engine with ring := v.ring.state } }) h
  exact h

/-- The awaited changes are cancelled where the new state is LOST (R39, R47). -/
def State.ringEntered (s : State) (new : RingState) : State :=
  if new = .lost then cancelAllAwaited (s.mapRing fun g => { g with state := new })
  else s.mapRing fun g => { g with state := new }

theorem changeRing_eq (new : RingState) (cause : RingCause) (s : State) :
    changeRing new cause s
      = noticeAll 0x64 (ringNotice (reportRing (s.ringEntered new)) s.ring.state cause) (reportRing (s.ringEntered new)) :=
  rfl

theorem steadyPart_ringEntered (s : State) (new : RingState) :
    (s.ringEntered new).steadyPart = State.steadyPart { s with ring := { s.ring with state := new } } := by
  unfold State.ringEntered
  split
  · rw [steadyPart_cancelAllAwaited]; rfl
  · rfl

theorem steadyPart_changeRing (new : RingState) (cause : RingCause) (s : State) :
    (changeRing new cause s).steadyPart = State.steadyPart
      { s with ring := { s.ring with state := new }, engine := { s.engine with ring := new } } := by
  rw [changeRing_eq, steadyPart_noticeAll, steadyPart_reportRing_congr (steadyPart_ringEntered s new)]

end Steady

/-! ### The ring error count (R31, R37, R38) -/

section Errors

variable {s : State}

theorem ringStateOf_eq (n : Nat) :
    ringStateOf n = if n ≤ 95 then .good else if n ≤ 191 then .degraded else .lost := rfl

theorem followErrors_of_lost (h : s.ring.state = .lost) : followErrors s = s := if_pos (.inl h)

theorem followErrors_of_same (h : ringStateOf s.ring.errors = s.ring.state) : followErrors s = s := if_pos (.inr h)

/-- The error count takes the ring to another state. -/
theorem followErrors_of_change (hl : s.ring.state ≠ .lost) (h : ringStateOf s.ring.errors ≠ s.ring.state) :
    followErrors s =
      if ringStateOf s.ring.errors = .lost then loseRing .errors s
      else changeRing (ringStateOf s.ring.errors) .count s :=
  if_neg fun ho => ho.elim hl h

end Errors

/-! ### Cancelled changes (R47, R107, R148, R175) -/

/-- Every running trial goes on, but for what its record says. -/
def SameButTrials (s t : State) : Prop :=
  ∀ c, (s.ctx c).state = .running → ∃ r, t.ctx c = { s.ctx c with trial := r }

/-- No check is owed, and either nothing can start or no context is CLOSING. -/
def State.unstirred (s : State) : Prop := s.paid ∧ (s.barred ∨ ∀ c, (s.ctx c).state ≠ .closing)

section Cancels

variable {s t u : State}

theorem SameButTrials.refl (s : State) : SameButTrials s s := fun c _ => ⟨(s.ctx c).trial, rfl⟩

theorem SameButTrials.trans (h1 : SameButTrials s t) (h2 : SameButTrials t u) : SameButTrials s u := by
  intro c hr
  obtain ⟨r, hr1⟩ := h1 c hr
  obtain ⟨r', hr2⟩ := h2 c (by rw [hr1]; exact hr)
  exact ⟨r', by rw [hr2, hr1]⟩

/-- A point that leaves its settle set touches no running context. -/
theorem ctx_settlePoint_running {e : Nat} (c pt : Nat) (hr : (s.ctx e).state = .running) :
    (settlePoint c pt s).ctx e = s.ctx e := by
  unfold settlePoint
  dsimp only
  split
  next h =>
    have hne : e ≠ c := fun he => nomatch (he ▸ hr).symm.trans h.1
    split
    · rw [ctx_secondPart, if_neg hne, ctx_setCtx_ne _ _ hne]
    · rw [ctx_setCtx_ne _ _ hne]
  next => rfl

theorem settlePoint_of_not_closing (c pt : Nat) (h : (s.ctx c).state ≠ .closing) : settlePoint c pt s = s :=
  if_neg fun hc => h hc.1

theorem steadyPart_settlePoint (c pt : Nat) (s : State) : (settlePoint c pt s).steadyPart = s.steadyPart :=
  (steady_closed s.steadyPart).settlePoint c pt s rfl

theorem steadyPart_settle (s : State) : (settle s).steadyPart = s.steadyPart := (steady_closed s.steadyPart).settle s rfl

/-- A check that settles touches no running context where nothing can start. -/
theorem ctx_settle_running {e : Nat} (hb : s.barred) (hr : (s.ctx e).state = .running) : (settle s).ctx e = s.ctx e := by
  unfold settle
  split
  · rw [ctx_check_barred hb, Context.halt_of_not_paused (by rw [hr]; exact nofun), ite_self]
  · rfl

/-- A cancelled change leaves running trials their proofs. -/
theorem reportCancelled_unstirred (c pt : Nat) (h : s.unstirred) :
    SameButTrials s (reportCancelled c pt s) ∧ (reportCancelled c pt s).unstirred := by
  unfold reportCancelled
  dsimp only
  split
  next r hr =>
    split
    next =>
      refine ⟨fun e he => ?_, h.1, h.2.imp id fun hcl e => ?_⟩
      · rw [ctx_setCtx]
        split
        · rename_i hec; subst hec; exact ⟨_, rfl⟩
        · exact ⟨(s.ctx e).trial, rfl⟩
      · rw [ctx_setCtx]
        split
        · exact hcl c
        · exact hcl e
    next => exact ⟨.refl s, h⟩
  next =>
    rcases h.2 with hb | hcl
    · have hb' : (settlePoint c pt s).barred := barred_of_steadyPart (steadyPart_settlePoint c pt s) hb
      refine ⟨fun e he => ⟨(s.ctx e).trial, ?_⟩, paid_settle _, .inl (barred_of_steadyPart (steadyPart_settle _) hb')⟩
      have hsame := ctx_settlePoint_running c pt he
      rw [ctx_settle_running hb' (by rw [hsame]; exact he), hsame]
    · rw [settlePoint_of_not_closing c pt (hcl c), settle_eq s h.1]
      exact ⟨.refl s, h⟩

/-- The cancellations that LOST brings leave running trials their proofs. -/
theorem cancelAllAwaited_unstirred (h : s.unstirred) :
    SameButTrials s (cancelAllAwaited s) ∧ (cancelAllAwaited s).unstirred := by
  unfold cancelAllAwaited
  extract_lets waiting cleared
  have hclear : sameButStimuli s cleared :=
    foldl_keeps (P := sameButStimuli s) (fun u w hu => hu.trans (sameButStimuli_clearAwaited _ u)) waiting s (.refl s)
  have hctx : ∀ c, cleared.ctx c = s.ctx c := fun c => hclear.ctx c
  have hstart : SameButTrials s cleared ∧ cleared.unstirred := by
    refine ⟨fun c _ => ⟨(s.ctx c).trial, hctx c⟩, ?_, h.2.imp (fun hb => ?_) fun hcl c => by rw [hctx]; exact hcl c⟩
    · rw [State.paid, hclear.engine]; exact h.1
    · rw [State.barred, hclear.engine]; exact hb
  refine foldl_keeps (P := fun u => SameButTrials s u ∧ u.unstirred) (fun u w hu => ?_) waiting cleared hstart
  obtain ⟨h1, h2⟩ := reportCancelled_unstirred w.2 w.1 hu.2
  exact ⟨hu.1.trans h1, h2⟩

end Cancels

/-! ### The entry to LOST (R38, R105) -/

section Losses

variable {s : State}

/-- The report that the ring is LOST. -/
theorem reportRing_of_lost (h : s.ring.state = .lost) :
    reportRing s = check (voidAll (fun _ => true) .ring (s.mapEngine fun e => { e with ring := .lost })) := by
  unfold reportRing
  dsimp only
  rw [h]

theorem barred_lost (s : State) : (s.mapEngine fun e => { e with ring := .lost }).barred := .inr nofun

/-- Entering LOST leaves no trial running. -/
theorem changeRing_lost_not_running (cause : RingCause) (s : State) {c : Nat} (hc : c < 16) :
    ((changeRing .lost cause s).ctx c).state ≠ .running := by
  have hlost : (s.ringEntered .lost).ring.state = .lost := by
    have h := congrArg (fun v : State => v.ring.state) (steadyPart_ringEntered s .lost); exact h
  have hbar : (voidAll (fun _ => true) .ring ((s.ringEntered .lost).mapEngine fun e => { e with ring := .lost })).barred :=
    barred_of_steadyPart (voidAll_steadyPart _ _ _) (barred_lost _)
  rw [changeRing_eq, ctx_noticeAll, reportRing_of_lost hlost, ctx_check_barred hbar, if_pos hc, Context.halt_state]
  exact voidAll_not_running _ _ _ hc fun _ => rfl

/-- Entering LOST voids a running trial; with fewer than 7 limit voids its proof goes on PAUSED. -/
theorem changeRing_lost_voided (cause : RingCause) (h : s.unstirred) {c : Nat} (hc : c < 16)
    (hr : (s.ctx c).state = .running) (hl : (s.ctx c).limitVoids < 7) :
    voided .ring (if s.engine.stop then .stop else .ring) s.time (s.ctx c) ((changeRing .lost cause s).ctx c) := by
  let v := (s.ringEntered .lost).mapEngine fun e => { e with ring := .lost }
  have hsteady := steadyPart_ringEntered s .lost
  have hlost : (s.ringEntered .lost).ring.state = .lost := by
    have h := congrArg (fun v : State => v.ring.state) hsteady; exact h
  have hstop : (s.ringEntered .lost).engine.stop = s.engine.stop := by
    have h := congrArg (fun v : State => v.engine.stop) hsteady; exact h
  have htime : (s.ringEntered .lost).time = s.time := by
    have h := congrArg (fun v : State => v.time) hsteady; exact h
  obtain ⟨r, hctx⟩ := (cancelAllAwaited_unstirred (s := s.mapRing fun g => { g with state := .lost }) h).1 c hr
  have hctx : v.ctx c = { s.ctx c with trial := r } := hctx
  have hstruck : v.struck (fun _ => true) c := ⟨hc, by rw [hctx]; exact hr, rfl⟩
  have hv := check_voidAll_voided (s := v) (cause := .ring) (barred_lost _) nofun hstruck (by rw [hctx]; exact hl)
  rw [hctx] at hv
  have hreason : v.haltReason = if s.engine.stop then .stop else .ring := by
    rw [State.haltReason, show v.engine.stop = s.engine.stop from hstop]
  rw [hreason, show v.time = s.time from htime] at hv
  rw [changeRing_eq, ctx_noticeAll, reportRing_of_lost hlost]
  exact hv

end Losses

/-! ### Counted errors and expired deadlines (R31, R36 to R39) -/

section Counted

variable {k : RingError} {s : State}

/-- The error is counted, and the state has not yet followed (R31, R37). -/
def State.errorCounted (s : State) (k : RingError) : State :=
  s.mapRing fun g => { g.countTotal k with errors := capAdd 255 g.errors 8, goodRun := 0 }

theorem ringError_eq (k : RingError) (s : State) : ringError k s = followErrors (s.errorCounted k) := rfl

@[simp] theorem errorCounted_errors : (s.errorCounted k).ring.errors = min 255 (s.ring.errors + 8) := rfl
@[simp] theorem errorCounted_time : (s.errorCounted k).time = s.time := rfl
@[simp] theorem errorCounted_state : (s.errorCounted k).ring.state = s.ring.state := by cases k <;> rfl
@[simp] theorem errorCounted_role : (s.errorCounted k).ring.role = s.ring.role := by cases k <;> rfl

/-- What a counted error does to the ring's totals, count and run (R31, R37). -/
theorem errorCounted_ring :
    (s.errorCounted k).ring =
      { s.ring with
        errors := min 255 (s.ring.errors + 8), goodRun := 0
        totalBadCrc := if k = .badCrc then min 65535 (s.ring.totalBadCrc + 1) else s.ring.totalBadCrc
        totalSlot := if k = .slotMismatch then min 65535 (s.ring.totalSlot + 1) else s.ring.totalSlot
        totalSequence := if k = .sequence then min 65535 (s.ring.totalSequence + 1) else s.ring.totalSequence
        totalNoReturn := if k = .noReturn then min 65535 (s.ring.totalNoReturn + 1) else s.ring.totalNoReturn } := by
  cases k <;> rfl

/-- With the state unchanged an error is counted and nothing else happens. -/
theorem ringError_of_same
    (h : s.ring.state = .lost ∨ ringStateOf (min 255 (s.ring.errors + 8)) = s.ring.state) :
    ringError k s = s.errorCounted k := by
  rw [ringError_eq]
  refine if_pos ?_
  rw [errorCounted_state, errorCounted_errors]
  exact h

/-- The error takes the ring to LOST. -/
theorem ringError_of_lost (hl : s.ring.state ≠ .lost) (h : ringStateOf (min 255 (s.ring.errors + 8)) = .lost) :
    ringError k s =
      changeRing .lost .errors ((s.errorCounted k).mapRing fun g => { g with goodRun := 0, silence := none }) := by
  have hs : ringStateOf (s.errorCounted k).ring.errors = .lost := h
  rw [ringError_eq, followErrors_of_change (by rw [errorCounted_state]; exact hl)
    (by rw [hs, errorCounted_state]; exact fun e => hl e.symm), if_pos hs]
  rfl

/-- The error takes the ring to another state than LOST. -/
theorem ringError_of_count (hl : s.ring.state ≠ .lost) (h : ringStateOf (min 255 (s.ring.errors + 8)) ≠ .lost)
    (hne : ringStateOf (min 255 (s.ring.errors + 8)) ≠ s.ring.state) :
    ringError k s = changeRing (ringStateOf (min 255 (s.ring.errors + 8))) .count (s.errorCounted k) := by
  rw [ringError_eq, followErrors_of_change (by rw [errorCounted_state]; exact hl)
    (by rw [errorCounted_errors, errorCounted_state]; exact hne), errorCounted_errors, if_neg h]

end Counted

/-- Settles O36: the count decides the state that follows, and each change of state brings its report and notice. -/
theorem ringErrorIsCounted : Obligations.RingErrorIsCounted := by
  intro k s
  dsimp only
  rw [show (if min 255 (s.ring.errors + 8) ≤ 95 then RingState.good
    else if min 255 (s.ring.errors + 8) ≤ 191 then .degraded else .lost) = ringStateOf (min 255 (s.ring.errors + 8)) from rfl]
  have hcounted : (s.errorCounted k).steadyPart = State.steadyPart { s with ring := (s.errorCounted k).ring } := rfl
  by_cases hl : s.ring.state = .lost
  · rw [if_pos hl, ringError_of_same (.inl hl)]
    refine ⟨fun h => absurd hl h, fun _ => rfl, fun h => absurd hl.symm h, ?_⟩
    rw [hcounted, errorCounted_ring, if_pos hl.symm,
      if_neg (show ¬ (s.ring.state ≠ .lost ∧ RingState.lost = .lost) from fun h => h.1 hl)]
    simp only [hl]
  · rw [if_neg hl]
    by_cases hsame : ringStateOf (min 255 (s.ring.errors + 8)) = s.ring.state
    · rw [ringError_of_same (.inr hsame), hsame]
      refine ⟨fun _ h => absurd h hl, fun _ => rfl, fun h => absurd rfl h, ?_⟩
      rw [hcounted, errorCounted_ring, if_pos rfl,
        if_neg (show ¬ (s.ring.state ≠ .lost ∧ s.ring.state = .lost) from fun h => h.1 h.2)]
    · by_cases hlost : ringStateOf (min 255 (s.ring.errors + 8)) = .lost
      · rw [ringError_of_lost hl hlost, hlost]
        refine ⟨fun _ _ c hc => ⟨changeRing_lost_not_running _ _ hc, fun hh hr hv => ?_⟩, fun h => absurd h.symm hl,
          fun _ => ?_, ?_⟩
        · exact changeRing_lost_voided (s := (s.errorCounted k).mapRing fun g => { g with goodRun := 0, silence := none }) .errors
            ⟨hh.1, .inl hh.2⟩ hc hr hv
        · have hn := changeRing_notified .lost .errors (u := s)
            (s := (s.errorCounted k).mapRing fun g => { g with goodRun := 0, silence := none }) rfl unproving_of_noProof
          rw [if_pos rfl]
          simpa only [mapRing_ring, mapRing_time, errorCounted_errors, errorCounted_state, errorCounted_role, errorCounted_time,
            ringCauseCode] using hn
        · rw [steadyPart_changeRing, if_pos (show s.ring.state ≠ .lost ∧ RingState.lost = .lost from ⟨hl, rfl⟩),
            if_neg (show ¬ RingState.lost = s.ring.state from fun h => hl h.symm)]
          simp only [State.mapRing, errorCounted_ring]
          rfl
      · rw [ringError_of_count hl hlost hsame]
        refine ⟨fun _ h => absurd h hlost, fun h => absurd h hsame, fun _ => ?_, ?_⟩
        · have hn := changeRing_notified (ringStateOf (min 255 (s.ring.errors + 8))) .count (u := s)
            (s := s.errorCounted k) rfl unproving_of_noProof
          rw [if_neg hlost]
          simpa only [errorCounted_errors, errorCounted_state, errorCounted_role, errorCounted_time,
            ringCauseCode] using hn
        · rw [steadyPart_changeRing, if_neg (show ¬ (s.ring.state ≠ .lost ∧ ringStateOf (min 255 (s.ring.errors + 8)) = .lost) from fun h => hlost h.2),
            if_neg hsame, errorCounted_ring]
          rfl

/-- Settles O41: each deadline's row acts where its time has come; silence enters LOST as a change of ring state. -/
theorem ringDeadlinesExpire : Obligations.RingDeadlinesExpire := by
  intro s
  refine ⟨fun h => next_congr ?early, fun d hd hle => next_congr ?expired, fun h => next_congr ?silent, fun d hrole hd hle hl => ?lost⟩
  case early =>
    refine if_neg fun ho => ?_
    obtain ⟨d, hd, hle⟩ := (Option.any_eq_true _ _).1 ho
    exact absurd (h d hd) (by have := of_decide_eq_true hle; omega)
  case expired =>
    refine (if_pos ?_).trans rfl
    rw [hd, Option.any_some, decide_eq_true hle]
  case silent =>
    refine if_neg fun ho => ?_
    obtain ⟨hrelay, hany⟩ := ho
    rcases h with h | h
    · rw [h] at hrelay; cases hrelay
    · obtain ⟨d, hd, hle⟩ := (Option.any_eq_true _ _).1 hany
      exact absurd (h d hd) (by have := of_decide_eq_true hle; omega)
  case lost =>
    have hexec : exec .silenceDeadline s
        = .next (changeRing .lost .silence (s.mapRing fun g => { g with goodRun := 0, silence := none })) := by
      refine next_congr ?_
      unfold silenceTick
      rw [if_pos ⟨hrole, by rw [hd, Option.any_some, decide_eq_true hle]⟩, if_neg hl]
      rfl
    refine ⟨_, hexec, ?told, ?steady, fun c hc => changeRing_lost_not_running _ _ hc, fun ho hcl c hc hr hv => ?voids⟩
    case told =>
      have hn := changeRing_notified .lost .silence (u := s)
        (s := s.mapRing fun g => { g with goodRun := 0, silence := none }) rfl unproving_of_noProof
      rw [← hrole]
      exact hn
    case steady => rw [steadyPart_changeRing]; rfl
    case voids =>
      exact changeRing_lost_voided (s := s.mapRing fun g => { g with goodRun := 0, silence := none }) .silence
        ⟨ho, .inr hcl⟩ hc hr hv

/-! ### Frames with an error (R31, R33, R40) -/

section Bad

variable {k : RingError} {s : State}

theorem ringError_nodeOut : (ringError k s).ring.nodeOut = s.ring.nodeOut := by
  have h := congrArg (fun v : State => v.ring.nodeOut) (ringErrorIsCounted k s).2.2.2; exact h

theorem ringError_applied : (ringError k s).ring.applied = s.ring.applied := by
  have h := congrArg (fun v : State => v.ring.applied) (ringErrorIsCounted k s).2.2.2; exact h

theorem ringError_lastArrival : (ringError k s).ring.lastArrival = s.ring.lastArrival := by
  have h := congrArg (fun v : State => v.ring.lastArrival) (ringErrorIsCounted k s).2.2.2; exact h

theorem ringError_image : (ringError k s).ring.image = s.ring.image := by
  have h := congrArg (fun v : State => v.ring.image) (ringErrorIsCounted k s).2.2.2; exact h

/-- A frame from the nodes that meets an error is passed on and counted (R31, R33, R36). -/
theorem exec_nodeFrame_bad {f : RingFrame} (h : frameError s.ring.slots f
      (s.ring.returnDeadline.isSome && decide (s.ring.lastSeq = some f.seq.toNat)) = some k) :
    exec (.nodeFrame f) s = .next (ringError k (s.mapRing fun g =>
      { g with ringOut := if g.role = .relay then some f else g.ringOut, returnDeadline := none })) := by
  refine next_congr ?_
  unfold nodeArrival
  dsimp only
  split
  next k' hk => rw [Option.some.inj (h.symm.trans hk)]
  next hno => exact absurd (h.symm.trans hno) nofun

end Bad

/-- Settles O38: the first error is counted, and the count reaches neither image nor output. -/
theorem badRingFramesAreCounted : Obligations.BadRingFramesAreCounted := by
  refine ⟨fun f k s hrole hk => ⟨next_congr ?scanner, ringError_nodeOut, ringError_applied, ringError_lastArrival⟩,
    fun f s hbad => ?node⟩
  case scanner =>
    unfold scannerArrival
    rw [hrole]
    dsimp only
    rw [show frameError (takeInterval s).ring.slots f true = some k from hk]
  case node =>
    have herror : frameError s.ring.slots f
        (s.ring.returnDeadline.isSome && decide (s.ring.lastSeq = some f.seq.toNat)) =
          some (if f.crc ≠ f.properCrc then .badCrc
            else if f.count.toNat ≠ s.ring.slots then .slotMismatch else .sequence) := by
      unfold frameError
      by_cases h1 : f.crc ≠ f.properCrc
      · rw [if_pos h1, if_pos h1]
      · by_cases h2 : f.count.toNat ≠ s.ring.slots
        · rw [if_neg h1, if_pos h2, if_neg h1, if_pos h2]
        · have h3 : (s.ring.returnDeadline.isSome && decide (s.ring.lastSeq = some f.seq.toNat)) = false := by
            rcases (hbad.resolve_left h1).resolve_left h2 with h | h
            · rw [h]; rfl
            · rw [decide_eq_false h, Bool.and_false]
          rw [if_neg h1, if_neg h2, if_neg h1, if_neg h2, h3]
          rfl
    have hexec := exec_nodeFrame_bad herror
    refine ⟨hexec, fun t ht => ?_⟩
    rw [hexec] at ht
    obtain rfl := Host.Outcome.next.inj ht
    exact ringError_image

end Sys2Proof.Machine

/-! PROOFS. Orders of proofs, carriers and limits (R72, R73, R88 to R92, R106, R115, R171). -/

namespace Sys2Proof.Machine

open Sys2Proof

/-! ### Set Pacing and Set Drive Limit (R115, R171) -/

theorem clampTo_zero (hi v : Nat) : clampTo 0 hi v = min hi v := Nat.zero_max _

theorem steadyPart_check (s : State) : (check s).steadyPart = s.steadyPart := (steady_closed s.steadyPart).check s rfl

/-- Settles O45: the values are clamped; the limit's report is checked, which touches no steady part. -/
theorem lineOrdersSetLimits : Obligations.LineOrdersSetLimits := by
  intro tag s hroom
  refine ⟨fun g w q => ?pacing, fun d => ?limit⟩
  case pacing =>
    have he : pacingEffect g w q (s.entered .line 0x15 tag)
        = ((s.entered .line 0x15 tag).mapSched fun x =>
            { x with spacing := min 64 g, window := max 1 (min 512 w), allowed := max 1 (min 8 q) },
          accepted (be 1 (min 64 g) ++ be 2 (max 1 (min 512 w)) ++ be 1 (max 1 (min 8 q)))) := by
      unfold pacingEffect
      rw [clampTo_zero]
      rfl
    exact next_congr ((takeOrder_of_links hroom rfl he rfl).trans rfl)
  case limit =>
    have he : limitEffect d (s.entered .line 0x16 tag)
        = (check (((s.entered .line 0x16 tag).mapDrives fun x => { x with limit := max 1 (min 4 d) }).mapEngine fun e =>
            { e with limit := max 1 (min 4 d) }), accepted (be 1 (max 1 (min 4 d)))) := rfl
    refine ⟨_, rfl, takeOrder_effect_answers hroom rfl (answering_limit d) he, ?_⟩
    rw [takeOrder_effect hroom rfl he, patched_steadyPart, steadyPart_check]
    rfl

/-! ### Abort Proof (R106) -/

section Aborts

variable {s : State} {p : Port} {c k : Nat} {tag : Byte}

theorem entered_ownedBy (s : State) (p q : Port) (k : Nat) (tag : Byte) (c : Nat) :
    (s.entered p k tag).ownedBy q c = s.ownedBy q c := by rw [entered_eq]; rfl

theorem ownedBy_eq_false_iff : s.ownedBy p c = false ↔ (s.ctx c).state = .free ∨ portStation p ≠ some (s.ctx c).owner := by
  simp [State.ownedBy, or_iff_not_imp_left]

/-- An effect that changes nothing: the order's reply stands and nothing else. -/
theorem takeOrder_of_same {permitted : Port → Bool} {eff : State → State × List Byte} {l : List Byte}
    (hroom : s.room p) (hp : permitted p = true) (he : eff (s.entered p k tag) = (s.entered p k tag, accepted l)) :
    takeOrder p permitted k tag eff s = s.replied p k tag (accepted l) := by
  rw [takeOrder_of_links hroom hp he rfl]
  cases p <;> rfl

theorem steadyPart_enterClosing (c : Nat) (r : ProofResult) (cause : EndCause) (s : State) :
    (enterClosing c r cause s).steadyPart = s.steadyPart := (steady_closed s.steadyPart).enterClosing c r cause s rfl

/-- A settling that finds no context PAUSED leaves each context as it is. -/
theorem ctx_settle_idle (h : ∀ e < 16, (s.ctx e).state ≠ .paused) (e : Nat) : (settle s).ctx e = s.ctx e := by
  unfold settle
  split
  · rw [check_idle s h]; rfl
  · rfl

/-- A proof that ends where no other context is PAUSED: its context is FREE, or CLOSING until its points have
settled. -/
theorem ctx_settle_enterClosing {r : ProofResult} {cause : EndCause}
    (h : ∀ e < 16, e ≠ c → (s.ctx e).state ≠ .paused) :
    ((settle (enterClosing c r cause s)).ctx c).state = .free
      ∨ (((settle (enterClosing c r cause s)).ctx c).state = .closing
        ∧ ((settle (enterClosing c r cause s)).ctx c).ending = some (r, cause)
        ∧ ((settle (enterClosing c r cause s)).ctx c).settle ≠ []) := by
  have hself := ctx_enterClosing_self s c r cause
  have hidle : ∀ e < 16, ((enterClosing c r cause s).ctx e).state ≠ .paused := fun e he => by
    by_cases hec : e = c
    · subst hec
      rcases hself with hc | ⟨hc, -⟩ <;> rw [hc] <;> exact nofun
    · rw [ctx_enterClosing_ne s c r cause hec]
      exact h e he hec
  rw [ctx_settle_idle hidle]
  exact hself.imp (fun hc => by rw [hc]) id

/-- The order on an own context that is not CLOSING (R106). -/
theorem abortEffect_of_going (hc : ¬ 15 < c) (ho : s.ownedBy p c = true) (h : (s.ctx c).state ≠ .closing) :
    abortEffect p c s = (settle (enterClosing c .aborted .order s), accepted (be 1 1)) := by
  rw [abortEffect, if_neg hc, ho, if_neg (by decide), if_neg h]

end Aborts

/-- Settles O44: the ends of the proof touch no steady part, and leave the context FREE or CLOSING. -/
theorem abortProofEndsProof : Obligations.AbortProofEndsProof := by
  intro p tag c s hroom hp
  refine exec_decided (.abortProof p tag c) rfl hroom hp ⟨fun h => refusesWith (if_pos h), fun hc =>
    ⟨fun h => refusesWith ?owner, fun ho => ⟨fun r cause hst hend => next_congr ?closing, fun hst => ?going⟩⟩⟩
  case owner =>
    rw [abortEffect, if_neg hc, entered_ownedBy, ownedBy_eq_false_iff.2 h]
    rfl
  all_goals
    have hown : s.ownedBy p c = true := by
      rw [← Bool.not_eq_false]
      exact fun h => ho (ownedBy_eq_false_iff.1 h)
  case closing =>
    refine takeOrder_of_same hroom hp ?_
    rw [abortEffect, if_neg hc, entered_ownedBy, hown, if_neg (by decide), entered_ctx, if_pos hst, hend]
    rfl
  case going =>
    have he := abortEffect_of_going (s := s.entered p 0x08 tag) (p := p) hc (by rw [entered_ownedBy]; exact hown)
      (by rw [entered_ctx]; exact hst)
    refine ⟨_, rfl, takeOrder_effect_answers hroom hp (answering_abort p c) he, ?_, fun hothers => ?_⟩
    · rw [takeOrder_effect hroom hp he, patched_steadyPart, steadyPart_settle, steadyPart_enterClosing, steadyPart_replied]
    · rw [takeOrder_effect hroom hp he, patched_ctx]
      exact ctx_settle_enterClosing fun e he hec => by rw [entered_ctx]; exact hothers e he hec

/-! ### The carrier map (R91) -/

section Carriers

variable (s : State) (ks : List Nat) (r : Reservation)

theorem setCarriers_cons (k : Nat) : s.setCarriers (k :: ks) r = (s.setCarrier k r).setCarriers ks r := rfl

theorem setCarriers_eq :
    s.setCarriers ks r = { s with engine := { s.engine with carriers := (s.setCarriers ks r).engine.carriers } } := by
  induction ks generalizing s with
  | nil => rfl
  | cons k ks ih =>
    rw [setCarriers_cons, ih]
    rfl

theorem carrier_setCarriers (k : Nat) : (s.setCarriers ks r).carrier k = if k ∈ ks then r else s.carrier k := by
  induction ks generalizing s with
  | nil => rfl
  | cons j ks ih =>
    rw [setCarriers_cons, ih]
    by_cases hk : k = j
    · subst hk
      simp
    · rw [carrier_setCarrier_ne _ _ hk]
      simp [hk]

/-- The map is written whatever the ports hold. -/
theorem setCarriers_links (l : Links) :
    { s.setCarriers ks r with links := l } = State.setCarriers { s with links := l } ks r := by
  induction ks generalizing s with
  | nil => rfl
  | cons k ks ih =>
    rw [setCarriers_cons, setCarriers_cons, ih]
    rfl

theorem ctx_setCarriers (c : Nat) : (s.setCarriers ks r).ctx c = s.ctx c := by
  unfold State.ctx
  rw [setCarriers_contexts]

theorem steadyPart_setCarriers : (s.setCarriers ks r).steadyPart = s.steadyPart :=
  (steady_closed s.steadyPart).setCarriers ks r s rfl

end Carriers

section CarrierOrders

variable {s : State} {p : Port} {c : Nat} {l : List Nat}

/-- Carrier `k` is one of the loop's. -/
def State.below (s : State) (k : Nat) : Prop := ∃ n, s.tracker.active.carriers = some n ∧ k < n

theorem carrierExists_iff (k : Nat) : s.carrierExists k = true ↔ s.below k := by
  unfold State.carrierExists State.below
  cases s.tracker.active.carriers <;> simp

theorem listUnfit_iff (kind : Kind) (mode : Option Mode) (l : List Nat) :
    s.listUnfit kind mode l = true ↔
      l ≠ [] ∧ (kind = .drive ∨ mode = some .carrier ∨ ¬ l.Nodup ∨
        ∀ n, s.tracker.active.carriers = some n → ∃ k ∈ l, n ≤ k) := by
  unfold State.listUnfit
  cases s.tracker.active.carriers with
  | none => simp
  | some n => simp [or_assoc]

theorem notHolder_iff :
    (!s.ownedBy p c || decide ((s.ctx c).state = .closing)) = true ↔
      ((s.ctx c).state = .free ∨ portStation p ≠ some (s.ctx c).owner) ∨ (s.ctx c).state = .closing := by
  rw [Bool.or_eq_true, Bool.not_eq_true', ownedBy_eq_false_iff, decide_eq_true_eq]

theorem unfitArticles_iff (kind : Kind) (mode : Option Mode) :
    (decide (kind = .drive) || decide (mode = some .carrier) || l.isEmpty || s.listUnfit kind mode l) = true ↔
      kind = .drive ∨ mode = some .carrier ∨ l = [] ∨ ¬ l.Nodup ∨ ∃ k ∈ l, ¬ s.below k := by
  have hbelow : l ≠ [] → ((∀ n, s.tracker.active.carriers = some n → ∃ k ∈ l, n ≤ k) ↔ ∃ k ∈ l, ¬ s.below k) := by
    intro hl
    unfold State.below
    cases s.tracker.active.carriers with
    | none => simpa using List.exists_mem_of_ne_nil l hl
    | some n => simp
  simp only [Bool.or_eq_true, decide_eq_true_eq, List.isEmpty_iff, listUnfit_iff]
  by_cases hl : l = []
  · simp [hl]
  · rw [hbelow hl]
    tauto

theorem busyArticle_iff :
    (l.any fun k => decide (s.carrier k ≠ .free)) = true ↔ ∃ k ∈ l, s.carrier k ≠ .free := by
  simp only [List.any_eq_true, decide_eq_true_eq]

/-- The carriers join the tail of the context's list and become ARTICLE for it (R90). -/
def State.joined (s : State) (c : Nat) (l : List Nat) : State :=
  (s.setCtx c { s.ctx c with articles := (s.ctx c).articles ++ l }).setCarriers l (.article c)

/-- The joining of carriers writes contexts and map alone. -/
theorem joined_eq : s.joined c l = { s with
    engine := { s.engine with
      contexts := (s.joined c l).engine.contexts, carriers := (s.joined c l).engine.carriers } } := by
  have h := setCarriers_eq (s.setCtx c { s.ctx c with articles := (s.ctx c).articles ++ l }) l (.article c)
  have hc := setCarriers_contexts (s := s.setCtx c { s.ctx c with articles := (s.ctx c).articles ++ l }) l (.article c)
  unfold State.joined
  rw [hc]
  exact h

theorem ctx_joined (e : Nat) :
    (s.joined c l).ctx e = if e = c then { s.ctx c with articles := (s.ctx c).articles ++ l } else s.ctx e := by
  rw [State.joined, ctx_setCarriers, ctx_setCtx]

theorem carrier_joined (k : Nat) : (s.joined c l).carrier k = if k ∈ l then .article c else s.carrier k := by
  rw [State.joined, carrier_setCarriers]
  rfl

theorem joined_steadyPart : (s.joined c l).steadyPart = s.steadyPart := by
  rw [joined_eq]
  rfl

theorem joined_halted (h : s.halted) : (s.joined c l).halted := by
  rw [joined_eq]
  exact h

/-- An order that passes R90 writes the list and the map, with a check in PAUSED. -/
theorem articlesEffect_of_fit (h : articlesFault p c l s = none) :
    articlesEffect p c l s = (if (s.ctx c).state = .paused then check (s.joined c l) else s.joined c l,
      accepted (encList (be 2) ((s.ctx c).articles ++ l))) := by
  have hst : ((s.joined c l).ctx c).state = (s.ctx c).state := by
    rw [ctx_joined, if_pos rfl]
  unfold articlesEffect
  rw [h]
  change (if ((s.joined c l).ctx c).state = .paused then check (s.joined c l) else s.joined c l, _) = _
  rw [hst]

end CarrierOrders

/-- Settles O43: each order by its checks; the list and the map are written, and a check in a halted state records
reasons alone. -/
theorem carrierOrdersKeepTheMap : Obligations.CarrierOrdersKeepTheMap := by
  intro p tag s hp hroom
  refine ⟨fun c l => ?add, fun k => ?clear⟩
  case add =>
    dsimp only
    have hfault : articlesFault p c l (s.entered p 0x07 tag) = articlesFault p c l s := by rw [entered_eq]; rfl
    have hrefused : ∀ {r : Reason}, articlesFault p c l s = some r →
        RefusesWith s p 0x07 tag (articlesEffect p c l) (refusedBody r) := fun {r} h => refusesWith (by
      unfold articlesEffect
      rw [hfault, h])
    refine exec_decided (.addArticles p tag c l) rfl hroom hp ⟨fun h => hrefused (if_pos h), fun h1 =>
      ⟨fun h => hrefused ?holder, fun h2 => ⟨fun h => hrefused ?closing, fun h3 => ⟨fun h => hrefused ?unfit, fun h4 =>
        ⟨fun h => hrefused ?full, fun h5 => ⟨fun h => hrefused ?busy, fun h6 => ?taken⟩⟩⟩⟩⟩⟩
    case holder => rw [articlesFault, if_neg h1, if_pos (notHolder_iff.2 (.inl h))]
    case closing => rw [articlesFault, if_neg h1, if_pos (notHolder_iff.2 (.inr h))]
    all_goals have hn2 := fun h => (notHolder_iff.1 h).elim h2 h3
    case unfit => rw [articlesFault, if_neg h1, if_neg hn2, if_pos ((unfitArticles_iff _ _).2 h)]
    all_goals have hn4 := fun h => h4 ((unfitArticles_iff _ _).1 h)
    all_goals rw [List.length_append] at *
    case full => rw [articlesFault, if_neg h1, if_neg hn2, if_neg hn4, if_pos h]
    case busy => rw [articlesFault, if_neg h1, if_neg hn2, if_neg hn4, if_neg h5, if_pos (busyArticle_iff.2 h)]
    case taken =>
      have hnone : articlesFault p c l s = none := by
        rw [articlesFault, if_neg h1, if_neg hn2, if_neg hn4, if_neg h5, if_neg fun h => h6 (busyArticle_iff.1 h)]
      have he := articlesEffect_of_fit (hfault.trans hnone)
      rw [entered_ctx] at he
      refine ⟨⟨_, rfl, takeOrder_effect_answers hroom hp (answering_articles p c l) he, ?steady⟩, fun hst => next_congr ?running,
        fun hst hh => ?paused⟩
      case steady =>
        rw [takeOrder_effect hroom hp he, patched_steadyPart, steadyPart_replied]
        split
        · rw [steadyPart_check, joined_steadyPart]
        · rw [joined_steadyPart]
      case running =>
        rw [if_neg (by rw [hst]; exact nofun)] at he
        rw [takeOrder_of_links hroom hp he (by rw [joined_eq]), State.joined, setCarriers_links]
        cases p <;> rfl
      case paused =>
        rw [if_pos hst] at he
        have hhalt : ((s.entered p 0x07 tag).joined c l).halted := joined_halted (by
          rw [State.halted, entered_engine]; exact hh)
        obtain ⟨hctx, hframe⟩ := haltedChecksRecordReasons _ hhalt
        have hlinks : (check ((s.entered p 0x07 tag).joined c l)).links = (s.entered p 0x07 tag).links := by
          rw [hframe, joined_eq]
        have hreason : ((s.entered p 0x07 tag).joined c l).haltReason = s.haltReason := by
          rw [haltReason_of_steadyPart joined_steadyPart, State.haltReason, entered_engine]
          rfl
        refine ⟨_, next_congr (takeOrder_of_links hroom hp he hlinks), fun e hec => ?_, fun k => ?_, ?_⟩
        · refine (hctx e hec).trans ?_
          rw [hreason, ctx_joined, entered_ctx, entered_ctx]
        · have hcar : (check ((s.entered p 0x07 tag).joined c l)).carrier k
              = ((s.entered p 0x07 tag).joined c l).carrier k := by rw [hframe]; rfl
          refine hcar.trans ?_
          rw [carrier_joined, entered_eq]
          rfl
        · obtain ⟨cs, ks, hcheck⟩ : ∃ cs ks, check ((s.entered p 0x07 tag).joined c l)
              = { s.entered p 0x07 tag with engine := { s.engine with contexts := cs, carriers := ks } } := by
            refine ⟨(check ((s.entered p 0x07 tag).joined c l)).engine.contexts,
              ((s.entered p 0x07 tag).joined c l).engine.carriers, hframe.trans ?_⟩
            rw [joined_eq, entered_engine]
          rw [hcheck]
          cases p <;> rfl
  case clear =>
    have hexists : (s.entered p 0x0B tag).carrierExists k = s.carrierExists k := by rw [entered_eq]; rfl
    have hheld : ((match (s.entered p 0x0B tag).carrier k with | .article _ => true | _ => false)
        || (s.entered p 0x0B tag).inFlight k) = true
        ↔ (∃ c, s.carrier k = .article c) ∨ ∃ c < 16, (s.ctx c).inFlight = some k := by
      have hcar : (s.entered p 0x0B tag).carrier k = s.carrier k := by rw [entered_eq]; rfl
      have hfly : (s.entered p 0x0B tag).inFlight k = s.inFlight k := by rw [entered_eq]; rfl
      rw [hcar, hfly, Bool.or_eq_true, State.inFlight, List.any_eq_true]
      refine or_congr ?_ (by simp [ctxNumbers])
      cases s.carrier k <;> simp
    refine exec_decided (.clearCarrier p tag k) rfl hroom hp ⟨fun h => refusesWith ?range, fun h1 =>
      ⟨fun h => refusesWith ?held, fun h2 => next_congr ?cleared⟩⟩
    case range =>
      have hn : s.carrierExists k = false := by rw [← Bool.not_eq_true, carrierExists_iff]; exact h
      rw [clearEffect, hexists, hn]
      rfl
    all_goals have hb : s.carrierExists k = true := (carrierExists_iff k).2 (not_not.1 h1)
    case held =>
      rw [clearEffect, hexists, hb]
      exact (if_neg nofun).trans (if_pos (hheld.2 h))
    case cleared =>
      have he : clearEffect k (s.entered p 0x0B tag)
          = ((s.entered p 0x0B tag).setCarrier k .free, accepted (be 1 (reservationCode .free))) := by
        rw [clearEffect, hexists, hb]
        exact (if_neg nofun).trans (if_neg fun h => h2 (hheld.1 h))
      rw [takeOrder_of_links hroom hp he rfl]
      cases p <;> rfl

end Sys2Proof.Machine

/-! PROOFS. Order Proof: its checks, the claim that a taken one takes, and the check that follows (R72, R73, R88,
R89, R94). -/

namespace Sys2Proof.Machine

open Sys2Proof

/-! ### The checks (R72, R88) -/

section Faults

variable {s : State} {o : ProofOrder}

theorem pointsUncarried_iff (i : Nat) :
    s.pointsUncarried i = true ↔
      ∃ j ∈ i :: (s.elem i).definition.eyes, ∃ pt ∈ (s.elem j).definition.outputs ++ (s.elem j).definition.inputs,
        s.ring.slots * 16 ≤ pt := by
  simp only [State.pointsUncarried, State.claimSet, List.any_eq_true, decide_eq_true_eq]
  rfl

theorem hasReverse_eq_false_iff (i : Nat) : s.hasReverse i = false ↔ ∀ d, s.driveDef i = some d → d.reverse = none := by
  unfold State.hasReverse
  cases s.driveDef i <;> simp

/-- Steps 1 to 6 of R88 decide. -/
theorem orderFault_decided (o : ProofOrder) (s : State) :
    decidedBy
      [(1023 < o.element, refusedBody .range), ((s.elem o.element).state = .empty, refusedBody .notDefined),
        ((s.elem o.element).definition.mode = some .attached, refusedBody .attached),
        (¬ (1 ≤ o.k ∧ o.k ≤ 15 ∧ o.k ≤ o.tLim ∧ o.tLim ≤ 63), refusedBody .range),
        ((o.reverse = true ∧ ∀ e, s.driveDef o.element = some e → e.reverse = none)
          ∨ (∃ j ∈ o.element :: (s.elem o.element).definition.eyes,
            ∃ pt ∈ (s.elem j).definition.outputs ++ (s.elem j).definition.inputs, s.ring.slots * 16 ≤ pt),
          refusedBody .range),
        (8 < o.articles.length ∨ ¬ o.articles.Nodup
          ∨ (o.articles ≠ [] ∧ ((s.elem o.element).definition.kind = .drive
            ∨ (s.elem o.element).definition.mode = some .carrier
            ∨ ∀ n, s.tracker.active.carriers = some n → ∃ k ∈ o.articles, n ≤ k)), refusedBody .range)]
      (fun body => ∃ r, orderFault o s = some r ∧ refusedBody r = body) (orderFault o s = none) := by
  unfold orderFault
  refine decidedBy_ite Iff.rfl (decidedBy_ite Iff.rfl (decidedBy_ite Iff.rfl (decidedBy_ite ?_ (decidedBy_ite ?_
    (decidedBy_ite ?_ rfl)))))
  · rw [Bool.not_eq_true', Bool.and_eq_false_iff, ← Bool.not_eq_true, ← Bool.not_eq_true, within_iff, within_iff]
    tauto
  · rw [Bool.or_eq_true, Bool.and_eq_true, Bool.not_eq_true', hasReverse_eq_false_iff, pointsUncarried_iff]
  · rw [Bool.or_eq_true, decide_eq_true_eq, listUnfit_iff]
    by_cases hl : o.articles = []
    · simp [hl]
    · tauto

theorem freeContext_eq_some {c : Nat} (hc : c < 16) (hf : (s.ctx c).state = .free) (hl : ∀ c' < c, (s.ctx c').state ≠ .free) :
    s.freeContext = some c := by
  unfold State.freeContext ctxNumbers
  rw [List.find?_range_eq_some]
  exact ⟨by simpa using hf, List.mem_range.2 hc, fun j hj => by simpa using hl j hj⟩

theorem freeContext_eq_none (h : ∀ c < 16, (s.ctx c).state ≠ .free) : s.freeContext = none := by
  unfold State.freeContext ctxNumbers
  simpa using h

/-- The first listed carrier that is not FREE decides (R88). -/
theorem busyCarrier_decided (refused : List Byte → Prop) (taken : Prop)
    (hr : ∀ k, o.articles.find? (fun k => decide (s.carrier k ≠ .free)) = some k →
      refused (refusedBody .carrierBusy { carrier := some (k, s.carrier k) }))
    (ht : o.articles.find? (fun k => decide (s.carrier k ≠ .free)) = none → taken) :
    decidedBy (o.articles.map fun k =>
      (s.carrier k ≠ .free, refusedBody .carrierBusy { carrier := some (k, s.carrier k) })) refused taken := by
  simpa only [decide_eq_true_eq] using decidedBy_find? (fun k => decide (s.carrier k ≠ .free))
    (fun k => refusedBody .carrierBusy { carrier := some (k, s.carrier k) }) refused taken o.articles hr ht

end Faults

/-! ### The claim (R73, R89) -/

section Claims

variable {s : State} {o : ProofOrder} {st : Station} {c : Nat}

/-- The records, points and carriers of a taken claim, before the check that it calls for (R89). -/
def State.claimed (s : State) (c : Nat) (st : Station) (o : ProofOrder) : State :=
  let x := orderedContext st o s
  let members := x.claim.map (·.1)
  let u := x.companions.foldl (fun s j => s.mapElem j fun e => { e with holdCount := e.holdCount + 1 })
    (holdEach .testing (stationHolder st) members (s.setCtx c x))
  (deriveSources (outputsOf u (members ++ x.companions)) u).setCarriers x.articles (.article c)

theorem takeProof_eq : takeProof c st o s = check (s.claimed c st o) := rfl

/-- The hold counts of several elements rise by one each time that they are named. -/
theorem elem_raiseHolds (l : List Nat) (u : State) (j : Nat) :
    (l.foldl (fun s j => s.mapElem j fun e => { e with holdCount := e.holdCount + 1 }) u).elem j
      = { u.elem j with holdCount := (u.elem j).holdCount + l.count j } := by
  induction l generalizing u with
  | nil => rfl
  | cons i l ih =>
    rw [List.foldl_cons, ih, elem_mapElem, List.count_cons]
    by_cases hj : j = i
    · subst hj
      simp [Nat.add_assoc, Nat.add_comm]
    · simp [hj, show ¬ i = j from fun h => hj h.symm]

/-- The claim writes records and points, the context and the carriers alone. -/
theorem claimed_records (s : State) (c : Nat) (st : Station) (o : ProofOrder) :
    ∃ v, sameButRecords (s.setCtx c (orderedContext st o s)) v
      ∧ s.claimed c st o = v.setCarriers o.articles (.article c) := by
  refine ⟨_, ?_, rfl⟩
  refine sameButRecords.deriveSources ?_ _
  refine sameButRecords.foldl (fun s t i ht => ht.setElem _ _) _ ?_
  exact (sameButRecords.refl _).holdEach _ _ _

theorem ctx_claimed (e : Nat) : (s.claimed c st o).ctx e = if e = c then orderedContext st o s else s.ctx e := by
  obtain ⟨v, hv, h⟩ := claimed_records s c st o
  rw [h, ctx_setCarriers, State.ctx, hv.engine]
  exact ctx_setCtx _ _ _ _

theorem carrier_claimed (k : Nat) : (s.claimed c st o).carrier k = if k ∈ o.articles then .article c else s.carrier k := by
  obtain ⟨v, hv, h⟩ := claimed_records s c st o
  rw [h, carrier_setCarriers, State.carrier, hv.engine]
  rfl

theorem claimed_rest : (s.claimed c st o).sched = s.sched ∧ (s.claimed c st o).monitor = s.monitor
    ∧ (s.claimed c st o).drives = s.drives ∧ (s.claimed c st o).links = s.links
    ∧ (s.claimed c st o).engine.stop = s.engine.stop ∧ (s.claimed c st o).steadyPart = s.steadyPart := by
  obtain ⟨v, hv, h⟩ := claimed_records s c st o
  rw [h, setCarriers_eq, show v = _ from hv]
  exact ⟨rfl, rfl, rfl, rfl, rfl, rfl⟩

theorem claim_orderedContext :
    (orderedContext st o s).claim.map (·.1) = o.element :: (s.elem o.element).definition.eyes := by
  rw [orderedContext, List.map_map]
  exact List.map_id _

theorem elem_claimed (j : Nat) :
    (s.claimed c st o).elem j =
      { (if j ∈ o.element :: (s.elem o.element).definition.eyes then
          { s.elem j with state := .testing, holder := stationHolder st } else s.elem j) with
        holdCount := (s.elem j).holdCount + (s.elem o.element).definition.companions.count j } := by
  have hset : ∀ u : State, (u.setCarriers o.articles (.article c)).elem j = u.elem j := fun u => by
    rw [setCarriers_eq]; rfl
  unfold State.claimed
  dsimp only
  rw [claim_orderedContext]
  refine (hset _).trans ?_
  rw [elem_deriveSources, elem_raiseHolds, elem_holdEach]
  split <;> rfl

/-- What an element gives its points depends on the records and on whose claim it stands in. -/
theorem sourceOf_congr {t u : State} (ht : t.table = u.table)
    (hc : ∀ e, (t.ctx e).state = (u.ctx e).state ∧ (t.ctx e).claim = (u.ctx e).claim) (pt : Nat) :
    t.sourceOf pt = u.sourceOf pt := by
  have howner : t.ownerOf pt = u.ownerOf pt := by unfold State.ownerOf; rw [ht]
  have hclaim : ∀ i, t.ctxOfElem i = u.ctxOfElem i := fun i => by
    simp only [State.ctxOfElem, (hc _).1, (hc _).2]
  have helem : ∀ i, t.elem i = u.elem i := fun i => by unfold State.elem; rw [ht]
  unfold State.sourceOf
  simp only [howner, hclaim, helem]

/-- The points of the claim and of the companions stand as R42 derives them. -/
theorem source_claimed {j pt : Nat}
    (hj : j ∈ (o.element :: (s.elem o.element).definition.eyes) ++ (s.elem o.element).definition.companions)
    (hpt : pt ∈ (s.elem j).definition.outputs) : (s.claimed c st o).source pt = (s.claimed c st o).sourceOf pt := by
  have hderived : ∀ u : State, (∀ j, (u.elem j).definition = (s.elem j).definition) →
      ((deriveSources (outputsOf u ((o.element :: (s.elem o.element).definition.eyes)
        ++ (s.elem o.element).definition.companions)) u).setCarriers o.articles (.article c)).source pt
      = ((deriveSources (outputsOf u ((o.element :: (s.elem o.element).definition.eyes)
        ++ (s.elem o.element).definition.companions)) u).setCarriers o.articles (.article c)).sourceOf pt := by
    intro u hu
    have hmem : pt ∈ outputsOf u ((o.element :: (s.elem o.element).definition.eyes)
        ++ (s.elem o.element).definition.companions) := List.mem_flatMap.2 ⟨j, hj, by rw [hu]; exact hpt⟩
    generalize outputsOf u _ = pts at hmem ⊢
    rw [sourceOf_congr (u := deriveSources pts u) (by rw [setCarriers_eq])
      fun e => by rw [ctx_setCarriers]; exact ⟨rfl, rfl⟩, sourceOf_deriveSources]
    have h : ((deriveSources pts u).setCarriers o.articles (.article c)).source pt = (deriveSources pts u).source pt := by
      rw [setCarriers_eq]; rfl
    rw [h, source_deriveSources, if_pos hmem]
  unfold State.claimed
  dsimp only
  rw [claim_orderedContext]
  refine hderived _ fun i => ?_
  rw [elem_raiseHolds, elem_holdEach]
  split <;> rfl

end Claims

/-! ### The order (R88, R89) -/

section Ordered

variable {s : State} {p : Port} {tag : Byte} {o : ProofOrder} {st : Station} {c : Nat}

theorem proofEffect_of_fault {r : Reason} (h : orderFault o s = some r) : proofEffect p o s = refuse s r := by
  unfold proofEffect
  rw [h]

theorem proofEffect_of_full (h : orderFault o s = none) (hc : s.freeContext = none) :
    proofEffect p o s = refuse s .noContext := by
  unfold proofEffect
  rw [h, hc]

variable (h : orderFault o s = none) (hc : s.freeContext = some c) (hp : portStation p = some st)
include h hc hp

theorem proofEffect_of_busy {k : Nat} (hk : o.articles.find? (fun k => decide (s.carrier k ≠ .free)) = some k) :
    proofEffect p o s = refuse s .carrierBusy { carrier := some (k, s.carrier k) } := by
  unfold proofEffect
  rw [h, hc, hp]
  dsimp only
  rw [hk]

variable (hk : o.articles.find? (fun k => decide (s.carrier k ≠ .free)) = none)
include hk

theorem proofEffect_of_claimFault {r : Reason} {j : Nat} (hf : s.claimFault o.element = some (r, j)) :
    proofEffect p o s = refuse s r (blameElem s j) := by
  unfold proofEffect
  rw [h, hc, hp]
  dsimp only
  rw [hk, hf]

theorem proofEffect_of_fit (hf : s.claimFault o.element = none) :
    proofEffect p o s = (check (s.claimed c st o),
      accepted (be 1 c ++ be 1 (reasonCode ((check (s.claimed c st o)).ctx c).reason))) := by
  unfold proofEffect
  rw [h, hc, hp]
  dsimp only
  rw [hk, hf]
  rfl

end Ordered

/-- The claim as the check of a stopped machine leaves it (R89, R94). -/
theorem check_claimed_stopped {s : State} {o : ProofOrder} {st : Station} {c : Nat} (hstop : s.engine.stop = true)
    (hc : c < 16) :
    (∀ e, (check (s.claimed c st o)).ctx e
        = if e = c then { orderedContext st o s with reason := .stop }
          else if e < 16 then (s.ctx e).halt .stop else s.ctx e)
      ∧ (∀ j, (check (s.claimed c st o)).elem j = (s.claimed c st o).elem j)
      ∧ (∀ k, (check (s.claimed c st o)).carrier k = (s.claimed c st o).carrier k)
      ∧ (∀ pt, (check (s.claimed c st o)).source pt = (s.claimed c st o).source pt
        ∧ (check (s.claimed c st o)).sourceOf pt = (s.claimed c st o).sourceOf pt)
      ∧ (check (s.claimed c st o)).sched = s.sched ∧ (check (s.claimed c st o)).monitor = s.monitor
      ∧ (check (s.claimed c st o)).drives = s.drives := by
  obtain ⟨hsched, hmonitor, hdrives, -, hst, -⟩ := claimed_rest (s := s) (c := c) (st := st) (o := o)
  have hbar : (s.claimed c st o).barred := .inl (hst.trans hstop)
  have hreason : (s.claimed c st o).haltReason = .stop := by rw [State.haltReason, hst, hstop]; rfl
  have hsame := (checkPass_stuck (stuck_of_barred hbar)).1
  rw [← check_stuck (stuck_of_barred hbar)] at hsame
  have hframe := hsame.frame
  refine ⟨fun e => ?_, fun j => by rw [hframe]; rfl, fun k => by rw [hframe]; rfl, fun pt => ⟨by rw [hframe]; rfl, ?_⟩,
    by rw [hframe]; exact hsched, by rw [hframe]; exact hmonitor, by rw [hframe]; exact hdrives⟩
  · rw [ctx_check_barred hbar, hreason, ctx_claimed]
    by_cases he : e = c
    · rw [if_pos he, if_pos he, if_pos (he ▸ hc), Context.halt_of_paused rfl]
    · rw [if_neg he, if_neg he]
  · refine sourceOf_congr (by rw [hframe]) (fun e => ?_) pt
    obtain ⟨r, hr⟩ := hsame.reasons e
    rw [hr]
    exact ⟨rfl, rfl⟩

/-- Settles O42: the checks of R88 and R72 in their order; a taken order's claim, and the check that records STOP. -/
theorem orderProofFillsContext : Obligations.OrderProofFillsContext := by
  intro p tag o st s hp hroom
  dsimp only
  have hperm : fromStation p = true := by
    cases p with
    | line => cases hp
    | _ => rfl
  have hfault : orderFault o (s.entered p 0x06 tag) = orderFault o s := by rw [entered_eq]; rfl
  have hfree : (s.entered p 0x06 tag).freeContext = s.freeContext := by rw [entered_eq]; rfl
  have hcarrier : ∀ k, (s.entered p 0x06 tag).carrier k = s.carrier k := fun k => by rw [entered_eq]; rfl
  have hclaim : (s.entered p 0x06 tag).claimFault o.element = s.claimFault o.element := by rw [entered_eq]; rfl
  rw [List.append_assoc, List.append_assoc]
  refine exec_decided (.orderProof p tag o) rfl hroom hperm ((decidedBy_append _ _ _ _).2
    ((decidedBy_append [_, _, _, _, _, _] [_] _ _).2 (decidedBy_mono ?refused ?fit (orderFault_decided o s))))
  case refused =>
    rintro body ⟨r, hr, rfl⟩
    exact refusesWith (proofEffect_of_fault (hfault.trans hr))
  case fit =>
    intro hnone
    refine ⟨fun hall => refusesWith (proofEffect_of_full (hfault.trans hnone) (hfree.trans (freeContext_eq_none hall))),
      fun hsome => ?_⟩
    cases hctx : s.freeContext with
    | none => exact absurd (fun c hc => by simpa using List.find?_eq_none.1 hctx c (List.mem_range.2 hc)) hsome
    | some c =>
      have hcarriers : (fun k => decide ((s.entered p 0x06 tag).carrier k ≠ .free)) = fun k => decide (s.carrier k ≠ .free) :=
        funext fun k => by rw [hcarrier]
      refine (decidedBy_append _ _ _ _).2 (busyCarrier_decided _ _ (fun k hk => ⟨_, _, rfl, ?busy⟩) ?clear)
      case busy =>
        rw [proofEffect_of_busy (hfault.trans hnone) (hfree.trans hctx) hp (by rw [hcarriers]; exact hk), hcarrier]
      case clear =>
        intro hclear
        refine claimFault_decided s o.element _ _ (fun r j hf => refusesWith_naming ?_) fun hfit => ?taken
        · exact proofEffect_of_claimFault (hfault.trans hnone) (hfree.trans hctx) hp (by rw [hcarriers]; exact hclear)
            (hclaim.trans hf)
        case taken =>
          intro c' hc hst hlow
          obtain rfl : c = c' := Option.some.inj (hctx.symm.trans (freeContext_eq_some hc hst hlow))
          have he := proofEffect_of_fit (hfault.trans hnone) (hfree.trans hctx) hp (by rw [hcarriers]; exact hclear)
            (hclaim.trans hfit)
          have hanswers := takeOrder_effect_answers hroom hperm (answering_proof p o) he
          refine ⟨⟨_, _, rfl, hanswers, ?steady⟩, fun hstop => ⟨_, rfl, ?_⟩⟩
          case steady =>
            rw [takeOrder_effect hroom hperm he, patched_steadyPart, steadyPart_check, steadyPart_replied]
            exact claimed_rest.2.2.2.2.2
          obtain ⟨hctxs, helems, hcars, hsrcs, hsched, hmonitor, hdrives⟩ := check_claimed_stopped
            (s := s.entered p 0x06 tag) (o := o) (st := st) (c := c) (by rw [entered_engine]; exact hstop) hc
          have hordered : orderedContext st o (s.entered p 0x06 tag) = orderedContext st o s := by rw [entered_eq]; rfl
          rw [hordered] at hctxs
          have hreason : ((check ((s.entered p 0x06 tag).claimed c st o)).ctx c).reason = .stop := by
            rw [hctxs, if_pos rfl]
          rw [hreason] at hanswers
          have helem : ∀ j, (check ((s.entered p 0x06 tag).claimed c st o)).elem j =
              { (if j ∈ o.element :: (s.elem o.element).definition.eyes then
                  { s.elem j with state := .testing, holder := stationHolder st } else s.elem j) with
                holdCount := (s.elem j).holdCount + (s.elem o.element).definition.companions.count j } := fun j => by
            rw [helems, elem_claimed, entered_elem, entered_elem]
          refine ⟨hanswers, ?_⟩
          rw [takeOrder_effect hroom hperm he]
          refine ⟨?_, fun e hec hne => ?_, fun j hj => ?_, fun j => ?_, fun j hj hjc => ?_, fun k => ?_, fun j hj pt hpt => ?_,
            ?_, ?_, ?_⟩
          · rw [patched_ctx, hctxs, if_pos rfl]
            rfl
          · rw [patched_ctx, hctxs, if_neg hne, if_pos hec, entered_ctx]
          · rw [patched_elem, helem, if_pos hj]
            exact ⟨rfl, rfl⟩
          · rw [patched_elem, helem]
          · rw [patched_elem, helem, if_neg hj, List.count_eq_zero_of_not_mem hjc]
            rfl
          · have h := (hcars k).trans (carrier_claimed k)
            rw [hcarrier] at h
            exact h
          · have h := source_claimed (s := s.entered p 0x06 tag) (o := o) (st := st) (c := c) (j := j) (pt := pt)
              (by rw [entered_elem]; exact hj) (by rw [entered_elem]; exact hpt)
            exact (hsrcs pt).1.trans (h.trans (hsrcs pt).2.symm)
          · rw [patched_sched, hsched, entered_eq]
          · rw [patched_monitor, hmonitor, entered_eq]
          · rw [patched_drives, hdrives, entered_eq]

end Sys2Proof.Machine

/-! PROOFS. The lapse of a station (R84, R85): its contexts end one after another, and the other ports are told. -/

namespace Sys2Proof.Machine

open Sys2Proof

/-! ### What the end of a proof tells (R108) -/

section Told

variable (s : State) (c : Nat) (r : ProofResult) (cause : EndCause)

theorem trialOver_links : (s.trialOver c).links = s.links := by
  unfold State.trialOver
  split
  · rw [show cancelAwaited c s = _ from sameButStimuli_cancelAwaited c s]
  · rw [endTrial_eq]

theorem trialOver_owner : ((s.trialOver c).ctx c).owner = (s.ctx c).owner := by
  unfold State.trialOver
  split
  · rw [(sameButStimuli_cancelAwaited c s).ctx]
  · rw [ctx_endTrial, if_pos rfl]
    unfold endedContext
    rw [rotate_eq]

theorem sameButRecords.links {s t : State} (h : sameButRecords s t) : t.links = s.links := by rw [show t = _ from h]

theorem link_freedRecords (q : Port) : (s.freedRecords c).link q = s.link q := by
  unfold State.link
  rw [(sameButRecords_freedRecords s c).links]

theorem link_setCarriers (ks : List Nat) (r : Reservation) (q : Port) : (s.setCarriers ks r).link q = s.link q := by
  rw [setCarriers_eq]
  rfl

theorem link_secondPart {q : Port} (h : q ≠ stationPort (s.ctx c).owner) : (secondPart c s).link q = s.link q := by
  rw [secondPart_eq]
  have told := link_pushNotice (stationPort (s.ctx c).owner) q 0x60 (s.endedBody c)
    ((s.freedRecords c).setCarriers (s.ctx c).articles .free)
  rw [if_neg h, link_setCarriers, link_freedRecords] at told
  exact told

theorem link_closingAt (q : Port) : (s.closingAt c r cause).link q = s.link q := by
  have asked := sameButStimuli_askInactive c ((s.trialOver c).activePoints c) (s.trialOver c)
  have hlinks : (s.closingAt c r cause).links = s.links := by
    have h := congrArg (fun v : State => v.links) asked
    exact h.trans (trialOver_links s c)
  unfold State.link
  rw [hlinks]

/-- The end of a proof tells its owner's port alone. -/
theorem link_enterClosing {q : Port} (h : q ≠ stationPort (s.ctx c).owner) :
    (enterClosing c r cause s).link q = s.link q := by
  have howner : ((s.closingAt c r cause).ctx c).owner = (s.ctx c).owner := by
    rw [ctx_closingAt_self]
    exact trialOver_owner s c
  rw [enterClosing_eq]
  split
  · rw [link_secondPart _ _ (by rw [howner]; exact h), link_closingAt]
  · exact link_closingAt s c r cause q

end Told

/-! ### Settling a state in which nothing can start (R94) -/

section Settling

variable {s : State}

theorem SameButReasons.refl (s : State) : SameButReasons s s := ⟨rfl, fun _ => ⟨_, rfl⟩⟩

/-- Where nothing can start a settling writes pause reasons alone. -/
theorem settle_barred (h : s.barred) : SameButReasons s (settle s) := by
  unfold settle
  split
  · refine ⟨?_, fun c => ?_⟩
    · conv_lhs => rw [check_stuck_eq (stuck_of_barred h)]
      rw [check_owed]
    · rw [ctx_check_barred h]
      unfold Context.halt
      split <;> try split
      all_goals exact ⟨_, rfl⟩
  · exact .refl s

theorem SameButReasons.link {t : State} (h : SameButReasons s t) (q : Port) : t.link q = s.link q := by
  rw [h.frame]
  rfl

end Settling

/-! ### The contexts that a lapse ends (R85) -/

/-- Context `c` is a proof of the station in PAUSED or RUNNING. -/
abbrev State.going (s : State) (st : Station) (c : Nat) : Prop :=
  (s.ctx c).owner = st ∧ ((s.ctx c).state = .paused ∨ (s.ctx c).state = .running)

/-- The proof of a context that a lapse has ended: over, or in CLOSING until its points have settled. -/
def Context.lapsed (x : Context) : Prop := x.state = .free ∨ (x.state = .closing ∧ x.ending = some (.aborted, .lapse))

section Lapse

variable (st : Station)

theorem steadyPart_lapseOne (r : State × Nat) (c : Nat) : (lapseOne st r c).1.steadyPart = r.1.steadyPart := by
  rcases lapseOne_cases st r c with ⟨h, -⟩ | ⟨h, -⟩
  · rw [h]
  · rw [h, steadyPart_settle, steadyPart_enterClosing]

/-- A context that a lapse passes over. -/
theorem lapseOne_of_not_going {r : State × Nat} {c : Nat} (h : ¬ r.1.going st c) : lapseOne st r c = r := by
  rcases lapseOne_cases st r c with ⟨h', -⟩ | ⟨-, h'⟩
  · exact h'
  · exact absurd h' h

theorem lapseOne_of_going {r : State × Nat} {c : Nat} (h : r.1.going st c) :
    lapseOne st r c = (settle (enterClosing c .aborted .lapse r.1), r.2 + 1) := if_pos h

/-- Where nothing can start a lapse that reaches a going context ends it, writes pause reasons in others and tells
the station alone. -/
theorem lapseOne_barred {r : State × Nat} {c : Nat} (hb : r.1.barred) (h : r.1.going st c) :
    ((lapseOne st r c).1.ctx c).lapsed
      ∧ (∀ e, e ≠ c → ∃ p, (lapseOne st r c).1.ctx e = { r.1.ctx e with reason := p })
      ∧ ∀ q, q ≠ stationPort st → (lapseOne st r c).1.link q = r.1.link q := by
  have hsettle := settle_barred (barred_of_steadyPart (steadyPart_enterClosing c .aborted .lapse r.1) hb)
  rw [lapseOne_of_going st h]
  refine ⟨?_, fun e he => ?_, fun q hq => ?_⟩
  · obtain ⟨p, hp⟩ := hsettle.reasons c
    rw [hp]
    rcases ctx_enterClosing_self r.1 c .aborted .lapse with hc | ⟨hstate, hending, -⟩
    · rw [hc]; exact .inl rfl
    · exact .inr ⟨hstate, hending⟩
  · obtain ⟨p, hp⟩ := hsettle.reasons e
    rw [ctx_enterClosing_ne _ _ _ _ he] at hp
    exact ⟨p, hp⟩
  · rw [hsettle.link, link_enterClosing _ _ _ _ (by rw [h.1]; exact hq)]

/-- What a lapse leaves of the contexts of a list, where nothing can start. -/
theorem foldl_lapseOne (l : List Nat) (hl : l.Nodup) (r : State × Nat) (hb : r.1.barred) :
    (l.foldl (lapseOne st) r).2 = r.2 + (l.filter fun c => decide (r.1.going st c)).length
      ∧ (∀ c ∈ l, r.1.going st c → ((l.foldl (lapseOne st) r).1.ctx c).lapsed)
      ∧ (∀ c, (c ∈ l → ¬ r.1.going st c) → ∃ p, (l.foldl (lapseOne st) r).1.ctx c = { r.1.ctx c with reason := p })
      ∧ ∀ q, q ≠ stationPort st → (l.foldl (lapseOne st) r).1.link q = r.1.link q := by
  induction l generalizing r with
  | nil => exact ⟨rfl, nofun, fun c _ => ⟨_, rfl⟩, fun _ _ => rfl⟩
  | cons a l ih =>
    obtain ⟨ha, hl⟩ := List.nodup_cons.1 hl
    have hbarred : (lapseOne st r a).1.barred := barred_of_steadyPart (steadyPart_lapseOne st r a) hb
    obtain ⟨hcount, hended, hothers, hlinks⟩ := ih hl _ hbarred
    by_cases hg : r.1.going st a
    · obtain ⟨hlapsed, hctx, hlink⟩ := lapseOne_barred st hb hg
      have hgoing : ∀ c, c ≠ a → ((lapseOne st r a).1.going st c ↔ r.1.going st c) := fun c hc => by
        obtain ⟨p, hp⟩ := hctx c hc
        unfold State.going
        rw [hp]
      rw [List.foldl_cons]
      refine ⟨?_, ?_, fun c hc => ?_, fun q hq => (hlinks q hq).trans (hlink q hq)⟩
      · have hfilter : (l.filter fun c => decide ((lapseOne st r a).1.going st c)) =
            l.filter fun c => decide (r.1.going st c) :=
          List.filter_congr fun c hc => by rw [decide_eq_decide]; exact hgoing c (fun h => ha (h ▸ hc))
        rw [hcount, hfilter, lapseOne_of_going st hg, List.filter_cons_of_pos (by simpa using hg), List.length_cons]
        omega
      · intro c hc hgc
        rcases List.mem_cons.1 hc with rfl | hc
        · obtain ⟨p, hp⟩ := hothers c (fun h => absurd h ha)
          rw [hp]
          exact hlapsed
        · exact hended c hc ((hgoing c fun h => ha (h ▸ hc)).2 hgc)
      · have hca : c ≠ a := fun h => hc (h ▸ List.mem_cons_self ..) (h ▸ hg)
        obtain ⟨p, hp⟩ := hctx c hca
        obtain ⟨p', hp'⟩ := hothers c fun h h' => hc (List.mem_cons_of_mem _ h) ((hgoing c hca).1 h')
        exact ⟨p', by rw [hp', hp]⟩
    · rw [List.foldl_cons]
      rw [lapseOne_of_not_going st hg] at hcount hended hothers hlinks ⊢
      refine ⟨?_, ?_, fun c hc => hothers c fun h => hc (List.mem_cons_of_mem _ h), hlinks⟩
      · rw [hcount, List.filter_cons_of_neg (by simpa using hg)]
      · intro c hc hgc
        rcases List.mem_cons.1 hc with rfl | hc
        · exact absurd hgc hg
        · exact hended c hc hgc

/-- A lapse that finds no going context ends none. -/
theorem foldl_lapseOne_none (l : List Nat) (r : State × Nat) (h : ∀ c ∈ l, ¬ r.1.going st c) :
    l.foldl (lapseOne st) r = r := by
  induction l with
  | nil => rfl
  | cons a l ih =>
    rw [List.foldl_cons, lapseOne_of_not_going st (h a (List.mem_cons_self ..))]
    exact ih fun c hc => h c (List.mem_cons_of_mem _ hc)

/-- Tells every port but the station's own (R85). -/
def State.toldOthers (s : State) (k : Nat) (b : List Byte) : State :=
  ([Port.sta, Port.stb, Port.line].filter fun p => decide (p ≠ stationPort st)).foldl (fun t p => pushNotice p k b t) s

theorem lapse_eq (s : State) :
    lapse st s = (ctxNumbers.foldl (lapseOne st) (s, 0)).1.toldOthers st 0x65
      (lapsedNotice st (ctxNumbers.foldl (lapseOne st) (s, 0)).2 s.time) := rfl

theorem ctx_toldOthers (s : State) (k : Nat) (b : List Byte) (c : Nat) : (s.toldOthers st k b).ctx c = s.ctx c := by
  cases st <;> rfl

theorem steadyPart_toldOthers (s : State) (k : Nat) (b : List Byte) :
    (s.toldOthers st k b).steadyPart = s.steadyPart :=
  foldl_keeps (P := fun t : State => t.steadyPart = s.steadyPart)
    (fun t p ht => (steadyPart_pushNotice p k b t).trans ht) _ _ rfl

theorem link_toldOthers (s : State) (k : Nat) (b : List Byte) {q : Port} (h : q ≠ stationPort st) :
    (s.toldOthers st k b).link q = (s.link q).noticed (queueCap q) (k, b) := by
  unfold State.toldOthers
  cases st <;> cases q <;>
    simp_all [stationPort, link_pushNotice]

theorem steadyPart_lapse (s : State) : (lapse st s).steadyPart = s.steadyPart := by
  rw [lapse_eq, steadyPart_toldOthers]
  exact foldl_keeps_fst (P := fun t => t.steadyPart = s.steadyPart)
    (fun r c hr => (steadyPart_lapseOne st r c).trans hr) _ (s, 0) rfl

theorem lapseDue_iff (s : State) :
    s.lapseDue st = true ↔ (s.staLink st).lapse ≠ 0 ∧ (s.staLink st).lapseJudged = false
      ∧ (s.staLink st).lastFrame + (s.staLink st).lapse * 1000000 ≤ s.time := by
  unfold State.lapseDue
  simp [and_assoc]

/-- The state whose lapse deadline of the station has been judged. -/
def State.lapseTaken (s : State) : State := s.mapSta st fun x => { x with lapseJudged := true }

theorem ctx_lapseTaken (s : State) (c : Nat) : (s.lapseTaken st).ctx c = s.ctx c := by cases st <;> rfl

theorem exec_lapseDeadline_of_due {s : State} (h : s.lapseDue st = true) :
    exec (.lapseDeadline st) s = .next
      (if s.owned st [.paused, .running, .closing] = [] then s.lapseTaken st else lapse st (s.lapseTaken st)) := by
  refine next_congr ?_
  unfold lapseTick
  rw [if_pos h]
  dsimp only
  rw [show (s.mapSta st fun x => { x with lapseJudged := true }) = s.lapseTaken st from rfl]
  have howned : (s.lapseTaken st).owned st [.paused, .running, .closing] = s.owned st [.paused, .running, .closing] := by
    unfold State.owned
    simp only [ctx_lapseTaken]
  rw [howned]

theorem owned_eq_nil_iff (s : State) :
    s.owned st [.paused, .running, .closing] = [] ↔ ∀ c < 16, (s.ctx c).state = .free ∨ (s.ctx c).owner ≠ st := by
  unfold State.owned ctxNumbers
  simp only [List.filter_eq_nil_iff, List.mem_range, Bool.and_eq_true, decide_eq_true_eq]
  refine forall₂_congr fun c _ => ?_
  cases (s.ctx c).state <;> simp

end Lapse

/-- Settles O57: the fold over the contexts by `foldl_lapseOne`, what follows it by the notices of R85. -/
theorem lapseDeadlineIsJudged : Obligations.LapseDeadlineIsJudged := by
  unfold Obligations.LapseDeadlineIsJudged
  intro st s
  dsimp only
  rw [show (s.mapSta st fun x => { x with lapseJudged := true }) = s.lapseTaken st from rfl]
  refine ⟨lapseDue_iff st s, fun h => next_congr (if_neg (by simp [h])), fun hdue hnone => ?_, fun hdue hsome => ?_⟩
  · rw [exec_lapseDeadline_of_due st hdue, if_pos ((owned_eq_nil_iff st s).2 hnone)]
  · have hrun : exec (.lapseDeadline st) s = .next (lapse st (s.lapseTaken st)) := by
      rw [exec_lapseDeadline_of_due st hdue, if_neg]
      intro h
      obtain ⟨c, hc, hstate, howner⟩ := hsome
      exact ((owned_eq_nil_iff st s).1 h c hc).elim hstate fun h => h howner
    have hgoing : ∀ c, (s.lapseTaken st).going st c ↔ s.going st c := fun c => by
      unfold State.going
      rw [ctx_lapseTaken]
    refine ⟨⟨_, hrun, steadyPart_lapse st _⟩, fun hhalt => ⟨_, hrun, ?_⟩, fun hclosing => ?_⟩
    · have hb : (s.lapseTaken st).barred := by
        have h := hhalt.2
        cases st <;> exact h
      obtain ⟨hcount, hended, hothers, hlinks⟩ := foldl_lapseOne st ctxNumbers (List.nodup_range) (s.lapseTaken st, 0) hb
      rw [lapse_eq]
      refine ⟨fun c hc hg => ?_, fun c hc hg => ?_, fun q hq => ?_⟩
      · rw [ctx_toldOthers]
        exact hended c (List.mem_range.2 hc) ((hgoing c).2 hg)
      · rw [ctx_toldOthers]
        obtain ⟨p, hp⟩ := hothers c fun _ h => hg ((hgoing c).1 h)
        rw [hp, ctx_lapseTaken]
      · rw [link_toldOthers st _ _ _ hq, hlinks q hq, link_pushNotice, if_pos rfl, hcount]
        simp only [hgoing, Nat.zero_add]
        rw [show (s.lapseTaken st).link q = s.link q from link_mapSta s st _ q]
        cases st <;> rfl
    · rw [hrun, lapse_eq, foldl_lapseOne_none]
      · cases st <;> rfl
      · intro c hc hg
        obtain ⟨howner, hstate⟩ := (hgoing c).1 hg
        rcases hclosing c (List.mem_range.1 hc) howner with h | h <;> rw [h] at hstate <;> simp at hstate

end Sys2Proof.Machine

/-! PROOFS. Trials that start: the drive trial in PRECHECK (R173) and the sensor trial in WATCHING (R156 to R159). -/

namespace Sys2Proof.Machine

open Sys2Proof

/-! ### A check that finds one context PAUSED (R96) -/

section Alone

variable {s : State} {c : Nat}

/-- A pass over contexts that are not PAUSED. -/
theorem foldl_examine_idle (l : List Nat) (s : State) (h : ∀ e ∈ l, (s.ctx e).state ≠ .paused) :
    l.foldl (fun s c => if s.engine.checkOwed then s else examineCtx c s) s = s := by
  induction l with
  | nil => rfl
  | cons a l ih =>
    have ha : (if s.engine.checkOwed then s else examineCtx a s) = s := by
      rw [show examineCtx a s = s from if_neg (h a (List.mem_cons_self ..)), ite_self]
    rw [List.foldl_cons, ha]
    exact ih fun e he => h e (List.mem_cons_of_mem _ he)

/-- A pass over contexts of which one alone is PAUSED, where its examination ends no trial and pauses no other. -/
theorem foldl_examine_alone (l : List Nat) (hl : l.Nodup) (hc : c ∈ l) (ho : s.engine.checkOwed = false)
    (hs : ∀ e ∈ l, e ≠ c → (s.ctx e).state ≠ .paused)
    (ht : ∀ e ∈ l, ((examineCtx c s).ctx e).state ≠ .paused) :
    l.foldl (fun s c => if s.engine.checkOwed then s else examineCtx c s) s = examineCtx c s := by
  induction l with
  | nil => exact absurd hc List.not_mem_nil
  | cons a l ih =>
    obtain ⟨hal, hl⟩ := List.nodup_cons.1 hl
    rw [List.foldl_cons, if_neg (by simp [ho])]
    by_cases hac : a = c
    · subst hac
      exact foldl_examine_idle l _ fun e he => ht e (List.mem_cons_of_mem _ he)
    · rw [show examineCtx a s = s from if_neg (hs a (List.mem_cons_self ..) hac)]
      exact ih hl ((List.mem_cons.1 hc).resolve_left (Ne.symm hac)) (fun e he => hs e (List.mem_cons_of_mem _ he))
        (fun e he => ht e (List.mem_cons_of_mem _ he))

theorem check_alone (hc : c < 16) (ho : s.engine.checkOwed = false) (hs : ∀ e < 16, e ≠ c → (s.ctx e).state ≠ .paused)
    (hp : (examineCtx c s).engine.checkOwed = false) (ht : ∀ e < 16, ((examineCtx c s).ctx e).state ≠ .paused) :
    check s = examineCtx c s := by
  have hpass : checkPass s = examineCtx c s := by
    unfold checkPass
    rw [payCheck_eq s ho]
    exact foldl_examine_alone ctxNumbers List.nodup_range (List.mem_range.2 hc) ho (fun e he => hs e (List.mem_range.1 he))
      (fun e he => ht e (List.mem_range.1 he))
  rw [check, checkLoop, hpass, hp]
  rfl

/-- A paused context whose start conditions hold starts its trial. -/
theorem examineCtx_starts (hp : (s.ctx c).state = .paused) (hf : s.firstFail (s.ctx c) = none) :
    examineCtx c s = startTrial c s := by
  unfold examineCtx
  dsimp only
  rw [if_pos hp, hf]

theorem exec_trialStart {c : Fin 16} (hp : (s.ctx c).state = .paused) (hf : s.firstFail (s.ctx c) = none) :
    exec (.trialStart c) s = .next (settle (startTrial c s)) := next_congr (if_pos ⟨hp, hf⟩)

theorem startTrial_steadyPart (c : Nat) (s : State) : (startTrial c s).steadyPart = s.steadyPart :=
  (steady_closed s.steadyPart).startTrial c s rfl

end Alone

/-! ### The drive trial (R170, R173) -/

section Drive

variable (c : Nat) (d : DriveDef) (s : State)

/-- The record of a drive trial that starts. -/
def State.driveRecord (s : State) (d : DriveDef) : DriveTrial :=
  { phaseStart := s.time, phaseDeadline := some (s.time + d.stop * 1000), quietStart := some s.time }

/-- The state with the drive trial of context `c` in PRECHECK and its channel in the scan request set. -/
def State.drivePrechecked (s : State) (c : Nat) (d : DriveDef) : State :=
  joinScan d.current
    (s.setCtx c { s.ctx c with state := .running, reason := .none, phase := .precheck, trial := .drive (s.driveRecord d) })

variable {c d s}

theorem startTrial_drive (hk : (s.ctx c).kind = .drive) (hd : s.driveDef (s.ctx c).element = some d) :
    startTrial c s = (askInactive c ((s.drivePrechecked c d).stirredPoints c) (s.drivePrechecked c d)).1 := by
  unfold startTrial
  rw [hk]
  dsimp only
  unfold startDrive
  dsimp only
  rw [hd]
  rfl

theorem mem_insertNum (n : Nat) (l : List Nat) : n ∈ insertNum n l := by
  induction l with
  | nil => exact List.mem_singleton.2 rfl
  | cons m l ih =>
    unfold insertNum
    split
    · exact List.mem_cons_self ..
    · split
      · rename_i h; exact h ▸ List.mem_cons_self ..
      · exact List.mem_cons_of_mem _ ih

theorem joinScan_eq (ch : Option Nat) (s : State) : joinScan ch s = { s with drives := (joinScan ch s).drives } := by
  cases ch <;> rfl

end Drive

/-- Settles O50: the start by its blocks, and the check at the rest's end by `check_alone`. -/
theorem driveTrialStarts : Obligations.DriveTrialStarts := by
  unfold Obligations.DriveTrialStarts
  intro c d s hpaid hp hk hd hf
  have hask := sameButStimuli_askInactive c ((s.drivePrechecked c d).stirredPoints c) (s.drivePrechecked c d)
  rw [← startTrial_drive hk hd] at hask
  have howed : (startTrial c s).engine.checkOwed = false := by
    rw [hask.engine, State.drivePrechecked, joinScan_engine]
    exact hpaid
  have hrun : exec (.trialStart c) s = .next (startTrial c s) := by rw [exec_trialStart hp hf, settle_eq _ howed]
  have hother : ∀ e, e ≠ c.val → (startTrial c s).ctx e = s.ctx e := fun e he => by
    rw [hask.ctx, State.drivePrechecked, State.ctx, joinScan_engine]
    exact ctx_setCtx_ne s _ he
  have hself : (startTrial c s).ctx c =
      { s.ctx c with state := .running, reason := .none, phase := .precheck, trial := .drive (s.driveRecord d) } := by
    rw [hask.ctx, State.drivePrechecked, State.ctx, joinScan_engine]
    exact ctx_setCtx_self s c _
  have hdrives : (startTrial c s).drives = (s.drivePrechecked c d).drives := by
    rw [show startTrial c s = _ from hask]
  refine ⟨⟨_, hrun, hself, hother, fun ch hch => ?_, fun hn => ?_, startTrial_steadyPart _ s, ?_, ?_, ?_, ?_, ?_⟩, ?_⟩
  · unfold State.currentChan
    rw [hdrives, State.drivePrechecked, hch]
    exact ⟨currentChan_setCurrent_self .., mem_insertNum ch _⟩
  · rw [hdrives, State.drivePrechecked, hn]
    rfl
  · rw [show startTrial c s = _ from hask, State.drivePrechecked, joinScan_eq]
    rfl
  · rw [hask.engine, State.drivePrechecked, joinScan_engine]
    rfl
  · rw [hask.sched, State.drivePrechecked, joinScan_sched]
    rfl
  · rw [show startTrial c s = _ from hask, State.drivePrechecked, joinScan_eq]
    rfl
  · rw [show startTrial c s = _ from hask, State.drivePrechecked, joinScan_eq]
    rfl
  · intro hreason hrest halone
    obtain ⟨e, he, hle⟩ := hrest
    have hex := examineCtx_starts hp hf
    rw [hrun]
    refine next_congr ?_
    unfold restTick
    rw [if_pos ⟨hp, hreason, by rw [he]; simpa using hle⟩,
      check_alone c.isLt hpaid halone (by rw [hex]; exact howed), hex]
    intro e he
    rw [hex]
    by_cases hec : e = c
    · rw [hec, hself]
      exact nofun
    · rw [hother e hec]
      exact halone e he hec

/-! ### The entries of the Expectation Monitor by number (R127, R129, R132) -/

section Entries

variable (m : Monitor) (x e : Entry) (n k : Nat)

theorem mem_join : e ∈ (m.join x).travelList ++ (m.join x).timeList ↔ e = x ∨ e ∈ m.travelList ++ m.timeList := by
  unfold Monitor.join
  cases x.base
  · simp [mem_insertByClose, or_assoc]
  · simp [mem_insertByClose, or_left_comm]

theorem find_num {m : Monitor} {n : Nat} {e : Entry} (h : m.find n = some e) : e.num = n := by
  simpa using List.find?_some h

theorem find_mem {m : Monitor} {n : Nat} {e : Entry} (h : m.find n = some e) : e ∈ m.travelList ++ m.timeList :=
  List.mem_of_find?_eq_some h

variable {m x n}

/-- An entry that joins its list under a free number is the one of that number. -/
theorem find_join_self (hn : x.num ∉ m.used) : (m.join x).find x.num = some x := by
  have hsome : ((m.join x).find x.num).isSome = true := by
    unfold Monitor.find
    rw [List.find?_isSome]
    exact ⟨x, (mem_join m x x).2 (.inl rfl), by simp⟩
  obtain ⟨y, hy⟩ := Option.isSome_iff_exists.1 hsome
  rcases (mem_join m x y).1 (find_mem hy) with rfl | hmem
  · exact hy
  · exact absurd (List.mem_map.2 ⟨y, hmem, find_num hy⟩) hn

theorem lowestFree_not_used (h : m.lowestFree = some n) : n ∉ m.used := by
  unfold Monitor.lowestFree at h
  simpa using List.find?_some h

variable (m n)

/-- An entry with its phase replaced, where it has the number. -/
def Entry.phased (n : Nat) (ph : WinPhase) (e : Entry) : Entry := if e.num = n then { e with phase := ph } else e

theorem Entry.phased_num (ph : WinPhase) : (e.phased n ph).num = e.num := by
  unfold Entry.phased
  split <;> rfl

theorem find_setPhase (ph : WinPhase) : (m.setPhase n ph).find k = (m.find k).map (Entry.phased n ph) := by
  have hmap : (m.setPhase n ph).travelList ++ (m.setPhase n ph).timeList
      = (m.travelList ++ m.timeList).map (Entry.phased n ph) := by
    rw [List.map_append]
    rfl
  unfold Monitor.find
  rw [hmap, List.find?_map]
  congr 2
  funext e
  rw [Function.comp_apply, Entry.phased_num]

variable {m n} {s : State}

/-- An examination that brings no verdict sets the phase alone. -/
theorem examineWith_quiet {again : Nat → State → State} (he : s.monitor.find n = some e) (hv : (inspect s e).2 = none) :
    examineWith again n s = s.mapMonitor fun m => m.setPhase n (inspect s e).1 := by
  unfold examineWith
  rw [he]
  dsimp only
  rw [hv]

/-- Before its open an entry waits, or stands in its guard. -/
theorem Entry.phaseAt_before_open {e : Entry} {p : Int} (h : p < e.openAt) : e.phaseAt p = .waiting ∨ e.phaseAt p = .guard := by
  unfold Entry.phaseAt
  split
  · exact .inl rfl
  · exact .inr rfl

/-- Before its open an entry brings no verdict. -/
theorem inspect_before_open {e : Entry} (hopen : s.position e.base < e.openAt) (hclose : s.position e.base ≤ e.closeAt) :
    inspect s e = (e.phaseAt (s.position e.base), none) := by
  have hph : e.phaseAt (s.position e.base) ≠ .opened := by
    rcases Entry.phaseAt_before_open hopen with h | h <;> rw [h] <;> exact nofun
  unfold inspect
  dsimp only
  simp [hph, show ¬ e.closeAt < s.position e.base by omega]

/-- An insertion within the allowance takes the lowest free number and is examined at once (R130). -/
theorem insertEntry_taken (hr : (s.ctx e.ctx).state = .running)
    (ha : (s.monitor.entriesOf e.ctx).length < (s.ctx e.ctx).allowance) (hn : s.monitor.lowestFree = some n) :
    insertEntry e s = examine n (s.mapMonitor fun m => m.join { e with num := n, phase := .waiting }) := by
  unfold insertEntry
  dsimp only
  rw [if_pos ⟨hr, ha⟩, hn]

/-- An entry inserted before its open waits, or stands in its guard. -/
theorem insertEntry_early (hr : (s.ctx e.ctx).state = .running)
    (ha : (s.monitor.entriesOf e.ctx).length < (s.ctx e.ctx).allowance) (hn : s.monitor.lowestFree = some n)
    (hopen : s.position e.base < e.openAt) (hclose : s.position e.base ≤ e.closeAt) :
    insertEntry e s = s.mapMonitor fun m =>
      (m.join { e with num := n, phase := .waiting }).setPhase n (e.phaseAt (s.position e.base)) := by
  have hfind : (s.monitor.join { e with num := n, phase := .waiting }).find n = some { e with num := n, phase := .waiting } :=
    find_join_self (x := { e with num := n, phase := .waiting }) (lowestFree_not_used hn)
  have hquiet := inspect_before_open (s := s) (e := { e with num := n, phase := .waiting }) hopen hclose
  rw [insertEntry_taken e hr ha hn]
  unfold examine
  rw [examineWith_quiet _ (s := s.mapMonitor fun m => m.join { e with num := n, phase := .waiting }) hfind
    (congrArg Prod.snd hquiet)]
  exact congrArg (fun v : WinPhase × Option Verdict => (s.mapMonitor fun m =>
    (m.join { e with num := n, phase := .waiting }).setPhase n v.1)) hquiet

end Entries

/-! ### The sensor trial (R156 to R159) -/

section Sensor

variable {c : Nat} {d : SensorDef} {s : State}

/-- Travel to the nominal point, and the carrier expected there (R157, R158). -/
def State.sensorPlace (s : State) (d : SensorDef) (k : Nat) : Nat × Nat :=
  if d.mode = .article then placeArticle s.tracker.active s.tracker.pos d.coord k
  else placeCarrier s.tracker.active s.tracker.pos d.coord

/-- The record of a sensor trial that starts. -/
def State.sensorRecord (s : State) (c : Nat) (d : SensorDef) : SensorTrial :=
  { carrier := if d.mode = .article then (s.ctx c).articles.head? else none
    expected := (s.sensorPlace d ((s.ctx c).articles.headD 0)).2
    distance := (s.sensorPlace d ((s.ctx c).articles.headD 0)).1
    start := s.time }

/-- The state with the sensor trial of context `c` in WATCHING. -/
def State.sensorWatching (s : State) (c : Nat) (d : SensorDef) : State :=
  s.setCtx c
    { s.ctx c with
      state := .running, reason := .none, phase := .watching, allowance := 1, trial := .sensor (s.sensorRecord c d) }

theorem startTrial_sensor (hk : (s.ctx c).kind = .sensor) (hd : s.sensorDef (s.ctx c).element = some d) :
    startTrial c s =
      insertEntry (edgeWindow c s.tracker.active d (s.tracker.travel + (s.sensorRecord c d).distance))
        (s.sensorWatching c d) := by
  unfold startTrial
  rw [hk]
  dsimp only
  unfold startSensor
  dsimp only
  rw [hd]
  dsimp only
  rw [show (s.ctx c).articles.head?.getD 0 = (s.ctx c).articles.headD 0 by cases (s.ctx c).articles <;> rfl]
  rfl

/-- The placement of a CARRIER sensor's window, with its two cases side by side. -/
theorem placeCarrier_eq (g : Geometry) (p coord : Nat) :
    placeCarrier g p coord =
      (if (g.pitch.getD 0 - carrierPhase g p coord) % g.pitch.getD 0 < g.pitch.getD 0 / 2 then
          (g.pitch.getD 0 - carrierPhase g p coord) % g.pitch.getD 0 + g.pitch.getD 0
        else (g.pitch.getD 0 - carrierPhase g p coord) % g.pitch.getD 0,
        (carrierOver g p coord
          + if carrierPhase g p coord = 0
              ∨ g.pitch.getD 0 / 2 ≤ (g.pitch.getD 0 - carrierPhase g p coord) % g.pitch.getD 0 then 1 else 2)
          % g.carriers.getD 0) := by
  unfold placeCarrier
  simp

/-- The nominal point lies at least half a pitch away. -/
theorem half_le_sensorPlace (hl : s.pitch ≤ s.loopLen) (k : Nat) : s.pitch / 2 ≤ (s.sensorPlace d k).1 := by
  unfold State.sensorPlace placeArticle placeCarrier
  dsimp only
  rw [show s.tracker.active.pitch.getD 0 = s.pitch from rfl, show s.tracker.active.length = s.loopLen from rfl]
  split
  · dsimp only
    split <;> omega
  · dsimp only
    split
    · omega
    · rename_i h
      simpa using h

variable (c d s) (n : Nat)

/-- The EDGE window of a sensor trial that starts, under number `n`. -/
def State.edgeEntry (s : State) (c : Nat) (d : SensorDef) (n : Nat) : Entry :=
  { edgeWindow c s.tracker.active d (s.tracker.travel + (s.sensorRecord c d).distance) with num := n, phase := .waiting }

variable {c d s n}

/-- A sensor trial starts with its EDGE window on the travel list, which is not open yet (R159). -/
theorem startTrial_watching (hk : (s.ctx c).kind = .sensor) (hd : s.sensorDef (s.ctx c).element = some d)
    (hnone : s.monitor.entriesOf c = []) (hn : s.monitor.lowestFree = some n) (hpitch : 32 ≤ s.pitch)
    (hloop : s.pitch ≤ s.loopLen) :
    startTrial c s = (s.sensorWatching c d).mapMonitor fun m =>
      (m.join (s.edgeEntry c d n)).setPhase n ((s.edgeEntry c d n).phaseAt s.tracker.travel) := by
  have hdist : s.pitch / 2 ≤ (s.sensorRecord c d).distance := half_le_sensorPlace hloop _
  have htol : effSensorTol s.tracker.active d ≤ s.pitch / 4 := Nat.min_le_right ..
  have hctx : (s.sensorWatching c d).ctx c = _ := ctx_setCtx_self s c _
  rw [startTrial_sensor hk hd]
  refine insertEntry_early _ ?running ?allowed hn ?before ?after
  case running => exact congrArg Context.state hctx
  case allowed =>
    refine lt_of_lt_of_eq ?_ (congrArg Context.allowance hctx).symm
    show (s.monitor.entriesOf c).length < 1
    rw [hnone]
    exact Nat.one_pos
  case before =>
    show (s.tracker.travel : Int) < s.tracker.travel + (s.sensorRecord c d).distance - effSensorTol s.tracker.active d
    omega
  case after =>
    show (s.tracker.travel : Int) ≤ s.tracker.travel + (s.sensorRecord c d).distance + effSensorTol s.tracker.active d
    omega

theorem edgeEntry_not_open (hpitch : 32 ≤ s.pitch) (hloop : s.pitch ≤ s.loopLen) :
    (s.edgeEntry c d n).phaseAt s.tracker.travel = .waiting ∨ (s.edgeEntry c d n).phaseAt s.tracker.travel = .guard := by
  have hdist : s.pitch / 2 ≤ (s.sensorRecord c d).distance := half_le_sensorPlace hloop _
  have htol : effSensorTol s.tracker.active d ≤ s.pitch / 4 := Nat.min_le_right ..
  refine Entry.phaseAt_before_open ?_
  show (s.tracker.travel : Int) < s.tracker.travel + (s.sensorRecord c d).distance - effSensorTol s.tracker.active d
  omega

end Sensor

/-- Settles O51: the record by `startTrial_sensor`, the window by `insertEntry_early`. -/
theorem sensorTrialStarts : Obligations.SensorTrialStarts := by
  unfold Obligations.SensorTrialStarts
  intro c d n s hpaid hp hk hd hf hnone hfree hpitch hloop hmode
  extract_lets half k r near dist nominal tol
  have hstart := startTrial_watching hk hd hnone hfree hpitch hloop
  have hrun : exec (.trialStart c) s = .next (startTrial c s) := by
    rw [exec_trialStart hp hf, settle_eq _ (by rw [hstart]; exact hpaid)]
  have hfind : (startTrial c s).monitor.find n =
      some ((s.edgeEntry c d n).phased n ((s.edgeEntry c d n).phaseAt s.tracker.travel)) := by
    rw [hstart]
    exact (find_setPhase _ n n _).trans
      (congrArg (Option.map _) (find_join_self (x := s.edgeEntry c d n) (lowestFree_not_used hfree)))
  have hphased : (s.edgeEntry c d n).phased n ((s.edgeEntry c d n).phaseAt s.tracker.travel) =
      { s.edgeEntry c d n with phase := (s.edgeEntry c d n).phaseAt s.tracker.travel } := if_pos rfl
  rw [hphased] at hfind
  have hplaced : s.sensorPlace d k = (dist, if d.mode = .article then k
        else
          ((((s.tracker.pos : Int) - d.coord) % (s.loopLen : Int)).toNat / s.pitch
            + if r = 0 ∨ half ≤ near then 1 else 2) % s.tracker.active.carriers.getD 0) := by
    rcases hmode with hm | ⟨hm, -⟩
    · have hm : d.mode ≠ .article := by rw [hm]; exact nofun
      have hnear : near = (s.pitch - r) % s.pitch := if_neg hm
      simp only [dist, State.sensorPlace, if_neg hm, hnear]
      exact placeCarrier_eq _ _ _
    · have hnear : near = _ := if_pos hm
      simp only [dist, State.sensorPlace, if_pos hm, hnear]
      rfl
  have hplace : (s.sensorRecord c d).distance = dist := congrArg Prod.fst hplaced
  have hexpected := show (s.sensorRecord c d).expected = _ from congrArg Prod.snd hplaced
  have hcarrier : (s.sensorRecord c d).carrier = if d.mode = .article then some k else none := by
    refine ite_congr rfl (fun hm => ?_) fun _ => rfl
    obtain ⟨-, hne⟩ := hmode.resolve_left (by rw [hm]; exact nofun)
    obtain ⟨a, l, hl⟩ := List.exists_cons_of_ne_nil hne
    simp only [k, hl]
    rfl
  refine ⟨_, s.sensorRecord c d, _, hrun, ?_, hplace, rfl, rfl, rfl, hcarrier, hexpected, hfind,
    edgeEntry_not_open hpitch hloop, ?_, ?_, startTrial_steadyPart _ s, ?_⟩
  · rw [hstart]
    exact ctx_setCtx_self s c _
  · unfold State.edgeEntry edgeWindow
    rw [hplace]
    rfl
  · intro e he
    rw [hstart]
    exact ctx_setCtx_ne s _ he
  · rw [hstart]
    exact ⟨rfl, rfl, rfl, rfl, rfl⟩

end Sys2Proof.Machine

/-! PROOFS. The chute trial that starts: its cue admitted, or the void of the fifth refusal (R112 to R117). -/

namespace Sys2Proof.Machine

open Sys2Proof

/-! ### The cue list (R110, R118) -/

section CueList

variable {q : Cue} {p : Cue → Bool} (l : List Cue)

/-- A cue that joins the list is passed over by a search for another. -/
theorem find?_insertByDue_neg (hq : p q = false) : (insertByDue q l).find? p = l.find? p := by
  induction l with
  | nil => simp [insertByDue, hq]
  | cons x l ih =>
    unfold insertByDue
    split
    · rw [List.find?_cons, List.find?_cons, ih]
    · rw [List.find?_cons_of_neg (by simp [hq])]

/-- A cue that joins the list is found where it is the only one searched for. -/
theorem find?_insertByDue_pos (hq : p q = true) (hl : ∀ x ∈ l, p x = false) : (insertByDue q l).find? p = some q := by
  induction l with
  | nil => simp [insertByDue, hq]
  | cons x l ih =>
    unfold insertByDue
    split
    · rw [List.find?_cons_of_neg (by simp [hl x (List.mem_cons_self ..)])]
      exact ih fun y hy => hl y (List.mem_cons_of_mem _ hy)
    · exact List.find?_cons_of_pos hq

variable {s : State} {l}

/-- Neither the final aim nor the fire of a cue more than a pitch ahead is due. -/
theorem nothing_due (h : (s.tracker.travel : Int) < q.due - s.pitch) : s.aimDue q = false ∧ s.fireDue q = false := by
  unfold State.aimDue State.fireDue
  constructor
  · simp; omega
  · simp; omega

/-- An examination of a list in which nothing is due handles no cue. -/
theorem nextCue_none (done : List Nat) (h : ∀ x ∈ l, s.aimDue x = false ∧ s.fireDue x = false) : s.nextCue done l = none := by
  induction l with
  | nil => rfl
  | cons x l ih =>
    obtain ⟨haim, hfire⟩ := h x (List.mem_cons_self ..)
    unfold State.nextCue
    rw [haim, hfire, ih fun y hy => h y (List.mem_cons_of_mem _ hy), if_neg (by simp), ite_self]

/-- An examination with nothing due is over at once. -/
theorem examineCues_idle {settle : State → State} (h : ∀ x ∈ s.sched.cues, s.aimDue x = false ∧ s.fireDue x = false) :
    examineCues settle s = endExam s := by
  unfold examineCues examineCuesLoop
  rw [nextCue_none [] h]

end CueList

/-! ### The closing of a proof without a trial (R107) -/

section Closing

variable {s : State} {c : Nat}

/-- A proof that ends with no trial under way leaves the Cue Scheduler as it is. -/
theorem enterClosing_sched (r : ProofResult) (cause : EndCause) (h : (s.ctx c).phase = .none) :
    (enterClosing c r cause s).sched = s.sched := by
  have hclosing : (s.closingAt c r cause).sched = s.sched := by
    have hover : (s.trialOver c).sched = s.sched := by
      unfold State.trialOver
      rw [if_pos h, (sameButStimuli_cancelAwaited c s).sched]
    exact (sameButStimuli_askInactive c ((s.trialOver c).activePoints c) (s.trialOver c)).sched.trans hover
  rw [enterClosing_eq]
  split
  · rw [secondPart_sched, hclosing]
  · exact hclosing

theorem outcomeTaken_phase (o : TrialOutcome) (d : Option Int) : ((s.outcomeTaken c o d).ctx c).phase = .none := by
  rw [ctx_outcomeTaken, if_pos rfl, counted_eq]

theorem settle_sched_idle (h : ∀ e < 16, (s.ctx e).state ≠ .paused) : (settle s).sched = s.sched := by
  unfold settle
  split
  · rw [check_idle s h]; rfl
  · rfl

/-- The eighth limit void ends the proof. -/
theorem decideProof_void_ends {x : Context} {cause : VoidCause} (hc : cause ≠ .stop) (h : 7 ≤ x.limitVoids) :
    decideProof (countOutcome x (.void cause) none) (.void cause) = some (.abandoned, .voids) := by
  cases cause with
  | stop => exact absurd rfl hc
  | _ => exact if_pos (by show 8 ≤ x.limitVoids + 1; omega)

end Closing

/-! ### The start (R146) -/

section Start

variable {c k : Nat} {rest : List Nat} {d : ChuteDef} {s : State}

/-- The state with the chute trial of context `c` in AIMING at carrier `k`, before its aim. -/
def State.chuteAiming (s : State) (c k : Nat) (d : ChuteDef) : State :=
  s.setCtx c
    { s.ctx c with
      state := .running, reason := .none, phase := .aiming, allowance := 2
      trial := .chute { carrier := k, fullMet := if d.fullEye.isSome then some false else none } }

/-- The lead of a trial that starts (R113). -/
def State.startLead (s : State) (d : ChuteDef) : Nat := leadOf s.tracker.speed d.latency s.loopLen

/-- The admission of the candidates for carrier `k` (R114, R116, R117). -/
def State.admitted (s : State) (k : Nat) (d : ChuteDef) : Option (Int × Nat) :=
  admission (s.sched.spacing * s.pitch) (s.sched.window * s.pitch) s.sched.allowed s.loopLen
    (pruneHistory s).sched.points 5 0
    (s.tracker.travel +
      aimDistance s.tracker.active s.tracker.pos (targetOf s.tracker.active d.coord k) (s.startLead d))

/-- The cue of a trial that is admitted at `due` after `r` retries. -/
def State.startCue (s : State) (c k : Nat) (d : ChuteDef) (due : Int) (r : Nat) : Cue :=
  { ctx := c, element := (s.ctx c).element, due := due, point := d.discharge, activeHigh := d.activeHigh
    width := d.pulse, carrier := k, lead := s.startLead d, retries := r, aimed := false }

/-- The state with the admitted cue on the list. -/
def State.chuteAdmitted (s : State) (c k : Nat) (d : ChuteDef) (due : Int) (r : Nat) : State :=
  ((pruneHistory (s.chuteAiming c k d)).mapSched fun q =>
    { q with cues := insertByDue (s.startCue c k d due r) q.cues }).mapCtx c fun x => { x with cueHeld := true }

theorem startTrial_chute (hk : (s.ctx c).kind = .chute) (hd : s.chuteDef (s.ctx c).element = some d)
    (ha : (s.ctx c).articles = k :: rest) :
    startTrial c s =
      match s.admitted k d with
      | some (due, r) => examineCues id (s.chuteAdmitted c k d due r)
      | none => takeOutcome c (.void .pacing) none (pruneHistory (s.chuteAiming c k d)) := by
  have helement : ((s.chuteAiming c k d).ctx c).element = (s.ctx c).element := by
    rw [State.chuteAiming, ctx_setCtx_self]
  have hdef : (s.chuteAiming c k d).chuteDef ((s.chuteAiming c k d).ctx c).element = some d := by rw [helement]; exact hd
  unfold startTrial
  rw [hk]
  dsimp only
  unfold startChute
  dsimp only
  rw [hd, show (s.ctx c).articles.headD 0 = k by rw [ha]; rfl]
  show aim c k (s.chuteAiming c k d) = _
  unfold aim
  dsimp only
  rw [hdef]
  dsimp only
  rw [helement]
  rfl

end Start

/-- Settles O52: the aim by `startTrial_chute`; an admitted cue stands more than a pitch ahead, so that the examination
that follows is over at once. -/
theorem chuteTrialStarts : Obligations.ChuteTrialStarts := by
  unfold Obligations.ChuteTrialStarts
  intro c d k rest s hpaid hp hk hd hf ha
  extract_lets lead first admitted given started
  have hadmitted : admitted = s.admitted k d := rfl
  have hstarted : ∀ e, (s.chuteAiming c k d).ctx e = if e = c.val then started else s.ctx e := fun e => ctx_setCtx s c e started
  have hstart := startTrial_chute hk hd ha
  rw [hadmitted]
  have hvoid : s.admitted k d = none → startTrial c s =
      takeOutcome c (.void .pacing) none (pruneHistory (s.chuteAiming c k d)) := fun h => by rw [hstart, h]
  refine ⟨fun h => ?_, fun h hlimit halone => ?_, fun due r h hdue hcues => ?_⟩
  · rw [exec_trialStart hp hf, hvoid h]
    rfl
  · have hctx : (pruneHistory (s.chuteAiming c k d)).ctx c = started := (hstarted c).trans (if_pos rfl)
    have htaken := takeOutcome_of_ends c (.void .pacing) none (pruneHistory (s.chuteAiming c k d)) (by rw [hctx])
      (decideProof_void_ends (by exact nofun) (by rw [hctx]; exact hlimit))
    have hothers : ∀ e < 16, e ≠ c.val →
        (((pruneHistory (s.chuteAiming c k d)).outcomeTaken c (.void .pacing) none).ctx e).state ≠ .paused := fun e he hec => by
      rw [ctx_outcomeTaken, if_neg hec, show (pruneHistory (s.chuteAiming c k d)).ctx e = _ from (hstarted e).trans (if_neg hec)]
      exact halone e he hec
    refine ⟨_, exec_trialStart hp hf, ?_, ?_⟩
    · rw [hvoid h, htaken]
      unfold State.cueOf
      rw [settle_sched_idle, enterClosing_sched _ _ (outcomeTaken_phase _ _), outcomeTaken_sched]
      · exact find?_cue_filter_ne c _
      · intro e he
        by_cases hec : e = c
        · rw [hec]
          rcases ctx_enterClosing_self ((pruneHistory (s.chuteAiming c k d)).outcomeTaken c (.void .pacing) none) c
            .abandoned .voids with h | ⟨h, -⟩ <;> rw [h] <;> exact nofun
        · rw [ctx_enterClosing_ne _ _ _ _ hec]
          exact hothers e he hec
    · rw [hvoid h, htaken]
      rcases ctx_settle_enterClosing (r := .abandoned) (cause := .voids) hothers with hfree | ⟨hclosing, hending, -⟩
      · exact .inl hfree
      · exact .inr ⟨hclosing, hending⟩
  · have hidle : startTrial c s = endExam (s.chuteAdmitted c k d due r) := by
      rw [hstart, h]
      refine examineCues_idle fun x hx => ?_
      rcases mem_insertByDue.1 hx with rfl | hx
      · exact nothing_due hdue
      · exact nothing_due (hcues x hx).2
    have hrun : exec (.trialStart c) s = .next (startTrial c s) := by
      rw [exec_trialStart hp hf, settle_eq _ (by rw [hidle]; exact hpaid)]
    have hctx : ∀ e, (startTrial c s).ctx e = if e = c.val then { started with cueHeld := true } else s.ctx e := fun e => by
      rw [hidle]
      refine (ctx_mapCtx c (pruneHistory (s.chuteAiming c k d)) (fun x => { x with cueHeld := true }) e).trans ?_
      have hself : (pruneHistory (s.chuteAiming c k d)).ctx c = started := (hstarted c).trans (if_pos rfl)
      rw [hself]
      exact ite_congr rfl (fun _ => rfl) fun hec => (hstarted e).trans (if_neg hec)
    refine ⟨_, hrun, (hctx c).trans (if_pos rfl), ?_, fun e he => ⟨(hctx e).trans (if_neg he), ?_⟩, startTrial_steadyPart _ s, ?_⟩
    · rw [hidle]
      exact find?_insertByDue_pos _ (decide_eq_true rfl) fun x hx => decide_eq_false (hcues x hx).1
    · rw [hidle]
      exact find?_insertByDue_neg _ (decide_eq_false (Ne.symm he))
    · rw [hidle]
      exact ⟨rfl, rfl, rfl, rfl, rfl⟩

end Sys2Proof.Machine

/-! PROOFS. The examination of the cue list: final aim and fire of the cue at the head (R118 to R122). -/

namespace Sys2Proof.Machine

open Sys2Proof

/-! ### The passage of travel (R118) -/

section Passage

variable {s : State}

/-- An increase of U prunes the history and begins an examination. -/
theorem advanceTravel_of_lt (h : s.tracker.travel < Config.max48) :
    advanceTravel s = refreshGuards (beginExam (pruneHistory (s.mapTracker Tracker.advance))) := by
  unfold advanceTravel
  dsimp only
  rw [if_pos h]

/-- An examination that begins is under way where something is due of the head. -/
theorem examining_beginExam (s : State) :
    (beginExam s).sched.examining = true
      ↔ ∃ q ∈ (beginExam s).sched.cues.head?, (beginExam s).aimDue q = true ∨ (beginExam s).fireDue q = true := by
  refine (beginExam_examining s).trans ?_
  simp only [Option.mem_def, List.head?_eq_some_iff]
  exact exists_congr fun q => ⟨fun ⟨l, hl, h⟩ => ⟨⟨l, hl⟩, h⟩, fun ⟨⟨l, hl⟩, h⟩ => ⟨l, hl, h⟩⟩

/-- What an increase of U leaves of the Cue Scheduler. -/
theorem travelled_sched (h : s.tracker.travel < Config.max48) :
    (s.travelled.sched.examining = true
        ↔ ∃ q ∈ s.travelled.sched.cues.head?, s.travelled.aimDue q = true ∨ s.travelled.fireDue q = true)
      ∧ ∀ u ∈ s.travelled.sched.history,
        (s.travelled.tracker.travel : Int) - u ≤ (s.travelled.sched.window * s.travelled.pitch : Nat) := by
  have htravel : (settleTravel s).tracker.travel < Config.max48 := by
    rw [tracker_of_steadyPart (steadyPart_settleTravel s)]
    exact h
  rw [State.travelled, advanceTravel_of_lt htravel]
  constructor
  · exact examining_beginExam _
  · intro u hu
    exact of_decide_eq_true (List.mem_filter.1 hu).2

end Passage

/-! ### Final aim (R119) -/

section Aim

variable {q : Cue} {rest : List Cue} {s : State}

/-- A cue after its final aim. -/
def State.aimedCue (s : State) (q : Cue) : Cue :=
  { q with due := q.due + s.aimMove q, lead := q.lead - s.aimMove q, aimed := true }

/-- The list after the final aim of its head: the aimed cue at its place among the others. -/
theorem finalAim_cues (h : s.sched.cues = q :: rest) (hrest : ∀ x ∈ rest, x.ctx ≠ q.ctx) :
    (finalAim q s).sched.cues =
      if s.aimMove q = 0 then s.aimedCue q :: rest else insertByDue (s.aimedCue q) rest := by
  show (if s.aimMove q = 0 then _ else _) = _
  rw [h]
  refine ite_congr rfl (fun _ => ?_) fun _ => ?_
  · have hmap : rest.map (fun x => if x = q then s.aimedCue q else x) = rest :=
      (List.map_congr_left fun x hx => if_neg fun he => hrest x hx (by rw [he])).trans (List.map_id _)
    rw [List.map_cons, if_pos rfl]
    exact congrArg _ hmap
  · have hfilter : (q :: rest).filter (fun x => decide (x.ctx ≠ q.ctx)) = rest := by
      rw [List.filter_cons_of_neg (by simp), List.filter_eq_self]
      exact fun x hx => decide_eq_true (hrest x hx)
    exact congrArg _ hfilter

theorem mem_finalAim (h : s.sched.cues = q :: rest) (hrest : ∀ x ∈ rest, x.ctx ≠ q.ctx) {x : Cue}
    (hx : x ∈ (finalAim q s).sched.cues) : x = s.aimedCue q ∨ x ∈ rest := by
  rw [finalAim_cues h hrest] at hx
  split at hx
  · exact List.mem_cons.1 hx
  · exact mem_insertByDue.1 hx

/-- An examination with one final aim to make, after which nothing is due. -/
theorem runCues_aim (h : s.sched.cues = q :: rest) (hrest : ∀ x ∈ rest, x.ctx ≠ q.ctx) (haim : s.aimDue q = true)
    (hahead : (s.tracker.travel : Int) < q.due + s.aimMove q)
    (hnone : ∀ x ∈ rest, s.aimDue x = false ∧ s.fireDue x = false) : runCues s = endExam (finalAim q s) := by
  have hnext : s.nextCue [] s.sched.cues = some q := (nextCue_eq_some s _ q).2 ⟨rest, h, .inl haim⟩
  have hidle : ∀ x ∈ (finalAim q s).sched.cues, (finalAim q s).aimDue x = false ∧ (finalAim q s).fireDue x = false := fun x hx => by
    rcases mem_finalAim h hrest hx with rfl | hx
    · refine ⟨rfl, ?_⟩
      show decide _ = false
      refine decide_eq_false (not_le.2 hahead)
    · exact hnone x hx
  unfold runCues examineCues examineCuesLoop
  rw [hnext]
  dsimp only
  rw [if_pos haim]
  unfold examineCuesLoop
  rw [nextCue_none _ hidle]

theorem find?_finalAim_self (h : s.sched.cues = q :: rest) (hrest : ∀ x ∈ rest, x.ctx ≠ q.ctx) :
    (finalAim q s).cueOf q.ctx = some (s.aimedCue q) := by
  unfold State.cueOf
  rw [finalAim_cues h hrest]
  split
  · exact List.find?_cons_of_pos (decide_eq_true rfl)
  · exact find?_insertByDue_pos _ (decide_eq_true rfl) fun x hx => decide_eq_false (hrest x hx)

theorem find?_finalAim_ne (h : s.sched.cues = q :: rest) (hrest : ∀ x ∈ rest, x.ctx ≠ q.ctx) {c : Nat} (hc : c ≠ q.ctx) :
    (finalAim q s).cueOf c = s.cueOf c := by
  have hneg : decide (q.ctx = c) = false := decide_eq_false (Ne.symm hc)
  unfold State.cueOf
  rw [finalAim_cues h hrest, h, List.find?_cons_of_neg (by rw [hneg]; exact nofun)]
  split
  · exact List.find?_cons_of_neg (by rw [show decide ((s.aimedCue q).ctx = c) = _ from hneg]; exact nofun)
  · exact find?_insertByDue_neg _ hneg

end Aim

/-! ### Fire (R120 to R122) -/

section Fire

variable {q : Cue} {s : State} {x : Stimulus} {r : ChuteTrial}

/-- The state after a discharge whose pulse is awaited (R122). -/
def State.discharged (s : State) (q : Cue) (x : Stimulus) : State :=
  ((removeCue q.ctx (s.setStimulus q.point (some { x with awaited := some (q.ctx, .pulse q.width) }))).mapSched fun sch =>
    { sch with history := pushTail 8 sch.history q.due }).mapCtx q.ctx fun y =>
      { y with
        phase := .firing
        trial := match y.trial with
          | .chute r => .chute { r with stim := .awaited, leadUsed := some q.lead.toNat }
          | t => t }

theorem discharge_taken (hl : s.ring.state ≠ .lost) (hs : s.source q.point = .test q.ctx) (hx : s.stimulus q.point = some x) :
    discharge q s = s.discharged q x := by
  unfold discharge
  rw [requestStimulus_taken _ hl hs hx]
  rfl

theorem ctx_discharged (hr : (s.ctx q.ctx).trial = .chute r) (e : Nat) :
    (s.discharged q x).ctx e =
      if e = q.ctx then
        { s.ctx q.ctx with
          cueHeld := false, phase := .firing
          trial := .chute { r with stim := .awaited, leadUsed := some q.lead.toNat } }
      else s.ctx e := by
  have hremoved : ∀ e, (removeCue q.ctx s).ctx e = if e = q.ctx then { s.ctx q.ctx with cueHeld := false } else s.ctx e :=
    fun e => ctx_mapCtx q.ctx s (fun x => { x with cueHeld := false }) e
  have hself : (removeCue q.ctx s).ctx q.ctx = { s.ctx q.ctx with cueHeld := false } := (hremoved _).trans (if_pos rfl)
  refine (ctx_mapCtx q.ctx (removeCue q.ctx s) (fun y =>
      { y with
        phase := .firing
        trial := match y.trial with
          | .chute r => .chute { r with stim := .awaited, leadUsed := some q.lead.toNat }
          | t => t }) e).trans (ite_congr rfl (fun _ => ?_) fun he => (hremoved e).trans (if_neg he))
  rw [hself, hr]

/-- A fire with both eyes clear discharges. -/
theorem fireCue_clear {d : ChuteDef} (hd : s.chuteDef q.element = some d) (he : s.eyeBlocked (some d.entryEye) = false)
    (hf : s.eyeBlocked d.fullEye = false) : fireCue q s = discharge q s := by
  unfold fireCue
  rw [hd]
  dsimp only
  rw [he, hf]
  rfl

/-- A fire with an eye blocked fails the trial with that eye's code (R121). -/
theorem fireCue_blocked {d : ChuteDef} (hd : s.chuteDef q.element = some d)
    (h : s.eyeBlocked (some d.entryEye) = true ∨ s.eyeBlocked d.fullEye = true) :
    fireCue q s = takeOutcome q.ctx (.fail (if s.eyeBlocked (some d.entryEye) then .entryBlocked else .chuteFull)) none
      (removeCue q.ctx s) := by
  unfold fireCue
  rw [hd]
  dsimp only
  by_cases he : s.eyeBlocked (some d.entryEye) = true
  · rw [if_pos he, if_pos he]
  · rw [if_neg he, if_neg he, if_pos (h.resolve_left he)]

theorem exec_cueFire {c : Fin 16} (ht : s.cueTurn c = some q) (hf : s.fireDue q = true) :
    exec (.cueFire c) s = .next (beginExam (settle (fireCue q s))) := by
  refine next_congr ?_
  rw [ht]
  dsimp only
  rw [if_pos hf]

end Fire

theorem find?_filter_ctx {c e : Nat} (he : e ≠ c) (l : List Cue) :
    (l.filter fun u => decide (u.ctx ≠ c)).find? (fun q => decide (q.ctx = e)) = l.find? fun q => decide (q.ctx = e) := by
  rw [List.find?_filter]
  congr 1
  funext q
  by_cases hq : q.ctx = e
  · simp [hq, he]
  · simp [hq]

/-- Settles O54: the passage by `travelled_sched`, the turn by `cueTurn_eq_some`, the aim by `runCues_aim`, the fire by
`discharge_taken` and `fireCue_blocked`. -/
theorem cuesAimAndFire : Obligations.CuesAimAndFire := by
  unfold Obligations.CuesAimAndFire
  refine ⟨fun s hb hlt hmissing => ?_, fun c s h => ?_, fun c q rest d s hpaid hexam hcues hctx hd => ?_⟩
  · have hrun : forward (moveLevels encForward s) = (moveLevels encForward s).travelled := by
      have hnot : ¬ (moveLevels encForward s).travelled.missingDue = true := by
        rw [missingDue_iff, State.pitch, tracker_of_steadyPart (steadyPart_travelled (moveLevels encForward s))]
        rintro ⟨htrack, hle⟩
        have htrack : s.tracker.state = .tracking := htrack
        have hadvance : ((moveLevels encForward s).mapTracker Tracker.advance).tracker.missing = s.tracker.missing + 1 :=
          if_pos htrack
        rw [hadvance] at hle
        exact absurd hle (not_le.2 (hmissing htrack))
      rw [forward_of_zero (s := moveLevels encForward s) hb, if_neg hnot]
    exact ⟨_, next_congr hrun, travelled_sched hlt⟩
  · have hturn : ∀ q, s.cueTurn c = some q → s.aimDue q = false ∧ s.fireDue q = false := fun q hq => by
      obtain ⟨hexam, l, hl, hqc, -⟩ := (cueTurn_eq_some s c q).1 hq
      rcases h with h | h
      · rw [hexam] at h; exact nomatch h
      · exact (h q (by rw [hl]; rfl)).resolve_left fun hne => hne hqc
    constructor
    · refine next_congr ?_
      cases hq : s.cueTurn c with
      | none => rfl
      | some q => exact if_neg (by rw [(hturn q hq).1]; exact nofun)
    · refine next_congr ?_
      cases hq : s.cueTurn c with
      | none => rfl
      | some q => exact if_neg (by rw [(hturn q hq).2]; exact nofun)
  · refine ⟨?aim, ?fire, ?blocked⟩
    case aim =>
      intro bound move haimed hdue hahead hrest
      have hmove : s.aimMove q = move := by
        unfold State.aimMove
        rw [hd]
      have haim : s.aimDue q = true := by
        unfold State.aimDue
        rw [haimed, decide_eq_true hdue]
        rfl
      have hothers : ∀ x ∈ rest, x.ctx ≠ q.ctx := fun x hx => by rw [hctx]; exact (hrest x hx).1
      have hturn : s.cueTurn c = some q := (cueTurn_eq_some s c q).2 ⟨hexam, rest, hcues, hctx, .inl haim⟩
      have hrun : exec (.cueFinalAim c) s = .next (endExam (finalAim q s)) := by
        refine next_congr ?_
        rw [hturn]
        dsimp only
        rw [if_pos haim, runCues_aim hcues hothers haim (by rw [hmove]; exact hahead) fun x hx => (hrest x hx).2]
      have hfind : (finalAim q s).cueOf c = some (s.aimedCue q) := hctx ▸ find?_finalAim_self hcues hothers
      rw [State.aimedCue, hmove] at hfind
      exact ⟨_, hrun, hfind, fun e he => find?_finalAim_ne hcues hothers (by rw [hctx]; exact he), rfl⟩
    case fire =>
      intro r x haimed hdue hentry hfull hr hlost hsource hx
      have hfire : s.fireDue q = true := by
        unfold State.fireDue
        rw [haimed, decide_eq_true hdue]
        rfl
      have hturn : s.cueTurn c = some q := (cueTurn_eq_some s c q).2 ⟨hexam, rest, hcues, hctx, .inr hfire⟩
      have hrun : exec (.cueFire c) s = .next (beginExam (s.discharged q x)) := by
        rw [exec_cueFire hturn hfire, fireCue_clear hd hentry hfull, discharge_taken hlost (by rw [hctx]; exact hsource) hx,
          settle_eq (s.discharged q x) hpaid]
      have hc := ctx_discharged (x := x) (q := q) (s := s) (r := r) (by rw [hctx]; exact hr)
      rw [hctx] at hc
      refine ⟨_, hrun, ?gone, fun e he => ?others, rfl, ?exam, ?stimulus, ?self, fun e he => ?contexts, ?steady, rfl, rfl, rfl,
        rfl, rfl⟩
      case gone =>
        rw [← hctx]
        exact find?_cue_filter_ne q.ctx _
      case others => exact find?_filter_ctx (by rw [hctx]; exact he) _
      case exam => exact examining_beginExam _
      case stimulus =>
        rw [← hctx]
        exact stimulus_setStimulus_self ..
      case self => exact (hc c).trans (if_pos rfl)
      case contexts => exact (hc e).trans (if_neg he)
      case steady => rfl
    case blocked =>
      intro haimed hdue hblocked
      have hfire : s.fireDue q = true := by
        unfold State.fireDue
        rw [haimed, decide_eq_true hdue]
        rfl
      have hturn : s.cueTurn c = some q := (cueTurn_eq_some s c q).2 ⟨hexam, rest, hcues, hctx, .inr hfire⟩
      rw [exec_cueFire hturn hfire, fireCue_blocked hd hblocked, hctx]

end Sys2Proof.Machine

/-! PROOFS. The examination of an expectation entry: its turn, its opening check, its close verdict and the report of a
MET (R131 to R140). -/

namespace Sys2Proof.Machine

open Sys2Proof

/-! ### The phase and the turn (R131, R132) -/

section Turn

variable {e : Entry} {p : Int} {n : Nat} {s : State}

theorem Entry.phaseAt_waiting_iff (e : Entry) (p : Int) : e.phaseAt p = .waiting ↔ p < e.guardAt := by
  unfold Entry.phaseAt
  split
  · simp_all
  · split <;> simp_all

theorem Entry.phaseAt_guard_iff (e : Entry) (p : Int) : e.phaseAt p = .guard ↔ e.guardAt ≤ p ∧ p < e.openAt := by
  unfold Entry.phaseAt
  split
  · simp; omega
  · split
    · simp; omega
    · simp; omega

theorem Entry.phaseAt_opened_iff (h : e.guardAt ≤ e.openAt) (p : Int) : e.phaseAt p = .opened ↔ e.openAt ≤ p := by
  unfold Entry.phaseAt
  split
  · simp; omega
  · split
    · simp; omega
    · simp; omega

/-- Something is due of an entry at the present position of its base. -/
theorem due_eq (s : State) (e : Entry) :
    e.due (s.position e.base) =
      decide ((e.phase ≠ .opened ∧ e.openAt ≤ s.position e.base) ∨ e.closeAt < s.position e.base) := by
  unfold Entry.due
  simp

theorem firstDue_eq (s : State) (l : List Entry) :
    s.firstDue l = l.find? fun e =>
      decide ((e.phase ≠ .opened ∧ e.openAt ≤ s.position e.base) ∨ e.closeAt < s.position e.base) := by
  unfold State.firstDue
  simp only [due_eq]

/-- An entry has no turn where the first one due of neither list is it. -/
theorem entryTurn_eq_none (ht : ∀ x ∈ s.firstDue s.monitor.travelList, x.num ≠ n)
    (hm : ∀ x ∈ s.firstDue s.monitor.timeList, x.num ≠ n) : s.entryTurn n = none := by
  unfold State.entryTurn
  rw [List.find?_eq_none]
  intro x hx
  rcases List.mem_append.1 hx with h | h
  · simpa using ht x (by simpa using h)
  · simpa using hm x (by simpa using h)

theorem exec_opens_none {n : Fin 24} (h : s.entryTurn n = none) : exec (.expectationOpens n) s = .next s :=
  next_congr (by rw [h])

theorem exec_closePassed_none {n : Fin 24} (h : s.entryTurn n = none) : exec (.expectationClosePassed n) s = .next s :=
  next_congr (by rw [h])

theorem exec_opens {n : Fin 24} (h : s.entryTurn n = some e) (hp : e.phase ≠ .opened) (ho : e.openAt ≤ s.position e.base) :
    exec (.expectationOpens n) s = .next (settle (examine n s)) := by
  refine next_congr ?_
  rw [h]
  exact if_pos ⟨hp, ho⟩

theorem exec_closePassed {n : Fin 24} (h : s.entryTurn n = some e) (hc : e.closeAt < s.position e.base) :
    exec (.expectationClosePassed n) s = .next (settle (examine n s)) := by
  refine next_congr ?_
  rw [h]
  exact if_pos hc

end Turn

/-! ### Examinations and verdicts (R132, R133, R136, R140) -/

section Examination

variable {e : Entry} {n : Nat} {s : State} {v : Verdict} {ph : WinPhase}

/-- An examination that brings a verdict. -/
theorem examine_verdict (hf : s.monitor.find n = some e) (hi : inspect s e = (ph, some v)) :
    examine n s = applyVerdict (examineWith fun _ s => s) e v (s.mapMonitor fun m => m.setPhase n ph) := by
  unfold examine examineWith
  rw [hf]
  dsimp only
  rw [hi]

/-- An entry whose open has been reached makes its opening check. -/
theorem inspect_opening (hp : e.phase ≠ .opened) (hph : e.phaseAt (s.position e.base) = .opened) :
    inspect s e =
      (.opened, match openingCheck s e (s.input e.point).level with
        | some v => some v
        | none => if e.closeAt < s.position e.base then some (closeVerdict s e) else none) := by
  unfold inspect
  dsimp only
  rw [hph, if_pos (show WinPhase.opened = .opened ∧ e.phase ≠ .opened from ⟨rfl, hp⟩)]
  cases openingCheck s e (s.input e.point).level <;> rfl

/-- An entry in OPEN whose close has passed gets its close verdict. -/
theorem inspect_closing (hp : e.phase = .opened) (hph : e.phaseAt (s.position e.base) = .opened)
    (hc : e.closeAt < s.position e.base) : inspect s e = (.opened, some (closeVerdict s e)) := by
  unfold inspect
  dsimp only
  rw [hph, if_neg (show ¬ (WinPhase.opened = .opened ∧ e.phase ≠ .opened) from fun h => h.2 hp)]
  exact congrArg _ (if_pos hc)

variable {again : Nat → State → State}

theorem applyVerdict_failing (f : Failing) :
    applyVerdict again e (.failing f) s =
      takeOutcome e.ctx (.fail (failOf e.role (decide ((s.ctx e.ctx).kind = .chute)) f)) none s := rfl

/-- A MET without successor frees the entry and is reported. -/
theorem applyVerdict_met (dev time travel : Int) (ht : e.template = none) :
    applyVerdict again e (.met dev time travel) s =
      reportMet e.ctx e.role dev e.prior (s.mapMonitor fun m => m.drop e.num) := by
  unfold applyVerdict
  rw [ht]

/-- A MET with successor converts the entry, which is examined at once. -/
theorem applyVerdict_convert (dev time travel : Int) {t : Template} (ht : e.template = some t) :
    applyVerdict again e (.met dev time travel) s =
      again e.num (s.mapMonitor fun m => (m.drop e.num).join (e.successor t dev time travel)) := by
  unfold applyVerdict
  rw [ht]

theorem failOf_preset (r : Role) (b : Bool) : failOf r b .preset = if r = .entry then .entryBlocked else .preset := by
  cases r <;> rfl

theorem failOf_stuck (r : Role) {p : Prop} [Decidable p] : failOf r (decide p) .stuck = if p then .jam else .stuck := by
  unfold failOf
  by_cases h : p <;> simp [h]

/-- The phase of a dropped entry is lost with it. -/
theorem drop_setPhase (m : Monitor) (n : Nat) (ph : WinPhase) : (m.setPhase n ph).drop n = m.drop n := by
  have hlist : ∀ l : List Entry, (l.map (Entry.phased n ph)).filter (fun e => decide (e.num ≠ n)) =
      l.filter fun e => decide (e.num ≠ n) := fun l => by
    induction l with
    | nil => rfl
    | cons x l ih =>
      by_cases hx : x.num = n
      · rw [List.map_cons, List.filter_cons_of_neg (by simp [Entry.phased_num, hx]),
          List.filter_cons_of_neg (by simp [hx]), ih]
      · rw [List.map_cons, show Entry.phased n ph x = x from if_neg hx, List.filter_cons_of_pos (by simp [hx]),
          List.filter_cons_of_pos (by simp [hx]), ih]
  exact congrArg₂ Monitor.mk (hlist m.travelList) (hlist m.timeList)

end Examination

/-! ### The report of a MET (R139, R151, R160) -/

section Report

variable {c : Nat} {dev : Int} {prior : Option (Role × Int)} {s : State}

theorem reportMet_sensor {r : SensorTrial} (h : (s.ctx c).trial = .sensor r) (role : Role) :
    reportMet c role dev prior s =
      takeOutcome c .pass (prior.map (·.2))
        (s.setCtx c { s.ctx c with trial := .sensor { r with dwell := some dev, edgeDev := prior.map (·.2) } }) := by
  unfold reportMet
  rw [h]
  rfl

theorem reportMet_chute {r : ChuteTrial} (h : (s.ctx c).trial = .chute r) (role : Role) :
    reportMet c role dev prior s =
      if (r.takeMet role dev prior).passes then
        takeOutcome c .pass (r.takeMet role dev prior).entryDev
          (s.setCtx c { s.ctx c with trial := .chute (r.takeMet role dev prior) })
      else s.setCtx c { s.ctx c with trial := .chute (r.takeMet role dev prior) } := by
  unfold reportMet
  rw [h]
  rfl

theorem reportMet_clear {r : ChuteTrial} (h : (s.ctx c).trial = .chute r) :
    reportMet c .clear dev prior s =
      if r.fullMet = some false then
        s.setCtx c
          { s.ctx c with
            trial := .chute { r with clearMet := true, dwell := some dev, entryDev := prior.map (·.2) } }
      else
        takeOutcome c .pass (prior.map (·.2))
          (s.setCtx c
            { s.ctx c with
              trial := .chute { r with clearMet := true, dwell := some dev, entryDev := prior.map (·.2) } }) := by
  have hpass : (r.takeMet .clear dev prior).passes = !decide (r.fullMet = some false) := by
    show (true && decide (r.fullMet ≠ some false)) = _
    rw [Bool.true_and, decide_not]
  rw [reportMet_chute h, hpass]
  by_cases hf : r.fullMet = some false
  · rw [decide_eq_true hf, if_pos hf]
    rfl
  · rw [decide_eq_false hf, if_neg hf]
    rfl

theorem reportMet_full {r : ChuteTrial} (h : (s.ctx c).trial = .chute r) :
    reportMet c .full dev prior s =
      if r.clearMet then
        takeOutcome c .pass r.entryDev (s.setCtx c { s.ctx c with trial := .chute { r with fullMet := some true } })
      else s.setCtx c { s.ctx c with trial := .chute { r with fullMet := some true } } := by
  have hpass : (r.takeMet .full dev prior).passes = r.clearMet := Bool.and_true _
  rw [reportMet_chute h, hpass]
  rfl

end Report

end Sys2Proof.Machine

/-! PROOFS. An edge of a watched point, judged by its expectation entry (R134, R135), and its notice (R187). -/

namespace Sys2Proof.Machine

open Sys2Proof

/-! ### The frame that brings the edge (R33, R40) -/

section Arrival

variable {f : RingFrame} {s : State}

/-- The state that has taken a frame from the nodes off the ring. -/
def State.returned (s : State) (f : RingFrame) : State :=
  s.mapRing fun g => { g with ringOut := if g.role = .relay then some f else g.ringOut, returnDeadline := none }

/-- A good frame from the nodes lowers the error count and brings its edges. -/
theorem exec_nodeFrame_good (hpend : s.ring.returnDeadline.isSome = true) (hseq : s.ring.lastSeq = some f.seq.toNat)
    (hcrc : f.crc = f.properCrc) (hcount : f.count.toNat = s.ring.slots) :
    exec (.nodeFrame f) s =
      .next (((ringGood (s.returned f)).edges f).foldl takeEdge (ringGood (s.returned f))) := by
  have herror : frameError s.ring.slots f
      (s.ring.returnDeadline.isSome && decide (s.ring.lastSeq = some f.seq.toNat)) = none := by
    unfold frameError
    rw [if_neg (not_not.2 hcrc), if_neg (not_not.2 hcount), hpend, decide_eq_true hseq]
    rfl
  refine next_congr ?_
  unfold nodeArrival
  dsimp only
  split
  next k hk => exact absurd (herror.symm.trans hk) nofun
  next => rfl

/-- The state that has counted a good frame from the nodes. -/
def State.goodTaken (s : State) (f : RingFrame) : State :=
  (s.returned f).mapRing fun g => { g with errors := g.errors - 1, goodRun := capAdd 64 g.goodRun 1 }

theorem ringGood_of_same (hl : s.ring.state ≠ .lost) (h : ringStateOf (s.ring.errors - 1) = s.ring.state) :
    ringGood (s.returned f) = s.goodTaken f := by
  unfold ringGood
  refine (if_neg hl).trans ?_
  exact followErrors_of_same (s := s.goodTaken f) h

/-- The state with the level and the stamps of an edge in the image. -/
def State.stamped (s : State) (pt : Nat) (level : Bool) : State :=
  s.mapRing fun g =>
    { g with image := Table.set {} g.image pt { level := level, time := s.time, travel := s.tracker.travel } }

theorem takeEdge_eq (pt : Nat) (level : Bool) :
    takeEdge s (pt, level) =
      noticeEdge pt level (judgeEdge settle pt level s.time s.tracker.travel (s.stamped pt level)) := rfl

/-- The notice of an edge carries the T and the U of the instant, to the stations that watch the point. -/
theorem noticeEdge_eq {t : State} (ht : t.steadyPart = s.steadyPart) (pt : Nat) (level : Bool) :
    noticeEdge pt level t = s.toldOf pt level t := by
  have hsta : t.staLink .sta = s.staLink .sta := by have h := congrArg (fun v : State => v.links.staA) ht; exact h
  have hstb : t.staLink .stb = s.staLink .stb := by have h := congrArg (fun v : State => v.links.staB) ht; exact h
  have hafter : ∀ k b, (pushNotice (stationPort .sta) k b t).staLink .stb = s.staLink .stb := fun k b => hstb
  unfold noticeEdge State.toldOf
  simp only [List.foldl_cons, List.foldl_nil]
  rw [tracker_of_steadyPart ht, time_of_steadyPart ht, hsta]
  by_cases h : pt ∈ (s.staLink .sta).watch
  · rw [if_pos h, hafter, if_pos h]
    rfl
  · rw [if_neg h, hstb, if_neg h]
    rfl

end Arrival

/-! ### The judgement (R134, R135) -/

section Judgement

variable {e : Entry} {level : Bool} {s : State}

theorem judge_eq :
    judge s e level s.time s.tracker.travel =
      if s.position e.base < e.guardAt ∨ e.closeAt < s.position e.base then (e.phase, none)
      else if s.position e.base < e.openAt then
        (e.phase,
          if e.kind = .arrive ∧ level = e.level ∧ s.withStart e s.time s.tracker.travel = false then some (.failing .early)
          else none)
      else
        (.opened,
          if (if e.phase = .opened then none else openingCheck s e (!level)).isSome then
            if e.phase = .opened then none else openingCheck s e (!level)
          else judgeOpen e level s.time s.tracker.travel) := by
  unfold judge State.position
  cases e.base <;> rfl

/-- Outside guard and close an edge changes nothing of its entry. -/
theorem judge_outside (h : s.position e.base < e.guardAt ∨ e.closeAt < s.position e.base) :
    judge s e level s.time s.tracker.travel = (e.phase, none) := by rw [judge_eq, if_pos h]

theorem judge_guard (hg : e.guardAt ≤ s.position e.base) (ho : s.position e.base < e.openAt)
    (hc : s.position e.base ≤ e.closeAt) :
    judge s e level s.time s.tracker.travel =
      (e.phase,
        if e.kind = .arrive ∧ level = e.level ∧ s.withStart e s.time s.tracker.travel = false then some (.failing .early)
        else none) := by
  rw [judge_eq, if_neg (by omega), if_pos ho]

/-- In the open region an entry makes its opening check first, on the level before the edge. -/
theorem judge_open (hg : e.guardAt ≤ e.openAt) (ho : e.openAt ≤ s.position e.base) (hc : s.position e.base ≤ e.closeAt) :
    judge s e level s.time s.tracker.travel =
      (.opened,
        if (if e.phase = .opened then none else openingCheck s e (!level)).isSome then
          if e.phase = .opened then none else openingCheck s e (!level)
        else judgeOpen e level s.time s.tracker.travel) := by
  rw [judge_eq, if_neg (by omega), if_neg (by omega)]

theorem judgeOpen_eq :
    judgeOpen e level s.time s.tracker.travel =
      match e.kind with
      | .arrive => if level = e.level then some (.met (s.position e.base - e.nominal) s.time s.tracker.travel) else none
      | .depart => if level = e.level then none else some (.met (s.position e.base - e.nominal) s.time s.tracker.travel)
      | .quiet => some (.failing .disturbed) := by
  unfold judgeOpen State.position
  cases e.base <;> cases e.kind <;> rfl

theorem withStart_iff :
    s.withStart e s.time s.tracker.travel = true ↔
      ∃ r : SensorTrial, (s.ctx e.ctx).trial = .sensor r ∧ e.role = .edge ∧ r.start = s.time
        ∧ e.guardAt = s.tracker.travel ∧ e.nominal = (s.tracker.travel : Int) + r.distance := by
  unfold State.withStart
  cases (s.ctx e.ctx).trial <;> simp

/-- An edge that brings no verdict sets the phase alone. -/
theorem judgeEntry_quiet {ph : WinPhase} (h : judge s e level s.time s.tracker.travel = (ph, none)) :
    judgeEntry level s.time s.tracker.travel e s = s.mapMonitor fun m => m.setPhase e.num ph := by
  unfold judgeEntry
  dsimp only
  rw [h]

theorem judgeEntry_verdict {ph : WinPhase} {v : Verdict} (h : judge s e level s.time s.tracker.travel = (ph, some v)) :
    judgeEntry level s.time s.tracker.travel e s = applyVerdict examine e v (s.mapMonitor fun m => m.setPhase e.num ph) := by
  unfold judgeEntry
  dsimp only
  rw [h]

/-- An edge that one entry watches. -/
theorem judgeEdge_one {pt : Nat} (h : ((s.monitor.travelList ++ s.monitor.timeList).filter fun x => decide (x.point = pt)) = [e])
    (hf : s.monitor.find e.num = some e) (t u : Nat) :
    judgeEdge settle pt level t u s = settle (judgeEntry level t u e s) := by
  unfold judgeEdge
  rw [h, List.foldl_cons, if_pos hf, List.foldl_nil]

end Judgement

/-! ### The conversion (R138) -/

section Conversion

variable {e : Entry} {n : Nat} {s : State}

theorem num_not_used_drop (m : Monitor) (n : Nat) : n ∉ (m.drop n).used := by
  unfold Monitor.used Monitor.drop
  simp

theorem map_phased_of_ne {l : List Entry} (ph : WinPhase) (h : ∀ y ∈ l, y.num ≠ n) : l.map (Entry.phased n ph) = l :=
  (List.map_congr_left fun y hy => if_neg (h y hy)).trans (List.map_id _)

theorem map_phased_insertByClose {l : List Entry} (x : Entry) (ph : WinPhase) (h : ∀ y ∈ l, y.num ≠ x.num) :
    (insertByClose x l).map (Entry.phased x.num ph) = insertByClose { x with phase := ph } l := by
  have hx : Entry.phased x.num ph x = { x with phase := ph } := if_pos rfl
  induction l with
  | nil => exact congrArg (fun y => [y]) hx
  | cons y l ih =>
    have hl : ∀ z ∈ l, z.num ≠ x.num := fun z hz => h z (List.mem_cons_of_mem _ hz)
    have hy : Entry.phased x.num ph y = y := if_neg (h y (List.mem_cons_self ..))
    unfold insertByClose
    dsimp only
    split
    · rw [List.map_cons, hy, ih hl]
    · rw [List.map_cons, List.map_cons, hx, hy, map_phased_of_ne ph hl]

/-- The phase of an entry that has just joined its list is set in its place. -/
theorem setPhase_join (m : Monitor) (x : Entry) (ph : WinPhase) (hn : x.num ∉ m.used) :
    (m.join x).setPhase x.num ph = m.join { x with phase := ph } := by
  have hne : ∀ y ∈ m.travelList ++ m.timeList, y.num ≠ x.num := fun y hy he => hn (List.mem_map.2 ⟨y, hy, he⟩)
  have htravel : ∀ y ∈ m.travelList, y.num ≠ x.num := fun y hy => hne y (List.mem_append_left _ hy)
  have htime : ∀ y ∈ m.timeList, y.num ≠ x.num := fun y hy => hne y (List.mem_append_right _ hy)
  have hbase : ∀ b, x.base = b → (m.join x).setPhase x.num ph = m.join { x with phase := ph } := fun b hb => by
    unfold Monitor.join
    cases b
    · simp only [hb]
      exact congrArg₂ Monitor.mk ((map_phased_insertByClose x ph htravel).trans (by rw [hb])) (map_phased_of_ne ph htime)
    · simp only [hb]
      exact congrArg₂ Monitor.mk (map_phased_of_ne ph htravel) ((map_phased_insertByClose x ph htime).trans (by rw [hb]))
  exact hbase x.base rfl

/-- The successor that the rules give an ARRIVE window: a DEPART from the matching instant on (R150, R159). -/
def Entry.departing (e : Entry) (pos : Int) (w : Nat) : Entry :=
  { e with
    kind := .depart, role := .clear, guardAt := pos, openAt := pos, closeAt := pos + w, nominal := pos
    phase := .opened, template := none, prior := some (e.role, pos - e.nominal) }

/-- A successor whose point stands at its level is open at once. -/
theorem examine_successor {m : Monitor} {x : Entry} (hm : s.monitor = m.join x) (hn : x.num ∉ m.used) (hp : x.phase ≠ .opened)
    (hg : x.guardAt = s.position x.base) (ho : x.openAt = s.position x.base) (hc : s.position x.base ≤ x.closeAt)
    (hk : x.kind = .depart) (hlevel : (s.input x.point).level = x.level) :
    examine x.num s = s.mapMonitor fun _ => m.join { x with phase := .opened } := by
  have hphase : x.phaseAt (s.position x.base) = .opened := (x.phaseAt_opened_iff (by omega) _).2 (by omega)
  have hcheck : openingCheck s x (s.input x.point).level = none := by
    unfold openingCheck
    rw [hk]
    exact if_pos hlevel
  have hinspect := inspect_opening hp hphase
  rw [hcheck] at hinspect
  dsimp only at hinspect
  rw [if_neg (by omega)] at hinspect
  unfold examine
  rw [examineWith_quiet x (n := x.num) (by rw [hm]; exact find_join_self hn) (by rw [hinspect]), hinspect]
  unfold State.mapMonitor
  rw [hm]
  exact congrArg (fun v : Monitor => ({ s with monitor := v } : State)) (setPhase_join m x .opened hn)

theorem position_congr {t : State} (ht : t.steadyPart = s.steadyPart) (b : Base) : t.position b = s.position b := by
  unfold State.position
  rw [tracker_of_steadyPart ht, time_of_steadyPart ht]

/-- A MET with the successor of the rules converts its entry, which is open at once. -/
theorem applyVerdict_departing {w : Nat} (ht : e.template = some
      { kind := .depart, level := e.level, base := e.base, role := .clear, openOff := 0, closeOff := w })
    (hlevel : (s.input e.point).level = e.level) :
    applyVerdict examine e (.met (s.position e.base - e.nominal) s.time s.tracker.travel)
        (s.mapMonitor fun m => m.setPhase e.num .opened) =
      s.mapMonitor fun m => (m.drop e.num).join (e.departing (s.position e.base) w) := by
  have hsucc : e.successor { kind := .depart, level := e.level, base := e.base, role := .clear, openOff := 0, closeOff := w }
      (s.position e.base - e.nominal) s.time s.tracker.travel =
        { e.departing (s.position e.base) w with phase := .waiting } := by
    unfold Entry.successor Entry.departing State.position
    cases e.base <;> simp
  have hjoin : (fun m : Monitor => (m.drop e.num).join { e.departing (s.position e.base) w with phase := .waiting }) ∘
      (fun m : Monitor => m.setPhase e.num .opened) =
        fun m : Monitor => (m.drop e.num).join { e.departing (s.position e.base) w with phase := .waiting } := by
    funext m
    rw [Function.comp_apply, drop_setPhase]
  have hstate : (s.mapMonitor fun m => m.setPhase e.num .opened).mapMonitor (fun m =>
      (m.drop e.num).join { e.departing (s.position e.base) w with phase := .waiting }) =
        s.mapMonitor fun m => (m.drop e.num).join { e.departing (s.position e.base) w with phase := .waiting } :=
    congrArg (fun f : Monitor → Monitor => s.mapMonitor f) hjoin
  rw [applyVerdict_convert _ _ _ ht, hsucc, hstate]
  exact examine_successor (x := { e.departing (s.position e.base) w with phase := .waiting })
    (s := s.mapMonitor fun m => (m.drop e.num).join { e.departing (s.position e.base) w with phase := .waiting })
    rfl (num_not_used_drop s.monitor e.num) nofun rfl rfl (by show s.position e.base ≤ s.position e.base + w; omega) rfl hlevel

end Conversion

end Sys2Proof.Machine

/-! PROOFS. Expectations from open to close, by the passage of their base and by the edges of their points (O55). -/

namespace Sys2Proof.Machine

open Sys2Proof

/-! ### The events of an entry that has the turn (R133, R136) -/

section Turned

variable {n : Fin 24} {e : Entry} {s : State}

/-- The state with entry `n` in OPEN. -/
def State.passed (s : State) (n : Nat) : State := s.mapMonitor fun m => m.setPhase n .opened

theorem opens_quiet (hturn : s.entryTurn n = some e) (hf : s.monitor.find n = some e) (hpaid : s.engine.checkOwed = false)
    (hph : e.phaseAt (s.position e.base) = .opened) (ho : e.openAt ≤ s.position e.base) (hp : e.phase ≠ .opened)
    (hc : s.position e.base ≤ e.closeAt) (hcheck : openingCheck s e (s.input e.point).level = none) :
    exec (.expectationOpens n) s = .next (s.passed n) := by
  have hinspect := inspect_opening hp hph
  rw [hcheck] at hinspect
  dsimp only at hinspect
  rw [if_neg (by omega)] at hinspect
  have hexamine : examine n s = s.passed n := by
    unfold examine
    rw [examineWith_quiet e hf (by rw [hinspect]), hinspect]
    rfl
  rw [exec_opens hturn hp ho, hexamine, settle_eq (s.passed n) hpaid]

theorem opens_verdict {v : Verdict} (hturn : s.entryTurn n = some e) (hf : s.monitor.find n = some e)
    (hph : e.phaseAt (s.position e.base) = .opened) (ho : e.openAt ≤ s.position e.base) (hp : e.phase ≠ .opened)
    (hcheck : openingCheck s e (s.input e.point).level = some v) :
    exec (.expectationOpens n) s = .next (settle (applyVerdict (examineWith fun _ s => s) e v (s.passed n))) := by
  have hinspect := inspect_opening hp hph
  rw [hcheck] at hinspect
  rw [exec_opens hturn hp ho, examine_verdict hf hinspect]
  rfl

theorem closes_verdict (hturn : s.entryTurn n = some e) (hf : s.monitor.find n = some e)
    (hph : e.phaseAt (s.position e.base) = .opened) (hp : e.phase = .opened) (hc : e.closeAt < s.position e.base) :
    exec (.expectationClosePassed n) s =
      .next (settle (applyVerdict (examineWith fun _ s => s) e (closeVerdict s e) (s.passed n))) := by
  rw [exec_closePassed hturn hc, examine_verdict hf (inspect_closing hp hph hc)]
  rfl

end Turned

/-! ### An edge that one entry watches (R134, R187) -/

section Edge

variable {f : RingFrame} {pt : Nat} {level : Bool} {e : Entry} {s : State}

theorem ringStateOf_of_le {n : Nat} (h : n ≤ 95) : ringStateOf n = .good := if_pos h

/-- The frame that brings one edge, with what its entry makes of it. -/
theorem exec_nodeFrame_edge (hgood : s.ring.state = .good) (herr : s.ring.errors ≤ 96)
    (hpend : s.ring.returnDeadline.isSome = true) (hseq : s.ring.lastSeq = some f.seq.toNat) (hcrc : f.crc = f.properCrc)
    (hcount : f.count.toNat = s.ring.slots) (hedges : s.edges f = [(pt, level)])
    (hone : ((s.monitor.travelList ++ s.monitor.timeList).filter fun x => decide (x.point = pt)) = [e])
    (hf : s.monitor.find e.num = some e) :
    exec (.nodeFrame f) s =
      .next (s.toldOf pt level
        (settle (judgeEntry level s.time s.tracker.travel e ((s.goodTaken f).stamped pt level)))) := by
  have hring : ringGood (s.returned f) = s.goodTaken f :=
    ringGood_of_same (by rw [hgood]; exact nofun) (by rw [hgood]; exact ringStateOf_of_le (by omega))
  have hsteady : (settle (judgeEntry level s.time s.tracker.travel e ((s.goodTaken f).stamped pt level))).steadyPart =
      ((s.goodTaken f).stamped pt level).steadyPart := by
    rw [steadyPart_settle]
    exact (steady_closed ((s.goodTaken f).stamped pt level).steadyPart).judgeEntry level _ _ e _ rfl
  have hjudged : judgeEdge settle pt level s.time s.tracker.travel ((s.goodTaken f).stamped pt level) = _ :=
    judgeEdge_one (s := (s.goodTaken f).stamped pt level) hone hf s.time s.tracker.travel
  rw [exec_nodeFrame_good hpend hseq hcrc hcount, hring, show (s.goodTaken f).edges f = _ from hedges, List.foldl_cons,
    List.foldl_nil, takeEdge_eq]
  refine congrArg Host.Outcome.next ?_
  exact (congrArg (noticeEdge pt level) hjudged).trans (noticeEdge_eq hsteady pt level)

end Edge

section Opened

variable {e : Entry} {level : Bool} {s : State}

/-- In the open region, an entry that is not open yet and whose opening check brings a verdict. -/
theorem judge_open_check {v : Verdict} (hg : e.guardAt ≤ e.openAt) (ho : e.openAt ≤ s.position e.base)
    (hc : s.position e.base ≤ e.closeAt) (hp : e.phase ≠ .opened) (hcheck : openingCheck s e (!level) = some v) :
    judge s e level s.time s.tracker.travel = (.opened, some v) := by
  rw [judge_open hg ho hc, if_neg hp, hcheck]
  rfl

/-- In the open region, an entry that is open, or whose opening check brings nothing, judges the edge. -/
theorem judge_open_edge (hg : e.guardAt ≤ e.openAt) (ho : e.openAt ≤ s.position e.base) (hc : s.position e.base ≤ e.closeAt)
    (hcheck : e.phase = .opened ∨ openingCheck s e (!level) = none) :
    judge s e level s.time s.tracker.travel = (.opened, judgeOpen e level s.time s.tracker.travel) := by
  have hnone : (if e.phase = .opened then none else openingCheck s e (!level)) = none := by
    split
    next => rfl
    next hp => exact hcheck.resolve_left hp
  rw [judge_open hg ho hc, hnone]
  rfl

end Opened

/-- Settles O55: the turn by `entryTurn_eq_some`, the checks and verdicts by the equations of `inspect` and `judge`, the
edge's frame by `exec_nodeFrame_edge`. -/
theorem expectationsOpenAndClose : Obligations.ExpectationsOpenAndClose := by
  unfold Obligations.ExpectationsOpenAndClose
  refine ⟨fun e pos h => ⟨e.phaseAt_waiting_iff pos, e.phaseAt_guard_iff pos, Entry.phaseAt_opened_iff h pos⟩,
    fun n s => ?turn, fun n e s hpaid hf hguard hopen => ?events, fun c dev prior s => ?report,
    fun f pt level e s hpaid hgood herr hpend hseq hcrc hcount hedges hone hf hguard => ?edge⟩
  case turn =>
    intro due ht hm
    have hnone : s.entryTurn n = none :=
      entryTurn_eq_none (by rw [firstDue_eq]; exact ht) (by rw [firstDue_eq]; exact hm)
    exact ⟨exec_opens_none hnone, exec_closePassed_none hnone⟩
  case events =>
    intro due hfirst hnodup passed
    have hnum : e.num = n := find_num hf
    have hturn : s.entryTurn n = some e := by
      refine (entryTurn_eq_some s n e hnodup).2 ⟨hnum, ?_⟩
      rw [firstDue_eq, firstDue_eq]
      obtain ⟨l, hl, hfind⟩ := hfirst
      rcases List.mem_pair.1 hl with rfl | rfl
      · exact .inl hfind
      · exact .inr hfind
    have hph : e.phaseAt (s.position e.base) = .opened := (Entry.phaseAt_opened_iff hguard _).2 hopen
    refine ⟨fun hp hc hlevel => ?_, fun hp hk hlevel => ?_, fun hp hk hlevel ht => ?_, fun hp hc => ⟨fun hk => ?_, fun hk => ?_,
      fun r hk hrole ht hr hclear => ?_⟩⟩
    · refine opens_quiet hturn hf hpaid hph hopen hp hc ?_
      unfold openingCheck
      cases hk : e.kind
      · rw [hk] at hlevel
        exact if_neg hlevel
      · rw [hk] at hlevel
        exact if_pos hlevel
      · rfl
    · have hcheck : openingCheck s e (s.input e.point).level = some (.failing .preset) := by
        unfold openingCheck
        rw [hk]
        exact if_pos hlevel
      rw [opens_verdict hturn hf hph hopen hp hcheck, applyVerdict_failing, failOf_preset]
      rfl
    · have hcheck : openingCheck s e (s.input e.point).level = some s.metHere := by
        unfold openingCheck
        rw [hk]
        exact if_neg hlevel
      rw [opens_verdict hturn hf hph hopen hp hcheck, State.metHere, applyVerdict_met _ _ _ ht, hnum]
      rfl
    · have hverdict : closeVerdict s e = .failing .missed := by unfold closeVerdict; rw [hk]
      rw [closes_verdict hturn hf hph hp hc, hverdict]
      rfl
    · have hverdict : closeVerdict s e = .failing .stuck := by unfold closeVerdict; rw [hk]
      rw [closes_verdict hturn hf hph hp hc, hverdict, applyVerdict_failing, failOf_stuck]
      rfl
    · have hverdict : closeVerdict s e = s.metHere := by unfold closeVerdict; rw [hk]
      have hdrop : (s.passed n).mapMonitor (fun m => m.drop n) = s.mapMonitor fun m => m.drop n :=
        congrArg (fun m : Monitor => ({ s with monitor := m } : State)) (drop_setPhase s.monitor n .opened)
      have hrec : ((s.mapMonitor fun m => m.drop n).ctx e.ctx).trial = .chute r := hr
      rw [closes_verdict hturn hf hph hp hc, hverdict, State.metHere, applyVerdict_met _ _ _ ht, hnum, hdrop, hrole,
        reportMet_full hrec, hclear]
      exact congrArg Host.Outcome.next (settle_eq _ hpaid)
  case report =>
    refine ⟨fun role r hr => reportMet_sensor hr role, fun r hr => ⟨reportMet_clear hr, reportMet_full hr⟩⟩
  case edge =>
    intro answer stamped phased told fails met pos together
    have hpoint : e.point = pt :=
      of_decide_eq_true (List.mem_filter.1 (show e ∈ _ from hone ▸ List.mem_singleton_self e)).2
    have hanswer : answer = told (settle (judgeEntry level stamped.time stamped.tracker.travel e stamped)) :=
      exec_nodeFrame_edge hgood herr hpend hseq hcrc hcount hedges hone hf
    have hquiet : ∀ ph, judge stamped e level stamped.time stamped.tracker.travel = (ph, none) → answer = told (phased ph) :=
      fun ph h => by rw [hanswer, judgeEntry_quiet h, settle_eq (phased ph) hpaid]
    have hverdict : ∀ ph v, judge stamped e level stamped.time stamped.tracker.travel = (ph, some v) →
        answer = told (settle (applyVerdict examine e v (phased ph))) :=
      fun ph v h => by rw [hanswer, judgeEntry_verdict h]
    refine ⟨fun h => hquiet _ (judge_outside h), fun hg ho hc => ?_, fun ho hc => ?_⟩
    · have hjudge := judge_guard (s := stamped) (level := level) hg ho hc
      refine ⟨fun htog => hquiet _ ?_, fun htog => ?_⟩
      · rw [hjudge, if_neg]
        rintro ⟨-, -, h⟩
        rw [(withStart_iff (s := stamped)).2 htog] at h
        exact nomatch h
      · have hstart : stamped.withStart e stamped.time stamped.tracker.travel = false := by
          rw [Bool.eq_false_iff]
          exact fun h => htog (withStart_iff.1 h)
        split
        next h =>
          rw [if_pos ⟨h.1, h.2, hstart⟩] at hjudge
          exact hverdict _ _ hjudge
        next h =>
          rw [if_neg fun hall => h ⟨hall.1, hall.2.1⟩] at hjudge
          exact hquiet _ hjudge
    · have hmet : ∀ dev time travel : Int, e.template = none →
          told (settle (applyVerdict examine e (.met dev time travel) (phased .opened))) = met dev := fun dev time travel ht => by
        rw [applyVerdict_met _ _ _ ht]
      have hpreset : e.kind = .arrive → level ≠ e.level → openingCheck stamped e (!level) = some (.failing .preset) :=
        fun hk hlevel => by
          unfold openingCheck
          rw [hk]
          exact if_pos (Bool.not_eq.2 hlevel)
      have hclear : e.kind = .arrive → level = e.level → openingCheck stamped e (!level) = none := fun hk hlevel => by
        unfold openingCheck
        rw [hk]
        exact if_neg (by rw [hlevel]; exact Bool.not_ne_self _)
      have hjudged := judgeOpen_eq (s := stamped) (e := e) (level := level)
      refine ⟨fun hk hlevel => ?_, fun hk hlevel ht => ?_, fun w hk hlevel ht => ?_, fun hk ht => ?_, fun hk => ?_⟩
      · rw [hk] at hjudged
        dsimp only at hjudged
        rw [if_neg hlevel] at hjudged
        split
        next hp => exact hquiet _ ((judge_open_edge hguard ho hc (.inl hp)).trans (by rw [hjudged]))
        next hp =>
          rw [hverdict _ _ (judge_open_check hguard ho hc hp (hpreset hk hlevel)), applyVerdict_failing, failOf_preset]
      · have hjudge := judge_open_edge (s := stamped) hguard ho hc (.inr (hclear hk hlevel))
        rw [hjudged, hk] at hjudge
        dsimp only at hjudge
        rw [if_pos hlevel] at hjudge
        rw [hverdict _ _ hjudge]
        exact hmet _ _ _ ht
      · have hjudge := judge_open_edge (s := stamped) hguard ho hc (.inr (hclear hk hlevel))
        rw [hjudged, hk] at hjudge
        dsimp only at hjudge
        rw [if_pos hlevel] at hjudge
        have hinput : (stamped.input e.point).level = e.level := by
          rw [hpoint, ← hlevel]
          exact congrArg PointRecord.level (Table.get_set_self ..)
        have hconvert := applyVerdict_departing (s := stamped) ht hinput
        rw [hverdict _ _ hjudge]
        exact congrArg told ((congrArg settle hconvert).trans (settle_eq _ hpaid))
      · have hleft : ∀ l : Bool, l ≠ e.level → openingCheck stamped e l = some (.met 0 s.time s.tracker.travel) := fun l hl => by
          unfold openingCheck
          rw [hk]
          exact if_neg hl
        have hkept : ∀ l : Bool, l = e.level → openingCheck stamped e l = none := fun l hl => by
          unfold openingCheck
          rw [hk]
          exact if_pos hl
        rw [hk] at hjudged
        dsimp only at hjudged
        split
        next hlevel =>
          rw [if_neg hlevel] at hjudged
          have hjudge := judge_open_edge (s := stamped) hguard ho hc (.inr (hkept _ (Bool.not_eq.2 hlevel)))
          rw [hjudged] at hjudge
          rw [hverdict _ _ hjudge]
          exact hmet _ _ _ ht
        next hlevel =>
          have hlevel : level = e.level := not_not.1 hlevel
          rw [if_pos hlevel] at hjudged
          split
          next hp => exact hquiet _ ((judge_open_edge hguard ho hc (.inl hp)).trans (by rw [hjudged]))
          next hp =>
            rw [hverdict _ _ (judge_open_check hguard ho hc hp (hleft _ (by rw [hlevel]; exact Bool.not_ne_self _)))]
            exact hmet _ _ _ ht
      · have hjudge := judge_open_edge (s := stamped) (level := level) hguard ho hc (.inr (by unfold openingCheck; rw [hk]))
        rw [hjudged, hk] at hjudge
        exact hverdict _ _ hjudge

end Sys2Proof.Machine

/-! PROOFS. A good frame from the nodes: the ring state that follows, the image of the inputs, and its notices (R33, R36 to
R40, R187). -/

namespace Sys2Proof.Machine

open Sys2Proof

/-! ### The ring state after a good frame (R37, R38) -/

section GoodState

variable (s : State) (f : RingFrame)

/-- The ring state that follows a good frame. -/
def State.goodState (s : State) : RingState :=
  if s.ring.state = .lost ∧ min 64 (s.ring.goodRun + 1) = 64 then .good
  else if s.ring.state = .lost then .lost
  else ringStateOf (s.ring.errors - 1)

/-- The ring after a good frame, its state changed. -/
def State.goodRing (s : State) (f : RingFrame) : Ring :=
  { (s.goodTaken f).ring with
    errors := if s.ring.state = .lost ∧ min 64 (s.ring.goodRun + 1) = 64 then 0 else s.ring.errors - 1
    state := s.goodState
    goodRun := if s.ring.state ≠ .lost ∧ s.goodState = .lost then 0 else min 64 (s.ring.goodRun + 1)
    silence := if s.ring.state ≠ .lost ∧ s.goodState = .lost then none else s.ring.silence }

/-- The cause of the change of state. -/
def State.goodCause (s : State) : RingCause :=
  if s.ring.state = .lost ∧ min 64 (s.ring.goodRun + 1) = 64 then .recovered
  else if s.goodState = .lost then .errors else .count

/-- The state before the ring state changes with a good frame. -/
def State.goodBefore (s : State) (f : RingFrame) : State :=
  (s.goodTaken f).mapRing fun _ => { s.goodRing f with state := s.ring.state }

variable {s f}

theorem ringGood_of_stays (h : s.goodState = s.ring.state) : ringGood (s.returned f) = s.goodTaken f := by
  unfold State.goodState at h
  by_cases hl : s.ring.state = .lost
  · have hrun : ¬ min 64 (s.ring.goodRun + 1) = 64 := fun hg => by
      rw [if_pos ⟨hl, hg⟩, hl] at h
      exact nomatch h
    unfold ringGood
    exact (if_pos hl).trans (if_neg hrun)
  · rw [if_neg (fun hb => hl hb.1), if_neg hl] at h
    exact ringGood_of_same hl h

theorem ringGood_of_changes (h : s.goodState ≠ s.ring.state) :
    ringGood (s.returned f) = changeRing s.goodState s.goodCause (s.goodBefore f) := by
  unfold ringGood
  by_cases hl : s.ring.state = .lost
  · have hb : s.ring.state = .lost ∧ min 64 (s.ring.goodRun + 1) = 64 := by
      by_contra hb
      exact h (by rw [State.goodState, if_neg hb, if_pos hl, hl])
    have hcause : s.goodCause = .recovered := if_pos hb
    have hstate : s.goodState = .good := if_pos hb
    have hbefore : s.goodBefore f = (s.goodTaken f).mapRing fun g => { g with errors := 0 } := by
      unfold State.goodBefore State.goodRing
      rw [hstate, if_pos hb, if_neg (fun h => h.1 hl), if_neg (fun h => h.1 hl)]
      rfl
    rw [hcause, hstate, hbefore]
    exact (if_pos hl).trans (if_pos hb.2)
  · have hb : ¬ (s.ring.state = .lost ∧ min 64 (s.ring.goodRun + 1) = 64) := fun hb => hl hb.1
    have hstate : s.goodState = ringStateOf (s.ring.errors - 1) := by rw [State.goodState, if_neg hb, if_neg hl]
    refine (if_neg hl).trans ?_
    have hfollow := followErrors_of_change (s := s.goodTaken f) hl (by
      show ringStateOf (s.ring.errors - 1) ≠ s.ring.state
      rw [← hstate]; exact h)
    refine hfollow.trans ?_
    rw [show ringStateOf (s.goodTaken f).ring.errors = s.goodState from hstate.symm]
    by_cases hlost : s.goodState = .lost
    · have hcause : s.goodCause = .errors := by rw [State.goodCause, if_neg hb, if_pos hlost]
      rw [if_pos hlost, hcause]
      unfold State.goodBefore State.goodRing
      rw [if_neg hb, if_pos ⟨hl, hlost⟩, if_pos ⟨hl, hlost⟩, hlost]
      rfl
    · have hcause : s.goodCause = .count := by rw [State.goodCause, if_neg hb, if_neg hlost]
      rw [if_neg hlost, hcause]
      unfold State.goodBefore State.goodRing
      rw [if_neg hb, if_neg (fun h => hlost h.2), if_neg (fun h => hlost h.2)]
      rfl

/-- What a good frame leaves of the steady part: the ring with its new state, and the Proof Engine's copy of it. -/
theorem steadyPart_ringGood :
    ∃ r, (ringGood (s.returned f)).steadyPart =
      State.steadyPart { s with ring := s.goodRing f, engine := { s.engine with ring := r } } := by
  by_cases h : s.goodState = s.ring.state
  · have hb : ¬ (s.ring.state = .lost ∧ min 64 (s.ring.goodRun + 1) = 64) := fun hb => by
      rw [State.goodState, if_pos hb, hb.1] at h
      exact nomatch h
    have hring : s.goodRing f = (s.goodTaken f).ring := by
      unfold State.goodRing
      rw [if_neg hb, if_neg (fun hn => hn.1 (h.symm.trans hn.2)), if_neg (fun hn => hn.1 (h.symm.trans hn.2)), h]
      rfl
    exact ⟨s.engine.ring, by rw [ringGood_of_stays h, hring]; rfl⟩
  · exact ⟨s.goodState, by rw [ringGood_of_changes h, steadyPart_changeRing]; rfl⟩

end GoodState

/-! ### The edges (R40) -/

section Edges

variable {s : State} {f : RingFrame}

theorem steadyPart_toldOf (s : State) (pt : Nat) (level : Bool) (t : State) :
    (s.toldOf pt level t).steadyPart = t.steadyPart :=
  foldl_keeps (P := fun u : State => u.steadyPart = t.steadyPart) (fun u st hu => by
    split
    · rw [steadyPart_pushNotice, hu]
    · exact hu) _ _ rfl

theorem steadyPart_judgeEdge (pt : Nat) (level : Bool) (t u : Nat) (s : State) :
    (judgeEdge settle pt level t u s).steadyPart = s.steadyPart :=
  (steady_closed s.steadyPart).judgeEdge (fun v hv => (steadyPart_settle v).trans hv) pt level t u s rfl

theorem steadyPart_takeEdge (s : State) (x : Nat × Bool) : (takeEdge s x).steadyPart = (s.stamped x.1 x.2).steadyPart := by
  have hjudged := steadyPart_judgeEdge x.1 x.2 s.time s.tracker.travel (s.stamped x.1 x.2)
  rw [show takeEdge s x = _ from takeEdge_eq x.1 x.2, noticeEdge_eq hjudged, steadyPart_toldOf, hjudged]

theorem input_takeEdge (s : State) (x : Nat × Bool) (q : Nat) :
    (takeEdge s x).input q =
      if q = x.1 then { level := x.2, time := s.time, travel := s.tracker.travel } else s.input q := by
  have himage : (takeEdge s x).ring.image = (s.stamped x.1 x.2).ring.image := by
    have h := congrArg (fun v : State => v.ring.image) (steadyPart_takeEdge s x); exact h
  unfold State.input
  rw [himage]
  exact Table.get_set ..

/-- The edges of a frame touch the image alone of the steady part. -/
theorem steadyPart_foldl_takeEdge (l : List (Nat × Bool)) (s : State) :
    ∃ image, (l.foldl takeEdge s).steadyPart = State.steadyPart { s with ring := { s.ring with image := image } } := by
  refine foldl_keeps (P := fun t : State => ∃ image, t.steadyPart = State.steadyPart { s with ring := { s.ring with image := image } })
    (fun t x ⟨image, ht⟩ => ?_) l s ⟨s.ring.image, rfl⟩
  refine ⟨(t.stamped x.1 x.2).ring.image, (steadyPart_takeEdge t x).trans ?_⟩
  have h := congrArg (fun v : State => { v with ring := { v.ring with image := (t.stamped x.1 x.2).ring.image } }) ht
  exact h

/-- The image after the edges of a frame: a point with an edge has the new level and stamps, any other stands. -/
theorem input_foldl_takeEdge (l : List (Nat × Bool)) (s : State) (q : Nat) :
    ((∀ b, (q, b) ∉ l) → (l.foldl takeEdge s).input q = s.input q)
      ∧ ∀ b, (q, b) ∈ l → (∀ b', (q, b') ∈ l → b' = b) →
        (l.foldl takeEdge s).input q = { level := b, time := s.time, travel := s.tracker.travel } := by
  induction l generalizing s with
  | nil => exact ⟨fun _ => rfl, nofun⟩
  | cons x l ih =>
    have hsteady := steadyPart_takeEdge s x
    have htime : (takeEdge s x).time = s.time := time_of_steadyPart (s := s.stamped x.1 x.2) hsteady
    have htracker : (takeEdge s x).tracker = s.tracker := tracker_of_steadyPart (s := s.stamped x.1 x.2) hsteady
    obtain ⟨hout, hin⟩ := ih (takeEdge s x)
    rw [List.foldl_cons]
    refine ⟨fun h => ?_, fun b hb hone => ?_⟩
    · rw [hout fun b hb => h b (List.mem_cons_of_mem _ hb), input_takeEdge, if_neg]
      rintro rfl
      exact h x.2 (List.mem_cons_self ..)
    · by_cases hl : (q, b) ∈ l
      · rw [hin b hl fun b' hb' => hone b' (List.mem_cons_of_mem _ hb'), htime, htracker]
      · obtain rfl : (q, b) = x := (List.mem_cons.1 hb).resolve_right hl
        rw [hout fun b' hb' => hl (hone b' (List.mem_cons_of_mem _ hb') ▸ hb'), input_takeEdge, if_pos rfl]

/-- The edges of a frame: the carried points whose bit differs from the image. -/
theorem mem_edges {q : Nat} {b : Bool} :
    (q, b) ∈ s.edges f ↔
      q < s.ring.carried ∧ ∃ w, f.slots[q / 16]? = some w ∧ b = slotBit w.inp (q % 16) ∧ b ≠ (s.input q).level := by
  unfold State.edges
  rw [List.mem_filterMap]
  constructor
  · rintro ⟨pt, hpt, h⟩
    cases hw : f.slots[pt / 16]? with
    | none => rw [hw] at h; exact nomatch h
    | some w =>
      rw [hw] at h
      dsimp only at h
      split at h
      · exact nomatch h
      · rename_i hne
        obtain ⟨rfl, rfl⟩ := Prod.mk.inj (Option.some.inj h)
        exact ⟨List.mem_range.1 hpt, w, hw, rfl, hne⟩
  · rintro ⟨hq, w, hw, rfl, hne⟩
    exact ⟨q, List.mem_range.2 hq, by rw [hw]; exact if_neg hne⟩

end Edges

/-! ### The notices of edges that no entry judges (R187) -/

section Unjudged

variable {s : State}

theorem toldOf_links {t u : State} (h : t.links = u.links) (pt : Nat) (level : Bool) :
    (s.toldOf pt level t).links = (s.toldOf pt level u).links := by
  have hone : ∀ (p : Prop) [Decidable p] (q : Port) (k : Nat) (b : List Byte) (v w : State), v.links = w.links →
      (if p then pushNotice q k b v else v).links = (if p then pushNotice q k b w else w).links := fun p _ q k b v w hvw => by
    split
    · exact pushNotice_links hvw q k b
    · exact hvw
  unfold State.toldOf
  simp only [List.foldl_cons, List.foldl_nil]
  exact hone _ _ _ _ _ _ (hone _ _ _ _ _ _ h)

/-- Who is told of an edge, and when, is read from the steady part. -/
theorem toldOf_congr {v : State} (h : v.steadyPart = s.steadyPart) (pt : Nat) (level : Bool) (t : State) :
    v.toldOf pt level t = s.toldOf pt level t := by
  have hsta : v.staLink .sta = s.staLink .sta := by have h := congrArg (fun v : State => v.links.staA) h; exact h
  have hstb : v.staLink .stb = s.staLink .stb := by have h := congrArg (fun v : State => v.links.staB) h; exact h
  unfold State.toldOf
  simp only [List.foldl_cons, List.foldl_nil]
  rw [tracker_of_steadyPart h, time_of_steadyPart h, hsta, hstb]

theorem toldOf_monitor (t : State) (pt : Nat) (level : Bool) : (s.toldOf pt level t).monitor = t.monitor :=
  foldl_keeps (P := fun u : State => u.monitor = t.monitor) (fun u st hu => by
    split
    · exact hu
    · exact hu) _ _ rfl

/-- An edge of a point without entries is recorded and told. -/
theorem takeEdge_unjudged (x : Nat × Bool) (h : ∀ e ∈ s.monitor.travelList ++ s.monitor.timeList, e.point ≠ x.1) :
    takeEdge s x = s.toldOf x.1 x.2 (s.stamped x.1 x.2) := by
  have hnone : judgeEdge settle x.1 x.2 s.time s.tracker.travel (s.stamped x.1 x.2) = s.stamped x.1 x.2 := by
    have hfilter : ((s.monitor.travelList ++ s.monitor.timeList).filter fun e => decide (e.point = x.1)) = [] := by
      rw [List.filter_eq_nil_iff]
      exact fun e he => by simpa using h e he
    unfold judgeEdge
    rw [show (((s.stamped x.1 x.2).monitor.travelList ++ (s.stamped x.1 x.2).monitor.timeList).filter
      fun e => decide (e.point = x.1)) = [] from hfilter]
    rfl
  rw [show takeEdge s x = _ from takeEdge_eq x.1 x.2, hnone, noticeEdge_eq (s := s.stamped x.1 x.2) rfl]
  rfl

/-- The notices of the edges of points without entries. -/
theorem foldl_takeEdge_links (l : List (Nat × Bool)) (s : State) (v w : State) (hlinks : v.links = w.links)
    (hmon : v.monitor = s.monitor)
    (hsame : ∀ pt level t, v.toldOf pt level t = s.toldOf pt level t)
    (h : ∀ x ∈ l, ∀ e ∈ s.monitor.travelList ++ s.monitor.timeList, e.point ≠ x.1) :
    (l.foldl takeEdge v).links = (l.foldl (fun u x => s.toldOf x.1 x.2 u) w).links := by
  induction l generalizing v w with
  | nil => exact hlinks
  | cons x l ih =>
    have htaken := takeEdge_unjudged (s := v) x (by rw [hmon]; exact h x (List.mem_cons_self ..))
    rw [List.foldl_cons, List.foldl_cons]
    refine ih _ _ ?_ ?_ ?_ fun y hy => h y (List.mem_cons_of_mem _ hy)
    · rw [htaken, hsame]
      exact toldOf_links (by exact hlinks) x.1 x.2
    · rw [htaken, toldOf_monitor]
      exact hmon
    · intro pt level t
      rw [← hsame]
      exact toldOf_congr (s := v.stamped x.1 x.2) (steadyPart_takeEdge v x) pt level t

end Unjudged

/-- Settles O39: the ring by `steadyPart_ringGood`, the image by `input_foldl_takeEdge`, the notices of edges by
`foldl_takeEdge_links` and those of a change of state by `changeRing_notified`. -/
theorem goodNodeFrameIsTaken : Obligations.GoodNodeFrameIsTaken := by
  unfold Obligations.GoodNodeFrameIsTaken
  intro f s hpend hseq hcrc hcount hlen n good back new
  have hnew : new = s.goodState := rfl
  obtain ⟨r, hgood⟩ := steadyPart_ringGood (s := s) (f := f)
  have himage : (ringGood (s.returned f)).ring.image = s.ring.image := by
    have h := congrArg (fun v : State => v.ring.image) hgood; exact h
  have hslots : (ringGood (s.returned f)).ring.slots = s.ring.slots := by
    have h := congrArg (fun v : State => v.ring.slots) hgood; exact h
  have htime : (ringGood (s.returned f)).time = s.time := by have h := congrArg (fun v : State => v.time) hgood; exact h
  have htracker : (ringGood (s.returned f)).tracker = s.tracker := by
    have h := congrArg (fun v : State => v.tracker) hgood; exact h
  have hinput : ∀ q, (ringGood (s.returned f)).input q = s.input q := fun q => by unfold State.input; rw [himage]
  have hedges : (ringGood (s.returned f)).edges f = s.edges f := by
    unfold State.edges Ring.carried
    rw [hslots]
    simp only [hinput]
  have hrun := exec_nodeFrame_good hpend hseq hcrc hcount
  rw [hedges] at hrun
  obtain ⟨image, hsteady⟩ := steadyPart_foldl_takeEdge (s.edges f) (ringGood (s.returned f))
  have htaken : ((s.edges f).foldl takeEdge (ringGood (s.returned f))).steadyPart =
      State.steadyPart { s with ring := { s.goodRing f with image := image }, engine := { s.engine with ring := r } } := by
    have h := congrArg (fun v : State => { v with ring := { v.ring with image := image } }) hgood
    exact hsteady.trans h
  have hinputs := input_foldl_takeEdge (s.edges f) (ringGood (s.returned f))
  refine ⟨_, hrun, ?ringOut, ?returned, ?errors, ?state, ?run, ?carried, ?uncarried, ?tracker, ?told, ?notified⟩
  case ringOut => have h := congrArg (fun v : State => v.ring.ringOut) htaken; exact h
  case returned => have h := congrArg (fun v : State => v.ring.returnDeadline) htaken; exact h
  case errors => have h := congrArg (fun v : State => v.ring.errors) htaken; exact h
  case state => have h := congrArg (fun v : State => v.ring.state) htaken; exact h
  case run =>
    intro h
    have hrun := congrArg (fun v : State => v.ring.goodRun) htaken
    exact hrun.trans (if_neg fun hl => h.elim hl.1 fun hne => hne hl.2)
  case carried =>
    intro k hk j hj
    have hdiv : (k * 16 + j) / 16 = k := by omega
    have hmod : (k * 16 + j) % 16 = j := by omega
    have hmem : ∀ b, (k * 16 + j, b) ∈ s.edges f ↔ b = f.slots[k].inp.getLsbD j ∧ b ≠ (s.input (k * 16 + j)).level := fun b => by
      rw [mem_edges, hdiv, hmod, List.getElem?_eq_getElem hk]
      constructor
      · rintro ⟨-, w, hw, hb, hne⟩
        obtain rfl := Option.some.inj hw
        exact ⟨hb, hne⟩
      · rintro ⟨hb, hne⟩
        exact ⟨by unfold Ring.carried; omega, _, rfl, hb, hne⟩
    split
    next h => rw [(hinputs _).1 fun b hb => ((hmem b).1 hb).2 (((hmem b).1 hb).1.trans h), hinput]
    next h =>
      rw [(hinputs _).2 _ ((hmem _).2 ⟨rfl, h⟩) fun b hb => ((hmem b).1 hb).1, htime, htracker]
  case uncarried =>
    intro pt hpt
    rw [(hinputs pt).1 fun b hb => ?_, hinput]
    have := (mem_edges.1 hb).1
    unfold Ring.carried at this
    omega
  case tracker => have h := congrArg (fun v : State => v.tracker) htaken; exact h
  case told =>
    intro hsame hjudged
    rw [ringGood_of_stays hsame]
    exact foldl_takeEdge_links (s.edges f) s (s.goodTaken f) s rfl rfl (fun _ _ _ => rfl) hjudged
  case notified =>
    intro hchange hnone
    have hn := changeRing_notified s.goodState s.goodCause (u := s) (s := s.goodBefore f) rfl unproving_of_noProof
    have hcause : ringCauseCode s.goodCause = if back then 4 else if new = .lost then 0 else 5 := by
      unfold State.goodCause
      rw [hnew]
      by_cases hb : back
      · rw [if_pos (show _ from hb), if_pos hb]
        rfl
      · rw [if_neg (show ¬ _ from hb), if_neg hb]
        split <;> rfl
    rw [hnone, List.foldl_nil, ringGood_of_changes hchange]
    rw [hcause] at hn
    exact hn

end Sys2Proof.Machine

/-! PROOFS. The departure of a frame to the nodes: the stimuli that leave with it, the bits that it carries, the applied
image, and the return that it awaits (R32, R34, R36, R43, R45). -/

namespace Sys2Proof.Machine

open Sys2Proof

/-! ### Slot words (R32) -/

section Words

/-- The first `m` bits of a slot word, as a number. -/
def slotNumber (bit : Nat → Bool) (m : Nat) : Nat := (List.range m).foldl (fun n j => n + boolCode (bit j) * 2 ^ j) 0

theorem slotNumber_succ (bit : Nat → Bool) (m : Nat) :
    slotNumber bit (m + 1) = slotNumber bit m + boolCode (bit m) * 2 ^ m := by
  unfold slotNumber
  rw [List.range_succ, List.foldl_append]
  rfl

theorem slotNumber_lt (bit : Nat → Bool) (m : Nat) : slotNumber bit m < 2 ^ m := by
  induction m with
  | zero => exact Nat.one_pos
  | succ m ih =>
    rw [slotNumber_succ, Nat.pow_succ]
    cases bit m
    · simp [boolCode]; omega
    · simp [boolCode]; omega

theorem testBit_slotNumber (bit : Nat → Bool) {m j : Nat} (h : j < m) : (slotNumber bit m).testBit j = bit j := by
  induction m with
  | zero => exact absurd h (Nat.not_lt_zero j)
  | succ m ih =>
    rw [slotNumber_succ]
    by_cases hj : j = m
    · subst hj
      have hlow : (slotNumber bit j).testBit j = false := Nat.testBit_lt_two_pow (slotNumber_lt bit j)
      cases hb : bit j
      · simp [boolCode, hlow]
      · rw [Nat.add_comm, show boolCode true * 2 ^ j = 2 ^ j from Nat.one_mul _, Nat.testBit_two_pow_add_eq, hlow]
        rfl
    · have hlt : j < m := by omega
      cases hb : bit m
      · simp [boolCode, ih hlt]
      · rw [Nat.add_comm, show boolCode true * 2 ^ m = 2 ^ m from Nat.one_mul _, Nat.testBit_two_pow_add_gt hlt, ih hlt]

theorem slotBit_slotWord (bit : Nat → Bool) {j : Nat} (h : j < 16) : (slotWord bit).getLsbD j = bit j := by
  rw [show slotWord bit = BitVec.ofNat 16 (slotNumber bit 16) from rfl, BitVec.getLsbD_ofNat, testBit_slotNumber bit h]
  simp [h]

end Words

/-! ### Stimuli that depart (R45, R46) -/

section Stimuli

variable {s : State}

theorem sameButStimuli_departStimuli (s : State) : sameButStimuli s (departStimuli s) := by
  refine foldl_keeps (P := sameButStimuli s) (fun u pt hu => ?_) _ s (.refl s)
  split
  · exact hu.trans (.set u pt _)
  · exact hu

/-- The record of a point as the frame leaves it. -/
theorem stimulus_departEach (l : List Nat) (hl : l.Nodup) (s : State) (q : Nat) :
    (l.foldl (fun s pt => match s.stimulus pt with
      | some r => s.setStimulus pt (some (r.depart s.time))
      | none => s) s).stimulus q = if q ∈ l then (s.stimulus q).map (Stimulus.depart s.time) else s.stimulus q := by
  induction l generalizing s with
  | nil => rfl
  | cons a l ih =>
    obtain ⟨ha, hl⟩ := List.nodup_cons.1 hl
    rw [List.foldl_cons, ih hl]
    cases hr : s.stimulus a with
    | none =>
      dsimp only
      by_cases hq : q = a
      · subst hq
        rw [if_neg ha, if_pos (List.mem_cons_self ..), hr]
        rfl
      · simp only [List.mem_cons, hq, false_or]
    | some r =>
      dsimp only
      rw [stimulus_setStimulus]
      by_cases hq : q = a
      · subst hq
        rw [if_neg ha, if_pos rfl, if_pos (List.mem_cons_self ..), hr]
        rfl
      · simp only [List.mem_cons, hq, false_or, if_false]
        rfl

theorem stimuli_nodup (h : s.canonical = true) : (s.ring.stimuli.map (·.1)).Nodup := by
  have hwf := ((canonical_iff s).1 h).stimuli
  revert hwf
  generalize s.ring.stimuli = t
  intro hwf
  induction t with
  | nil => exact List.nodup_nil
  | cons e t ih =>
    simp only [Table.wf, Bool.and_eq_true, List.all_eq_true, decide_eq_true_eq] at hwf
    obtain ⟨⟨-, hlt⟩, hwf⟩ := hwf
    rw [List.map_cons, List.nodup_cons]
    refine ⟨fun hmem => ?_, ih hwf⟩
    obtain ⟨x, hx, he⟩ := List.mem_map.1 hmem
    exact absurd he (Nat.ne_of_gt (hlt x hx))

/-- A point without a listed record has none. -/
theorem get_none_of_not_listed {α : Type} [DecidableEq α] (d : α) (t : Table α) {i : Nat} (h : i ∉ t.map (·.1)) :
    Table.get d t i = d := by
  induction t with
  | nil => rfl
  | cons e t ih =>
    rw [List.map_cons, List.mem_cons, not_or] at h
    exact (if_neg h.1).trans (ih h.2)

theorem stimulus_departStimuli (h : s.canonical = true) (q : Nat) :
    (departStimuli s).stimulus q = (s.stimulus q).map (Stimulus.depart s.time) := by
  refine (stimulus_departEach _ (stimuli_nodup h) s q).trans ?_
  split
  · rfl
  · rename_i hq
    have hnone : s.stimulus q = none := get_none_of_not_listed none _ hq
    rw [hnone]
    rfl

theorem depart_active (r : Stimulus) (t : Nat) : decide ((r.depart t).value = .active) = r.activeAt t := by
  unfold Stimulus.depart Stimulus.activeAt
  cases hr : r.awaited with
  | some a =>
    obtain ⟨c, ch⟩ := a
    cases ch <;> rfl
  | none =>
    cases hp : r.pulseEnd with
    | none => rfl
    | some e =>
      dsimp only
      by_cases he : e ≤ t
      · simp [he]
      · simp [he, not_le.1 he]

end Stimuli

/-! ### The bits of a frame (R43) -/

section Bits

variable {s : State} {pt : Nat}

theorem sent_pass_scanner (h : s.source pt = .pass) (b : Bool) : s.sent (some b) pt = b := by
  unfold State.sent
  rw [h]

theorem sent_pass_origin (h : s.source pt = .pass) :
    s.sent none pt = match s.ownerOf pt with | some i => !(s.elem i).definition.activeHigh | none => false := by
  unfold State.sent
  rw [h] <;> rfl

theorem sent_hold (h : s.source pt = .hold) (b : Option Bool) : s.sent b pt = !s.pointHigh pt := by
  unfold State.sent
  rw [h]

theorem sent_test {c : Nat} (h : s.source pt = .test c) (b : Option Bool) : s.sent b pt = (s.stimActive pt == s.pointHigh pt) := by
  unfold State.sent
  rw [h]
  dsimp only
  cases s.stimActive pt <;> cases s.pointHigh pt <;> rfl

/-- A TEST point is sent as its stimulus stands after the departure. -/
theorem sent_departing_test {c : Nat} {r : Stimulus} (hcan : s.canonical = true) (h : s.source pt = .test c)
    (hr : s.stimulus pt = some r) (b : Option Bool) :
    (departStimuli s).sent b pt = (r.activeAt s.time == s.pointHigh pt) := by
  have hsame := sameButStimuli_departStimuli s
  have hactive : (departStimuli s).stimActive pt = r.activeAt s.time := by
    unfold State.stimActive
    rw [stimulus_departStimuli hcan, hr]
    exact depart_active r s.time
  have hhigh : (departStimuli s).pointHigh pt = s.pointHigh pt := by rw [show departStimuli s = _ from hsame]; rfl
  rw [sent_test (by rw [hsame.source]; exact h), hactive, hhigh]

theorem sent_departing_pass_origin (h : s.source pt = .pass) :
    (departStimuli s).sent none pt =
      match s.ownerOf pt with | some i => !(s.elem i).definition.activeHigh | none => false := by
  have hsame := sameButStimuli_departStimuli s
  rw [sent_pass_origin (by rw [hsame.source]; exact h)]
  rw [show departStimuli s = _ from hsame]
  rfl

theorem sent_departing_pass (h : s.source pt = .pass) (b : Bool) : (departStimuli s).sent (some b) pt = b :=
  sent_pass_scanner (by rw [(sameButStimuli_departStimuli s).source]; exact h) b

theorem sent_departing_hold (h : s.source pt = .hold) (b : Option Bool) : (departStimuli s).sent b pt = !s.pointHigh pt := by
  have hsame := sameButStimuli_departStimuli s
  have hhigh : (departStimuli s).pointHigh pt = s.pointHigh pt := by rw [show departStimuli s = _ from hsame]; rfl
  rw [sent_hold (by rw [hsame.source]; exact h), hhigh]

end Bits

/-! ### The departure (R32, R34, R36) -/

section Departure

variable (relay : Bool) (count seq : Byte) (slots : List Slot) (s : State)

/-- The state in which a return still pending has been counted. -/
def State.renewed (s : State) : State := if s.ring.returnDeadline.isSome then ringError .noReturn s else s

theorem renewReturn_eq :
    renewReturn s = s.renewed.mapRing fun g => { g with returnDeadline := some (s.renewed.time + g.nominal) } := rfl

/-- The slots as they are sent from `s`. -/
def State.slotsOut (s : State) (relay : Bool) (slots : List Slot) : List Slot := (departStimuli s).slotsSent relay slots

/-- The frame as it is sent from `s`. -/
def State.frameOut (s : State) (relay : Bool) (count seq : Byte) (slots : List Slot) : RingFrame :=
  let frame : RingFrame := { count := count, seq := seq, slots := s.slotsOut relay slots, crc := 0 }
  { frame with crc := frame.properCrc }

/-- The applied image with the words of the frame. -/
def State.appliedAfter (s : State) (relay : Bool) (slots : List Slot) : Table Word16 :=
  (s.slotsOut relay slots).zipIdx.foldl (fun t e => Table.set 0 t e.2 e.1.out) s.ring.applied

/-- The state with the frame on its way to the nodes, before the departures of stimuli are reported. -/
def State.frameGone (s : State) (relay : Bool) (count seq : Byte) (slots : List Slot) : State :=
  let t := putFrame count seq (s.slotsOut relay slots) (departStimuli s)
  if relay then countSuppressed slots t else t

theorem departFrame_eq :
    departFrame relay count seq slots s =
      (renewReturn (openDeparture relay seq s)).departing.foldl (fun s d => settle (reportDeparture d.1 d.2.1 d.2.2 s))
        ((renewReturn (openDeparture relay seq s)).frameGone relay count seq slots) := by
  unfold departFrame State.frameGone State.slotsOut
  cases relay <;> rfl

theorem frameOut_crc : (s.frameOut relay count seq slots).crc = (s.frameOut relay count seq slots).properCrc := rfl

theorem slotsOut_length : (s.slotsOut relay slots).length = slots.length := List.length_mapIdx

theorem slotsOut_get {n : Nat} (hn : n < (s.slotsOut relay slots).length) (hs : n < slots.length) :
    (s.slotsOut relay slots)[n] =
      { slots[n] with out := (departStimuli s).sentWord (if relay then some slots[n].out else none) n } :=
  List.getElem_mapIdx ..

/-- A bit of a frame that is sent (R43). -/
theorem slotsOut_bit {n j : Nat} (hn : n < (s.slotsOut relay slots).length) (hs : n < slots.length) (hj : j < 16) :
    (s.slotsOut relay slots)[n].out.getLsbD j =
      (departStimuli s).sent (if relay then some (slots[n].out.getLsbD j) else none) (n * 16 + j) := by
  rw [slotsOut_get relay slots s hn hs]
  refine (slotBit_slotWord _ hj).trans ?_
  cases relay <;> rfl

/-- The applied image after a frame: the words sent, and the words of the other slots as they stood. -/
theorem get_applied (l : List Slot) (k : Nat) (t : Table Word16) (n : Nat) :
    Table.get 0 ((l.zipIdx k).foldl (fun t e => Table.set 0 t e.2 e.1.out) t) n =
      if k ≤ n then (match l[n - k]? with | some w => w.out | none => Table.get 0 t n) else Table.get 0 t n := by
  induction l generalizing k t with
  | nil => simp
  | cons x l ih =>
    rw [List.zipIdx_cons, List.foldl_cons, ih, Table.get_set]
    by_cases hk : k + 1 ≤ n
    · obtain ⟨m, rfl⟩ : ∃ m, n = k + 1 + m := ⟨n - (k + 1), by omega⟩
      rw [if_pos hk, if_neg (show ¬ k + 1 + m = k by omega), if_pos (show k ≤ k + 1 + m by omega),
        show k + 1 + m - (k + 1) = m by omega,
        show k + 1 + m - k = m + 1 by omega, List.getElem?_cons_succ]
    · by_cases he : n = k
      · subst he
        rw [if_neg hk, if_pos rfl, if_pos (le_refl _), Nat.sub_self]
        rfl
      · rw [if_neg hk, if_neg he, if_neg (by omega)]

theorem get_appliedAfter (n : Nat) :
    Table.get 0 (s.appliedAfter relay slots) n =
      match (s.slotsOut relay slots)[n]? with | some w => w.out | none => Table.get 0 s.ring.applied n := by
  unfold State.appliedAfter
  rw [get_applied, if_pos (Nat.zero_le n), Nat.sub_zero]

theorem steadyPart_sameButStimuli {s t : State} (h : sameButStimuli s t) : t.steadyPart = s.steadyPart := by
  rw [show t = _ from h]
  rfl

theorem steadyPart_countSuppressed (slots : List Slot) (s : State) : (countSuppressed slots s).steadyPart = s.steadyPart := by
  unfold countSuppressed
  refine foldl_keeps (P := fun t : State => t.steadyPart = s.steadyPart) (fun t i ht => ?_) _ s rfl
  exact ht

theorem steadyPart_reportDeparture (pt c : Nat) (ch : StimChange) (s : State) :
    (reportDeparture pt c ch s).steadyPart = s.steadyPart := by
  have h := steady_closed s.steadyPart
  unfold reportDeparture
  dsimp only
  split
  · exact h.settlePoint _ _ _ rfl
  · exact h.chuteDeparture _ _ rfl
  · split
    · unfold driveDeparture
      dsimp only
      split
      · split
        · rfl
        · rfl
        · rfl
      · rfl
    · rfl
  · rfl

/-- Of the steady part a departing frame touches the applied image and the frame on the ring. -/
theorem steadyPart_frameGone :
    (s.frameGone relay count seq slots).steadyPart = State.steadyPart
      { s with
        ring := { s.ring with
          applied := s.appliedAfter relay slots
          nodeOut := some (s.frameOut relay count seq slots) } } := by
  have hput : (putFrame count seq (s.slotsOut relay slots) (departStimuli s)).steadyPart = State.steadyPart
      { s with
        ring := { s.ring with
          applied := s.appliedAfter relay slots
          nodeOut := some (s.frameOut relay count seq slots) } } := by
    rw [show departStimuli s = _ from sameButStimuli_departStimuli s]
    rfl
  unfold State.frameGone
  dsimp only
  split
  · rw [steadyPart_countSuppressed, hput]
  · exact hput

/-- What a departure leaves of the steady part. -/
theorem steadyPart_departFrame :
    (departFrame relay count seq slots s).steadyPart = State.steadyPart
      { renewReturn (openDeparture relay seq s) with
        ring := { (renewReturn (openDeparture relay seq s)).ring with
          applied := (renewReturn (openDeparture relay seq s)).appliedAfter relay slots
          nodeOut := some ((renewReturn (openDeparture relay seq s)).frameOut relay count seq slots) } } := by
  rw [departFrame_eq, ← steadyPart_frameGone]
  exact foldl_keeps (P := fun t : State => t.steadyPart =
      ((renewReturn (openDeparture relay seq s)).frameGone relay count seq slots).steadyPart)
    (fun t d ht => by rw [steadyPart_settle, steadyPart_reportDeparture, ht]) _ _ rfl

end Departure

end Sys2Proof.Machine

/-! PROOFS. The origin frame and what a departure leaves of the ring (R34, R36, R43). -/

namespace Sys2Proof.Machine

open Sys2Proof

/-! ### The return that is still pending (R36) -/

section Renewed

variable (s : State)

/-- The ring in which a return still pending has been counted. -/
def State.renewedRing (s : State) : Ring :=
  { s.ring with
    errors := if s.ring.returnDeadline.isSome = true then min 255 (s.ring.errors + 8) else s.ring.errors
    goodRun := if s.ring.returnDeadline.isSome = true then 0 else s.ring.goodRun
    totalNoReturn :=
      if s.ring.returnDeadline.isSome = true then min 65535 (s.ring.totalNoReturn + 1) else s.ring.totalNoReturn
    state := s.renewed.ring.state
    silence := s.renewed.ring.silence }

/-- The ring after a return still pending was counted, but for sources and stimuli. -/
theorem renewed_ring : { s.renewed.ring with sources := [], stimuli := [] } = { s.renewedRing with sources := [], stimuli := [] } := by
  unfold State.renewedRing State.renewed
  split
  · have h := (ringErrorIsCounted .noReturn s).2.2.2
    have hring := congrArg (fun v : State => v.ring) h
    have hkeep := congrArg (fun g : Ring => { g with
      state := (ringError .noReturn s).ring.state, silence := (ringError .noReturn s).ring.silence }) hring
    exact hkeep
  · rfl

theorem renewed_tracker : s.renewed.tracker = s.tracker := by
  unfold State.renewed
  split
  · have h := congrArg (fun v : State => v.tracker) (ringErrorIsCounted .noReturn s).2.2.2; exact h
  · rfl

theorem renewed_time : s.renewed.time = s.time := by
  unfold State.renewed
  split
  · have h := congrArg (fun v : State => v.time) (ringErrorIsCounted .noReturn s).2.2.2; exact h
  · rfl

theorem renewed_applied : s.renewed.ring.applied = s.ring.applied := by
  have h := congrArg Ring.applied (renewed_ring s); exact h

theorem renewed_nominal : s.renewed.ring.nominal = s.ring.nominal := by
  have h := congrArg Ring.nominal (renewed_ring s); exact h

theorem renewed_of_none (h : s.ring.returnDeadline = none) : s.renewed = s := if_neg (by rw [h]; exact nofun)

end Renewed

/-! ### The ring after a departure (R32, R34, R36) -/

section Departed

variable (relay : Bool) (count seq : Byte) (slots : List Slot) (s : State)

/-- The ring after a departure, but for sources and stimuli. -/
theorem departFrame_ring :
    { (departFrame relay count seq slots s).ring with sources := [], stimuli := [] } =
      { (openDeparture relay seq s).renewedRing with
        sources := [], stimuli := []
        returnDeadline := some ((openDeparture relay seq s).time + (openDeparture relay seq s).ring.nominal)
        applied := (renewReturn (openDeparture relay seq s)).appliedAfter relay slots
        nodeOut := some ((renewReturn (openDeparture relay seq s)).frameOut relay count seq slots) } := by
  have hdeparted := congrArg (fun v : State => v.ring) (steadyPart_departFrame relay count seq slots s)
  have hrenewed := congrArg (fun g : Ring => { g with
    returnDeadline := some ((openDeparture relay seq s).time + (openDeparture relay seq s).ring.nominal)
    applied := (renewReturn (openDeparture relay seq s)).appliedAfter relay slots
    nodeOut := some ((renewReturn (openDeparture relay seq s)).frameOut relay count seq slots) })
    (renewed_ring (openDeparture relay seq s))
  refine hdeparted.trans (Eq.trans ?_ hrenewed)
  have hdeadline : (renewReturn (openDeparture relay seq s)).ring.returnDeadline =
      some ((openDeparture relay seq s).time + (openDeparture relay seq s).ring.nominal) := by
    rw [renewReturn_eq]
    show some ((openDeparture relay seq s).renewed.time + (openDeparture relay seq s).renewed.ring.nominal) = _
    rw [renewed_time, renewed_nominal]
  have hother := congrArg (fun o : Option Nat => { (openDeparture relay seq s).renewed.ring with
    sources := [], stimuli := [], returnDeadline := o
    applied := (renewReturn (openDeparture relay seq s)).appliedAfter relay slots
    nodeOut := some ((renewReturn (openDeparture relay seq s)).frameOut relay count seq slots) }) hdeadline
  exact hother

end Departed

/-! ### The applied image and the tracker after a departure -/

section Image

variable (relay : Bool) (count seq : Byte) (slots : List Slot) (s : State)

theorem appliedLevel_departFrame (pt : Nat) :
    (departFrame relay count seq slots s).appliedLevel pt =
      match ((renewReturn (openDeparture relay seq s)).slotsOut relay slots)[pt / 16]? with
      | some w => w.out.getLsbD (pt % 16)
      | none => s.appliedLevel pt := by
  have happlied : (departFrame relay count seq slots s).ring.applied =
      (renewReturn (openDeparture relay seq s)).appliedAfter relay slots := by
    have h := congrArg Ring.applied (departFrame_ring relay count seq slots s); exact h
  have hbefore : (renewReturn (openDeparture relay seq s)).ring.applied = s.ring.applied := by
    refine (renewed_applied (openDeparture relay seq s)).trans ?_
    cases relay <;> rfl
  unfold State.appliedLevel
  rw [happlied, get_appliedAfter, hbefore]
  cases ((renewReturn (openDeparture relay seq s)).slotsOut relay slots)[pt / 16]? <;> rfl

theorem departFrame_tracker : (departFrame relay count seq slots s).tracker = s.tracker := by
  have h := congrArg (fun v : State => v.tracker) (steadyPart_departFrame relay count seq slots s)
  have hopen : (openDeparture relay seq s).tracker = s.tracker := by cases relay <;> rfl
  exact Eq.trans h ((renewed_tracker (openDeparture relay seq s)).trans hopen)

end Image

/-! ### The origin frame (R34) -/

section Origin

variable (s : State)

/-- The state in which an origin frame is under way, its predecessor's return not yet looked for. -/
def State.originOpened (s : State) : State :=
  s.mapRing fun g =>
    { g with
      originSeq := (g.originSeq + 1) % 256, originNext := some (s.time + g.originPeriod), lastSeq := some g.originSeq }

/-- The state that an origin frame takes its outputs from. -/
def State.originLeft (s : State) : State := renewReturn s.originOpened

/-- The origin frame: S slots with input bits 0. -/
def State.originFrame (s : State) : RingFrame :=
  s.originLeft.frameOut false (BitVec.ofNat 8 s.ring.slots) (BitVec.ofNat 8 s.ring.originSeq)
    (List.replicate s.ring.slots { out := 0, inp := 0 })

variable {s}

theorem openDeparture_origin (h : s.ring.originSeq < 256) :
    openDeparture false (BitVec.ofNat 8 s.ring.originSeq) (s.mapRing fun g =>
        { g with originSeq := (g.originSeq + 1) % 256, originNext := some (s.time + g.originPeriod) }) = s.originOpened := by
  have hbyte : (BitVec.ofNat 8 s.ring.originSeq).toNat = s.ring.originSeq := by
    rw [BitVec.toNat_ofNat]
    exact Nat.mod_eq_of_lt h
  unfold openDeparture
  rw [hbyte]
  rfl

/-- The ring after an origin frame, but for sources and stimuli. -/
theorem makeOrigin_ring (h : s.ring.originSeq < 256) :
    { (makeOrigin s).ring with sources := [], stimuli := [] } =
      { s.originOpened.renewedRing with
        sources := [], stimuli := []
        returnDeadline := some (s.time + s.ring.nominal)
        applied := s.originLeft.appliedAfter false (List.replicate s.ring.slots { out := 0, inp := 0 })
        nodeOut := some s.originFrame } := by
  have hring := departFrame_ring false (BitVec.ofNat 8 s.ring.slots) (BitVec.ofNat 8 s.ring.originSeq)
    (List.replicate s.ring.slots { out := 0, inp := 0 })
    (s.mapRing fun g => { g with originSeq := (g.originSeq + 1) % 256, originNext := some (s.time + g.originPeriod) })
  rw [openDeparture_origin h] at hring
  exact hring

theorem appliedLevel_makeOrigin (h : s.ring.originSeq < 256) (pt : Nat) :
    (makeOrigin s).appliedLevel pt =
      match s.originFrame.slots[pt / 16]? with
      | some w => w.out.getLsbD (pt % 16)
      | none => s.appliedLevel pt := by
  have hlevel := appliedLevel_departFrame false (BitVec.ofNat 8 s.ring.slots) (BitVec.ofNat 8 s.ring.originSeq)
    (List.replicate s.ring.slots { out := 0, inp := 0 })
    (s.mapRing fun g => { g with originSeq := (g.originSeq + 1) % 256, originNext := some (s.time + g.originPeriod) }) pt
  rw [openDeparture_origin h] at hlevel
  exact hlevel

theorem originFrame_length : s.originFrame.slots.length = s.ring.slots :=
  (slotsOut_length false _ s.originLeft).trans List.length_replicate

theorem originFrame_inputs {w : Slot} (h : w ∈ s.originFrame.slots) : w.inp = 0 := by
  obtain ⟨n, hn, rfl⟩ := List.getElem_of_mem h
  have hn' : n < (List.replicate s.ring.slots ({ out := 0, inp := 0 } : Slot)).length := by
    rw [List.length_replicate, ← originFrame_length (s := s)]
    exact hn
  have hget := slotsOut_get false _ s.originLeft hn hn'
  exact (congrArg Slot.inp hget).trans (by rw [List.getElem_replicate])

theorem originFrame_count (h : s.ring.slots ≤ 64) : s.originFrame.count.toNat = s.ring.slots := by
  show (BitVec.ofNat 8 s.ring.slots).toNat = _
  rw [BitVec.toNat_ofNat]
  exact Nat.mod_eq_of_lt (by omega)

theorem originFrame_seq (h : s.ring.originSeq < 256) : s.originFrame.seq.toNat = s.ring.originSeq := by
  show (BitVec.ofNat 8 s.ring.originSeq).toNat = _
  rw [BitVec.toNat_ofNat]
  exact Nat.mod_eq_of_lt h

theorem originFrame_bit {n j : Nat} (hn : n < s.originFrame.slots.length) (hj : j < 16) :
    s.originFrame.slots[n].out.getLsbD j = (departStimuli s.originLeft).sent none (n * 16 + j) :=
  slotsOut_bit false _ s.originLeft hn (by rw [List.length_replicate, ← originFrame_length (s := s)]; exact hn) hj

end Origin

/-- Settles O40: the ring by `makeOrigin_ring`, the bits by `originFrame_bit`. -/
theorem originFrameDeparts : Obligations.OriginFrameDeparts := by
  unfold Obligations.OriginFrameDeparts
  refine fun s => ⟨fun h => next_congr (if_neg fun ho => ?_), fun d hrole hnext hdue hslots hseq => ?_⟩
  · obtain ⟨horigin, hany⟩ := ho
    rcases h with h | h
    · rw [h] at horigin
      exact nomatch horigin
    · obtain ⟨d, hd, hle⟩ := (Option.any_eq_true _ _).1 hany
      have hlt := h d hd
      have hle := of_decide_eq_true hle
      omega
  · intro pending opened u
    have hrun : exec .originFrame s = .next (makeOrigin s) :=
      next_congr (if_pos ⟨hrole, by rw [hnext]; exact decide_eq_true hdue⟩)
    have hring := makeOrigin_ring hseq
    have hnominal : s.ring.nominal = s.ring.originPeriod := by unfold Ring.nominal; rw [hrole]
    have hleft : s.originLeft.time = s.time := renewed_time s.originOpened
    refine ⟨makeOrigin s, s.originFrame, hrun, ?frame, originFrame_count hslots, originFrame_seq hseq, originFrame_length,
      fun w hw => originFrame_inputs hw, frameOut_crc _ _ _ _ _, ?originSeq, ?originNext, ?lastSeq, ?deadline, ?errors, ?run,
      ?total, ?state, ?quiet, ?image, ?tracker, fun hcan => ⟨fun n hn j hj => ⟨fun hp => ?pass, fun hh => ?hold,
        fun c r ht hr => ?test⟩, appliedLevel_makeOrigin hseq⟩⟩
    case frame => have h := congrArg Ring.nodeOut hring; exact h
    case originSeq => have h := congrArg Ring.originSeq hring; exact h
    case originNext => have h := congrArg Ring.originNext hring; exact h
    case lastSeq => have h := congrArg Ring.lastSeq hring; exact h
    case deadline =>
      have h := congrArg Ring.returnDeadline hring
      rw [hnominal] at h
      exact h
    case errors => have h := congrArg Ring.errors hring; exact h
    case run => have h := congrArg Ring.goodRun hring; exact h
    case total => have h := congrArg Ring.totalNoReturn hring; exact h
    case state => have h := congrArg Ring.state hring; exact h
    case quiet =>
      intro hpend
      have hstate := congrArg Ring.state hring
      have hu : u = opened := if_neg hpend
      refine ⟨hstate.trans ?_, fun pt => ?_⟩
      · show s.originOpened.renewed.ring.state = s.ring.state
        rw [renewed_of_none s.originOpened (Option.not_isSome_iff_eq_none.1 hpend)]
        rfl
      · rw [hu]
        exact ⟨rfl, rfl⟩
    case image => have h := congrArg Ring.image hring; exact h
    case tracker =>
      have h := departFrame_tracker false (BitVec.ofNat 8 s.ring.slots) (BitVec.ofNat 8 s.ring.originSeq)
        (List.replicate s.ring.slots { out := 0, inp := 0 })
        (s.mapRing fun g => { g with originSeq := (g.originSeq + 1) % 256, originNext := some (s.time + g.originPeriod) })
      exact h
    case pass => exact (originFrame_bit hn hj).trans (sent_departing_pass_origin (s := s.originLeft) hp)
    case hold => exact (originFrame_bit hn hj).trans (sent_departing_hold (s := s.originLeft) hh none)
    case test =>
      have hcan : s.originLeft.canonical = true := by
        have hopen : s.originOpened.Canonical := (canonical_iff s.originOpened).1 hcan
        exact (canonical_iff s.originLeft).2 (canonical_stable.renewReturn _ hopen)
      rw [originFrame_bit hn hj, sent_departing_test (s := s.originLeft) hcan ht hr, hleft]
      rfl

end Sys2Proof.Machine

/-! PROOFS. Ring Restart and Set Ring Role: the restart of the ring and the first origin frame (R29, R30, R34). -/

namespace Sys2Proof.Machine

open Sys2Proof

/-! ### The restart (R30, R39) -/

section Restart

variable (cause : RingCause) (s : State)

/-- The state whose counts and deadlines a restart has cleared. -/
def State.cleared (s : State) : State :=
  s.mapRing fun g => { g with errors := 0, goodRun := 0, returnDeadline := none, silence := none }

theorem restartRing_of_lost (h : s.ring.state = .lost) : restartRing cause s = s.cleared := if_pos h

theorem restartRing_of_other (h : s.ring.state ≠ .lost) : restartRing cause s = changeRing .lost cause s.cleared := if_neg h

theorem steadyPart_restartRing :
    (restartRing cause s).steadyPart = State.steadyPart
      { s with
        ring := { s.ring with errors := 0, goodRun := 0, returnDeadline := none, silence := none, state := .lost }
        engine := { s.engine with ring := if s.ring.state = .lost then s.engine.ring else .lost } } := by
  by_cases h : s.ring.state = .lost
  · rw [restartRing_of_lost cause s h, if_pos h, ← h]
    rfl
  · rw [restartRing_of_other cause s h, steadyPart_changeRing, if_neg h]
    rfl

/-- What a restart tells the ports: nothing in LOST, and otherwise one Ring State notice to each. -/
theorem restartRing_told :
    if s.ring.state = .lost then (restartRing cause s).links = s.links
    else s.notified (restartRing cause s) 0x64 (ringBody .lost s.ring.state (ringCauseCode cause) 0 s.ring.role s.time) := by
  split
  next h => rw [restartRing_of_lost cause s h]; rfl
  next h =>
    rw [restartRing_of_other cause s h]
    exact changeRing_notified .lost cause (u := s) (s := s.cleared) rfl unproving_of_noProof

variable {s}

/-- A change of ring state starts and ends no proof where none is in progress. -/
theorem changeRing_lost_unproving (h : s.unproving) : (changeRing .lost cause s).unproving := by
  obtain ⟨g, hg⟩ := cancelAllAwaited_unproving (s := s.mapRing fun g => { g with state := .lost }) h
  have hentered : (s.ringEntered .lost).unproving := by
    rw [show s.ringEntered .lost = _ from hg]
    exact h
  rw [changeRing_eq, reportRing_unproving hentered]
  exact hentered

theorem restartRing_unproving (h : s.unproving) : (restartRing cause s).unproving := by
  by_cases hl : s.ring.state = .lost
  · rw [restartRing_of_lost cause s hl]
    exact h
  · rw [restartRing_of_other cause s hl]
    exact changeRing_lost_unproving cause (s := s.cleared) h

/-- With no change awaited there is nothing to cancel. -/
theorem cancelAllAwaited_of_none (h : s.departing = []) : cancelAllAwaited s = s := by
  have hnone : (s.ring.stimuli.filterMap fun e => e.2.bind fun r => r.awaited.map fun a => (e.1, a.1)) = [] := by
    have h : s.ring.stimuli.filterMap (fun e => e.2.bind fun r => r.awaited.map fun a => (e.1, a.1, a.2)) = [] := h
    rw [List.filterMap_eq_nil_iff] at h ⊢
    intro e he
    have hnone := h e he
    cases hr : e.2 with
    | none => rfl
    | some r =>
      rw [hr] at hnone
      cases ha : r.awaited with
      | none => simp [ha]
      | some a => simp [ha] at hnone
  unfold cancelAllAwaited
  rw [hnone]
  rfl

/-- With every context FREE and no change awaited, a restart touches ring, the Proof Engine's copy of its state, and the
ports. -/
theorem restartRing_idle (hfree : ∀ c < 16, (s.ctx c).state = .free) (h : s.departing = []) :
    (restartRing cause s).ring =
        { s.ring with errors := 0, goodRun := 0, returnDeadline := none, silence := none, state := .lost }
      ∧ (restartRing cause s).table = s.table := by
  by_cases hl : s.ring.state = .lost
  · rw [restartRing_of_lost cause s hl, ← hl]
    exact ⟨rfl, rfl⟩
  · have hentered : s.cleared.ringEntered .lost = s.cleared.mapRing fun g => { g with state := .lost } :=
      cancelAllAwaited_of_none (s := s.cleared.mapRing fun g => { g with state := .lost }) h
    have hvoid : voidAll (fun _ => true) .ring ((s.cleared.ringEntered .lost).mapEngine fun e => { e with ring := .lost }) =
        (s.cleared.ringEntered .lost).mapEngine fun e => { e with ring := .lost } := by
      rw [hentered]
      unfold voidAll
      rw [List.filter_eq_nil_iff.2 fun c hc => by
        have hc : ((s.cleared.mapRing fun g => { g with state := RingState.lost }).mapEngine
          fun e => { e with ring := RingState.lost }).ctx c = s.ctx c := rfl
        rw [hc, hfree c (List.mem_range.1 ‹c ∈ ctxNumbers›)]
        simp]
      rfl
    have hreport : reportRing (s.cleared.ringEntered .lost) =
        ((s.cleared.ringEntered .lost).mapEngine fun e => { e with ring := .lost }).payCheck := by
      rw [reportRing_of_lost (by rw [hentered]; rfl), hvoid, check_idle]
      intro c hc
      rw [hentered]
      show (s.ctx c).state ≠ .paused
      rw [hfree c hc]
      exact nofun
    rw [restartRing_of_other cause s hl, changeRing_eq, hreport, hentered]
    exact ⟨rfl, rfl⟩

end Restart

/-! ### The first origin frame (R29, R34) -/

section Origin

variable {s : State}

/-- With no proof in progress a departure is reported to no one. -/
theorem reportDeparture_unproving (h : s.unproving) (pt c : Nat) (ch : StimChange) : reportDeparture pt c ch s = s := by
  unfold reportDeparture
  dsimp only
  rw [h.2 c]

theorem frameGone_links (relay : Bool) (count seq : Byte) (slots : List Slot) (s : State) :
    (s.frameGone relay count seq slots).links = s.links ∧ (s.frameGone relay count seq slots).engine = s.engine := by
  have hput : (putFrame count seq (s.slotsOut relay slots) (departStimuli s)).links = s.links
      ∧ (putFrame count seq (s.slotsOut relay slots) (departStimuli s)).engine = s.engine := by
    rw [show departStimuli s = _ from sameButStimuli_departStimuli s]
    exact ⟨rfl, rfl⟩
  unfold State.frameGone
  dsimp only
  split
  · unfold countSuppressed
    refine foldl_keeps (P := fun t : State => t.links = s.links ∧ t.engine = s.engine) (fun t i ht => ?_) _ _ hput
    exact ht
  · exact hput

theorem makeOrigin_unproving (h : s.unproving) (hr : s.ring.returnDeadline = none) : (makeOrigin s).links = s.links := by
  have hleft : ∀ v : State, v.engine = s.engine → v.links = s.links → v.unproving ∧ v.links = s.links := fun v he hl =>
    ⟨⟨by rw [he]; exact h.1, fun c => by rw [State.ctx, he]; exact h.2 c⟩, hl⟩
  let o := openDeparture false (BitVec.ofNat 8 s.ring.originSeq) (s.mapRing fun g =>
    { g with originSeq := (g.originSeq + 1) % 256, originNext := some (s.time + g.originPeriod) })
  have hrenewed : o.renewed = o := renewed_of_none o hr
  have hgone := frameGone_links false (BitVec.ofNat 8 s.ring.slots) (BitVec.ofNat 8 s.ring.originSeq)
    (List.replicate s.ring.slots { out := 0, inp := 0 }) (renewReturn o)
  rw [renewReturn_eq, hrenewed] at hgone
  have hrun : makeOrigin s = _ := departFrame_eq false (BitVec.ofNat 8 s.ring.slots) (BitVec.ofNat 8 s.ring.originSeq)
    (List.replicate s.ring.slots { out := 0, inp := 0 }) _
  rw [hrun]
  refine (foldl_keeps (P := fun t : State => t.unproving ∧ t.links = s.links) (fun t d ht => ?_) _ _ ?_).2
  · rw [reportDeparture_unproving ht.1, settle_eq t ht.1.1]
    exact ht
  · rw [renewReturn_eq, hrenewed]
    exact hleft _ hgone.2 hgone.1

/-- An origin frame after a restart: its outputs are those of the state before it. -/
theorem originLeft_of_none (hr : s.ring.returnDeadline = none) :
    s.originLeft = s.originOpened.mapRing fun g => { g with returnDeadline := some (s.time + g.nominal) } := by
  unfold State.originLeft
  rw [renewReturn_eq, renewed_of_none s.originOpened hr]
  rfl

theorem steadyPart_makeOrigin (hr : s.ring.returnDeadline = none) (hseq : s.ring.originSeq < 256) :
    (makeOrigin s).steadyPart = State.steadyPart
      { s with
        ring := { s.ring with
          originSeq := (s.ring.originSeq + 1) % 256, originNext := some (s.time + s.ring.originPeriod)
          lastSeq := some s.ring.originSeq, returnDeadline := some (s.time + s.ring.nominal)
          applied := (makeOrigin s).ring.applied, nodeOut := some s.originFrame } } := by
  have happlied : (makeOrigin s).ring.applied =
      s.originLeft.appliedAfter false (List.replicate s.ring.slots { out := 0, inp := 0 }) := by
    have h := congrArg Ring.applied (makeOrigin_ring hseq); exact h
  have hdepart := steadyPart_departFrame false (BitVec.ofNat 8 s.ring.slots) (BitVec.ofNat 8 s.ring.originSeq)
    (List.replicate s.ring.slots { out := 0, inp := 0 })
    (s.mapRing fun g => { g with originSeq := (g.originSeq + 1) % 256, originNext := some (s.time + g.originPeriod) })
  rw [openDeparture_origin hseq] at hdepart
  rw [happlied]
  refine Eq.trans hdepart ?_
  have h := congrArg (fun v : State => State.steadyPart { v with ring := { v.ring with
    applied := s.originLeft.appliedAfter false (List.replicate s.ring.slots { out := 0, inp := 0 })
    nodeOut := some s.originFrame } }) (originLeft_of_none hr)
  exact h

end Origin

/-! ### The reply kept in its place (R185) -/

section Kept

variable {s u : State} {p : Port} {k : Nat} {tag : Byte} {permitted : Port → Bool}

/-- An effect that tells nothing leaves the ports with the reply alone. -/
theorem patched_links_of_same {l : List Byte} (hroom : s.room p) (hp : permitted p = true)
    (hl : u.links = (s.entered p k tag).links) :
    (u.patched p (s.link p).queue.length (replyFrame k tag (accepted l))).links = (s.replied p k tag (accepted l)).links := by
  have hsame : (s.entered p k tag).patched p (s.link p).queue.length (replyFrame k tag (accepted l)) =
      s.replied p k tag (accepted l) :=
    (takeOrder_effect (permitted := permitted) (eff := fun s => (s, accepted l)) hroom hp rfl).symm.trans
      (takeOrder_mapTable (f := id) hroom hp rfl)
  rw [← hsame]
  cases p <;> simp only [State.patched, State.mapLink, mapLinks_links, hl]

theorem replied_ring (s : State) (p : Port) (k : Nat) (tag : Byte) (b : List Byte) : (s.replied p k tag b).ring = s.ring := by
  cases p <;> rfl

theorem replied_time (s : State) (p : Port) (k : Nat) (tag : Byte) (b : List Byte) : (s.replied p k tag b).time = s.time := by
  cases p <;> rfl

/-- What a restart inside an order tells stands behind the reply. -/
theorem restart_told_patched {l : List Byte} {cause : Nat} {role : RingRole} (hroom : s.room p) (hp : permitted p = true)
    (h : if s.ring.state = .lost then u.links = (s.entered p k tag).links
      else (s.entered p k tag).notified u 0x64 (ringBody .lost s.ring.state cause 0 role s.time)) :
    if (s.replied p k tag (accepted l)).ring.state = .lost then
      (u.patched p (s.link p).queue.length (replyFrame k tag (accepted l))).links = (s.replied p k tag (accepted l)).links
    else (s.replied p k tag (accepted l)).notified (u.patched p (s.link p).queue.length (replyFrame k tag (accepted l))) 0x64
      (ringBody .lost (s.replied p k tag (accepted l)).ring.state cause 0 role (s.replied p k tag (accepted l)).time) := by
  rw [replied_ring, replied_time]
  split
  next hl =>
    rw [if_pos hl] at h
    exact patched_links_of_same hroom hp h
  next hl =>
    rw [if_neg hl] at h
    exact notified_patched h

end Kept

/-! ### Set Ring Role (R29) -/

section Role

variable {s : State}

/-- The state with the new role, before its restart. -/
def State.roleSet (s : State) (role : RingRole) (slots period : Nat) : State :=
  s.mapRing fun g =>
    { g with
      role := role, slots := slots, originPeriod := period, intervals := [], lastArrival := none
      originSeq := 0, originNext := none }

/-- The state that a taken Set Ring Role has restarted. -/
def State.roleTaken (s : State) (role : RingRole) (slots period : Nat) : State :=
  restartRing .role (s.roleSet role slots period)

theorem takeRole_relay (slots period : Nat) : takeRole .relay slots period s = s.roleTaken .relay slots period := rfl

theorem takeRole_origin (slots period : Nat) :
    takeRole .origin slots period s = makeOrigin (s.roleTaken .origin slots period) := rfl

theorem anyContext_iff : s.anyContext = true ↔ ∃ c < 16, (s.ctx c).state ≠ .free := by
  unfold State.anyContext ctxNumbers
  simp [List.any_eq_true]

variable {role : RingRole} {slots period : Nat}

theorem roleInRange_iff :
    (!(within 1 64 slots && within 250 2000 period)) = true ↔ ¬ (1 ≤ slots ∧ slots ≤ 64 ∧ 250 ≤ period ∧ period ≤ 2000) := by
  rw [Bool.not_eq_true', Bool.eq_false_iff, Ne, Bool.and_eq_true, within_iff, within_iff, and_assoc]

theorem roleEffect_of_range (h : ¬ (1 ≤ slots ∧ slots ≤ 64 ∧ 250 ≤ period ∧ period ≤ 2000)) :
    roleEffect role slots period s = refuse s .range := if_pos (roleInRange_iff.2 h)

theorem roleEffect_of_live (h : ¬ ¬ (1 ≤ slots ∧ slots ≤ 64 ∧ 250 ≤ period ∧ period ≤ 2000)) (hl : s.anyLive = true) :
    roleEffect role slots period s = refuse s .live :=
  (if_neg fun hn => h (roleInRange_iff.1 hn)).trans (if_pos hl)

theorem roleEffect_of_busy (h : ¬ ¬ (1 ≤ slots ∧ slots ≤ 64 ∧ 250 ≤ period ∧ period ≤ 2000)) (hl : ¬ s.anyLive = true)
    (hb : ∃ c < 16, (s.ctx c).state ≠ .free) : roleEffect role slots period s = refuse s .busy :=
  (if_neg fun hn => h (roleInRange_iff.1 hn)).trans ((if_neg hl).trans (if_pos (anyContext_iff.2 hb)))

theorem roleEffect_taken (h : ¬ ¬ (1 ≤ slots ∧ slots ≤ 64 ∧ 250 ≤ period ∧ period ≤ 2000)) (hl : ¬ s.anyLive = true)
    (hb : ¬ ∃ c < 16, (s.ctx c).state ≠ .free) :
    roleEffect role slots period s =
      (takeRole role slots period s, accepted (be 1 (roleCode role) ++ be 1 slots ++ be 2 period)) :=
  (if_neg fun hn => h (roleInRange_iff.1 hn)).trans
    ((if_neg hl).trans (if_neg fun ha => hb (anyContext_iff.1 ha)))

theorem steadyPart_roleTaken :
    (s.roleTaken role slots period).steadyPart = State.steadyPart
      { s with
        ring := { s.ring with
          role := role, slots := slots, originPeriod := period, intervals := [], lastArrival := none
          originSeq := 0, originNext := none, errors := 0, goodRun := 0, returnDeadline := none, silence := none
          state := .lost }
        engine := { s.engine with ring := if s.ring.state = .lost then s.engine.ring else .lost } } :=
  steadyPart_restartRing .role (s.roleSet role slots period)

/-- The ring of a taken Set Ring Role, but for sources and stimuli. -/
theorem roleTaken_ring :
    { (s.roleTaken role slots period).ring with sources := [], stimuli := [] } =
      { s.ring with
        role := role, slots := slots, originPeriod := period, intervals := [], lastArrival := none
        originSeq := 0, originNext := none, errors := 0, goodRun := 0, returnDeadline := none, silence := none
        state := .lost, sources := [], stimuli := [] } := by
  have h := congrArg (fun v : State => v.ring) (steadyPart_roleTaken (s := s) (role := role) (slots := slots) (period := period))
  exact h

theorem roleTaken_deadline : (s.roleTaken role slots period).ring.returnDeadline = none := by
  have h := congrArg Ring.returnDeadline (roleTaken_ring (s := s) (role := role) (slots := slots) (period := period)); exact h

theorem roleTaken_seq : (s.roleTaken role slots period).ring.originSeq = 0 := by
  have h := congrArg Ring.originSeq (roleTaken_ring (s := s) (role := role) (slots := slots) (period := period)); exact h

theorem roleTaken_slots : (s.roleTaken role slots period).ring.slots = slots := by
  have h := congrArg Ring.slots (roleTaken_ring (s := s) (role := role) (slots := slots) (period := period)); exact h

theorem roleTaken_time : (s.roleTaken role slots period).time = s.time := by
  have h := congrArg (fun v : State => v.time) (steadyPart_roleTaken (s := s) (role := role) (slots := slots) (period := period))
  exact h

theorem roleTaken_applied : (s.roleTaken role slots period).ring.applied = s.ring.applied := by
  have h := congrArg Ring.applied (roleTaken_ring (s := s) (role := role) (slots := slots) (period := period)); exact h

theorem roleTaken_seq_lt : (s.roleTaken role slots period).ring.originSeq < 256 := by rw [roleTaken_seq]; exact Nat.succ_pos _

/-- The steady part after the first origin frame. -/
theorem steadyPart_takeRole_origin :
    (takeRole .origin slots period s).steadyPart = State.steadyPart
      { s with
        ring := { s.ring with
          role := .origin, slots := slots, originPeriod := period, intervals := [], lastArrival := none
          originSeq := 1, originNext := some (s.time + period), errors := 0, goodRun := 0
          returnDeadline := some (s.time + period), silence := none, state := .lost, lastSeq := some 0
          applied := (takeRole .origin slots period s).ring.applied
          nodeOut := some (s.roleTaken .origin slots period).originFrame }
        engine := { s.engine with ring := if s.ring.state = .lost then s.engine.ring else .lost } } := by
  rw [takeRole_origin, steadyPart_makeOrigin roleTaken_deadline roleTaken_seq_lt]
  have h := congrArg (fun v : State => { v with ring := { v.ring with
    originSeq := (v.ring.originSeq + 1) % 256, originNext := some (v.time + v.ring.originPeriod)
    lastSeq := some v.ring.originSeq, returnDeadline := some (v.time + v.ring.nominal)
    applied := (makeOrigin (s.roleTaken .origin slots period)).ring.applied
    nodeOut := some (s.roleTaken .origin slots period).originFrame } })
    (steadyPart_roleTaken (s := s) (role := .origin) (slots := slots) (period := period))
  exact h

/-- With every context FREE and no change awaited, the first origin frame takes its outputs as they stood. -/
theorem originLeft_roleTaken (hfree : ∀ c < 16, (s.ctx c).state = .free) (h : s.departing = []) :
    (s.roleTaken role slots period).originLeft.ring.sources = s.ring.sources
      ∧ (s.roleTaken role slots period).originLeft.ring.stimuli = s.ring.stimuli
      ∧ (s.roleTaken role slots period).originLeft.table = s.table
      ∧ (s.roleTaken role slots period).originLeft.time = s.time := by
  obtain ⟨hring, htable⟩ := restartRing_idle .role (s := s.roleSet role slots period) hfree h
  rw [originLeft_of_none roleTaken_deadline]
  refine ⟨?_, ?_, htable, roleTaken_time⟩
  · have h := congrArg Ring.sources hring
    exact h
  · have h := congrArg Ring.stimuli hring
    exact h

theorem canonical_originLeft_roleTaken (h : s.canonical = true) :
    (s.roleTaken role slots period).originLeft.canonical = true := by
  have hset : (s.roleSet role slots period).Canonical := (canonical_iff _).1 h
  have htaken : (s.roleTaken role slots period).canonical = true :=
    (canonical_iff _).2 (canonical_stable.restartRing .role _ hset)
  have hopened : (s.roleTaken role slots period).originOpened.Canonical := (canonical_iff _).1 htaken
  exact (canonical_iff _).2 (canonical_stable.renewReturn _ hopened)

end Role

/-- Settles O35: both orders by `restartRing_told` and `steadyPart_restartRing`, the first origin frame by
`steadyPart_makeOrigin` and `originFrame_bit`. -/
theorem ringOrdersRestartRing : Obligations.RingOrdersRestartRing := by
  unfold Obligations.RingOrdersRestartRing
  intro told
  refine ⟨fun p tag s hp hroom => ?_, fun p tag role slots period s hp hroom hcan => ?_⟩
  · have he : restartEffect (s.entered p 0x0D tag) = (restartRing .restart (s.entered p 0x0D tag), accepted []) := rfl
    have htold := restartRing_told .restart (s.entered p 0x0D tag)
    refine ⟨_, rfl, takeOrder_effect_answers hroom hp answering_restart he, ?_, ?_⟩
    · rw [takeOrder_effect hroom hp he]
      refine restart_told_patched (permitted := fromStation) hroom hp ?_
      rw [entered_ring, entered_time] at htold
      exact htold
    · rw [takeOrder_effect hroom hp he, patched_steadyPart, steadyPart_restartRing]
      cases p <;> rfl
  · intro reply
    refine exec_decided (.setRingRole p tag role slots period) rfl hroom hp ⟨fun h => refusesWith (roleEffect_of_range h), fun h1 =>
      ⟨fun h => refusesWith (roleEffect_of_live h1 ?_), fun h2 => ⟨fun h => refusesWith (roleEffect_of_busy h1 ?_ ?_), fun h3 =>
        ⟨fun hr => ?relay, fun hr => ?origin⟩⟩⟩⟩
    · rw [entered_anyLive]
      exact (anyLive_iff hcan).2 h
    · rw [entered_anyLive, anyLive_iff hcan]
      exact h2
    · simpa only [entered_ctx] using h
    all_goals
      have he := roleEffect_taken (s := s.entered p 0x0E tag) (role := role) h1 (by rw [entered_anyLive, anyLive_iff hcan]; exact h2)
        (by simpa only [entered_ctx] using h3)
      have htold := restartRing_told .role ((s.entered p 0x0E tag).roleSet role slots period)
    case relay =>
      subst hr
      refine ⟨_, rfl, takeOrder_effect_answers hroom hp (answering_role _ _ _) he, ?_, ?_⟩
      · rw [takeOrder_effect hroom hp he]
        refine restart_told_patched (permitted := fromStation) hroom hp ?_
        have htold : if (s.entered p 0x0E tag).ring.state = .lost then
              (takeRole .relay slots period (s.entered p 0x0E tag)).links = (s.entered p 0x0E tag).links
            else (s.entered p 0x0E tag).notified (takeRole .relay slots period (s.entered p 0x0E tag)) 0x64
              (ringBody .lost (s.entered p 0x0E tag).ring.state 3 0 .relay (s.entered p 0x0E tag).time) := htold
        rw [entered_ring, entered_time] at htold
        exact htold
      · rw [takeOrder_effect hroom hp he, patched_steadyPart, takeRole_relay, State.roleTaken, steadyPart_restartRing]
        cases p <;> rfl
    case origin =>
      subst hr
      let w := (s.entered p 0x0E tag).roleTaken .origin slots period
      obtain ⟨-, hslots, -⟩ := not_not.1 h1
      have hring := makeOrigin_ring (s := w) roleTaken_seq_lt
      have hlength : w.originFrame.slots.length = slots := originFrame_length.trans roleTaken_slots
      refine ⟨_, w.originFrame, rfl, takeOrder_effect_answers hroom hp (answering_role _ _ _) he, fun hidle => ?_, ?_, ?_, ?_,
        hlength, fun v hv => originFrame_inputs hv, frameOut_crc _ _ _ _ _, ?_, fun hnone => ⟨fun n hn j hj => ?_, fun pt => ?_⟩⟩
      · rw [takeOrder_effect hroom hp he]
        refine restart_told_patched (permitted := fromStation) hroom hp ?_
        have hlinks : (takeRole .origin slots period (s.entered p 0x0E tag)).links = w.links :=
          makeOrigin_unproving (s := w) (restartRing_unproving .role (s := (s.entered p 0x0E tag).roleSet .origin slots period)
            (by
              have h := unproving_of_noProof hidle
              unfold State.unproving State.roleSet at *
              rw [mapRing_engine, entered_engine]
              exact ⟨h.1, fun c => by rw [State.ctx, mapRing_engine, entered_engine]; exact h.2 c⟩)) roleTaken_deadline
        have htold : if (s.entered p 0x0E tag).ring.state = .lost then
              w.links = (s.entered p 0x0E tag).links
            else (s.entered p 0x0E tag).notified w 0x64
              (ringBody .lost (s.entered p 0x0E tag).ring.state 3 0 .origin (s.entered p 0x0E tag).time) := htold
        rw [entered_ring, entered_time] at htold
        unfold State.notified State.link at htold ⊢
        rw [hlinks]
        exact htold
      · rw [takeOrder_effect hroom hp he, patched_ring]
        have h := congrArg Ring.nodeOut hring
        exact h
      · refine (originFrame_count ?_).trans roleTaken_slots
        rw [roleTaken_slots]
        exact hslots
      · show BitVec.ofNat 8 w.ring.originSeq = 0
        rw [roleTaken_seq]
        rfl
      · rw [takeOrder_effect hroom hp he, patched_steadyPart, patched_ring, steadyPart_takeRole_origin]
        cases p <;> rfl
      · obtain ⟨hsources, hstimuli, htable, htime⟩ := originLeft_roleTaken (role := .origin) (slots := slots) (period := period)
          (s := s.entered p 0x0E tag) (by simpa only [entered_ctx, not_exists, not_and, not_not] using h3)
          (by unfold State.departing; rw [entered_ring]; exact hnone)
        rw [entered_ring] at hsources hstimuli
        rw [entered_table] at htable
        rw [entered_time] at htime
        have hsource : ∀ pt, w.originLeft.source pt = s.source pt := fun pt => by unfold State.source; rw [hsources]
        have hstimulus : ∀ pt, w.originLeft.stimulus pt = s.stimulus pt := fun pt => by unfold State.stimulus; rw [hstimuli]
        have howner : ∀ pt, w.originLeft.ownerOf pt = s.ownerOf pt := fun pt => by unfold State.ownerOf; rw [htable]
        have helem : ∀ i, w.originLeft.elem i = s.elem i := fun i => by unfold State.elem; rw [htable]
        have hhigh : ∀ pt, w.originLeft.pointHigh pt = s.pointHigh pt := fun pt => by
          unfold State.pointHigh
          simp only [howner, helem]
        have hcanonical : w.originLeft.canonical = true := canonical_originLeft_roleTaken (by cases p <;> exact hcan)
        rw [originFrame_bit hn hj]
        refine ⟨fun hs => ?_, fun hs => ?_, fun c r hs hr => ?_⟩
        · rw [sent_departing_pass_origin (by rw [hsource]; exact hs), howner]
          simp only [helem] <;> rfl
        · rw [sent_departing_hold (by rw [hsource]; exact hs), hhigh]
        · rw [sent_departing_test hcanonical (by rw [hsource]; exact hs) (by rw [hstimulus]; exact hr), hhigh, htime]
      · have happlied : w.ring.applied = s.ring.applied := by rw [roleTaken_applied, entered_ring]
        have hlevel := appliedLevel_makeOrigin (s := w) roleTaken_seq_lt pt
        have hw : w.appliedLevel pt = s.appliedLevel pt := by unfold State.appliedLevel; rw [happlied]
        rw [hw] at hlevel
        rw [takeOrder_effect hroom hp he]
        exact hlevel

end Sys2Proof.Machine

/-! PROOFS. The second part of the closing sequence (R108): the summary, the staged amendments, the release of the
claim and of its companions, and the points that are derived afresh (R63, R64, R74). -/

namespace Sys2Proof.Machine

open Sys2Proof

/-! ### Staged amendments of a claim (R63) -/

section Amendments

/-- The staged amendment of one member takes effect. -/
def amendOne (s : State) (i : Nat) : State :=
  match (s.elem i).staged with
  | some d => (installDefinition i d s).mapElem i fun e => { e with staged := none }
  | none => s

/-- The definition that an element takes with its own staged amendment. -/
def Element.amendedDefinition (e : Element) : Definition :=
  match e.staged with
  | some d => keepAttached e.definition d
  | none => e.definition

theorem applyStaged_cons (i : Nat) (l : List Nat) (s : State) :
    applyStaged (i :: l) s = applyStaged l (amendOne s i) := rfl

variable (s : State) {i j : Nat}

theorem amendOne_of_none (h : (s.elem i).staged = none) : amendOne s i = s := by
  rw [amendOne, h] <;> rfl

theorem elem_amendOne_self : (amendOne s i).elem i = { s.elem i with definition := (s.elem i).amendedDefinition, staged := none } := by
  cases h : (s.elem i).staged with
  | none => rw [amendOne_of_none s h, Element.amendedDefinition, h]; exact (by rw [← h] : s.elem i = { s.elem i with staged := none })
  | some d =>
    have hone : amendOne s i = (installDefinition i d s).mapElem i fun e => { e with staged := none } := by
      rw [amendOne, h] <;> rfl
    rw [hone, elem_mapElem, if_pos rfl, elem_installDefinition_self, Element.amendedDefinition, h]

theorem elem_amendOne_ne {d : Definition} (h : (s.elem i).staged = some d) (hj : j ≠ i) :
    (amendOne s i).elem j
      = if j ∈ d.eyes then (s.elem j).attach (some i)
        else if j ∈ (s.elem i).definition.eyes then (s.elem j).attach none
        else s.elem j := by
  have hone : amendOne s i = (installDefinition i d s).mapElem i fun e => { e with staged := none } := by
    rw [amendOne, h] <;> rfl
  rw [hone, elem_mapElem, if_neg hj, elem_installDefinition_ne hj]

/-- An amendment of another element touches the definition of an eye alone. -/
theorem elem_amendOne_frame (hj : j ≠ i) :
    (amendOne s i).elem j = { s.elem j with definition := ((amendOne s i).elem j).definition } := by
  cases h : (s.elem i).staged with
  | none => rw [amendOne_of_none s h]
  | some d =>
    rw [elem_amendOne_ne s h hj]
    split
    · exact Element.attach_eq _ _
    · split
      · exact Element.attach_eq _ _
      · rfl

/-- The amendments of a claim drop the staged ones of its members and change definitions; nothing else of a record. -/
theorem elem_applyStaged (l : List Nat) (s : State) (j : Nat) :
    (applyStaged l s).elem j =
      { s.elem j with
        definition := ((applyStaged l s).elem j).definition, staged := if j ∈ l then none else (s.elem j).staged } := by
  induction l generalizing s with
  | nil => rfl
  | cons i l ih =>
    rw [applyStaged_cons]
    conv_lhs => rw [ih]
    by_cases hj : j = i
    · subst hj
      rw [elem_amendOne_self]
      simp
    · rw [elem_amendOne_frame s hj]
      simp [hj]

/-- With no eyes, old or new, an amendment changes its own record alone. -/
theorem elem_amendOne_plain (h : ∀ d, (s.elem i).staged = some d → d.eyes = [] ∧ (s.elem i).definition.eyes = [])
    (hj : j ≠ i) : (amendOne s i).elem j = s.elem j := by
  cases hd : (s.elem i).staged with
  | none => rw [amendOne_of_none s hd]
  | some d =>
    obtain ⟨hnew, hold⟩ := h d hd
    rw [elem_amendOne_ne s hd hj, hnew, hold, if_neg List.not_mem_nil, if_neg List.not_mem_nil]

/-- The amendments of a claim without eyes: each member takes its own. -/
theorem definition_applyStaged_plain (l : List Nat) (hn : l.Nodup) (s : State)
    (h : ∀ i ∈ l, ∀ d, (s.elem i).staged = some d → d.eyes = [] ∧ (s.elem i).definition.eyes = []) (j : Nat) :
    ((applyStaged l s).elem j).definition = if j ∈ l then (s.elem j).amendedDefinition else (s.elem j).definition := by
  induction l generalizing s with
  | nil => rfl
  | cons i l ih =>
    obtain ⟨hi, hn⟩ := List.nodup_cons.1 hn
    have hplain : ∀ k, k ≠ i → (amendOne s i).elem k = s.elem k := fun k hk =>
      elem_amendOne_plain s (h i List.mem_cons_self) hk
    rw [applyStaged_cons, ih hn]
    · by_cases hj : j = i
      · subst hj
        rw [if_neg hi, if_pos List.mem_cons_self, elem_amendOne_self]
      · rw [hplain j hj]
        simp [hj]
    · intro k hk
      have hki : k ≠ i := fun e => hi (e ▸ hk)
      rw [hplain k hki]
      exact h k (List.mem_cons_of_mem i hk)

/-- Where nothing is staged the amendments of a claim change nothing. -/
theorem applyStaged_of_none (l : List Nat) (s : State) (h : ∀ i ∈ l, (s.elem i).staged = none) : applyStaged l s = s := by
  induction l with
  | nil => rfl
  | cons i l ih =>
    rw [applyStaged_cons, amendOne_of_none s (h i List.mem_cons_self)]
    exact ih fun k hk => h k (List.mem_cons_of_mem i hk)

/-- One staged amendment alone in a claim. -/
theorem applyStaged_single {l : List Nat} {s : State} {i : Nat} (hi : i ∈ l)
    (h : ∀ j ∈ l, j ≠ i → (s.elem j).staged = none) : applyStaged l s = amendOne s i := by
  induction l with
  | nil => cases hi
  | cons k l ih =>
    rw [applyStaged_cons]
    by_cases hk : k = i
    · subst hk
      refine applyStaged_of_none l _ fun j hj => ?_
      by_cases hjk : j = k
      · subst hjk; rw [elem_amendOne_self]
      · rw [elem_amendOne_frame s hjk]
        exact h j (List.mem_cons_of_mem k hj) hjk
    · rw [amendOne_of_none s (h k List.mem_cons_self hk)]
      exact ih ((List.mem_cons.1 hi).resolve_left fun e => hk e.symm) fun j hj => h j (List.mem_cons_of_mem k hj)

theorem Element.attach_no_eyes {e : Element} (h : e.definition.eyes = []) (v : Option Nat) :
    (e.attach v).definition.eyes = [] := by
  cases e with | mk d _ _ _ _ _ _ _ =>
  cases d with
  | sensor d => by_cases hm : d.mode = .attached <;> simp [Element.attach, hm] <;> rfl
  | _ => exact h

/-- What an element is once the amendment `d` of the chute `i` has brought its eyes up to date. -/
def State.eyed (s : State) (i : Nat) (d : Definition) (j : Nat) : Element :=
  if j = i then s.elem j
  else if j ∈ d.eyes then (s.elem j).attach (some i)
  else if j ∈ (s.elem i).definition.eyes then (s.elem j).attach none
  else s.elem j

theorem eyed_self (i : Nat) (d : Definition) : s.eyed i d i = s.elem i := if_pos rfl

theorem elem_amendOne_eyed {d : Definition} (h : (s.elem i).staged = some d) (hj : j ≠ i) :
    (amendOne s i).elem j = s.eyed i d j := by
  rw [elem_amendOne_ne s h hj, State.eyed, if_neg hj]

/-- The amendments of a claim with those of a chute and of its eyes: the chute's alone, or the chute's first and the
others' without eyes of their own. -/
theorem definition_applyStaged_chute {l : List Nat} (hn : l.Nodup) {s : State} {i : Nat} {d : Definition} (hi : i ∈ l)
    (hd : (s.elem i).staged = some d)
    (h : (∀ j ∈ l, j ≠ i → (s.elem j).staged = none) ∨ (l.head? = some i ∧ ∀ j ∈ l, j ≠ i → ∀ e, (s.elem j).staged = some e →
      e.eyes = [] ∧ (s.elem j).definition.eyes = [])) (j : Nat) :
    ((applyStaged l s).elem j).definition =
      if j ∈ l then (s.eyed i d j).amendedDefinition else (s.eyed i d j).definition := by
  rcases h with h | ⟨hhead, h⟩
  · rw [applyStaged_single hi h]
    by_cases hj : j = i
    · subst hj
      rw [elem_amendOne_self, eyed_self, if_pos hi]
    · rw [elem_amendOne_eyed s hd hj]
      split
      · have hnone : (s.eyed i d j).staged = none := by
          rw [← elem_amendOne_eyed s hd hj, elem_amendOne_frame s hj]
          exact h j ‹_› hj
        rw [Element.amendedDefinition, hnone]
      · rfl
  · obtain ⟨l, rfl⟩ : ∃ m, l = i :: m := by
      cases l with
      | nil => cases hi
      | cons k m => exact ⟨m, by rw [Option.some.inj hhead]⟩
    obtain ⟨hil, hn⟩ := List.nodup_cons.1 hn
    rw [applyStaged_cons, definition_applyStaged_plain l hn]
    · by_cases hj : j = i
      · subst hj
        rw [if_neg hil, if_pos List.mem_cons_self, elem_amendOne_self, eyed_self]
      · rw [elem_amendOne_eyed s hd hj]
        simp [hj]
    · intro k hk e he
      have hki : k ≠ i := fun x => hil (x ▸ hk)
      rw [elem_amendOne_frame s hki] at he
      obtain ⟨hnew, hold⟩ := h k (List.mem_cons_of_mem i hk) hki e he
      refine ⟨hnew, ?_⟩
      rw [elem_amendOne_ne s hd hki]
      split
      · exact Element.attach_no_eyes hold _
      · split
        · exact Element.attach_no_eyes hold _
        · exact hold

end Amendments

/-! ### The release of a claim (R74) -/

section Release

variable (x : Context) (r : ProofResult) (changed : List Nat)

/-- The state that the end of a proof gives a member of its claim. -/
def memberState (m : Nat × ElState) : ElState :=
  if m.1 ∈ changed ∨ (m.1 = x.element ∧ x.kind = .chute ∧ changed ≠ []) then .unproven
  else releasedState r (decide (m.1 = x.element)) m.2

theorem elem_releaseMember (s : State) (m : Nat × ElState) (j : Nat) :
    (releaseMember x r changed s m).elem j
      = if j = m.1 then { s.elem j with state := memberState x r changed m, holder := .none } else s.elem j := by
  unfold releaseMember memberState
  rw [elem_mapElem]
  by_cases hj : j = m.1
  · subst hj
    simp only [if_true, Bool.or_eq_true, Bool.and_eq_true, decide_eq_true_eq, Bool.not_eq_true', List.isEmpty_eq_false_iff,
      and_assoc]
  · rw [if_neg hj, if_neg hj]

/-- The release touches the state and holder of a record alone. -/
theorem elem_release_frame (l : List (Nat × ElState)) (s : State) (j : Nat) :
    (l.foldl (releaseMember x r changed) s).elem j =
      { s.elem j with
        state := ((l.foldl (releaseMember x r changed) s).elem j).state
        holder := ((l.foldl (releaseMember x r changed) s).elem j).holder } := by
  induction l generalizing s with
  | nil => rfl
  | cons m l ih =>
    rw [List.foldl_cons]
    conv_lhs => rw [ih, elem_releaseMember]
    split <;> rfl

theorem elem_release_of_not_mem (l : List (Nat × ElState)) (s : State) {j : Nat} (h : j ∉ l.map (·.1)) :
    (l.foldl (releaseMember x r changed) s).elem j = s.elem j := by
  induction l generalizing s with
  | nil => rfl
  | cons m l ih =>
    rw [List.map_cons, List.mem_cons, not_or] at h
    rw [List.foldl_cons, ih _ h.2, elem_releaseMember, if_neg h.1]

theorem elem_release_of_mem (l : List (Nat × ElState)) (hn : (l.map (·.1)).Nodup) (s : State) {m : Nat × ElState} (h : m ∈ l) :
    (l.foldl (releaseMember x r changed) s).elem m.1
      = { s.elem m.1 with state := memberState x r changed m, holder := .none } := by
  induction l generalizing s with
  | nil => cases h
  | cons a l ih =>
    rw [List.map_cons, List.nodup_cons] at hn
    rw [List.foldl_cons]
    rcases List.mem_cons.1 h with rfl | h
    · rw [elem_release_of_not_mem x r changed l _ hn.1, elem_releaseMember, if_pos rfl]
    · have hne : m.1 ≠ a.1 := fun e => hn.1 (e ▸ List.mem_map_of_mem h)
      rw [ih hn.2 _ h, elem_releaseMember, if_neg hne]

theorem elem_lowerHolds (l : List Nat) (s : State) (j : Nat) :
    (l.foldl lowerHold s).elem j = { s.elem j with holdCount := (s.elem j).holdCount - l.count j } := by
  induction l generalizing s with
  | nil => rfl
  | cons i l ih =>
    rw [List.foldl_cons, ih, lowerHold, elem_mapElem]
    by_cases hj : j = i
    · subst hj
      rw [if_pos rfl, List.count_cons_self]
      dsimp only
      rw [Nat.sub_sub, Nat.add_comm]
    · rw [if_neg hj, List.count_cons_of_ne (Ne.symm hj)]

end Release

end Sys2Proof.Machine

/-! PROOFS. What the second part of the closing sequence leaves of each record, of the points and of the rest (R108). -/

namespace Sys2Proof.Machine

open Sys2Proof

section SecondPart

variable (s : State) (c : Nat)

/-- The state with the summary of a context's proof written (R108 step 1). -/
def State.summarised (s : State) (c : Nat) : State :=
  s.mapElem (s.ctx c).element fun e =>
    { e with summary := some (contextSummary (s.ctx c) (((s.ctx c).ending.map (·.1)).getD .aborted) s.time)
             proofCount := capAdd 65535 e.proofCount 1 }

/-- The members of a context's claim. -/
abbrev State.members (s : State) (c : Nat) : List Nat := (s.ctx c).claim.map (·.1)

/-- The members of a context's claim with a staged amendment. -/
def State.amendedMembers (s : State) (c : Nat) : List Nat :=
  (s.members c).filter fun i => ((s.summarised c).elem i).staged.isSome

/-- The records once the claim and its companions are released (R108 steps 1 to 3). -/
def State.releasedRecords (s : State) (c : Nat) : State :=
  (s.ctx c).companions.foldl lowerHold
    ((s.ctx c).claim.foldl
      (releaseMember (s.ctx c) (((s.ctx c).ending.map (·.1)).getD .aborted) (s.amendedMembers c))
      (applyStaged (s.members c) (s.summarised c)))

theorem freedRecords_eq :
    s.freedRecords c =
      deriveSources (outputsOf (s.summarised c) (s.members c ++ (s.ctx c).companions)
        ++ outputsOf (s.releasedRecords c) (s.members c ++ (s.ctx c).companions)) (s.releasedRecords c) := rfl

theorem elem_summarised (j : Nat) :
    (s.summarised c).elem j =
      { s.elem j with
        summary := ((s.summarised c).elem j).summary, proofCount := ((s.summarised c).elem j).proofCount } := by
  rw [State.summarised, elem_mapElem]
  split
  · rename_i h; rw [h]
  · rfl

theorem elem_summarised_self :
    (s.summarised c).elem (s.ctx c).element =
      { s.elem (s.ctx c).element with
        summary := some (contextSummary (s.ctx c) (((s.ctx c).ending.map (·.1)).getD .aborted) s.time)
        proofCount := capAdd 65535 (s.elem (s.ctx c).element).proofCount 1 } := by
  rw [State.summarised, elem_mapElem, if_pos rfl]

theorem summarised_definition (j : Nat) : ((s.summarised c).elem j).definition = (s.elem j).definition := by
  rw [elem_summarised]

theorem summarised_staged (j : Nat) : ((s.summarised c).elem j).staged = (s.elem j).staged := by rw [elem_summarised]

/-- The taking or release of an eye reads no summary and no proof count. -/
theorem Element.attach_with_summary (e : Element) (m : Option Summary) (n : Nat) (v : Option Nat) :
    ({ e with summary := m, proofCount := n } : Element).attach v = { e.attach v with summary := m, proofCount := n } := by
  unfold Element.attach
  dsimp only
  split
  · split <;> rfl
  · rfl

/-- The summary of a proof does not touch what an amendment makes of the eyes. -/
theorem eyed_summarised (i : Nat) (d : Definition) (j : Nat) :
    ((s.summarised c).eyed i d j).definition = (s.eyed i d j).definition
      ∧ ((s.summarised c).eyed i d j).staged = (s.elem j).staged := by
  have hattach : ∀ v, (((s.summarised c).elem j).attach v).definition = ((s.elem j).attach v).definition
      ∧ (((s.summarised c).elem j).attach v).staged = (s.elem j).staged := fun v => by
    rw [elem_summarised, Element.attach_with_summary]
    exact ⟨rfl, by rw [Element.attach_eq]⟩
  unfold State.eyed
  rw [summarised_definition]
  split
  · exact ⟨summarised_definition s c j, summarised_staged s c j⟩
  · split
    · exact hattach _
    · split
      · exact hattach _
      · exact ⟨summarised_definition s c j, summarised_staged s c j⟩

theorem elem_freedRecords (j : Nat) : (s.freedRecords c).elem j = (s.releasedRecords c).elem j := by
  rw [freedRecords_eq, elem_deriveSources]

theorem elem_releasedRecords (j : Nat) :
    (s.releasedRecords c).elem j =
      { (s.summarised c).elem j with
        definition := ((applyStaged (s.members c) (s.summarised c)).elem j).definition
        state := ((s.releasedRecords c).elem j).state
        holder := ((s.releasedRecords c).elem j).holder
        holdCount := (s.elem j).holdCount - (s.ctx c).companions.count j
        staged := if j ∈ s.members c then none else (s.elem j).staged } := by
  have hold : ((s.summarised c).elem j).holdCount = (s.elem j).holdCount := by rw [elem_summarised]
  rw [← hold, ← summarised_staged s c j]
  unfold State.releasedRecords
  rw [elem_lowerHolds]
  conv_lhs => rw [elem_release_frame, elem_applyStaged]

theorem releasedRecords_member (hn : (s.members c).Nodup) {m : Nat × ElState} (h : m ∈ (s.ctx c).claim) :
    ((s.releasedRecords c).elem m.1).holder = .none
      ∧ ((s.releasedRecords c).elem m.1).state =
        memberState (s.ctx c) (((s.ctx c).ending.map (·.1)).getD .aborted) (s.amendedMembers c) m := by
  unfold State.releasedRecords
  rw [elem_lowerHolds, elem_release_of_mem _ _ _ _ hn _ h]
  exact ⟨rfl, rfl⟩

theorem mem_amendedMembers (j : Nat) : j ∈ s.amendedMembers c ↔ j ∈ s.members c ∧ (s.elem j).staged ≠ none := by
  rw [State.amendedMembers, List.mem_filter, summarised_staged, Option.isSome_iff_ne_none]

theorem amendedMembers_ne_nil : s.amendedMembers c ≠ [] ↔ ∃ j, j ∈ s.members c ∧ (s.elem j).staged ≠ none := by
  simp only [← mem_amendedMembers, ne_eq, List.eq_nil_iff_forall_not_mem, not_forall, not_not]

theorem releasedRecords_ring : (s.releasedRecords c).ring = s.ring := by
  refine foldl_keeps (P := fun u => u.ring = s.ring) (fun t i ht => ?_) _ _ ?_
  · exact ht
  refine foldl_keeps (P := fun u => u.ring = s.ring) (fun t i ht => ?_) _ _ ?_
  · exact ht
  refine foldl_keeps (P := fun u => u.ring = s.ring) (fun t i ht => ?_) _ _ rfl
  split
  · exact (installDefinition_ring _ _ _).trans ht
  · exact ht

/-! ### The state after the whole row -/

/-- The state that the row leaves where no context is PAUSED. -/
def State.closed (s : State) (c : Nat) : State := (secondPart c s).payCheck

theorem exec_closingSecondPart (c : Fin 16) (hstate : (s.ctx c).state = .closing) (hsettle : (s.ctx c).settle = [])
    (hidle : ∀ e < 16, (s.ctx e).state ≠ .paused) : exec (.closingSecondPart c) s = .next (s.closed c) := by
  refine next_congr ((if_pos ⟨hstate, hsettle⟩).trans ?_)
  rw [settle_of_owed (secondPart_owes s c), check_idle]
  · rfl
  · intro e he
    rw [ctx_secondPart]
    split
    · exact nofun
    · exact hidle e he

theorem ctx_closed (e : Nat) : (s.closed c).ctx e = if e = c then {} else s.ctx e := ctx_secondPart s c e

/-- The records before the notice and the release of the context. -/
def State.freedClaim (s : State) (c : Nat) : State := (s.freedRecords c).setCarriers (s.ctx c).articles .free

theorem freedClaim_eq :
    s.freedClaim c =
      { s.freedRecords c with
        engine := { (s.freedRecords c).engine with carriers := (s.freedClaim c).engine.carriers } } := setCarriers_eq _ _ _

/-- Past the records and the map, the row writes the links and the contexts. -/
theorem closed_table : (s.closed c).table = (s.freedClaim c).table := rfl

theorem closed_ring : (s.closed c).ring = (s.freedClaim c).ring := rfl

theorem closed_monitor : (s.closed c).monitor = (s.freedClaim c).monitor := rfl

theorem closed_drives : (s.closed c).drives = (s.freedClaim c).drives := rfl

theorem closed_records : (s.closed c).table = (s.freedRecords c).table ∧ (s.closed c).ring = (s.freedRecords c).ring := by
  rw [closed_table, closed_ring, freedClaim_eq]
  exact ⟨rfl, rfl⟩

theorem elem_closed (j : Nat) : (s.closed c).elem j = (s.releasedRecords c).elem j := by
  rw [← elem_freedRecords]
  unfold State.elem
  rw [(closed_records s c).1]

theorem closed_carrier (k : Nat) :
    (s.closed c).carrier k = if k ∈ (s.ctx c).articles then .free else s.carrier k := by
  have hfree := carrier_setCarriers (s.freedRecords c) (s.ctx c).articles .free k
  have hkept : (s.freedRecords c).carrier k = s.carrier k := by
    unfold State.carrier
    rw [(sameButRecords_freedRecords s c).engine]
  rw [hkept] at hfree
  exact hfree

theorem closed_links :
    (s.closed c).links = (pushNotice (stationPort (s.ctx c).owner) 0x60 (s.endedBody c) s).links := by
  refine Eq.trans ?_ (pushNotice_links (t := (s.freedRecords c).setCarriers (s.ctx c).articles .free) ?_ _ _ _)
  · rw [State.closed, secondPart_eq]
    rfl
  · rw [setCarriers_eq]
    exact (sameButRecords_freedRecords s c).links

theorem closed_frame :
    (s.closed c).steadyPart = s.steadyPart ∧ (s.closed c).sched = s.sched ∧ (s.closed c).monitor = s.monitor
      ∧ (s.closed c).drives = s.drives := by
  have hrest : (s.freedRecords c).monitor = s.monitor ∧ (s.freedRecords c).drives = s.drives := by
    have h := sameButRecords_freedRecords s c
    rw [sameButRecords] at h
    rw [h]
    exact ⟨rfl, rfl⟩
  refine ⟨?_, secondPart_sched s c, ?_, ?_⟩
  · exact (steady_closed s.steadyPart).secondPart c s rfl
  · rw [closed_monitor, freedClaim_eq]
    exact hrest.1
  · rw [closed_drives, freedClaim_eq]
    exact hrest.2

/-! ### The points (R42) -/

/-- No member is TESTING once its claim is released, where none was when it was claimed. -/
theorem releasedRecords_not_testing (hn : (s.members c).Nodup) (h : ∀ m ∈ (s.ctx c).claim, m.2 ≠ .testing) {i : Nat}
    (hi : i ∈ s.members c) : ((s.releasedRecords c).elem i).state ≠ .testing := by
  obtain ⟨m, hm, rfl⟩ := List.mem_map.1 hi
  rw [(releasedRecords_member s c hn hm).2]
  have hprior := h m hm
  unfold memberState releasedState
  split
  · exact nofun
  · split
    · exact nofun
    · split
      · exact nofun
      · exact hprior
    · exact hprior

/-- The context of an element outside a claim stands when the claim's context becomes FREE. -/
theorem ctxOfElem_closed {i : Nat} (hi : i ∉ s.members c) : (s.closed c).ctxOfElem i = s.ctxOfElem i := by
  unfold State.ctxOfElem
  congr 1
  funext e
  rw [ctx_closed]
  split
  · rename_i he
    subst he
    have hany : ((s.ctx e).claim.any fun m => decide (m.1 = i)) = false := by
      rw [List.any_eq_false]
      intro m hm hmi
      exact hi (List.mem_map.2 ⟨m, hm, of_decide_eq_true hmi⟩)
    rw [hany, Bool.and_false]
    rfl
  · rfl

theorem ctxOfElem_freedRecords (i : Nat) : (s.freedRecords c).ctxOfElem i = s.ctxOfElem i := by
  unfold State.ctxOfElem State.ctx
  rw [(sameButRecords_freedRecords s c).engine]

theorem sourceOf_closed (hn : (s.members c).Nodup) (h : ∀ m ∈ (s.ctx c).claim, m.2 ≠ .testing) (pt : Nat) :
    (s.closed c).sourceOf pt = (s.freedRecords c).sourceOf pt := by
  have howner : (s.closed c).ownerOf pt = (s.freedRecords c).ownerOf pt := by
    unfold State.ownerOf
    rw [(closed_records s c).1]
  unfold State.sourceOf
  rw [howner]
  cases (s.freedRecords c).ownerOf pt with
  | none => rfl
  | some i =>
    dsimp only
    rw [elem_closed, elem_freedRecords]
    by_cases hi : i ∈ s.members c
    · rw [if_neg (releasedRecords_not_testing s c hn h hi), if_neg (releasedRecords_not_testing s c hn h hi)]
    · rw [ctxOfElem_closed s c hi, ctxOfElem_freedRecords]

theorem pointsDerived_closed (hn : (s.members c).Nodup) (h : ∀ m ∈ (s.ctx c).claim, m.2 ≠ .testing) :
    pointsDerived ((s.members c ++ (s.ctx c).companions).flatMap fun j =>
      (s.elem j).definition.outputs ++ ((s.closed c).elem j).definition.outputs) s (s.closed c) := by
  have hd := pointsDerived_deriveSources (s := s) (outputsOf (s.summarised c) (s.members c ++ (s.ctx c).companions)
        ++ outputsOf (s.releasedRecords c) (s.members c ++ (s.ctx c).companions)) (releasedRecords_ring s c)
  rw [← freedRecords_eq] at hd
  intro pt
  obtain ⟨hin, hout⟩ := hd pt
  have hmem : pt ∈ ((s.members c ++ (s.ctx c).companions).flatMap fun j =>
        (s.elem j).definition.outputs ++ ((s.closed c).elem j).definition.outputs)
      ↔ pt ∈ outputsOf (s.summarised c) (s.members c ++ (s.ctx c).companions)
        ++ outputsOf (s.releasedRecords c) (s.members c ++ (s.ctx c).companions) := by
    simp only [outputsOf, List.mem_append, List.mem_flatMap, elem_closed, summarised_definition]
    constructor
    · rintro ⟨j, hj, h | h⟩
      · exact .inl ⟨j, hj, h⟩
      · exact .inr ⟨j, hj, h⟩
    · rintro (⟨j, hj, h⟩ | ⟨j, hj, h⟩)
      · exact ⟨j, hj, .inl h⟩
      · exact ⟨j, hj, .inr h⟩
  rw [hmem, sourceOf_closed s c hn h]
  unfold State.source State.stimulus at hin hout ⊢
  rw [(closed_records s c).2]
  exact ⟨hin, hout⟩

end SecondPart

/-- Settles O56: the summary and amendments of R63 and R64, the release of R74, and the frame of the row. -/
theorem secondPartReleasesClaim : Obligations.SecondPartReleasesClaim := by
  intro c r cause s hstate hsettle hending hidle hn
  extract_lets x members changed old summary ended
  have hr : ((s.ctx c).ending.map (·.1)).getD .aborted = r := by rw [hending]; rfl
  have hcause : ((s.ctx c).ending.map (·.2)).getD .order = cause := by rw [hending]; rfl
  obtain ⟨hsteady, hsched, hmonitor, hdrives⟩ := closed_frame s c
  have hrecord : ∀ j, (s.closed c).elem j = _ := fun j => (elem_closed s c j).trans (elem_releasedRecords s c j)
  have hdef : ∀ j, ((s.closed c).elem j).definition = ((applyStaged members (s.summarised c)).elem j).definition :=
    fun j => by rw [hrecord]
  refine ⟨s.closed c, exec_closingSecondPart s c hstate hsettle hidle, by rw [ctx_closed, if_pos rfl],
    fun c' hc => by rw [ctx_closed, if_neg hc], ?summary, ?count, fun j => by rw [hrecord], fun m hm => ?member,
    fun hplain j => ?plain, fun d hch hd hcase j => ?chute, fun j => by rw [hrecord],
    fun htesting => pointsDerived_closed s c hn htesting, closed_carrier s c, ?links, hsteady, hsched, hmonitor, hdrives⟩
  case summary =>
    rw [hrecord, elem_summarised_self, hr]
    rfl
  case count =>
    rw [hrecord, elem_summarised_self]
    rfl
  case member =>
    obtain ⟨hholder, hst⟩ := releasedRecords_member s c hn hm
    rw [elem_closed]
    refine ⟨hholder, ?_⟩
    have hamended : (m.1 ∈ s.amendedMembers c ∨ (m.1 = x.element ∧ x.kind = .chute ∧ s.amendedMembers c ≠ []))
        ↔ (changed m.1 ∨ (m.1 = x.element ∧ x.kind = .chute ∧ ∃ j, changed j)) := by
      rw [mem_amendedMembers, amendedMembers_ne_nil]
    intro amended
    rw [hst, hr]
    refine ⟨fun h => if_pos (hamended.2 h), fun h => (if_neg fun h' => h (hamended.1 h')).trans ?_⟩
    cases r with
    | failed => by_cases hx : m.1 = x.element <;> simp [releasedState, hx, x]
    | _ => rfl
  case plain =>
    rw [hdef, definition_applyStaged_plain members hn]
    · rw [Element.amendedDefinition, summarised_staged, summarised_definition]
      cases (s.elem j).staged with
      | none => exact ite_self _
      | some d => rfl
    · intro i hi d hd
      rw [summarised_staged] at hd
      rw [summarised_definition]
      exact hplain i d ⟨hi, by rw [hd]; exact nofun⟩ hd
  case chute =>
    intro held
    obtain ⟨hdefinition, hstaged⟩ := eyed_summarised s c x.element d j
    have hheld : (s.eyed x.element d j).definition = held := by
      unfold State.eyed
      simp only [apply_ite Element.definition]
      rfl
    rw [hdef, definition_applyStaged_chute hn hch.1 ((summarised_staged s c _).trans hd)]
    · rw [Element.amendedDefinition, hdefinition, hstaged, hheld]
      cases (s.elem j).staged with
      | none => exact ite_self _
      | some e => rfl
    · refine hcase.imp (fun h i hi hne => ?_) fun h => ⟨h.1, fun i hi hne e he => ?_⟩
      · rw [summarised_staged]
        by_contra hs
        exact hne (h i ⟨hi, hs⟩)
      · rw [summarised_staged] at he
        rw [summarised_definition]
        exact h.2 i e ⟨hi, by rw [he]; exact nofun⟩ hne he
  case links =>
    rw [closed_links, State.endedBody]
    rw [hr, hcause]
    rfl

end Sys2Proof.Machine

/-! PROOFS. What a departing scanner frame does beside the ring: suppressed commands (R44), and the departure of the
level of a drive point or of a settling point (R107, R175, R177). -/

namespace Sys2Proof.Machine

open Sys2Proof

/-! ### Listed entries of a canonical table -/

/-- A canonical table lists the entries that are not the reset entry. -/
theorem mem_table_iff {α : Type} [DecidableEq α] {d : α} {t : Table α} (h : Table.wf d t = true) {i : Nat} {v : α}
    (hv : v ≠ d) : (i, v) ∈ t ↔ Table.get d t i = v := by
  have hany := Table.any_iff h (fun k x => decide (k = i ∧ x = v)) fun k => decide_eq_false fun hk => hv hk.2.symm
  constructor
  · intro hmem
    obtain ⟨k, hk⟩ := hany.1 (List.any_eq_true.2 ⟨_, hmem, decide_eq_true ⟨rfl, rfl⟩⟩)
    obtain ⟨hki, hkv⟩ := of_decide_eq_true hk
    rw [← hki]
    exact hkv
  · intro hget
    obtain ⟨⟨k, x⟩, hmem, hk⟩ := List.any_eq_true.1 (hany.2 ⟨i, decide_eq_true ⟨rfl, hget⟩⟩)
    obtain ⟨rfl, rfl⟩ := of_decide_eq_true hk
    exact hmem

theorem nodup_eraseDups (l : List Nat) : l.eraseDups.Nodup := by
  match l with
  | [] => exact List.nodup_nil
  | a :: l =>
    rw [List.eraseDups_cons, List.nodup_cons]
    exact ⟨by simp [List.mem_eraseDups], nodup_eraseDups _⟩
termination_by l.length
decreasing_by exact Nat.lt_succ_of_le (List.length_filter_le ..)

/-! ### Suppressed commands (R44) -/

section Suppressed

/-- A listed element has one suppressed command more, and every other record stands. -/
theorem elem_countEach (l : List Nat) (hl : l.Nodup) (s : State) (i : Nat) :
    (l.foldl (fun s i => s.mapElem i fun e => { e with suppressed := capAdd 65535 e.suppressed 1 }) s).elem i =
      if i ∈ l then { s.elem i with suppressed := min 65535 ((s.elem i).suppressed + 1) } else s.elem i := by
  induction l generalizing s with
  | nil => rfl
  | cons a l ih =>
    obtain ⟨ha, hl⟩ := List.nodup_cons.1 hl
    rw [List.foldl_cons, ih hl, elem_mapElem]
    by_cases hi : i = a
    · subst hi
      rw [if_neg ha, if_pos rfl, if_pos List.mem_cons_self]
      rfl
    · simp [hi]

theorem elem_countSuppressed (slots : List Slot) (s : State) (i : Nat) :
    (countSuppressed slots s).elem i =
      if i ∈ s.suppressedElems slots then { s.elem i with suppressed := min 65535 ((s.elem i).suppressed + 1) }
      else s.elem i := elem_countEach _ (nodup_eraseDups _) s i

/-- An element has a suppressed command where one of its points, not PASS, is commanded active and sent otherwise. -/
theorem mem_suppressedElems {s : State} (h : Table.wf .pass s.ring.sources = true) (slots : List Slot) (i : Nat) :
    i ∈ s.suppressedElems slots ↔
      ∃ pt w, slots[pt / 16]? = some w ∧ s.source pt ≠ .pass ∧ s.ownerOf pt = some i
        ∧ w.out.getLsbD (pt % 16) = s.pointHigh pt ∧ s.sent (some (w.out.getLsbD (pt % 16))) pt ≠ s.pointHigh pt := by
  unfold State.suppressedElems
  simp only [List.mem_eraseDups, List.mem_filterMap]
  constructor
  · rintro ⟨⟨pt, src⟩, hmem, hi⟩
    cases hw : slots[pt / 16]? with
    | none => simp [hw] at hi
    | some w =>
      rw [hw] at hi
      dsimp only at hi
      rw [Option.ite_none_right_eq_some] at hi
      obtain ⟨⟨hsrc, hbit, hsent⟩, howner⟩ := hi
      have hs : s.source pt = src := (mem_table_iff h hsrc).1 hmem
      exact ⟨pt, w, hw, by rw [hs]; exact hsrc, howner, hbit, hsent⟩
  · rintro ⟨pt, w, hw, hsrc, howner, hbit, hsent⟩
    refine ⟨(pt, s.source pt), (mem_table_iff h hsrc).2 rfl, ?_⟩
    dsimp only
    rw [hw]
    dsimp only
    rw [Option.ite_none_right_eq_some]
    exact ⟨⟨hsrc, hbit, hsent⟩, howner⟩

end Suppressed

/-! ### The state that reports its departures -/

section Gone

variable (relay : Bool) (count seq : Byte) (slots : List Slot) (s : State)

/-- Of a record a departing frame touches the suppressed-command count alone. -/
theorem elem_frameGone_frame (i : Nat) :
    (s.frameGone relay count seq slots).elem i =
      { s.elem i with suppressed := ((s.frameGone relay count seq slots).elem i).suppressed } := by
  have hput : (putFrame count seq (s.slotsOut relay slots) (departStimuli s)).elem i = s.elem i := by
    rw [show departStimuli s = _ from sameButStimuli_departStimuli s]
    rfl
  unfold State.frameGone
  dsimp only
  split
  · rw [elem_countSuppressed, hput]
    split <;> rfl
  · rw [hput]

theorem frameGone_engine : (s.frameGone relay count seq slots).engine = s.engine := (frameGone_links relay count seq slots s).2

/-- Beside the ring and the records a departing frame touches nothing. -/
theorem frameGone_frame :
    (s.frameGone relay count seq slots).time = s.time ∧ (s.frameGone relay count seq slots).monitor = s.monitor := by
  have hput : (putFrame count seq (s.slotsOut relay slots) (departStimuli s)).time = s.time
      ∧ (putFrame count seq (s.slotsOut relay slots) (departStimuli s)).monitor = s.monitor := by
    rw [show departStimuli s = _ from sameButStimuli_departStimuli s]
    exact ⟨rfl, rfl⟩
  unfold State.frameGone
  dsimp only
  split
  · unfold countSuppressed
    refine foldl_keeps (P := fun t : State => t.time = s.time ∧ t.monitor = s.monitor) (fun t i ht => ?_) _ _ hput
    exact ht
  · exact hput

theorem frameGone_stimuli : (s.frameGone relay count seq slots).ring.stimuli = (departStimuli s).ring.stimuli := by
  unfold State.frameGone
  dsimp only
  split
  · unfold countSuppressed
    refine foldl_keeps (P := fun t : State => t.ring.stimuli = (departStimuli s).ring.stimuli) (fun t i ht => ?_) _ _ rfl
    exact ht
  · rfl

theorem ctx_frameGone (c : Nat) : (s.frameGone relay count seq slots).ctx c = s.ctx c := by
  unfold State.ctx
  rw [frameGone_engine]

theorem carrier_frameGone (k : Nat) : (s.frameGone relay count seq slots).carrier k = s.carrier k := by
  unfold State.carrier
  rw [frameGone_engine]

theorem definition_frameGone (i : Nat) :
    ((s.frameGone relay count seq slots).elem i).definition = (s.elem i).definition := by
  rw [elem_frameGone_frame]

theorem driveDef_frameGone (i : Nat) : (s.frameGone relay count seq slots).driveDef i = s.driveDef i := by
  unfold State.driveDef
  rw [definition_frameGone]

theorem chuteDef_frameGone (i : Nat) : (s.frameGone relay count seq slots).chuteDef i = s.chuteDef i := by
  unfold State.chuteDef
  rw [definition_frameGone]

theorem sensorDef_frameGone (i : Nat) : (s.frameGone relay count seq slots).sensorDef i = s.sensorDef i := by
  unfold State.sensorDef
  rw [definition_frameGone]

variable {s}

theorem stimulus_frameGone (h : s.canonical = true) (pt : Nat) :
    (s.frameGone relay count seq slots).stimulus pt = (s.stimulus pt).map (Stimulus.depart s.time) := by
  unfold State.stimulus
  rw [frameGone_stimuli]
  exact stimulus_departStimuli h pt

/-- A change that departs is awaited on its point. -/
theorem awaited_of_departing (h : s.canonical = true) {pt c : Nat} {ch : StimChange} (hd : (pt, c, ch) ∈ s.departing) :
    ∃ r, s.stimulus pt = some r ∧ r.awaited = some (c, ch) := by
  obtain ⟨⟨q, o⟩, hmem, ho⟩ := List.mem_filterMap.1 hd
  obtain ⟨r, rfl, ha⟩ := Option.bind_eq_some_iff.1 ho
  obtain ⟨a, hr, ha⟩ := Option.map_eq_some_iff.1 ha
  injection ha with h1 h2
  subst h1
  have hget := (mem_table_iff (v := some r) ((canonical_iff s).1 h).stimuli (fun e => nomatch e)).1 hmem
  refine ⟨r, hget, ?_⟩
  rw [hr, ← h2]

theorem stimulus_frameGone_level (h : s.canonical = true) {pt c : Nat} {v : StimValue} (hd : (pt, c, .level v) ∈ s.departing) :
    (s.frameGone relay count seq slots).stimulus pt = some { value := v, awaited := none, pulseEnd := none } := by
  obtain ⟨r, hr, ha⟩ := awaited_of_departing h hd
  rw [stimulus_frameGone relay count seq slots h, hr, Option.map_some, Stimulus.depart, ha]

theorem stimulus_frameGone_pulse (h : s.canonical = true) {pt c w : Nat} (hd : (pt, c, .pulse w) ∈ s.departing) :
    (s.frameGone relay count seq slots).stimulus pt =
      some { value := .active, awaited := none, pulseEnd := some (s.time + w * 1000) } := by
  obtain ⟨r, hr, ha⟩ := awaited_of_departing h hd
  rw [stimulus_frameGone relay count seq slots h, hr, Option.map_some, Stimulus.depart, ha]

/-- Element `i` has a suppressed command in a scanner frame of these slots that departs from `s`. -/
def State.suppresses (s : State) (slots : List Slot) (i : Nat) : Prop :=
  ∃ pt w, slots[pt / 16]? = some w ∧ s.source pt ≠ .pass ∧ s.ownerOf pt = some i
    ∧ w.out.getLsbD (pt % 16) = s.pointHigh pt
    ∧ (departStimuli s).sent (some (w.out.getLsbD (pt % 16))) pt ≠ s.pointHigh pt

/-- The suppressed commands of a scanner frame are counted. -/
theorem elem_frameGone_relay (h : s.canonical = true) (i : Nat) :
    (s.suppresses slots i →
        (s.frameGone true count seq slots).elem i = { s.elem i with suppressed := min 65535 ((s.elem i).suppressed + 1) })
      ∧ (¬ s.suppresses slots i → (s.frameGone true count seq slots).elem i = s.elem i) := by
  have hsame := sameButStimuli_departStimuli s
  let out := putFrame count seq (s.slotsOut true slots) (departStimuli s)
  have htable : out.table = s.table := by
    have h : (departStimuli s).table = s.table := by rw [show departStimuli s = _ from hsame]
    exact h
  have hput : out.elem i = s.elem i := by
    unfold State.elem
    rw [htable]
  have hwf : Table.wf .pass out.ring.sources = true := by
    have hsources : (departStimuli s).ring.sources = s.ring.sources := by rw [show departStimuli s = _ from hsame]
    refine Eq.trans (congrArg (Table.wf Source.pass) ?_) ((canonical_iff s).1 h).sources
    exact hsources
  have hsource : ∀ pt, out.source pt = s.source pt := hsame.source
  have howner : ∀ pt, out.ownerOf pt = s.ownerOf pt := fun pt => by
    unfold State.ownerOf
    rw [htable]
  have hhigh : ∀ pt, out.pointHigh pt = s.pointHigh pt := fun pt => by
    unfold State.pointHigh State.elem
    rw [howner, htable]
  have hmem : i ∈ out.suppressedElems slots ↔ s.suppresses slots i := by
    rw [mem_suppressedElems hwf, State.suppresses]
    simp only [hsource, howner, hhigh]
    rfl
  have hgone : (s.frameGone true count seq slots).elem i = (countSuppressed slots out).elem i := rfl
  rw [hgone, elem_countSuppressed, hput]
  exact ⟨fun hs => if_pos (hmem.2 hs), fun hs => if_neg fun hm => hs (hmem.1 hm)⟩

end Gone

/-! ### The report of a level (R107, R175, R177) -/

section Levels

variable {s : State} {c pt : Nat} {v : StimValue}

/-- A running drive trial takes the departure of its point's level. -/
theorem reportDeparture_drive {d : DriveDef} (hr : (s.ctx c).state = .running) (hd : s.driveDef (s.ctx c).element = some d)
    (hp : d.point (s.ctx c).reverse = pt) : reportDeparture pt c (.level v) s = driveDeparture c v s := by
  have hpoint : s.isDrivePoint c pt = true := by
    unfold State.isDrivePoint
    rw [hd]
    exact decide_eq_true hp
  unfold reportDeparture
  dsimp only
  rw [hr]
  dsimp only
  rw [if_pos hpoint]

theorem driveDeparture_ramp {r : DriveTrial} {d : DriveDef} (ht : (s.ctx c).trial = .drive r)
    (hd : s.driveDef (s.ctx c).element = some d) (hp : (s.ctx c).phase = .ramp) :
    driveDeparture c .active s =
      s.setCtx c { s.ctx c with trial := .drive { r with
        stim := .departed, phaseStart := s.time, phaseDeadline := some (s.time + d.accel * 1000) } } := by
  unfold driveDeparture
  dsimp only
  rw [ht, hd]
  dsimp only
  rw [hp]

theorem driveDeparture_stop {r : DriveTrial} {d : DriveDef} (ht : (s.ctx c).trial = .drive r)
    (hd : s.driveDef (s.ctx c).element = some d) (hp : (s.ctx c).phase = .stop) :
    driveDeparture c .inactive s =
      s.setCtx c { s.ctx c with trial := .drive { r with
        stim := .departed, phaseStart := s.time, phaseDeadline := some (s.time + d.stop * 1000)
        quietStart := some s.time } } := by
  unfold driveDeparture
  dsimp only
  rw [ht, hd]
  dsimp only
  rw [hp]

/-- The settle set of a context without the point. -/
def State.unsettled (s : State) (c pt : Nat) : State :=
  s.setCtx c { s.ctx c with settle := (s.ctx c).settle.filter fun q => decide (q ≠ pt) }

/-- A settling point leaves the settle set; with the last one the second part runs. -/
theorem reportDeparture_settling (hc : (s.ctx c).state = .closing) (hp : pt ∈ (s.ctx c).settle) :
    reportDeparture pt c (.level .inactive) s =
      if ((s.ctx c).settle.filter fun q => decide (q ≠ pt)).isEmpty then secondPart c (s.unsettled c pt)
      else s.unsettled c pt := by
  unfold reportDeparture
  dsimp only
  rw [hc]
  dsimp only
  unfold settlePoint
  dsimp only
  rw [if_pos ⟨hc, hp⟩]
  rfl

/-- The release of a claim leaves no holder with a member. -/
theorem holder_release (x : Context) (r : ProofResult) (changed : List Nat) (l : List (Nat × ElState)) (s : State)
    {m : Nat × ElState} (h : m ∈ l) : ((l.foldl (releaseMember x r changed) s).elem m.1).holder = .none := by
  induction l generalizing s with
  | nil => cases h
  | cons a l ih =>
    rw [List.foldl_cons]
    rcases List.mem_cons.1 h with rfl | h
    · refine foldl_keeps (P := fun t : State => (t.elem m.1).holder = .none) (fun t a ht => ?_) l _ ?_
      · rw [elem_releaseMember]
        split
        · rfl
        · exact ht
      · rw [elem_releaseMember, if_pos rfl]
    · exact ih _ h

theorem holder_closed {m : Nat × ElState} (h : m ∈ (s.ctx c).claim) : ((s.closed c).elem m.1).holder = .none := by
  rw [elem_closed]
  unfold State.releasedRecords
  rw [elem_lowerHolds]
  exact holder_release _ _ _ _ _ h

/-- Where no context is PAUSED the second part settles at once. -/
theorem settle_secondPart (h : ∀ e < 16, (s.ctx e).state ≠ .paused) (c : Nat) : settle (secondPart c s) = s.closed c := by
  rw [settle_of_owed (secondPart_owes s c), check_idle]
  · rfl
  · intro e he
    rw [ctx_secondPart]
    split
    · exact nofun
    · exact h e he

end Levels

end Sys2Proof.Machine

/-! PROOFS. The departure of a discharge: the trial in OBSERVING, its carrier SUSPECT, and its ENTRY and FULL windows
(R45, R149, R150). -/

namespace Sys2Proof.Machine

open Sys2Proof

section Insertion

variable {s : State} (e : Entry) {n : Nat}

theorem mapMonitor_setPhase_join (m : Monitor) (hn : n ∉ m.used) (ph : WinPhase) :
    (m.join { e with num := n, phase := .waiting }).setPhase n ph = m.join { e with num := n, phase := ph } :=
  setPhase_join m { e with num := n, phase := .waiting } ph hn

/-- An entry inserted at its guard, before its open. -/
theorem insertEntry_guarded (hr : (s.ctx e.ctx).state = .running)
    (ha : (s.monitor.entriesOf e.ctx).length < (s.ctx e.ctx).allowance) (hn : s.monitor.lowestFree = some n)
    (hguard : e.guardAt ≤ s.position e.base) (hopen : s.position e.base < e.openAt) (hclose : s.position e.base ≤ e.closeAt) :
    insertEntry e s = s.mapMonitor fun m => m.join { e with num := n, phase := .guard } := by
  have hphase : e.phaseAt (s.position e.base) = .guard := by
    unfold Entry.phaseAt
    rw [if_neg (not_lt.2 hguard), if_pos hopen]
  rw [insertEntry_early e hr ha hn hopen hclose, hphase]
  exact congrArg (fun v : Monitor => ({ s with monitor := v } : State))
    (mapMonitor_setPhase_join e s.monitor (lowestFree_not_used hn) .guard)

/-- The examination that opens a QUIET entry whose close has not passed finds nothing. -/
theorem inspect_quiet (hk : e.kind = .quiet) (hp : e.phase ≠ .opened) (hph : e.phaseAt (s.position e.base) = .opened)
    (hclose : s.position e.base ≤ e.closeAt) : inspect s e = (.opened, none) := by
  have hcheck : openingCheck s e (s.input e.point).level = none := by
    unfold openingCheck
    rw [hk]
  rw [inspect_opening hp hph, hcheck]
  dsimp only
  rw [if_neg (not_lt.2 hclose)]

/-- A QUIET entry inserted at its open, with nothing in its way before its close, is open at once. -/
theorem insertEntry_quiet (hk : e.kind = .quiet) (hr : (s.ctx e.ctx).state = .running)
    (ha : (s.monitor.entriesOf e.ctx).length < (s.ctx e.ctx).allowance) (hn : s.monitor.lowestFree = some n)
    (hguard : e.guardAt ≤ s.position e.base) (hopen : e.openAt ≤ s.position e.base) (hclose : s.position e.base ≤ e.closeAt) :
    insertEntry e s = s.mapMonitor fun m => m.join { e with num := n, phase := .opened } := by
  have hphase : e.phaseAt (s.position e.base) = .opened := by
    unfold Entry.phaseAt
    rw [if_neg (not_lt.2 hguard), if_neg (not_lt.2 hopen)]
  have hinspect : inspect (s.mapMonitor fun m => m.join { e with num := n, phase := .waiting })
      { e with num := n, phase := .waiting } = (.opened, none) :=
    inspect_quiet { e with num := n, phase := .waiting } hk nofun hphase hclose
  have hfind : (s.monitor.join { e with num := n, phase := .waiting }).find n = some { e with num := n, phase := .waiting } :=
    find_join_self (x := { e with num := n, phase := .waiting }) (lowestFree_not_used hn)
  rw [insertEntry_taken e hr ha hn]
  unfold examine
  rw [examineWith_quiet _ (s := s.mapMonitor fun m => m.join { e with num := n, phase := .waiting }) hfind
    (congrArg Prod.snd hinspect), hinspect]
  exact congrArg (fun v : Monitor => ({ s with monitor := v } : State))
    (mapMonitor_setPhase_join e s.monitor (lowestFree_not_used hn) .opened)

end Insertion

/-! ### Free entries (R127) -/

section Numbers

variable {m : Monitor} {n : Nat}

theorem lowestFree_of_free {a : Nat} (ha : a < 24) (hfree : a ∉ m.used) : ∃ n, m.lowestFree = some n ∧ n < 24 ∧ n ∉ m.used := by
  have hsome : m.lowestFree.isSome = true := by
    unfold Monitor.lowestFree
    rw [List.find?_isSome]
    exact ⟨a, List.mem_range.2 ha, decide_eq_true hfree⟩
  obtain ⟨n, hn⟩ := Option.isSome_iff_exists.1 hsome
  exact ⟨n, hn, List.mem_range.1 (List.mem_of_find?_eq_some hn), lowestFree_not_used hn⟩

theorem mem_used_join (e : Entry) (k : Nat) : k ∈ (m.join e).used ↔ k = e.num ∨ k ∈ m.used := by
  unfold Monitor.used
  simp only [List.mem_map, mem_join]
  constructor
  · rintro ⟨y, rfl | hy, rfl⟩
    · exact .inl rfl
    · exact .inr ⟨y, hy, rfl⟩
  · rintro (rfl | ⟨y, hy, rfl⟩)
    · exact ⟨e, .inl rfl, rfl⟩
    · exact ⟨y, .inr hy, rfl⟩

theorem filter_insertByClose_length (e : Entry) (l : List Entry) (f : Entry → Bool) :
    ((insertByClose e l).filter f).length = (l.filter f).length + if f e then 1 else 0 := by
  induction l with
  | nil => simp only [insertByClose, List.filter_cons]; split <;> rfl
  | cons x l ih =>
    unfold insertByClose
    split
    · rw [List.filter_cons, List.filter_cons]
      split
      · rw [List.length_cons, ih, List.length_cons, Nat.add_right_comm]
      · exact ih
    · rw [List.filter_cons (x := e)]
      split <;> rfl

/-- An entry that joins is one more of its context's. -/
theorem entriesOf_join_length (e : Entry) : ((m.join e).entriesOf e.ctx).length = (m.entriesOf e.ctx).length + 1 := by
  unfold Monitor.entriesOf Monitor.join
  cases e.base with
  | travel =>
    simp only [List.filter_append, List.length_append, filter_insertByClose_length, decide_true, if_true]
    omega
  | time =>
    simp only [List.filter_append, List.length_append, filter_insertByClose_length, decide_true, if_true]
    omega

end Numbers

/-! ### The departure (R149) -/

section Discharge

variable {s : State} {c : Nat} {r : ChuteTrial} {d : ChuteDef} {eye : SensorDef}

/-- The context of a discharge that has departed, its windows not yet placed. -/
def Context.discharged (x : Context) (r : ChuteTrial) (t : Nat) : Context :=
  { x with
    trial := .chute { r with stim := .departed, tStim := some t }
    articles := x.articles.tail
    inFlight := some r.carrier }

/-- The state of a discharge that has departed, its windows not yet placed. -/
def State.dischargeGone (s : State) (c : Nat) (r : ChuteTrial) : State :=
  (s.setCtx c ((s.ctx c).discharged r s.time)).setCarrier r.carrier .suspect

theorem ctx_dischargeGone (e : Nat) :
    (s.dischargeGone c r).ctx e = if e = c then (s.ctx c).discharged r s.time else s.ctx e := by
  refine Eq.trans ?_ (ctx_setCtx s c e _)
  rfl

theorem chuteDeparture_eq (hr : (s.ctx c).state = .running) (hp : (s.ctx c).phase = .firing) (ht : (s.ctx c).trial = .chute r)
    (hd : s.chuteDef (s.ctx c).element = some d) :
    chuteDeparture c s =
      let placed := placeWindow c (fullWindow c d) d.fullEye s.time
        (placeWindow c (entryWindow c d) (some d.entryEye) s.time (s.dischargeGone c r))
      if placed.firing c then placed.mapCtx c fun y => { y with phase := .observing } else placed := by
  have hfiring : s.firing c = true := by
    unfold State.firing
    rw [hr, hp]
    rfl
  unfold chuteDeparture
  dsimp only
  rw [ht, hd]
  dsimp only
  rw [if_pos hfiring]
  rfl

/-- A window that an eye's definition gives to a trial in FIRING. -/
theorem placeWindow_eq {u : State} {w : SensorDef → Nat → Entry} {i : Nat} {t : Nat} (hf : u.firing c = true)
    (he : u.sensorDef i = some eye) : placeWindow c w (some i) t u = insertEntry (w eye t) u := by
  unfold placeWindow
  rw [if_pos hf, Option.bind_some, he]

/-- Without a sensor for its eye a window is not placed. -/
theorem placeWindow_none {u : State} {w : SensorDef → Nat → Entry} {i : Option Nat} {t : Nat}
    (h : i.bind u.sensorDef = none) : placeWindow c w i t u = u := by
  unfold placeWindow
  rw [h]
  exact ite_self _

/-- The ENTRY window as it stands at once, under number `n`. -/
def State.entryPlaced (s : State) (c : Nat) (d : ChuteDef) (eye : SensorDef) (n : Nat) : Entry :=
  { entryWindow c d eye s.time with num := n, phase := .guard }

/-- The FULL window as it stands at once, under number `n`. -/
def State.fullPlaced (s : State) (c : Nat) (d : ChuteDef) (eye : SensorDef) (n : Nat) : Entry :=
  { fullWindow c d eye s.time with num := n, phase := .opened }

theorem placeWindow_entry {n : Nat} (hr : (s.ctx c).state = .running) (hp : (s.ctx c).phase = .firing)
    (he : s.sensorDef d.entryEye = some eye) (hopen : 0 < d.winOpen) (hnone : s.monitor.entriesOf c = [])
    (ha : 2 ≤ (s.ctx c).allowance) (hn : s.monitor.lowestFree = some n) :
    placeWindow c (entryWindow c d) (some d.entryEye) s.time (s.dischargeGone c r) =
      (s.dischargeGone c r).mapMonitor fun m => m.join (s.entryPlaced c d eye n) := by
  have hctx : (s.dischargeGone c r).ctx c = (s.ctx c).discharged r s.time := by rw [ctx_dischargeGone, if_pos rfl]
  have hfiring : (s.dischargeGone c r).firing c = true := by
    unfold State.firing
    rw [hctx]
    simp only [Context.discharged, hr, hp, decide_true, Bool.and_self]
  rw [placeWindow_eq (i := d.entryEye) (eye := eye) hfiring he]
  refine insertEntry_guarded _ ?_ ?_ hn (le_refl _) ?_ ?_
  · show ((s.dischargeGone c r).ctx c).state = .running
    rw [hctx]
    exact hr
  · show (s.monitor.entriesOf c).length < ((s.dischargeGone c r).ctx c).allowance
    rw [hctx, hnone]
    exact Nat.lt_of_lt_of_le Nat.two_pos ha
  · show (s.time : Int) < s.time + d.winOpen * 1000
    omega
  · show (s.time : Int) ≤ s.time + d.winClose * 1000
    omega

/-- A FULL window is open from the departure. -/
theorem placeWindow_full {u : State} {i n : Nat} {second : SensorDef} (hf : u.firing c = true) (ht : u.time = s.time)
    (he : u.sensorDef i = some second) (ha : (u.monitor.entriesOf c).length < (u.ctx c).allowance)
    (hn : u.monitor.lowestFree = some n) :
    placeWindow c (fullWindow c d) (some i) s.time u = u.mapMonitor fun m => m.join (s.fullPlaced c d second n) := by
  have hr : (u.ctx c).state = .running := by
    unfold State.firing at hf
    rw [Bool.and_eq_true] at hf
    exact of_decide_eq_true hf.1
  rw [placeWindow_eq (i := i) (eye := second) hf he]
  refine insertEntry_quiet _ rfl hr ha hn ?_ ?_ ?_
  · show (s.time : Int) ≤ u.time
    omega
  · show (s.time : Int) ≤ u.time
    omega
  · show (u.time : Int) ≤ s.time + (d.winClose + d.clearLimit) * 1000
    omega

/-- A discharge departs from a chute without a full eye. -/
theorem chuteDeparture_entry {n : Nat} (hr : (s.ctx c).state = .running) (hp : (s.ctx c).phase = .firing)
    (ht : (s.ctx c).trial = .chute r) (hd : s.chuteDef (s.ctx c).element = some d) (he : s.sensorDef d.entryEye = some eye)
    (hopen : 0 < d.winOpen) (hnone : s.monitor.entriesOf c = []) (ha : 2 ≤ (s.ctx c).allowance)
    (hn : s.monitor.lowestFree = some n) (hfull : d.fullEye.bind s.sensorDef = none) :
    chuteDeparture c s =
      ((s.dischargeGone c r).mapMonitor fun m => m.join (s.entryPlaced c d eye n)).mapCtx c fun y =>
        { y with phase := .observing } := by
  have hfiring : ((s.dischargeGone c r).mapMonitor fun m => m.join (s.entryPlaced c d eye n)).firing c = true := by
    show (s.dischargeGone c r).firing c = true
    unfold State.firing
    rw [ctx_dischargeGone, if_pos rfl]
    simp only [Context.discharged, hr, hp, decide_true, Bool.and_self]
  rw [chuteDeparture_eq hr hp ht hd, placeWindow_entry hr hp he hopen hnone ha hn]
  dsimp only
  rw [placeWindow_none (u := (s.dischargeGone c r).mapMonitor fun m => m.join (s.entryPlaced c d eye n)) hfull]
  exact if_pos hfiring

/-- A discharge departs from a chute with a full eye. -/
theorem chuteDeparture_full {n m i : Nat} {second : SensorDef} (hr : (s.ctx c).state = .running)
    (hp : (s.ctx c).phase = .firing) (ht : (s.ctx c).trial = .chute r) (hd : s.chuteDef (s.ctx c).element = some d)
    (he : s.sensorDef d.entryEye = some eye) (hopen : 0 < d.winOpen) (hnone : s.monitor.entriesOf c = [])
    (ha : 2 ≤ (s.ctx c).allowance) (hn : s.monitor.lowestFree = some n) (hfull : d.fullEye = some i)
    (hs : s.sensorDef i = some second) (hm : (s.monitor.join (s.entryPlaced c d eye n)).lowestFree = some m) :
    chuteDeparture c s =
      (((s.dischargeGone c r).mapMonitor fun q => q.join (s.entryPlaced c d eye n)).mapMonitor fun q =>
        q.join (s.fullPlaced c d second m)).mapCtx c fun y => { y with phase := .observing } := by
  have hctx : (s.dischargeGone c r).ctx c = (s.ctx c).discharged r s.time := by rw [ctx_dischargeGone, if_pos rfl]
  have hfiring : ((s.dischargeGone c r).mapMonitor fun m => m.join (s.entryPlaced c d eye n)).firing c = true := by
    show (s.dischargeGone c r).firing c = true
    unfold State.firing
    rw [hctx]
    simp only [Context.discharged, hr, hp, decide_true, Bool.and_self]
  have hroom : ((s.monitor.join (s.entryPlaced c d eye n)).entriesOf c).length < ((s.dischargeGone c r).ctx c).allowance := by
    have hone := entriesOf_join_length (m := s.monitor) (s.entryPlaced c d eye n)
    rw [show (s.entryPlaced c d eye n).ctx = c from rfl, hnone] at hone
    rw [hctx, hone]
    exact ha
  rw [chuteDeparture_eq hr hp ht hd, placeWindow_entry hr hp he hopen hnone ha hn, hfull]
  dsimp only
  rw [placeWindow_full (s := s) (u := (s.dischargeGone c r).mapMonitor fun q => q.join (s.entryPlaced c d eye n)) hfiring rfl
    hs hroom hm]
  exact if_pos hfiring

end Discharge

end Sys2Proof.Machine

/-! PROOFS. The scanner frame in RELAY (R32, R36, R43 to R46). -/

namespace Sys2Proof.Machine

open Sys2Proof

section Relay

variable (f : RingFrame) (s : State)

/-- The state in which a scanner frame is under way, its predecessor's return not yet looked for. -/
def State.relayOpened (s : State) (f : RingFrame) : State := openDeparture true f.seq (takeInterval s)

/-- The state that a scanner frame takes its outputs from. -/
def State.relayLeft (s : State) (f : RingFrame) : State := renewReturn (s.relayOpened f)

/-- The state that a scanner frame leaves. -/
def State.relayed (s : State) (f : RingFrame) : State := departFrame true f.count f.seq f.slots (takeInterval s)

/-- The frame that goes to the nodes. -/
def State.relayFrame (s : State) (f : RingFrame) : RingFrame := (s.relayLeft f).frameOut true f.count f.seq f.slots

/-- The state that reports the departures of a scanner frame. -/
def State.relayGone (s : State) (f : RingFrame) : State := (s.relayLeft f).frameGone true f.count f.seq f.slots

theorem exec_scannerFrame (hrole : s.ring.role = .relay) (hcrc : f.crc = f.properCrc) (hcount : f.count.toNat = s.ring.slots) :
    exec (.scannerFrame f) s = .next (s.relayed f) := by
  refine next_congr ?_
  have hgood : frameError (takeInterval s).ring.slots f true = none := by
    unfold frameError
    rw [if_neg (not_not.2 hcrc), if_neg (not_not.2 (show f.count.toNat = (takeInterval s).ring.slots from hcount))]
    rfl
  unfold scannerArrival
  rw [hrole]
  dsimp only
  rw [hgood]
  rfl

/-- The ring after a scanner frame, but for sources and stimuli. -/
theorem relayed_ring :
    { (s.relayed f).ring with sources := [], stimuli := [] } =
      { (s.relayOpened f).renewedRing with
        sources := [], stimuli := []
        returnDeadline := some (s.time + (s.relayOpened f).ring.nominal)
        applied := (s.relayLeft f).appliedAfter true f.slots
        nodeOut := some (s.relayFrame f) } :=
  departFrame_ring true f.count f.seq f.slots (takeInterval s)

theorem relayed_nominal : (s.relayed f).ring.nominal = (s.relayOpened f).ring.nominal := by
  have h := congrArg Ring.nominal (relayed_ring f s); exact h

/-- A ring that a return still pending has lost has no silence deadline (R36). -/
theorem renewed_silence :
    s.renewed.ring.silence =
      if s.ring.returnDeadline.isSome = true ∧ s.ring.state ≠ .lost ∧ 191 < min 255 (s.ring.errors + 8) then none
      else s.ring.silence := by
  unfold State.renewed
  by_cases hp : s.ring.returnDeadline.isSome = true
  · rw [if_pos hp]
    have h := congrArg (fun v : State => v.ring.silence) (ringErrorIsCounted .noReturn s).2.2.2
    refine Eq.trans h (if_congr ?_ rfl rfl)
    generalize min 255 (s.ring.errors + 8) = n
    constructor
    · rintro ⟨hstate, hnew⟩
      refine ⟨hp, hstate, ?_⟩
      rw [if_neg hstate] at hnew
      by_contra hn
      split at hnew
      · exact nomatch hnew
      · rw [if_pos (not_lt.1 hn)] at hnew
        exact nomatch hnew
    · rintro ⟨-, hstate, hn⟩
      refine ⟨hstate, ?_⟩
      rw [if_neg hstate, if_neg (by omega), if_neg (by omega)]
  · rw [if_neg hp, if_neg fun h => hp h.1]

theorem relayFrame_length : (s.relayFrame f).slots.length = f.slots.length := slotsOut_length true f.slots (s.relayLeft f)

theorem relayFrame_bit {n j : Nat} (hg : n < (s.relayFrame f).slots.length) (hf : n < f.slots.length) (hj : j < 16) :
    (s.relayFrame f).slots[n].out.getLsbD j =
      (departStimuli (s.relayLeft f)).sent (some (f.slots[n].out.getLsbD j)) (n * 16 + j) :=
  slotsOut_bit true f.slots (s.relayLeft f) hg hf hj

theorem relayFrame_input {n : Nat} (hg : n < (s.relayFrame f).slots.length) (hf : n < f.slots.length) :
    (s.relayFrame f).slots[n].inp = f.slots[n].inp := by
  have h := congrArg Slot.inp (slotsOut_get true f.slots (s.relayLeft f) hg hf)
  exact h

theorem appliedLevel_relayed (pt : Nat) :
    (s.relayed f).appliedLevel pt =
      match (s.relayFrame f).slots[pt / 16]? with
      | some w => w.out.getLsbD (pt % 16)
      | none => s.appliedLevel pt := appliedLevel_departFrame true f.count f.seq f.slots (takeInterval s) pt

/-- The level that a scanner frame leaves on a point of its slots. -/
theorem appliedLevel_relayed_sent {pt : Nat} {w : Slot} (hw : f.slots[pt / 16]? = some w) :
    (s.relayed f).appliedLevel pt = (departStimuli (s.relayLeft f)).sent (some (w.out.getLsbD (pt % 16))) pt := by
  obtain ⟨hf, rfl⟩ := List.getElem?_eq_some_iff.1 hw
  have hg : pt / 16 < (s.relayFrame f).slots.length := by rw [relayFrame_length]; exact hf
  rw [appliedLevel_relayed, List.getElem?_eq_getElem hg]
  dsimp only
  rw [relayFrame_bit f s hg hf (Nat.mod_lt _ (by decide)), Nat.div_add_mod']

theorem relayLeft_canonical (h : s.canonical = true) : (s.relayLeft f).canonical = true := by
  have hopen : (s.relayOpened f).Canonical :=
    canonical_stable.openDeparture true f.seq _ (canonical_stable.takeInterval s ((canonical_iff s).1 h))
  exact (canonical_iff (s.relayLeft f)).2 (canonical_stable.renewReturn _ hopen)

theorem relayLeft_time : (s.relayLeft f).time = s.time := renewed_time (s.relayOpened f)

theorem relayed_eq : s.relayed f =
    (s.relayLeft f).departing.foldl (fun s d => settle (reportDeparture d.1 d.2.1 d.2.2 s)) (s.relayGone f) :=
  departFrame_eq true f.count f.seq f.slots (takeInterval s)

theorem relayed_of_none (h : (s.relayLeft f).departing = []) : s.relayed f = s.relayGone f := by
  rw [relayed_eq, h]
  rfl

theorem relayed_of_one {d : Nat × Nat × StimChange} (h : (s.relayLeft f).departing = [d]) :
    s.relayed f = settle (reportDeparture d.1 d.2.1 d.2.2 (s.relayGone f)) := by
  rw [relayed_eq, h]
  rfl

variable {f s} {c pt : Nat}

theorem ctx_relayGone (e : Nat) : (s.relayGone f).ctx e = (s.relayLeft f).ctx e := ctx_frameGone true f.count f.seq f.slots _ e

theorem relayGone_time : (s.relayGone f).time = s.time :=
  (frameGone_frame true f.count f.seq f.slots (s.relayLeft f)).1.trans (relayLeft_time f s)

theorem relayGone_paid (h : (s.relayLeft f).engine.checkOwed = false) : (s.relayGone f).engine.checkOwed = false := by
  unfold State.relayGone
  rw [frameGone_engine]
  exact h

/-- The one departure of a scanner frame is ACTIVE of a drive trial in RAMP (R175). -/
theorem relayed_ramp {r : DriveTrial} {d : DriveDef} (h : (s.relayLeft f).departing = [(pt, c, .level .active)])
    (howed : (s.relayLeft f).engine.checkOwed = false) (hr : ((s.relayLeft f).ctx c).state = .running)
    (ht : ((s.relayLeft f).ctx c).trial = .drive r) (hd : (s.relayLeft f).driveDef ((s.relayLeft f).ctx c).element = some d)
    (hp : d.point ((s.relayLeft f).ctx c).reverse = pt) (hph : ((s.relayLeft f).ctx c).phase = .ramp) :
    s.relayed f = (s.relayGone f).setCtx c
      { (s.relayLeft f).ctx c with trial := .drive { r with
        stim := .departed, phaseStart := s.time, phaseDeadline := some (s.time + d.accel * 1000) } } := by
  have hd' : (s.relayGone f).driveDef ((s.relayGone f).ctx c).element = some d := by
    rw [ctx_relayGone]
    exact (driveDef_frameGone true f.count f.seq f.slots _ _).trans hd
  rw [relayed_of_one f s h]
  dsimp only
  rw [reportDeparture_drive (s := s.relayGone f) (by rw [ctx_relayGone, hr]) hd' (by rw [ctx_relayGone]; exact hp),
    driveDeparture_ramp (s := s.relayGone f) (by rw [ctx_relayGone, ht]) hd' (by rw [ctx_relayGone, hph]), ctx_relayGone,
    relayGone_time]
  exact settle_eq _ (relayGone_paid howed)

/-- The one departure of a scanner frame is INACTIVE of a drive trial in STOP (R177). -/
theorem relayed_stop {r : DriveTrial} {d : DriveDef} (h : (s.relayLeft f).departing = [(pt, c, .level .inactive)])
    (howed : (s.relayLeft f).engine.checkOwed = false) (hr : ((s.relayLeft f).ctx c).state = .running)
    (ht : ((s.relayLeft f).ctx c).trial = .drive r) (hd : (s.relayLeft f).driveDef ((s.relayLeft f).ctx c).element = some d)
    (hp : d.point ((s.relayLeft f).ctx c).reverse = pt) (hph : ((s.relayLeft f).ctx c).phase = .stop) :
    s.relayed f = (s.relayGone f).setCtx c
      { (s.relayLeft f).ctx c with trial := .drive { r with
        stim := .departed, phaseStart := s.time, phaseDeadline := some (s.time + d.stop * 1000)
        quietStart := some s.time } } := by
  have hd' : (s.relayGone f).driveDef ((s.relayGone f).ctx c).element = some d := by
    rw [ctx_relayGone]
    exact (driveDef_frameGone true f.count f.seq f.slots _ _).trans hd
  rw [relayed_of_one f s h]
  dsimp only
  rw [reportDeparture_drive (s := s.relayGone f) (by rw [ctx_relayGone, hr]) hd' (by rw [ctx_relayGone]; exact hp),
    driveDeparture_stop (s := s.relayGone f) (by rw [ctx_relayGone, ht]) hd' (by rw [ctx_relayGone, hph]), ctx_relayGone,
    relayGone_time]
  exact settle_eq _ (relayGone_paid howed)

theorem stimulus_relayGone_level (hcan : s.canonical = true) {v : StimValue}
    (h : (s.relayLeft f).departing = [(pt, c, .level v)]) :
    (s.relayGone f).stimulus pt = some { value := v, awaited := none, pulseEnd := none } :=
  stimulus_frameGone_level true f.count f.seq f.slots (relayLeft_canonical f s hcan) (by rw [h]; exact List.mem_singleton_self _)

/-- The one departure of a scanner frame is INACTIVE on a point of a settle set (R107). -/
theorem relayed_settling (h : (s.relayLeft f).departing = [(pt, c, .level .inactive)])
    (howed : (s.relayLeft f).engine.checkOwed = false) (hc : ((s.relayLeft f).ctx c).state = .closing)
    (hp : pt ∈ ((s.relayLeft f).ctx c).settle) :
    s.relayed f =
      if ((s.relayLeft f).ctx c).settle.filter (fun q => decide (q ≠ pt)) = [] then
        settle (secondPart c ((s.relayGone f).unsettled c pt))
      else (s.relayGone f).unsettled c pt := by
  rw [relayed_of_one f s h]
  dsimp only
  rw [reportDeparture_settling (s := s.relayGone f) (by rw [ctx_relayGone, hc]) (by rw [ctx_relayGone]; exact hp)]
  simp only [List.isEmpty_iff, ctx_relayGone]
  split
  · rfl
  · exact settle_eq _ (relayGone_paid howed)

end Relay

end Sys2Proof.Machine

/-! PROOFS. The scanner frame in RELAY: the discharge that departs with it, and the whole row (R32, R45, R149, R150). -/

namespace Sys2Proof.Machine

open Sys2Proof

section Pulse

variable {s : State} {c : Nat} {r : ChuteTrial}

/-- The state of a discharge that has departed, with its windows placed by `m`. -/
def State.observing (s : State) (c : Nat) (r : ChuteTrial) (m : Monitor) : State :=
  ({ s.dischargeGone c r with monitor := m }).mapCtx c fun y => { y with phase := .observing }

theorem observing_one (x : Entry) :
    ((s.dischargeGone c r).mapMonitor fun m => m.join x).mapCtx c (fun y => { y with phase := .observing })
      = s.observing c r (s.monitor.join x) := rfl

theorem observing_two (x z : Entry) :
    (((s.dischargeGone c r).mapMonitor fun m => m.join x).mapMonitor fun m => m.join z).mapCtx c
        (fun y => { y with phase := .observing })
      = s.observing c r ((s.monitor.join x).join z) := rfl

theorem ctx_observing (m : Monitor) (e : Nat) :
    (s.observing c r m).ctx e =
      if e = c then { (s.ctx c).discharged r s.time with phase := .observing } else s.ctx e := by
  have h := ctx_mapCtx c { s.dischargeGone c r with monitor := m } (fun y => { y with phase := .observing }) e
  refine h.trans ?_
  have hgone : ∀ k, ({ s.dischargeGone c r with monitor := m } : State).ctx k = (s.dischargeGone c r).ctx k := fun _ => rfl
  rw [hgone, hgone, ctx_dischargeGone, ctx_dischargeGone, if_pos rfl]
  split <;> rfl

theorem stimulus_observing (m : Monitor) (pt : Nat) : (s.observing c r m).stimulus pt = s.stimulus pt := rfl

theorem monitor_observing (m : Monitor) : (s.observing c r m).monitor = m := rfl

theorem settle_observing (h : s.engine.checkOwed = false) (m : Monitor) :
    settle (s.observing c r m) = s.observing c r m := settle_eq _ h

theorem carrier_observing (m : Monitor) (k : Nat) :
    (s.observing c r m).carrier k = if k = r.carrier then .suspect else s.carrier k := by
  have h := Table.get_set .free s.engine.carriers r.carrier k .suspect
  exact h

variable {f : RingFrame} {pt w : Nat} {d : ChuteDef} {eye : SensorDef}

theorem stimulus_relayGone_pulse (hcan : s.canonical = true) (h : (s.relayLeft f).departing = [(pt, c, .pulse w)]) :
    (s.relayGone f).stimulus pt = some { value := .active, awaited := none, pulseEnd := some (s.time + w * 1000) } := by
  rw [← relayLeft_time f s]
  exact stimulus_frameGone_pulse true f.count f.seq f.slots (relayLeft_canonical f s hcan)
    (by rw [h]; exact List.mem_singleton_self _)

theorem carrier_relayGone (k : Nat) : (s.relayGone f).carrier k = (s.relayLeft f).carrier k :=
  carrier_frameGone true f.count f.seq f.slots _ k

theorem relayed_discharge (h : (s.relayLeft f).departing = [(pt, c, .pulse w)])
    (hr : ((s.relayLeft f).ctx c).state = .running) :
    s.relayed f = settle (chuteDeparture c (s.relayGone f)) := by
  rw [relayed_of_one f s h]
  dsimp only
  unfold reportDeparture
  dsimp only
  rw [ctx_relayGone, hr]

/-- The one departure of a scanner frame is the pulse of a discharge (R149, R150). -/
theorem relayed_pulse (h : (s.relayLeft f).departing = [(pt, c, .pulse w)])
    (howed : (s.relayLeft f).engine.checkOwed = false) (hr : ((s.relayLeft f).ctx c).state = .running)
    (hp : ((s.relayLeft f).ctx c).phase = .firing) (ht : ((s.relayLeft f).ctx c).trial = .chute r)
    (hd : (s.relayLeft f).chuteDef ((s.relayLeft f).ctx c).element = some d)
    (he : (s.relayLeft f).sensorDef d.entryEye = some eye) (hopen : 0 < d.winOpen)
    (hnone : (s.relayLeft f).monitor.entriesOf c = []) (ha : 2 ≤ ((s.relayLeft f).ctx c).allowance) {n : Nat}
    (hn : (s.relayLeft f).monitor.lowestFree = some n) :
    (d.fullEye.bind (s.relayLeft f).sensorDef = none →
        s.relayed f = (s.relayGone f).observing c r ((s.relayLeft f).monitor.join (s.entryPlaced c d eye n)))
      ∧ ∀ i second m, d.fullEye = some i → (s.relayLeft f).sensorDef i = some second →
        ((s.relayLeft f).monitor.join (s.entryPlaced c d eye n)).lowestFree = some m →
        s.relayed f = (s.relayGone f).observing c r
          (((s.relayLeft f).monitor.join (s.entryPlaced c d eye n)).join (s.fullPlaced c d second m)) := by
  have hmonitor : (s.relayGone f).monitor = (s.relayLeft f).monitor :=
    (frameGone_frame true f.count f.seq f.slots (s.relayLeft f)).2
  have hentry : (s.relayGone f).entryPlaced c d eye n = s.entryPlaced c d eye n := by
    unfold State.entryPlaced
    rw [relayGone_time]
  have hpaid : ∀ m, settle ((s.relayGone f).observing c r m) = (s.relayGone f).observing c r m := 
    settle_observing (relayGone_paid howed)
  have hchute : (s.relayGone f).chuteDef ((s.relayGone f).ctx c).element = some d := by
    rw [ctx_relayGone]
    exact (chuteDef_frameGone true f.count f.seq f.slots _ _).trans hd
  have hsensor : ∀ i, (s.relayGone f).sensorDef i = (s.relayLeft f).sensorDef i :=
    sensorDef_frameGone true f.count f.seq f.slots _
  refine ⟨fun hfull => ?_, fun i second m hfull hs hm => ?_⟩
  · rw [relayed_discharge h hr, chuteDeparture_entry (s := s.relayGone f) (n := n) (eye := eye) (by rw [ctx_relayGone, hr])
      (by rw [ctx_relayGone, hp]) (by rw [ctx_relayGone, ht]) hchute (by rw [hsensor, he]) hopen (by rw [hmonitor, hnone])
      (by rw [ctx_relayGone]; exact ha) (by rw [hmonitor, hn])
      (by rw [show (s.relayGone f).sensorDef = (s.relayLeft f).sensorDef from funext hsensor]; exact hfull), observing_one, hpaid, hmonitor, hentry]
  · have hfullPlaced : (s.relayGone f).fullPlaced c d second m = s.fullPlaced c d second m := by
      unfold State.fullPlaced
      rw [relayGone_time]
    rw [relayed_discharge h hr, chuteDeparture_full (s := s.relayGone f) (n := n) (m := m) (eye := eye) (second := second)
      (by rw [ctx_relayGone, hr]) (by rw [ctx_relayGone, hp]) (by rw [ctx_relayGone, ht]) hchute (by rw [hsensor, he]) hopen
      (by rw [hmonitor, hnone]) (by rw [ctx_relayGone]; exact ha) (by rw [hmonitor, hn]) hfull (by rw [hsensor, hs])
      (by rw [hmonitor, hentry, hm]), observing_two, hpaid, hmonitor, hentry, hfullPlaced]

end Pulse

end Sys2Proof.Machine

/-! PROOFS. The scanner frame settled: the ring, the bits and what the one departing stimulus brings (R32, R44, R45). -/

namespace Sys2Proof.Machine

open Sys2Proof

section Clauses

variable {f : RingFrame} {s : State}

/-- The suppressed commands of a scanner frame in which nothing departs (R44). -/
theorem relayed_suppressed (hcan : s.canonical = true) (h : (s.relayLeft f).departing = []) (i : Nat) :
    let u := s.relayLeft f
    let suppressed := ∃ pt w, f.slots[pt / 16]? = some w ∧ u.source pt ≠ .pass
      ∧ u.ownerOf pt = some i ∧ w.out.getLsbD (pt % 16) = u.pointHigh pt
      ∧ (s.relayed f).appliedLevel pt ≠ u.pointHigh pt
    (suppressed →
      (s.relayed f).elem i = { u.elem i with suppressed := min 65535 ((u.elem i).suppressed + 1) })
      ∧ (¬ suppressed → (s.relayed f).elem i = u.elem i) := by
  intro u suppressed
  obtain ⟨hyes, hno⟩ := elem_frameGone_relay f.count f.seq f.slots (relayLeft_canonical f s hcan) i
  have hiff : suppressed ↔ u.suppresses f.slots i := by
    refine exists_congr fun pt => exists_congr fun w => and_congr_right fun hw => ?_
    rw [appliedLevel_relayed_sent f s hw]
  rw [relayed_of_none f s h]
  exact ⟨fun hs => hyes (hiff.1 hs), fun hs => hno fun hu => hs (hiff.2 hu)⟩

theorem ctx_unsettled (v : State) (c pt e : Nat) :
    (v.unsettled c pt).ctx e =
      if e = c then { v.ctx c with settle := (v.ctx c).settle.filter fun q => decide (q ≠ pt) } else v.ctx e :=
  ctx_setCtx v c e _

/-- A settling point that departs: the settle set without it, or the proof's claim released (R107, R108). -/
theorem relayed_settling_outcome {pt c : Nat} (h : (s.relayLeft f).departing = [(pt, c, .level .inactive)])
    (howed : (s.relayLeft f).engine.checkOwed = false) (hc : ((s.relayLeft f).ctx c).state = .closing)
    (hp : pt ∈ ((s.relayLeft f).ctx c).settle) :
    let u := s.relayLeft f
    let t := s.relayed f
    let rest := (u.ctx c).settle.filter fun q => decide (q ≠ pt)
    (rest ≠ [] → t.ctx c = { u.ctx c with settle := rest })
      ∧ (rest = [] → (∀ c' < 16, (u.ctx c').state ≠ .paused) →
        (t.ctx c).state = .free ∧ (∀ m ∈ (u.ctx c).claim, (t.elem m.1).holder = .none)
          ∧ ∀ k ∈ (u.ctx c).articles, t.carrier k = .free)
      ∧ ((∀ c' < 16, (u.ctx c').state ≠ .paused) → ∀ c', c' ≠ c → t.ctx c' = u.ctx c') := by
  intro u t rest
  have hrun : t = _ := relayed_settling h howed hc hp
  have hself : ((s.relayGone f).unsettled c pt).ctx c = { u.ctx c with settle := rest } := by
    rw [ctx_unsettled, if_pos rfl, ctx_relayGone]
  have hother : ∀ c', c' ≠ c → ((s.relayGone f).unsettled c pt).ctx c' = u.ctx c' := fun c' hne => by
    rw [ctx_unsettled, if_neg hne, ctx_relayGone]
  have hidle : (∀ c' < 16, (u.ctx c').state ≠ .paused) →
      ∀ c' < 16, (((s.relayGone f).unsettled c pt).ctx c').state ≠ .paused := fun hidle c' hlt => by
    by_cases hne : c' = c
    · rw [hne, hself]
      show (u.ctx c).state ≠ .paused
      rw [hc]
      exact nofun
    · rw [hother c' hne]
      exact hidle c' hlt
  refine ⟨fun hrest => ?_, fun hrest hpaused => ?_, fun hpaused c' hne => ?_⟩
  · rw [hrun, if_neg hrest, hself]
  · have hclosed : t = ((s.relayGone f).unsettled c pt).closed c := by
      rw [hrun, if_pos hrest, settle_secondPart (hidle hpaused)]
    rw [hclosed]
    refine ⟨by rw [ctx_closed, if_pos rfl], fun m hm => ?_, fun k hk => ?_⟩
    · exact holder_closed (by rw [hself]; exact hm)
    · rw [closed_carrier, hself]
      exact if_pos hk
  · rw [hrun]
    split
    · rw [settle_secondPart (hidle hpaused), ctx_closed, if_neg hne, hother c' hne]
    · exact hother c' hne

/-- The pulse of a discharge departs: the trial, its carrier and its windows (R149, R150). -/
theorem relayed_pulse_outcome {pt c w : Nat} {r : ChuteTrial} {d : ChuteDef} {eye : SensorDef} (hcan : s.canonical = true)
    (h : (s.relayLeft f).departing = [(pt, c, .pulse w)])
    (howed : (s.relayLeft f).engine.checkOwed = false) (hr : ((s.relayLeft f).ctx c).state = .running)
    (hp : ((s.relayLeft f).ctx c).phase = .firing) (ht : ((s.relayLeft f).ctx c).trial = .chute r)
    (hd : (s.relayLeft f).chuteDef ((s.relayLeft f).ctx c).element = some d)
    (he : (s.relayLeft f).sensorDef d.entryEye = some eye) (hopen : 0 < d.winOpen)
    (hnone : (s.relayLeft f).monitor.entriesOf c = []) (ha : 2 ≤ ((s.relayLeft f).ctx c).allowance)
    (hfree : ∃ a b : Nat, a < b ∧ b < 24 ∧ a ∉ (s.relayLeft f).monitor.used ∧ b ∉ (s.relayLeft f).monitor.used) :
    let u := s.relayLeft f
    let t := s.relayed f
    t.stimulus pt = some { value := .active, awaited := none, pulseEnd := some (s.time + w * 1000) }
      ∧ t.ctx c = { (u.ctx c).discharged r s.time with phase := .observing }
      ∧ (∀ c', c' ≠ c → t.ctx c' = u.ctx c')
      ∧ (∀ k, t.carrier k = if k = r.carrier then .suspect else u.carrier k)
      ∧ (d.fullEye = none → ∃ n, n < 24 ∧ n ∉ u.monitor.used ∧ t.monitor = u.monitor.join (s.entryPlaced c d eye n))
      ∧ ∀ i second, d.fullEye = some i → u.sensorDef i = some second →
        ∃ n m, n < 24 ∧ m < 24 ∧ n ≠ m ∧ n ∉ u.monitor.used ∧ m ∉ u.monitor.used
          ∧ t.monitor = (u.monitor.join (s.entryPlaced c d eye n)).join (s.fullPlaced c d second m) := by
  intro u t
  obtain ⟨a, b, hab, hb, hafree, hbfree⟩ := hfree
  obtain ⟨n, hn, hlt, hnot⟩ := lowestFree_of_free (Nat.lt_trans hab hb) hafree
  obtain ⟨hentry, hboth⟩ := relayed_pulse h howed hr hp ht hd he hopen hnone ha hn
  have hsecond : ∃ m, (u.monitor.join (s.entryPlaced c d eye n)).lowestFree = some m ∧ m < 24
      ∧ m ∉ (u.monitor.join (s.entryPlaced c d eye n)).used := by
    by_cases han : a = n
    · refine lowestFree_of_free hb fun hm => ?_
      rcases (mem_used_join _ b).1 hm with hbn | hm
      · exact absurd (han.trans hbn.symm) (Nat.ne_of_lt hab)
      · exact hbfree hm
    · refine lowestFree_of_free (Nat.lt_trans hab hb) fun hm => ?_
      rcases (mem_used_join _ a).1 hm with han' | hm
      · exact han han'
      · exact hafree hm
  have hplaced : ∀ m, t = (s.relayGone f).observing c r m →
      t.stimulus pt = some { value := .active, awaited := none, pulseEnd := some (s.time + w * 1000) }
        ∧ t.ctx c = { (u.ctx c).discharged r s.time with phase := .observing }
        ∧ (∀ c', c' ≠ c → t.ctx c' = u.ctx c')
        ∧ ∀ k, t.carrier k = if k = r.carrier then .suspect else u.carrier k := fun m hm => by
    refine ⟨?_, ?_, fun c' hne => ?_, fun k => ?_⟩ <;> rw [hm]
    · rw [stimulus_observing, stimulus_relayGone_pulse hcan h]
    · rw [ctx_observing, if_pos rfl, ctx_relayGone, relayGone_time]
    · rw [ctx_observing, if_neg hne, ctx_relayGone]
    · rw [carrier_observing, carrier_relayGone]
  have hmonitor : ∀ m, t = (s.relayGone f).observing c r m → t.monitor = m := fun m hm => by rw [hm, monitor_observing]
  obtain ⟨m, hm, hmlt, hmnot⟩ := hsecond
  have hmn : m ≠ n := fun e => hmnot ((mem_used_join _ m).2 (.inl e))
  have hmfree : m ∉ u.monitor.used := fun e => hmnot ((mem_used_join _ m).2 (.inr e))
  have hany : ∃ q, t = (s.relayGone f).observing c r q := by
    cases hfull : d.fullEye.bind u.sensorDef with
    | none => exact ⟨_, hentry hfull⟩
    | some second =>
      obtain ⟨i, hi, hs⟩ := Option.bind_eq_some_iff.1 hfull
      exact ⟨_, hboth i second m hi hs hm⟩
  obtain ⟨q, hq⟩ := hany
  obtain ⟨hstimulus, hself, hother, hcarrier⟩ := hplaced q hq
  refine ⟨hstimulus, hself, hother, hcarrier, fun hfull => ?_, fun i second hfull hs => ?_⟩
  · exact ⟨n, hlt, hnot, hmonitor _ (hentry (by rw [hfull]; rfl))⟩
  · exact ⟨n, m, hlt, hmlt, hmn.symm, hnot, hmfree, hmonitor _ (hboth i second m hfull hs hm)⟩

end Clauses

/-- Settles O37: the ring by `relayed_ring`, the bits by `relayFrame_bit`, the departures by the `relayed_` lemmas. -/
theorem scannerFramePasses : Obligations.ScannerFramePasses := by
  unfold Obligations.ScannerFramePasses
  refine fun f s => ⟨fun hrole => next_congr ?_, fun hrole hcrc hcount hlength hcan => ?_⟩
  · unfold scannerArrival
    rw [hrole]
  intro pending opened u lost
  have hring := relayed_ring f s
  have hnominal := relayed_nominal f s
  have hquiet : ¬ pending → (s.relayed f).ring.state = s.ring.state
      ∧ ∀ pt, u.source pt = s.source pt ∧ u.stimulus pt = s.stimulus pt := fun hp => by
    have hstate := congrArg Ring.state hring
    have hu : u = opened := if_neg hp
    refine ⟨hstate.trans ?_, fun pt => ?_⟩
    · show (s.relayOpened f).renewed.ring.state = s.ring.state
      rw [renewed_of_none (s.relayOpened f) (Option.not_isSome_iff_eq_none.1 hp)]
      rfl
    · rw [hu]
      exact ⟨rfl, rfl⟩
  have hu : (s.relayOpened f).renewed = u := rfl
  have hstate : (s.relayed f).ring.state = u.ring.state := by have h := congrArg Ring.state hring; exact h
  have hleft : s.relayLeft f = u.mapRing fun g => { g with returnDeadline := some (u.time + g.nominal) } := rfl
  clear_value u
  refine ⟨s.relayed f, s.relayFrame f, exec_scannerFrame f s hrole hcrc hcount, ?frame, rfl, rfl, frameOut_crc _ _ _ _ _,
    relayFrame_length f s, fun n hg hf => ⟨relayFrame_input f s hg hf, fun j hj hp => ?pass, fun j hj hh => ?hold,
      fun j hj c r ht hr => ?test⟩, appliedLevel_relayed f s, ?lastSeq, ?silence, ?deadline, ?errors, ?run, ?total, hstate,
    hquiet, ?image, departFrame_tracker true f.count f.seq f.slots (takeInterval s), fun h => ?suppressed,
    fun pt c v h howed => ⟨fun r d hr ht hd hp => ?drive, fun hv hc hp => ?settling⟩,
    fun pt c w r d eye h howed hr hph ht hd he hopen hnone ha hfree => ?pulse⟩
  case frame => have h := congrArg Ring.nodeOut hring; exact h
  case pass => exact (relayFrame_bit f s hg hf hj).trans (sent_departing_pass (by rw [hleft]; exact hp) _)
  case hold =>
    refine (relayFrame_bit f s hg hf hj).trans ((sent_departing_hold (by rw [hleft]; exact hh) _).trans ?_)
    rw [hleft]
    rfl
  case test =>
    rw [relayFrame_bit f s hg hf hj, sent_departing_test (relayLeft_canonical f s hcan) (by rw [hleft]; exact ht)
      (by rw [hleft]; exact hr), relayLeft_time, hleft]
    rfl
  case lastSeq => have h := congrArg Ring.lastSeq hring; exact h
  case silence =>
    have h := congrArg Ring.silence hring
    rw [hnominal]
    exact Eq.trans h (renewed_silence (s.relayOpened f))
  case deadline =>
    have h := congrArg Ring.returnDeadline hring
    rw [hnominal]
    exact h
  case errors => have h := congrArg Ring.errors hring; exact h
  case run => have h := congrArg Ring.goodRun hring; exact h
  case total => have h := congrArg Ring.totalNoReturn hring; exact h
  case image => have h := congrArg Ring.image hring; exact h
  case suppressed =>
    have hs := relayed_suppressed (f := f) hcan (by rw [hleft]; exact h)
    rw [hleft] at hs
    exact hs
  case drive =>
    have hramp := relayed_ramp (f := f) (s := s) (pt := pt) (c := c) (r := r) (d := d)
    have hstop := relayed_stop (f := f) (s := s) (pt := pt) (c := c) (r := r) (d := d)
    have hlevel := stimulus_relayGone_level (f := f) (s := s) (pt := pt) (c := c) hcan (v := v)
    have hctx := ctx_relayGone (f := f) (s := s)
    rw [hleft] at hramp hstop hlevel hctx
    intro left
    refine ⟨fun hv hph => ?_, fun hv hph => ?_⟩ <;> subst hv
    · have hrun := hramp h howed hr ht hd hp hph
      refine ⟨?_, ?_, fun c' hne => ?_⟩ <;> rw [hrun]
      · exact hlevel h
      · exact ctx_setCtx_self _ c _
      · exact (ctx_setCtx_ne _ _ hne).trans (hctx c')
    · have hrun := hstop h howed hr ht hd hp hph
      refine ⟨?_, ?_, fun c' hne => ?_⟩ <;> rw [hrun]
      · exact hlevel h
      · exact ctx_setCtx_self _ c _
      · exact (ctx_setCtx_ne _ _ hne).trans (hctx c')
  case settling =>
    subst hv
    have hsettling := relayed_settling_outcome (f := f) (s := s) (pt := pt) (c := c)
    rw [hleft] at hsettling
    exact hsettling h howed hc hp
  case pulse =>
    intro entry full
    have hpulse := relayed_pulse_outcome (f := f) (s := s) (pt := pt) (c := c) (w := w) (r := r) (d := d) (eye := eye) hcan
    rw [hleft] at hpulse
    exact hpulse h howed hr hph ht hd he hopen hnone ha hfree

end Sys2Proof.Machine

/-! PROOFS. The pacing history where no context proves a chute: no outcome, verdict, start or check touches it
(R111, R122). -/

namespace Sys2Proof.Machine

open Sys2Proof

/-- No context proves a chute, and the pacing history is `l`. -/
def State.unpaced (l : List Int) (s : State) : Prop := s.sched.history = l ∧ ∀ c, (s.ctx c).kind ≠ .chute

section Unpaced

variable {l : List Int} {s : State}

/-- A change of contexts under which each keeps its kind, or has none any more. -/
theorem State.unpaced.of_kinds {t : State} (h : s.unpaced l) (hs : t.sched.history = s.sched.history)
    (hc : ∀ e, (t.ctx e).kind = (s.ctx e).kind ∨ (t.ctx e).kind = .none) : t.unpaced l := by
  refine ⟨hs.trans h.1, fun e => ?_⟩
  rcases hc e with hk | hk <;> rw [hk]
  · exact h.2 e
  · exact nofun

theorem State.unpaced.setCtx (h : s.unpaced l) {c : Nat} {x : Context} (hk : x.kind = (s.ctx c).kind) :
    (s.setCtx c x).unpaced l :=
  h.of_kinds rfl fun e => .inl (by
    rw [ctx_setCtx]
    split
    · rename_i he; rw [hk, he]
    · rfl)

theorem State.unpaced.mapMonitor (h : s.unpaced l) (f : Monitor → Monitor) : (s.mapMonitor f).unpaced l := h

/-! ### Outcomes -/

theorem kind_counted (c : Nat) (o : TrialOutcome) (d : Option Int) : (s.counted c o d).kind = (s.ctx c).kind := by
  rw [counted_eq, countOutcome_eq]

theorem kind_trialOver (c : Nat) : ((s.trialOver c).ctx c).kind = (s.ctx c).kind := by
  unfold State.trialOver
  split
  · rw [(sameButStimuli_cancelAwaited c s).ctx]
  · rw [ctx_endTrial, if_pos rfl]
    unfold endedContext
    rw [rotate_eq]

theorem kind_enterClosing (c : Nat) (r : ProofResult) (cause : EndCause) :
    ((enterClosing c r cause s).ctx c).kind = (s.ctx c).kind ∨ ((enterClosing c r cause s).ctx c).kind = .none := by
  rw [enterClosing_eq]
  split
  · exact .inr (by rw [ctx_secondPart, if_pos rfl])
  · exact .inl (by rw [ctx_closingAt_self]; exact kind_trialOver c)

theorem kind_takeOutcome (c : Nat) (o : TrialOutcome) (d : Option Int) (e : Nat) :
    ((takeOutcome c o d s).ctx e).kind = (s.ctx e).kind ∨ ((takeOutcome c o d s).ctx e).kind = .none := by
  by_cases he : e = c
  · subst he
    by_cases hr : (s.ctx e).state = .running
    · cases hd : decideProof (countOutcome (s.ctx e) o d) o with
      | none => exact .inl (by rw [ctx_takeOutcome_goesOn s e o d hr hd]; exact kind_counted e o d)
      | some rc =>
        have hk := kind_enterClosing (s := s.outcomeTaken e o d) e rc.1 rc.2
        rw [takeOutcome_of_ends e o d s (r := rc.1) (cause := rc.2) hr hd]
        rwa [ctx_outcomeTaken, if_pos rfl, kind_counted] at hk
    · exact .inl (by rw [show takeOutcome e o d s = s from if_pos hr])
  · exact .inl (by rw [ctx_takeOutcome_ne s c o d he])

theorem State.unpaced.takeOutcome (h : s.unpaced l) (c : Nat) (o : TrialOutcome) (d : Option Int) :
    (takeOutcome c o d s).unpaced l := h.of_kinds (takeOutcome_history s c o d) (kind_takeOutcome c o d)

theorem State.unpaced.voidAll (h : s.unpaced l) (sel : Context → Bool) (cause : VoidCause) : (voidAll sel cause s).unpaced l := by
  refine foldl_keeps (P := State.unpaced l) (fun u c hu => ?_) _ s h
  exact hu.takeOutcome c _ _

/-! ### Verdicts and windows -/

theorem State.unpaced.reportMet (h : s.unpaced l) (c : Nat) (role : Role) (dev : Int) (prior : Option (Role × Int)) :
    (reportMet c role dev prior s).unpaced l := by
  unfold Machine.reportMet
  split
  · dsimp only
    split
    · refine State.unpaced.takeOutcome ?_ _ _ _
      exact State.unpaced.setCtx h rfl
    · exact State.unpaced.setCtx h rfl
  · refine State.unpaced.takeOutcome ?_ _ _ _
    exact State.unpaced.setCtx h rfl
  · exact h

theorem State.unpaced.applyVerdict {again : Nat → State → State} (ha : ∀ n u, State.unpaced l u → (again n u).unpaced l)
    (h : s.unpaced l) (e : Entry) (v : Verdict) : (applyVerdict again e v s).unpaced l := by
  cases v with
  | failing f => exact h.takeOutcome _ _ _
  | met dev time travel =>
    unfold Machine.applyVerdict
    dsimp only
    split
    · exact ha _ _ (h.mapMonitor _)
    · exact (h.mapMonitor _).reportMet _ _ _ _

theorem State.unpaced.examineWith {again : Nat → State → State} (ha : ∀ n u, State.unpaced l u → (again n u).unpaced l)
    (h : s.unpaced l) (n : Nat) : (examineWith again n s).unpaced l := by
  unfold Machine.examineWith
  split
  · exact h
  · dsimp only
    split
    · exact (h.mapMonitor _).applyVerdict ha _ _
    · exact h.mapMonitor _

theorem State.unpaced.examine (h : s.unpaced l) (n : Nat) : (examine n s).unpaced l :=
  h.examineWith (fun n _ hu => hu.examineWith (fun _ _ hv => hv) n) n

theorem State.unpaced.insertEntry (h : s.unpaced l) (e : Entry) : (insertEntry e s).unpaced l := by
  unfold Machine.insertEntry
  dsimp only
  split
  · split
    · exact (h.mapMonitor _).examine _
    · exact h
  · exact h

/-! ### Starts and checks -/

theorem State.unpaced.startSensor (h : s.unpaced l) (c : Nat) : (startSensor c s).unpaced l := by
  unfold Machine.startSensor
  dsimp only
  split
  · exact h
  · refine State.unpaced.insertEntry ?_ _
    exact State.unpaced.setCtx h rfl

theorem State.unpaced.startDrive (h : s.unpaced l) (c : Nat) : (startDrive c s).unpaced l := by
  unfold Machine.startDrive
  dsimp only
  split
  · exact h
  · have hasked : ∀ {u : State} (pts : List Nat), u.unpaced l → (askInactive c pts u).1.unpaced l := fun {u} pts hu => by
      have hsame := sameButStimuli_askInactive c pts u
      exact ⟨by rw [hsame.sched]; exact hu.1, fun e => by rw [hsame.ctx]; exact hu.2 e⟩
    refine hasked _ ?_
    unfold joinScan
    split
    · exact State.unpaced.setCtx h rfl
    · exact State.unpaced.setCtx h rfl

/-- Without a chute to prove, a trial that starts takes no aim. -/
theorem State.unpaced.startTrial (h : s.unpaced l) (c : Nat) : (startTrial c s).unpaced l := by
  unfold Machine.startTrial
  split
  · rename_i hk; exact absurd hk (h.2 c)
  · exact h.startSensor c
  · exact h.startDrive c
  · exact h

theorem State.unpaced.examineCtx (h : s.unpaced l) (c : Nat) : (examineCtx c s).unpaced l := by
  unfold Machine.examineCtx
  dsimp only
  split
  · split
    · exact h.setCtx rfl
    · exact h.startTrial c
  · exact h

theorem State.unpaced.checkPass (h : s.unpaced l) : (checkPass s).unpaced l := by
  refine foldl_keeps (P := State.unpaced l) (fun u c hu => ?_) _ s.payCheck h
  split
  · exact hu
  · exact hu.examineCtx c

theorem State.unpaced.checkLoop (n : Nat) : ∀ {s : State}, s.unpaced l → (checkLoop n s).unpaced l := by
  induction n with
  | zero => exact fun h => h
  | succ n ih =>
    intro s h
    unfold Machine.checkLoop
    dsimp only
    split
    · exact ih h.checkPass
    · exact h.checkPass

theorem State.unpaced.check (h : s.unpaced l) : (check s).unpaced l := h.checkLoop 2000

theorem State.unpaced.settle (h : s.unpaced l) : (settle s).unpaced l := by
  unfold Machine.settle
  split
  · exact h.check
  · exact h

/-! ### The reports of the tracker -/

theorem State.unpaced.updateMoving (h : s.unpaced l) : (updateMoving s).unpaced l := by
  unfold Machine.updateMoving
  dsimp only
  split
  · exact h
  · exact State.unpaced.check h

theorem State.unpaced.reportTrack (h : s.unpaced l) : (reportTrack s).unpaced l := by
  unfold Machine.reportTrack
  dsimp only
  split
  · exact (State.unpaced.voidAll (s := s.mapEngine fun e => { e with track := s.tracker.state }) h _ _).check
  · exact State.unpaced.check (s := s.mapEngine fun e => { e with track := s.tracker.state }) h

/-- The report of a geometry leaves the pacing history empty (R111). -/
theorem State.unpaced.reportGeometry (h : s.unpaced l) : (reportGeometry s).unpaced [] :=
  State.unpaced.settle (State.unpaced.voidAll (s := s.mapSched fun q => { q with history := [] }) ⟨rfl, h.2⟩ _ _)

end Unpaced

end Sys2Proof.Machine

/-! PROOFS. Home pulses: the entry to TRACKING, and a staged set that is applied or discarded (R16, R17, R10, R104,
R111). -/

namespace Sys2Proof.Machine

open Sys2Proof

section Homes

variable {s u : State} {g : Geometry}

/-- The state in which a home pulse is taken. -/
def State.pulsed (s : State) : State := s.mapTracker fun t => { t with illegal := 0 }

/-- A home pulse with b at 0 is taken. -/
theorem exec_homePulse (hb : s.tracker.backlash = 0) : exec .homePulse s = .next (takeHome s) := 
  next_congr (if_neg (by rw [hb]; exact Nat.lt_irrefl 0))

/-- The tracker with a staged set active at a home pulse (R17). -/
def Tracker.rehome (g : Geometry) (t : Tracker) : Tracker :=
  { t with active := g, staged := none, backlash := min t.backlash g.revAllow, history := [], pos := g.home.getD 0 }

theorem applyStagedGeometry_eq (g : Geometry) (s : State) :
    applyStagedGeometry g s = noticeTrack .applied (reportGeometry (updateMoving (s.mapTracker (·.rehome g)))) := rfl

theorem steadyPart_applyStagedGeometry :
    (applyStagedGeometry g s).steadyPart = State.steadyPart
      { s with
        tracker := { s.tracker.rehome g with moving := movingOf s.tracker.speed g.vMin }
        engine :=
          { s.engine with
            moving :=
              if movingOf s.tracker.speed g.vMin = s.tracker.moving then s.engine.moving
              else movingOf s.tracker.speed g.vMin } } := by
  rw [applyStagedGeometry_eq, steadyPart_noticeApplied, steadyPart_updateMoving]
  rfl

theorem applyStagedGeometry_notified (hl : s.links = u.links) (hq : u.noProof → s.unproving) :
    u.notified (applyStagedGeometry g s) 0x63
      (trackBody s.tracker.state (s.tracker.fault.map (·.cause)) 1 s.time) := by
  have hsteady := steadyPart_updateMoving (s.mapTracker (·.rehome g))
  have hn := noticeApplied_notified (s := updateMoving (s.mapTracker (·.rehome g))) (u := u)
    (toldOutcomes_updateMoving (toldOutcomes_of_links hl)) fun hu =>
      let ⟨hun, hlinks⟩ := updateMoving_unproving (s := s.mapTracker (·.rehome g)) (hq hu)
      ⟨hlinks.trans hl, hun⟩
  have htracker := tracker_of_steadyPart (s := { s.mapTracker (·.rehome g) with tracker := _, engine := _ }) hsteady
  have htime := time_of_steadyPart (s := { s.mapTracker (·.rehome g) with tracker := _, engine := _ }) hsteady
  rw [htracker, htime] at hn
  exact hn

theorem noticeTrack_sched (ev : GeometryEvent) (s : State) : (noticeTrack ev s).sched = s.sched := rfl

theorem barred_applyStagedGeometry (hb : s.barred) : (applyStagedGeometry g s).barred :=
  barred_of_steadyPart (steadyPart_applyStagedGeometry (s := s) (g := g)) hb

/-- Where nothing can start a settling leaves the Cue Scheduler as it is. -/
theorem sched_settle_barred (hb : s.barred) : (settle s).sched = s.sched := by
  rw [(settle_barred hb).frame]

theorem history_check_barred (hb : s.barred) : (check s).sched.history = s.sched.history := by
  rw [check_stuck_eq (stuck_of_barred hb)]

theorem reportGeometry_history_barred (hb : s.barred) : (reportGeometry s).sched.history = [] := by
  let v := s.mapSched fun q => { q with history := [] }
  have hall : (voidAll travelDependent .geometry v).barred :=
    barred_of_steadyPart (voidAll_steadyPart v travelDependent .geometry) hb
  unfold reportGeometry
  rw [sched_settle_barred hall, voidAll_history]
  rfl

/-- A set that is applied at a home pulse empties the pacing history, where nothing can start or no context proves a
chute. -/
theorem applyStagedGeometry_history :
    (s.barred → (applyStagedGeometry g s).sched.history = [])
      ∧ ((∀ c, (s.ctx c).kind ≠ .chute) → (applyStagedGeometry g s).unpaced []) := by
  refine ⟨fun hb => ?_, fun hk => ?_⟩
  · rw [applyStagedGeometry_eq, noticeTrack_sched]
    exact reportGeometry_history_barred (updateMoving_barred (s := s.mapTracker (·.rehome g)) hb).1
  · have hstart : (s.mapTracker (·.rehome g)).unpaced s.sched.history := ⟨rfl, hk⟩
    obtain ⟨hhistory, hkinds⟩ := hstart.updateMoving.reportGeometry
    refine ⟨by rw [applyStagedGeometry_eq, noticeTrack_sched]; exact hhistory, fun c => ?_⟩
    rw [applyStagedGeometry_eq, noticeTrack, ctx_noticeAll]
    exact hkinds c

/-- The voids of a set that is applied at a home pulse where nothing can start (R104). -/
theorem applyStagedGeometry_contexts (hb : s.barred) {c : Nat} (hc : c < 16) (hr : (s.ctx c).state = .running) :
    (onLoop (s.ctx c) → (s.ctx c).limitVoids < 7 →
      voided .geometry s.haltReason s.time (s.ctx c) ((applyStagedGeometry g s).ctx c))
      ∧ (¬ onLoop (s.ctx c) → (applyStagedGeometry g s).ctx c = s.ctx c) := by
  obtain ⟨hbar, hreason, hctx⟩ := updateMoving_barred (s := s.mapTracker (·.rehome g)) hb
  have hsame : (updateMoving (s.mapTracker (·.rehome g))).ctx c = s.ctx c := hctx c hr
  have htime : (updateMoving (s.mapTracker (·.rehome g))).time = s.time := by
    have h := congrArg (fun v : State => v.time) (steadyPart_updateMoving (s.mapTracker (·.rehome g))); exact h
  have h := reportGeometry_contexts hbar hc (by rw [hsame]; exact hr)
  rw [hsame, hreason, htime] at h
  rw [applyStagedGeometry_eq, noticeTrack, ctx_noticeAll]
  exact h

/-! ### The entry to TRACKING (R17) -/

/-- The state with p at H, its entry to TRACKING not yet reported. -/
def State.atHome (s : State) : State :=
  s.mapTracker fun t => { t with pos := t.active.home.getD 0, pitchRun := 0, missing := 0 }

theorem homeIn_eq (s : State) : homeIn s = enterTrack .tracking s.atHome := rfl

theorem steadyPart_homeIn (s : State) :
    (homeIn s).steadyPart = State.steadyPart
      { s with
        tracker :=
          { s.tracker with pos := s.tracker.active.home.getD 0, pitchRun := 0, missing := 0, state := .tracking }
        engine := { s.engine with track := .tracking } } := by
  rw [homeIn_eq, steadyPart_enterTrack]
  rfl

theorem homeIn_notified (hl : s.links = u.links) (hq : u.noProof → s.unproving) :
    u.notified (homeIn s) 0x63 (trackBody .tracking (s.tracker.fault.map (·.cause)) 0 s.time) :=
  enterTrack_notified (s := s.atHome) .tracking hl hq

/-- The entry to TRACKING leaves the pacing history, where nothing can start or no context proves a chute. -/
theorem homeIn_history (h : s.barred ∨ ∀ c, (s.ctx c).kind ≠ .chute) : (homeIn s).sched.history = s.sched.history := by
  let v := s.atHome.mapTracker fun t => { t with state := .tracking }
  let w := v.mapEngine fun e => { e with track := v.tracker.state }
  have hreport : (homeIn s).sched = (reportTrack v).sched := noticeTrack_sched .none (reportTrack v)
  rw [hreport]
  rcases h with hb | hk
  · have hw : w.barred := hb
    have hvoided : (voidAll travelDependent .track w).barred :=
      barred_of_steadyPart (voidAll_steadyPart w travelDependent .track) hw
    unfold reportTrack
    dsimp only
    split
    · exact (history_check_barred hvoided).trans (voidAll_history w travelDependent .track)
    · exact history_check_barred hw
  · have hstart : v.unpaced s.sched.history := ⟨rfl, hk⟩
    exact hstart.reportTrack.1

/-! ### A home pulse by the state of the tracker (R16 to R18) -/

theorem takeHome_idle (h : s.tracker.state = .unset ∨ s.tracker.state = .faulted) : takeHome s = s.pulsed := by
  unfold takeHome
  dsimp only
  rcases h with h | h <;> rw [show (s.mapTracker fun t => { t with illegal := 0 }).tracker.state = _ from h] <;> rfl

theorem takeHome_unhomed (h : s.tracker.state = .unhomed) (hs : s.tracker.staged = none) : takeHome s = homeIn s.pulsed := by
  unfold takeHome
  dsimp only
  rw [show (s.mapTracker fun t => { t with illegal := 0 }).tracker.state = _ from h,
    show (s.mapTracker fun t => { t with illegal := 0 }).tracker.staged = _ from hs] <;> rfl

theorem takeHome_tracking (h : s.tracker.state = .tracking) (hs : s.tracker.staged = none) : takeHome s = homeCheck s.pulsed := by
  unfold takeHome
  dsimp only
  rw [show (s.mapTracker fun t => { t with illegal := 0 }).tracker.state = _ from h,
    show (s.mapTracker fun t => { t with illegal := 0 }).tracker.staged = _ from hs] <;> rfl

theorem takeHome_unhomed_staged (h : s.tracker.state = .unhomed) (hs : s.tracker.staged = some g) :
    takeHome s = homeIn (if s.geometryFits g then applyStagedGeometry g s.pulsed else discardStaged s.pulsed) := by
  unfold takeHome
  dsimp only
  rw [show (s.mapTracker fun t => { t with illegal := 0 }).tracker.state = _ from h,
    show (s.mapTracker fun t => { t with illegal := 0 }).tracker.staged = _ from hs] <;> rfl

theorem takeHome_tracking_staged (h : s.tracker.state = .tracking) (hs : s.tracker.staged = some g) :
    takeHome s = if s.geometryFits g then applyStagedGeometry g s.pulsed else homeCheck (discardStaged s.pulsed) := by
  unfold takeHome
  dsimp only
  rw [show (s.mapTracker fun t => { t with illegal := 0 }).tracker.state = _ from h,
    show (s.mapTracker fun t => { t with illegal := 0 }).tracker.staged = _ from hs] <;> rfl

end Homes

/-- Settles O31: the home pulse by the state of the tracker and the re-check of a staged set. -/
theorem homePulseHomesOrApplies : Obligations.HomePulseHomesOrApplies := by
  unfold Obligations.HomePulseHomesOrApplies
  refine ⟨fun s => ⟨fun hb => next_congr (if_pos hb), fun hb h => ?idle, fun hb h hs => ?homes⟩,
    fun s g hb hs => ?staged⟩
  case idle =>
    rw [exec_homePulse hb, takeHome_idle h]
    rfl
  case homes =>
    refine ⟨takeHome s, exec_homePulse hb, ?_, ?_⟩ <;> rw [takeHome_unhomed h hs]
    · exact homeIn_notified (s := s.pulsed) rfl unproving_of_noProof
    · rw [steadyPart_homeIn]
      rfl
  case staged =>
    intro moves cause applied moved emptied
    have hzero : min s.tracker.backlash g.revAllow = 0 := by rw [hb]; exact Nat.zero_min _
    have hsteady : (applyStagedGeometry g s.pulsed).steadyPart = State.steadyPart { s with tracker := applied, engine := moved } := by
      rw [steadyPart_applyStagedGeometry]
      simp only [applied, Tracker.rehome, State.pulsed, State.mapTracker, hzero]
      rfl
    have hnotified : s.notified (applyStagedGeometry g s.pulsed) 0x63 (trackBody s.tracker.state cause 1 s.time) :=
      applyStagedGeometry_notified (s := s.pulsed) rfl unproving_of_noProof
    obtain ⟨hbarred, hpaced⟩ := applyStagedGeometry_history (s := s.pulsed) (g := g)
    refine ⟨fun h hfits => ⟨takeHome s, exec_homePulse hb, ?_⟩, fun h hfits => ⟨applyStagedGeometry g s.pulsed, takeHome s,
      exec_homePulse hb, ?_⟩, fun h hfits => ?_⟩
    · rw [takeHome_tracking_staged h hs, if_pos hfits]
      refine ⟨fun he => ?_, by rw [← h]; exact hnotified, hsteady, fun hhalt c hc hr => ?_⟩
      · rcases he with hhalt | hk
        · exact hbarred hhalt.2
        · exact (hpaced hk).1
      · exact applyStagedGeometry_contexts (s := s.pulsed) hhalt.2 hc hr
    · rw [takeHome_unhomed_staged h hs, if_pos hfits]
      have htracker := tracker_of_steadyPart (s := { s with tracker := applied, engine := moved }) hsteady
      have htime := time_of_steadyPart (s := { s with tracker := applied, engine := moved }) hsteady
      refine ⟨fun he => ?_, by rw [← h]; exact hnotified, ?_, ?_⟩
      · rcases he with hhalt | hk
        · rw [homeIn_history (.inl (barred_applyStagedGeometry (s := s.pulsed) hhalt.2))]
          exact hbarred hhalt.2
        · rw [homeIn_history (.inr (hpaced hk).2)]
          exact (hpaced hk).1
      · have hn := homeIn_notified (s := applyStagedGeometry g s.pulsed) rfl unproving_of_noProof
        rw [htracker, htime] at hn
        exact hn
      · rw [steadyPart_homeIn]
        have hcongr := congrArg (fun v : State => ({ v with
          tracker := { v.tracker with
            pos := v.tracker.active.home.getD 0, pitchRun := 0, missing := 0, state := .tracking }
          engine := { v.engine with track := .tracking } } : State)) hsteady
        exact hcongr
    · intro left
      have hdiscard : discardStaged s.pulsed =
          pushNotice .line 0x63 (trackNotice left .discarded)
            (pushNotice .stb 0x63 (trackNotice left .discarded)
              (pushNotice .sta 0x63 (trackNotice left .discarded) left)) := rfl
      rw [← hdiscard]
      have hagain : (discardStaged s.pulsed).pulsed = discardStaged s.pulsed := rfl
      rw [exec_homePulse hb, exec_homePulse (s := discardStaged s.pulsed) hb]
      refine next_congr ?_
      rcases h with h | h
      · rw [takeHome_unhomed_staged h hs, if_neg (by rw [hfits]; exact nofun),
          takeHome_unhomed (s := discardStaged s.pulsed) h rfl, hagain]
      · rw [takeHome_tracking_staged h hs, if_neg (by rw [hfits]; exact nofun),
          takeHome_tracking (s := discardStaged s.pulsed) h rfl, hagain]

end Sys2Proof.Machine
